-- ==== Sys2Proof/Word.lean ====
section
/-!
DEFINITION. The word types of the machine (spec/00_scope.md R7, R8; spec/10_state.md R21).
-/

namespace Sys2Proof

/-- A 32-bit value: a register, an address, a data word or an instruction word (R6 `XLEN`, `ALEN`; R90). -/
abbrev Word := BitVec 32

/-- A byte of memory (R34). -/
abbrev Byte := BitVec 8

/-- The 4-bit field by which an instruction names a general register (R21). -/
abbrev RegNum := BitVec 4

/-- r15, the program counter (R21, R24). -/
abbrev pcNum : RegNum := 15#4

/-- r14, the link register (R21). -/
abbrev lrNum : RegNum := 14#4

end Sys2Proof
end

