-- ==== Sys2Proof/Syntax.lean ====
section
/-!
DEFINITION. The instructions as data (spec/30_encoding.md R93 to R109, spec/opcode_table.json).

A row of the opcode table is one operand or addressing form of a mnemonic. A constructor stands for all rows of one
mnemonic that have one meaning: the forms are values of the operand types below (`Operand2`, `WordOffset`,
`HalfOffset`, `Index`), and mnemonics whose forms have different meanings (BLX, LDM, STM, MSR) have a constructor for
each (log 21). Every bit of the word that the decoder does not fix is a field of the constructor, "should be" fields
included, so that no bit is dropped: whether those fields hold what they should is part of the meaning (R110).
-/

namespace Sys2Proof

/-- The fifteen conditions of R130 that are predicates. `1111` is none of them (R133). -/
inductive Cond where
  | eq | ne | cs | cc | mi | pl | vs | vc | hi | ls | ge | lt | gt | le | al
  deriving DecidableEq, Repr

/-- The shift field, bits 6:5 of operand 2 (R96, R97). -/
inductive ShiftKind where
  | lsl | lsr | asr | ror
  deriving DecidableEq, Repr

/-- Operand 2 of a data-processing instruction: its three forms are the table's three rows per mnemonic. -/
inductive Operand2 where
  /-- R95: an 8-bit immediate rotated right by twice the rotate field. -/
  | imm (rotate : BitVec 4) (imm8 : BitVec 8)
  /-- R96: a register shifted by an immediate amount. -/
  | shiftImm (rm : RegNum) (kind : ShiftKind) (amount : BitVec 5)
  /-- R97: a register shifted by a register amount. -/
  | shiftReg (rm : RegNum) (kind : ShiftKind) (rs : RegNum)
  deriving DecidableEq, Repr

/-- The P and W bits of a word or byte transfer that is not a T form (R100): `11`, `10` and `00`. -/
inductive Index where
  /-- P = 1, W = 0: the offset is applied and the base is kept. -/
  | offset
  /-- P = 1, W = 1: pre-indexed, the address is written back. -/
  | pre
  /-- P = 0, W = 0: post-indexed, the address is written back. -/
  | post
  deriving DecidableEq, Repr

/-- The offset of a word or byte transfer (R100, R221, R222). -/
inductive WordOffset where
  | imm (imm12 : BitVec 12)
  | scaled (rm : RegNum) (kind : ShiftKind) (amount : BitVec 5)
  deriving DecidableEq, Repr

/-- The offset of a half-word or signed-byte transfer (R101); `sbz` is bits 11:8 of the register form. -/
inductive HalfOffset where
  | imm (imm8 : BitVec 8)
  | reg (sbz : BitVec 4) (rm : RegNum)
  deriving DecidableEq, Repr

/-- The instructions. `c` is the condition field, `s` the S bit; fields whose names begin with `sbz` or `sbo` are
"should be zero" and "should be one" fields (R110); `up` and `u` are the U bit. -/
inductive Instr where
  /-- AND (R170), three rows. -/
  | and (c : Cond) (s : Bool) (rn rd : RegNum) (op : Operand2)
  /-- EOR (R171), three rows. -/
  | eor (c : Cond) (s : Bool) (rn rd : RegNum) (op : Operand2)
  /-- SUB (R172), three rows. -/
  | sub (c : Cond) (s : Bool) (rn rd : RegNum) (op : Operand2)
  /-- RSB (R173), three rows. -/
  | rsb (c : Cond) (s : Bool) (rn rd : RegNum) (op : Operand2)
  /-- ADD (R174), three rows. -/
  | add (c : Cond) (s : Bool) (rn rd : RegNum) (op : Operand2)
  /-- ADC (R175), three rows. -/
  | adc (c : Cond) (s : Bool) (rn rd : RegNum) (op : Operand2)
  /-- SBC (R176), three rows. -/
  | sbc (c : Cond) (s : Bool) (rn rd : RegNum) (op : Operand2)
  /-- RSC (R177), three rows. -/
  | rsc (c : Cond) (s : Bool) (rn rd : RegNum) (op : Operand2)
  /-- TST (R178), three rows; `sbz` is the Rd field (R168). -/
  | tst (c : Cond) (rn sbz : RegNum) (op : Operand2)
  /-- TEQ (R179), three rows. -/
  | teq (c : Cond) (rn sbz : RegNum) (op : Operand2)
  /-- CMP (R180), three rows. -/
  | cmp (c : Cond) (rn sbz : RegNum) (op : Operand2)
  /-- CMN (R181), three rows. -/
  | cmn (c : Cond) (rn sbz : RegNum) (op : Operand2)
  /-- ORR (R182), three rows. -/
  | orr (c : Cond) (s : Bool) (rn rd : RegNum) (op : Operand2)
  /-- MOV (R183), three rows; `sbz` is the Rn field (R168). -/
  | mov (c : Cond) (s : Bool) (sbz rd : RegNum) (op : Operand2)
  /-- BIC (R184), three rows. -/
  | bic (c : Cond) (s : Bool) (rn rd : RegNum) (op : Operand2)
  /-- MVN (R185), three rows; `sbz` is the Rn field (R168). -/
  | mvn (c : Cond) (s : Bool) (sbz rd : RegNum) (op : Operand2)
  /-- MRS (R270); `r` selects the SPSR; `sbo` is bits 19:16, `sbzHi` bits 11:8, `sbzLo` bits 3:0. -/
  | mrs (c : Cond) (r : Bool) (sbo : BitVec 4) (rd : RegNum) (sbzHi sbzLo : BitVec 4)
  /-- MSR, register operand (R271, R272); `sbo` is bits 15:12, `sbz` bits 11:8. -/
  | msrReg (c : Cond) (r : Bool) (mask sbo sbz : BitVec 4) (rm : RegNum)
  /-- MSR, immediate operand (R271, R272). -/
  | msrImm (c : Cond) (r : Bool) (mask sbo rotate : BitVec 4) (imm8 : BitVec 8)
  /-- BX (R142); `sbo` is bits 19:8. -/
  | bx (c : Cond) (sbo : BitVec 12) (rm : RegNum)
  /-- BLX with a register target (R143). -/
  | blxReg (c : Cond) (sbo : BitVec 12) (rm : RegNum)
  /-- CLZ (R209); `f1` is bits 19:16 and `f2` bits 11:8, tested by nobody (D6). -/
  | clz (c : Cond) (f1 : BitVec 4) (rd : RegNum) (f2 : BitVec 4) (rm : RegNum)
  /-- BKPT (R290), unconditional. -/
  | bkpt (imm : BitVec 16)
  /-- BKPT's bits with a condition other than AL (R291), the row BKPT_cond_not_AL. -/
  | bkptNotAl (c : Cond) (imm : BitVec 16)
  /-- UNUSED_CONTROL (R294), eleven rows; `bits` is bits 27:0. -/
  | unusedControl (c : Cond) (bits : BitVec 28)
  /-- MUL (R203); `sbz` is bits 15:12. -/
  | mul (c : Cond) (s : Bool) (rd : RegNum) (sbz : BitVec 4) (rs rm : RegNum)
  /-- MLA (R204). -/
  | mla (c : Cond) (s : Bool) (rd rn rs rm : RegNum)
  /-- UNUSED_ARITHMETIC (R293): bits 21:20, 19:8 and 3:0. -/
  | unusedArithmetic (c : Cond) (hi : BitVec 2) (mid : BitVec 12) (lo : BitVec 4)
  /-- UMULL (R205). -/
  | umull (c : Cond) (s : Bool) (rdHi rdLo rs rm : RegNum)
  /-- UMLAL (R206). -/
  | umlal (c : Cond) (s : Bool) (rdHi rdLo rs rm : RegNum)
  /-- SMULL (R207). -/
  | smull (c : Cond) (s : Bool) (rdHi rdLo rs rm : RegNum)
  /-- SMLAL (R208). -/
  | smlal (c : Cond) (s : Bool) (rdHi rdLo rs rm : RegNum)
  /-- SWP (R260); `sbz` is bits 11:8. -/
  | swp (c : Cond) (rn rd : RegNum) (sbz : BitVec 4) (rm : RegNum)
  /-- SWPB (R261). -/
  | swpb (c : Cond) (rn rd : RegNum) (sbz : BitVec 4) (rm : RegNum)
  /-- UNUSED_LOADSTORE (R295), five rows; `bits` is bits 27:0. -/
  | unusedLoadStore (c : Cond) (bits : BitVec 28)
  /-- STRH (R236), two rows. -/
  | strh (c : Cond) (p u w : Bool) (rn rd : RegNum) (off : HalfOffset)
  /-- LDRH (R235), two rows. -/
  | ldrh (c : Cond) (p u w : Bool) (rn rd : RegNum) (off : HalfOffset)
  /-- LDRSB (R237), two rows. -/
  | ldrsb (c : Cond) (p u w : Bool) (rn rd : RegNum) (off : HalfOffset)
  /-- LDRSH (R238), two rows. -/
  | ldrsh (c : Cond) (p u w : Bool) (rn rd : RegNum) (off : HalfOffset)
  /-- LDR (R225, R226), four rows. -/
  | ldr (c : Cond) (ix : Index) (up : Bool) (rn rd : RegNum) (off : WordOffset)
  /-- LDRT (R230), two rows. -/
  | ldrt (c : Cond) (up : Bool) (rn rd : RegNum) (off : WordOffset)
  /-- LDRB (R228), four rows. -/
  | ldrb (c : Cond) (ix : Index) (up : Bool) (rn rd : RegNum) (off : WordOffset)
  /-- LDRBT (R232), two rows. -/
  | ldrbt (c : Cond) (up : Bool) (rn rd : RegNum) (off : WordOffset)
  /-- STR (R227), four rows. -/
  | str (c : Cond) (ix : Index) (up : Bool) (rn rd : RegNum) (off : WordOffset)
  /-- STRT (R231), two rows. -/
  | strt (c : Cond) (up : Bool) (rn rd : RegNum) (off : WordOffset)
  /-- STRB (R229), four rows. -/
  | strb (c : Cond) (ix : Index) (up : Bool) (rn rd : RegNum) (off : WordOffset)
  /-- STRBT (R233), two rows. -/
  | strbt (c : Cond) (up : Bool) (rn rd : RegNum) (off : WordOffset)
  /-- UNDEFINED (R297): bits 24:5 and 3:0. -/
  | undefined (c : Cond) (hi : BitVec 20) (lo : BitVec 4)
  /-- LDM, S = 0 (R252). -/
  | ldm (c : Cond) (p u w : Bool) (rn : RegNum) (list : BitVec 16)
  /-- LDM, S = 1 without r15: User-bank load (R254); `list` is bits 14:0. -/
  | ldmUser (c : Cond) (p u w : Bool) (rn : RegNum) (list : BitVec 15)
  /-- LDM, S = 1 with r15: CPSR restore (R253); `list` is bits 14:0. -/
  | ldmRestore (c : Cond) (p u w : Bool) (rn : RegNum) (list : BitVec 15)
  /-- STM, S = 0 (R251). -/
  | stm (c : Cond) (p u w : Bool) (rn : RegNum) (list : BitVec 16)
  /-- STM, S = 1: User-bank store (R254). -/
  | stmUser (c : Cond) (p u w : Bool) (rn : RegNum) (list : BitVec 16)
  /-- B (R140). -/
  | b (c : Cond) (off : BitVec 24)
  /-- BL (R141). -/
  | bl (c : Cond) (off : BitVec 24)
  /-- BLX with an immediate target (R144), unconditional. -/
  | blxImm (h : Bool) (off : BitVec 24)
  /-- NV_RESERVED (R133), seven rows: condition field `1111`, not BLX; `bits` is bits 27:0. -/
  | nvReserved (bits : BitVec 28)
  /-- UNUSED_COPROCESSOR (R296): bits 22, 20 and 19:0. -/
  | unusedCoprocessor (c : Cond) (n l : Bool) (rest : BitVec 20)
  /-- LDC (R282), three rows. -/
  | ldc (c : Cond) (p u n w : Bool) (rn : RegNum) (crd cp : BitVec 4) (off8 : BitVec 8)
  /-- STC (R283), three rows. -/
  | stc (c : Cond) (p u n w : Bool) (rn : RegNum) (crd cp : BitVec 4) (off8 : BitVec 8)
  /-- CDP (R281). -/
  | cdp (c : Cond) (op1 crn crd cp : BitVec 4) (op2 : BitVec 3) (crm : BitVec 4)
  /-- MCR (R284). -/
  | mcr (c : Cond) (op1 : BitVec 3) (crn : BitVec 4) (rd : RegNum) (cp : BitVec 4) (op2 : BitVec 3) (crm : BitVec 4)
  /-- MRC (R285). -/
  | mrc (c : Cond) (op1 : BitVec 3) (crn : BitVec 4) (rd : RegNum) (cp : BitVec 4) (op2 : BitVec 3) (crm : BitVec 4)
  /-- SWI (R150). -/
  | swi (c : Cond) (imm : BitVec 24)
  deriving DecidableEq, Repr

/-- The condition field of an instruction; `none` for the words with no condition of R130's fifteen: BLX (immediate)
and the reserved condition-`1111` words (R133, R134). BKPT's fixed field is AL (R290). -/
def Instr.cond? : Instr → Option Cond
  | and c .. | eor c .. | sub c .. | rsb c .. | add c .. | adc c .. | sbc c .. | rsc c .. => some c
  | tst c .. | teq c .. | cmp c .. | cmn c .. | orr c .. | mov c .. | bic c .. | mvn c .. => some c
  | mrs c .. | msrReg c .. | msrImm c .. | bx c .. | blxReg c .. | clz c .. => some c
  | bkpt _ => some .al
  | bkptNotAl c _ => some c
  | unusedControl c _ | unusedArithmetic c .. | unusedLoadStore c _ | unusedCoprocessor c .. => some c
  | mul c .. | mla c .. | umull c .. | umlal c .. | smull c .. | smlal c .. => some c
  | swp c .. | swpb c .. | strh c .. | ldrh c .. | ldrsb c .. | ldrsh c .. => some c
  | ldr c .. | ldrt c .. | ldrb c .. | ldrbt c .. | str c .. | strt c .. | strb c .. | strbt c .. => some c
  | undefined c .. => some c
  | ldm c .. | ldmUser c .. | ldmRestore c .. | stm c .. | stmUser c .. => some c
  | b c _ | bl c _ | swi c _ => some c
  | blxImm .. | nvReserved _ => none
  | ldc c .. | stc c .. | cdp c .. | mcr c .. | mrc c .. => some c

end Sys2Proof
end

