-- ==== Sys2Proof/WellFormed.lean ====
section
/-!
DEFINITION. Which instruction terms have an encoding, and which of those hold what their "should be" fields should.

The types of `Instr` already rule most ill-formed terms out. What is left to check: the terms that carry the free bits
of an irregular region of the opcode map must lie in that region (spec/30_encoding.md R109, R294, R295, R133), LDC and
STC must not be the unused coprocessor space (R106, R109), and `bkptNotAl` must not have condition AL (R291).
-/

namespace Sys2Proof

/-- The rows and columns of R294's table that hold an instruction: MRS, MSR (register), BX, CLZ, BLX (register) and
BKPT. `op` is bits 22:21, `lo` is bits 7:4. -/
def controlAssigned (op : BitVec 2) (lo : BitVec 4) : Bool :=
  lo == 0b0000#4
    || (op == 0b01#2 && (lo == 0b0001#4 || lo == 0b0011#4 || lo == 0b0111#4))
    || (op == 0b11#2 && lo == 0b0001#4)

/-- The unused control instruction space, on bits 27:0 (R294). -/
def inUnusedControl (b : BitVec 28) : Bool :=
  (b.extractLsb' 25 3 == 0b000#3 && b.extractLsb' 23 2 == 0b10#2 && !b.getLsbD 20 && !(b.getLsbD 7 && b.getLsbD 4)
      && !controlAssigned (b.extractLsb' 21 2) (b.extractLsb' 4 4))
    || (b.extractLsb' 25 3 == 0b001#3 && b.extractLsb' 23 2 == 0b10#2 && !b.getLsbD 20 && !b.getLsbD 21)

/-- The unused load/store instruction space, on bits 27:0 (R295). -/
def inUnusedLoadStore (b : BitVec 28) : Bool :=
  b.extractLsb' 25 3 == 0b000#3 && b.getLsbD 7 && b.getLsbD 4 &&
    ((b.extractLsb' 5 2 == 0b00#2 && b.getLsbD 24 && (b.getLsbD 23 || b.extractLsb' 20 2 != 0b00#2))
      || (b.getLsbD 6 && !b.getLsbD 20))

/-- The condition-`1111` words that are not BLX (immediate), on bits 27:0 (R133). -/
def inNvReserved (b : BitVec 28) : Bool := b.extractLsb' 25 3 != 0b101#3

/-- P = 0, U = 0, W = 0 in the LDC and STC format is the unused coprocessor space (R106, R296). -/
def coprocTransfer (p u w : Bool) : Bool := p || u || w

/-- The term has an encoding. -/
def Instr.wellFormed : Instr → Bool
  | .bkptNotAl c _ => c != .al
  | .unusedControl _ bits => inUnusedControl bits
  | .unusedLoadStore _ bits => inUnusedLoadStore bits
  | .nvReserved bits => inNvReserved bits
  | .ldc _ p u _ w _ _ _ _ => coprocTransfer p u w
  | .stc _ p u _ w _ _ _ _ => coprocTransfer p u w
  | _ => true

/-- The "should be zero" bits of a half-word transfer's register offset (R101, R110). -/
def HalfOffset.fixedFields : HalfOffset → Bool
  | .imm _ => true
  | .reg sbz _ => sbz == 0#4

/-- Every "should be zero" field is all zeros and every "should be one" field all ones (R110). CLZ's fields are not
tested (D6). -/
def Instr.fixedFields : Instr → Bool
  | .tst _ _ sbz _ | .teq _ _ sbz _ | .cmp _ _ sbz _ | .cmn _ _ sbz _ => sbz == 0#4
  | .mov _ _ sbz _ _ | .mvn _ _ sbz _ _ => sbz == 0#4
  | .mul _ _ _ sbz _ _ => sbz == 0#4
  | .mrs _ _ sbo _ sbzHi sbzLo => sbo == 15#4 && sbzHi == 0#4 && sbzLo == 0#4
  | .msrReg _ _ _ sbo sbz _ => sbo == 15#4 && sbz == 0#4
  | .msrImm _ _ _ sbo _ _ => sbo == 15#4
  | .bx _ sbo _ | .blxReg _ sbo _ => sbo == 0xFFF#12
  | .swp _ _ _ sbz _ | .swpb _ _ _ sbz _ => sbz == 0#4
  | .strh _ _ _ _ _ _ off | .ldrh _ _ _ _ _ _ off => off.fixedFields
  | .ldrsb _ _ _ _ _ _ off | .ldrsh _ _ _ _ _ _ off => off.fixedFields
  | _ => true

end Sys2Proof
end

