-- ==== Sys2Proof/Decode.lean ====
section
/-!
DEFINITION. The decoder of spec/30_encoding.md R93 and, after it, the encoder written from the same formats (R94 to
R109). The decoder is total on words: every 32-bit word is one row of the opcode table (R112, R116). On bytes it
rejects only what is too short to be an instruction (R90), by name.
-/

namespace Sys2Proof

/-! ## Byte order (R60, R61) -/

/-- The word in four bytes at ascending addresses. -/
def joinWord (bigEndian : Bool) (b0 b1 b2 b3 : Byte) : Word :=
  if bigEndian then b0 ++ b1 ++ b2 ++ b3 else b3 ++ b2 ++ b1 ++ b0

/-- The half-word in two bytes at ascending addresses. -/
def joinHalf (bigEndian : Bool) (b0 b1 : Byte) : BitVec 16 :=
  if bigEndian then b0 ++ b1 else b1 ++ b0

/-- The byte at offset `k` of a word stored in memory. -/
def byteOfWord (bigEndian : Bool) (v : Word) (k : Nat) : Byte :=
  v.extractLsb' (if bigEndian then 8 * (3 - k) else 8 * k) 8

/-- The byte at offset `k` of a half-word stored in memory. -/
def byteOfHalf (bigEndian : Bool) (v : BitVec 16) (k : Nat) : Byte :=
  v.extractLsb' (if bigEndian then 8 * (1 - k) else 8 * k) 8

/-! ## Fields -/

/-- The condition of bits 31:28, `none` for `1111` (R130, R133). -/
def Cond.ofBits : BitVec 4 → Option Cond
  | 0b0000#4 => some .eq
  | 0b0001#4 => some .ne
  | 0b0010#4 => some .cs
  | 0b0011#4 => some .cc
  | 0b0100#4 => some .mi
  | 0b0101#4 => some .pl
  | 0b0110#4 => some .vs
  | 0b0111#4 => some .vc
  | 0b1000#4 => some .hi
  | 0b1001#4 => some .ls
  | 0b1010#4 => some .ge
  | 0b1011#4 => some .lt
  | 0b1100#4 => some .gt
  | 0b1101#4 => some .le
  | 0b1110#4 => some .al
  | _ => none

/-- R130's first column. -/
def Cond.bits : Cond → BitVec 4
  | .eq => 0b0000#4
  | .ne => 0b0001#4
  | .cs => 0b0010#4
  | .cc => 0b0011#4
  | .mi => 0b0100#4
  | .pl => 0b0101#4
  | .vs => 0b0110#4
  | .vc => 0b0111#4
  | .hi => 0b1000#4
  | .ls => 0b1001#4
  | .ge => 0b1010#4
  | .lt => 0b1011#4
  | .gt => 0b1100#4
  | .le => 0b1101#4
  | .al => 0b1110#4

/-- The shift field (R96). -/
def ShiftKind.ofBits (b : BitVec 2) : ShiftKind :=
  if b = 0b00#2 then .lsl else if b = 0b01#2 then .lsr else if b = 0b10#2 then .asr else .ror

/-- The shift field (R96). -/
def ShiftKind.bits : ShiftKind → BitVec 2
  | .lsl => 0b00#2
  | .lsr => 0b01#2
  | .asr => 0b10#2
  | .ror => 0b11#2

/-- The register forms of operand 2: bit 4 tells an immediate amount from a register amount (R96, R97). -/
def decodeRegOperand (w : Word) : Operand2 :=
  if w.getLsbD 4 then
    .shiftReg (w.extractLsb' 0 4) (ShiftKind.ofBits (w.extractLsb' 5 2)) (w.extractLsb' 8 4)
  else
    .shiftImm (w.extractLsb' 0 4) (ShiftKind.ofBits (w.extractLsb' 5 2)) (w.extractLsb' 7 5)

/-- The immediate form of operand 2 (R95). -/
def decodeImmOperand (w : Word) : Operand2 := .imm (w.extractLsb' 8 4) (w.extractLsb' 0 8)

/-- The offset of a word or byte transfer (R100): bit 25 selects the scaled register. -/
def decodeWordOffset (w : Word) : WordOffset :=
  if w.getLsbD 25 then
    .scaled (w.extractLsb' 0 4) (ShiftKind.ofBits (w.extractLsb' 5 2)) (w.extractLsb' 7 5)
  else
    .imm (w.extractLsb' 0 12)

/-- The offset of a half-word or signed-byte transfer (R101): bit 22 selects the split immediate. -/
def decodeHalfOffset (w : Word) : HalfOffset :=
  if w.getLsbD 22 then .imm (w.extractLsb' 8 4 ++ w.extractLsb' 0 4)
  else .reg (w.extractLsb' 8 4) (w.extractLsb' 0 4)

/-! ## The decoder (R93) -/

/-- The sixteen data-processing opcodes, bits 24:21 (R94). -/
def decodeDataProcessing (c : Cond) (w : Word) (op : Operand2) : Instr :=
  let opcode := w.extractLsb' 21 4
  let s := w.getLsbD 20
  let rn := w.extractLsb' 16 4
  let rd := w.extractLsb' 12 4
  if opcode = 0b0000#4 then .and c s rn rd op
  else if opcode = 0b0001#4 then .eor c s rn rd op
  else if opcode = 0b0010#4 then .sub c s rn rd op
  else if opcode = 0b0011#4 then .rsb c s rn rd op
  else if opcode = 0b0100#4 then .add c s rn rd op
  else if opcode = 0b0101#4 then .adc c s rn rd op
  else if opcode = 0b0110#4 then .sbc c s rn rd op
  else if opcode = 0b0111#4 then .rsc c s rn rd op
  else if opcode = 0b1000#4 then .tst c rn rd op
  else if opcode = 0b1001#4 then .teq c rn rd op
  else if opcode = 0b1010#4 then .cmp c rn rd op
  else if opcode = 0b1011#4 then .cmn c rn rd op
  else if opcode = 0b1100#4 then .orr c s rn rd op
  else if opcode = 0b1101#4 then .mov c s rn rd op
  else if opcode = 0b1110#4 then .bic c s rn rd op
  else .mvn c s rn rd op

/-- Bits 27:25 = `000` with bits 7 and 4 both 1 and bits 6:5 = `00`: multiplies and swaps (R93, R98, R103). -/
def decodeMultiply (c : Cond) (w : Word) : Instr :=
  let s := w.getLsbD 20
  let hi := w.extractLsb' 16 4
  let lo := w.extractLsb' 12 4
  let rs := w.extractLsb' 8 4
  let rm := w.extractLsb' 0 4
  if w.extractLsb' 23 2 = 0b00#2 then
    if w.getLsbD 22 then .unusedArithmetic c (w.extractLsb' 20 2) (w.extractLsb' 8 12) rm
    else if w.getLsbD 21 then .mla c s hi lo rs rm
    else .mul c s hi lo rs rm
  else if w.extractLsb' 23 2 = 0b01#2 then
    if w.getLsbD 22 then
      if w.getLsbD 21 then .smlal c s hi lo rs rm else .smull c s hi lo rs rm
    else
      if w.getLsbD 21 then .umlal c s hi lo rs rm else .umull c s hi lo rs rm
  else if w.extractLsb' 23 2 = 0b10#2 ∧ w.extractLsb' 20 2 = 0b00#2 then
    if w.getLsbD 22 then .swpb c hi lo rs rm else .swp c hi lo rs rm
  else .unusedLoadStore c (w.extractLsb' 0 28)

/-- Bits 27:25 = `000` with bits 7 and 4 both 1 (R93): the "multiply and extra load/store" space. -/
def decodeExtra (c : Cond) (w : Word) : Instr :=
  let p := w.getLsbD 24
  let u := w.getLsbD 23
  let wb := w.getLsbD 21
  let rn := w.extractLsb' 16 4
  let rd := w.extractLsb' 12 4
  let off := decodeHalfOffset w
  if w.getLsbD 6 then
    if w.getLsbD 20 then
      if w.getLsbD 5 then .ldrsh c p u wb rn rd off else .ldrsb c p u wb rn rd off
    else .unusedLoadStore c (w.extractLsb' 0 28)
  else if w.getLsbD 5 then
    if w.getLsbD 20 then .ldrh c p u wb rn rd off else .strh c p u wb rn rd off
  else decodeMultiply c w

/-- The control space: opcode `10xx` with S = 0, bits 7 and 4 not both 1 (R93, R99, R294). -/
def decodeControl (c : Cond) (w : Word) : Instr :=
  let op := w.extractLsb' 21 2
  let lo := w.extractLsb' 4 4
  let r := w.getLsbD 22
  let n19 := w.extractLsb' 16 4
  let n15 := w.extractLsb' 12 4
  let n11 := w.extractLsb' 8 4
  let n3 := w.extractLsb' 0 4
  if lo = 0b0000#4 then
    if w.getLsbD 21 then .msrReg c r n19 n15 n11 n3 else .mrs c r n19 n15 n11 n3
  else if lo = 0b0001#4 ∧ op = 0b01#2 then .bx c (w.extractLsb' 8 12) n3
  else if lo = 0b0001#4 ∧ op = 0b11#2 then .clz c n19 n15 n11 n3
  else if lo = 0b0011#4 ∧ op = 0b01#2 then .blxReg c (w.extractLsb' 8 12) n3
  else if lo = 0b0111#4 ∧ op = 0b01#2 then
    if c = .al then .bkpt (w.extractLsb' 8 12 ++ n3) else .bkptNotAl c (w.extractLsb' 8 12 ++ n3)
  else .unusedControl c (w.extractLsb' 0 28)

/-- Word and byte transfers (R100, R220). -/
def decodeWordTransfer (c : Cond) (w : Word) : Instr :=
  let u := w.getLsbD 23
  let rn := w.extractLsb' 16 4
  let rd := w.extractLsb' 12 4
  let off := decodeWordOffset w
  let load := w.getLsbD 20
  let byte := w.getLsbD 22
  if !w.getLsbD 24 && w.getLsbD 21 then
    if load then (if byte then .ldrbt c u rn rd off else .ldrt c u rn rd off)
    else (if byte then .strbt c u rn rd off else .strt c u rn rd off)
  else
    let ix := if w.getLsbD 24 then (if w.getLsbD 21 then Index.pre else Index.offset) else Index.post
    if load then (if byte then .ldrb c ix u rn rd off else .ldr c ix u rn rd off)
    else (if byte then .strb c ix u rn rd off else .str c ix u rn rd off)

/-- LDM and STM (R102). -/
def decodeMultiple (c : Cond) (w : Word) : Instr :=
  let p := w.getLsbD 24
  let u := w.getLsbD 23
  let wb := w.getLsbD 21
  let rn := w.extractLsb' 16 4
  if w.getLsbD 20 then
    if w.getLsbD 22 then
      if w.getLsbD 15 then .ldmRestore c p u wb rn (w.extractLsb' 0 15) else .ldmUser c p u wb rn (w.extractLsb' 0 15)
    else .ldm c p u wb rn (w.extractLsb' 0 16)
  else if w.getLsbD 22 then .stmUser c p u wb rn (w.extractLsb' 0 16)
  else .stm c p u wb rn (w.extractLsb' 0 16)

/-- LDC, STC and the unused coprocessor space (R106, R109). -/
def decodeCoprocTransfer (c : Cond) (w : Word) : Instr :=
  let p := w.getLsbD 24
  let u := w.getLsbD 23
  let n := w.getLsbD 22
  let wb := w.getLsbD 21
  if !p && !u && !wb then .unusedCoprocessor c n (w.getLsbD 20) (w.extractLsb' 0 20)
  else if w.getLsbD 20 then
    .ldc c p u n wb (w.extractLsb' 16 4) (w.extractLsb' 12 4) (w.extractLsb' 8 4) (w.extractLsb' 0 8)
  else
    .stc c p u n wb (w.extractLsb' 16 4) (w.extractLsb' 12 4) (w.extractLsb' 8 4) (w.extractLsb' 0 8)

/-- SWI, CDP, MCR and MRC (R106, R107). -/
def decodeSystem (c : Cond) (w : Word) : Instr :=
  let n19 := w.extractLsb' 16 4
  let n15 := w.extractLsb' 12 4
  let cp := w.extractLsb' 8 4
  let op2 := w.extractLsb' 5 3
  let n3 := w.extractLsb' 0 4
  if w.getLsbD 24 then .swi c (w.extractLsb' 0 24)
  else if w.getLsbD 4 then
    if w.getLsbD 20 then .mrc c (w.extractLsb' 21 3) n19 n15 cp op2 n3
    else .mcr c (w.extractLsb' 21 3) n19 n15 cp op2 n3
  else .cdp c (w.extractLsb' 20 4) n19 n15 cp op2 n3

/-- The words with a condition of R130, by bits 27:25 (R92, R93 step 2). -/
def decodeConditional (c : Cond) (w : Word) : Instr :=
  let group := w.extractLsb' 25 3
  let control : Bool := w.extractLsb' 23 2 == 0b10#2 && !w.getLsbD 20
  if group = 0b000#3 then
    if w.getLsbD 7 && w.getLsbD 4 then decodeExtra c w
    else if control then decodeControl c w
    else decodeDataProcessing c w (decodeRegOperand w)
  else if group = 0b001#3 then
    if control then
      if w.getLsbD 21 then
        .msrImm c (w.getLsbD 22) (w.extractLsb' 16 4) (w.extractLsb' 12 4) (w.extractLsb' 8 4) (w.extractLsb' 0 8)
      else .unusedControl c (w.extractLsb' 0 28)
    else decodeDataProcessing c w (decodeImmOperand w)
  else if group = 0b010#3 then decodeWordTransfer c w
  else if group = 0b011#3 then
    if w.getLsbD 4 then .undefined c (w.extractLsb' 5 20) (w.extractLsb' 0 4) else decodeWordTransfer c w
  else if group = 0b100#3 then decodeMultiple c w
  else if group = 0b101#3 then
    if w.getLsbD 24 then .bl c (w.extractLsb' 0 24) else .b c (w.extractLsb' 0 24)
  else if group = 0b110#3 then decodeCoprocTransfer c w
  else decodeSystem c w

/-- R93: the instruction a 32-bit word is. -/
def decodeWord (w : Word) : Instr :=
  match Cond.ofBits (w.extractLsb' 28 4) with
  | some c => decodeConditional c w
  | none =>
    if w.extractLsb' 25 3 = 0b101#3 then .blxImm (w.getLsbD 24) (w.extractLsb' 0 24)
    else .nvReserved (w.extractLsb' 0 28)

/-- Why a byte sequence is not an instruction. -/
inductive DecodeError where
  /-- Fewer than the four bytes of an instruction (R90). -/
  | truncated
  deriving DecidableEq, Repr

/-- The instruction at the head of a byte sequence in the given byte order, and the bytes after it (R61, R90). -/
def decodeBytes (bigEndian : Bool) : List Byte → Except DecodeError (Instr × List Byte)
  | b0 :: b1 :: b2 :: b3 :: rest => .ok (decodeWord (joinWord bigEndian b0 b1 b2 b3), rest)
  | _ => .error .truncated

/-- The four bytes of an instruction word at ascending addresses (R61). -/
def instrBytes (bigEndian : Bool) (w : Word) : List Byte :=
  [byteOfWord bigEndian w 0, byteOfWord bigEndian w 1, byteOfWord bigEndian w 2, byteOfWord bigEndian w 3]

/-- The decoder on an opcode-table word of `nbits` bits, higher bits zero, laid out little-endian (D3). -/
def decodeTableWord (nbits w : Nat) : Option Instr :=
  match decodeBytes false (instrBytes false (BitVec.ofNat 32 (w % 2 ^ nbits))) with
  | .ok (i, _) => some i
  | .error _ => none

/-! ## The encoder (R94 to R109) -/

/-- Bits 11:0 of operand 2, with bits 7 and 4 as R96 and R97 fix them. -/
def Operand2.bits : Operand2 → BitVec 12
  | .imm rotate imm8 => rotate ++ imm8
  | .shiftImm rm kind amount => amount ++ kind.bits ++ 0#1 ++ rm
  | .shiftReg rm kind rs => rs ++ 0#1 ++ kind.bits ++ 1#1 ++ rm

/-- Bit 25 of a data-processing instruction (R94). -/
def Operand2.isImm : Operand2 → Bool
  | .imm .. => true
  | _ => false

/-- Bits 11:0 of a word or byte transfer (R100). -/
def WordOffset.bits : WordOffset → BitVec 12
  | .imm imm12 => imm12
  | .scaled rm kind amount => amount ++ kind.bits ++ 0#1 ++ rm

/-- Bit 25 of a word or byte transfer: the opposite sense of `Operand2.isImm` (R100). -/
def WordOffset.isReg : WordOffset → Bool
  | .imm _ => false
  | .scaled .. => true

/-- Bits 11:8 of a half-word or signed-byte transfer (R101). -/
def HalfOffset.hiBits : HalfOffset → BitVec 4
  | .imm imm8 => imm8.extractLsb' 4 4
  | .reg sbz _ => sbz

/-- Bits 3:0 of a half-word or signed-byte transfer (R101). -/
def HalfOffset.loBits : HalfOffset → BitVec 4
  | .imm imm8 => imm8.extractLsb' 0 4
  | .reg _ rm => rm

/-- Bit 22 of a half-word or signed-byte transfer (R101). -/
def HalfOffset.isImm : HalfOffset → Bool
  | .imm _ => true
  | .reg .. => false

/-- Bit 24 of a word or byte transfer (R100). -/
def Index.p : Index → Bool
  | .post => false
  | _ => true

/-- Bit 21 of a word or byte transfer (R100). -/
def Index.w : Index → Bool
  | .pre => true
  | _ => false

/-- One bit of an encoding. -/
abbrev bit (b : Bool) : BitVec 1 := BitVec.ofBool b

/-- R94. -/
def encodeDataProcessing (c : Cond) (opcode : BitVec 4) (s : Bool) (rn rd : RegNum) (op : Operand2) : Word :=
  c.bits ++ 0b00#2 ++ bit op.isImm ++ opcode ++ bit s ++ rn ++ rd ++ op.bits

/-- R98. -/
def encodeMultiply (c : Cond) (code : BitVec 3) (s : Bool) (hi lo rs rm : RegNum) : Word :=
  c.bits ++ 0b0000#4 ++ code ++ bit s ++ hi ++ lo ++ rs ++ 0b1001#4 ++ rm

/-- R99: the control instructions, with bits 22:21 and 7:4. -/
def encodeControl (c : Cond) (op : BitVec 2) (n19 n15 n11 lo n3 : BitVec 4) : Word :=
  c.bits ++ 0b00010#5 ++ op ++ 0#1 ++ n19 ++ n15 ++ n11 ++ lo ++ n3

/-- R100. -/
def encodeWordTransfer (c : Cond) (p u b w l : Bool) (rn rd : RegNum) (off : WordOffset) : Word :=
  c.bits ++ 0b01#2 ++ bit off.isReg ++ bit p ++ bit u ++ bit b ++ bit w ++ bit l ++ rn ++ rd ++ off.bits

/-- R101, with the S and H bits. -/
def encodeHalfTransfer (c : Cond) (p u w l : Bool) (rn rd : RegNum) (sh : BitVec 2) (off : HalfOffset) : Word :=
  c.bits ++ 0b000#3 ++ bit p ++ bit u ++ bit off.isImm ++ bit w ++ bit l ++ rn ++ rd ++ off.hiBits ++ 1#1 ++ sh ++ 1#1 ++
    off.loBits

/-- R102. -/
def encodeMultiple (c : Cond) (p u s w l : Bool) (rn : RegNum) (list : BitVec 16) : Word :=
  c.bits ++ 0b100#3 ++ bit p ++ bit u ++ bit s ++ bit w ++ bit l ++ rn ++ list

/-- R106, LDC and STC. -/
def encodeCoprocTransfer (c : Cond) (p u n w l : Bool) (rn : RegNum) (crd cp : BitVec 4) (off8 : BitVec 8) : Word :=
  c.bits ++ 0b110#3 ++ bit p ++ bit u ++ bit n ++ bit w ++ bit l ++ rn ++ crd ++ cp ++ off8

/-- R106, MCR and MRC. -/
def encodeCoprocRegister (c : Cond) (op1 : BitVec 3) (l : Bool) (crn rd cp : BitVec 4) (op2 : BitVec 3)
    (crm : BitVec 4) : Word :=
  c.bits ++ 0b1110#4 ++ op1 ++ bit l ++ crn ++ rd ++ cp ++ op2 ++ 1#1 ++ crm

/-- The word of a well-formed instruction. -/
def encode : Instr → Word
  | .and c s rn rd op => encodeDataProcessing c 0b0000#4 s rn rd op
  | .eor c s rn rd op => encodeDataProcessing c 0b0001#4 s rn rd op
  | .sub c s rn rd op => encodeDataProcessing c 0b0010#4 s rn rd op
  | .rsb c s rn rd op => encodeDataProcessing c 0b0011#4 s rn rd op
  | .add c s rn rd op => encodeDataProcessing c 0b0100#4 s rn rd op
  | .adc c s rn rd op => encodeDataProcessing c 0b0101#4 s rn rd op
  | .sbc c s rn rd op => encodeDataProcessing c 0b0110#4 s rn rd op
  | .rsc c s rn rd op => encodeDataProcessing c 0b0111#4 s rn rd op
  | .tst c rn sbz op => encodeDataProcessing c 0b1000#4 true rn sbz op
  | .teq c rn sbz op => encodeDataProcessing c 0b1001#4 true rn sbz op
  | .cmp c rn sbz op => encodeDataProcessing c 0b1010#4 true rn sbz op
  | .cmn c rn sbz op => encodeDataProcessing c 0b1011#4 true rn sbz op
  | .orr c s rn rd op => encodeDataProcessing c 0b1100#4 s rn rd op
  | .mov c s sbz rd op => encodeDataProcessing c 0b1101#4 s sbz rd op
  | .bic c s rn rd op => encodeDataProcessing c 0b1110#4 s rn rd op
  | .mvn c s sbz rd op => encodeDataProcessing c 0b1111#4 s sbz rd op
  | .mrs c r sbo rd sbzHi sbzLo => encodeControl c (bit r ++ 0#1) sbo rd sbzHi 0b0000#4 sbzLo
  | .msrReg c r mask sbo sbz rm => encodeControl c (bit r ++ 1#1) mask sbo sbz 0b0000#4 rm
  | .msrImm c r mask sbo rotate imm8 => c.bits ++ 0b00110#5 ++ bit r ++ 0b10#2 ++ mask ++ sbo ++ rotate ++ imm8
  | .bx c sbo rm => c.bits ++ 0b00010010#8 ++ sbo ++ 0b0001#4 ++ rm
  | .blxReg c sbo rm => c.bits ++ 0b00010010#8 ++ sbo ++ 0b0011#4 ++ rm
  | .clz c f1 rd f2 rm => encodeControl c 0b11#2 f1 rd f2 0b0001#4 rm
  | .bkpt imm => 0b1110#4 ++ 0b00010010#8 ++ imm.extractLsb' 4 12 ++ 0b0111#4 ++ imm.extractLsb' 0 4
  | .bkptNotAl c imm => c.bits ++ 0b00010010#8 ++ imm.extractLsb' 4 12 ++ 0b0111#4 ++ imm.extractLsb' 0 4
  | .unusedControl c bits => c.bits ++ bits
  | .mul c s rd sbz rs rm => encodeMultiply c 0b000#3 s rd sbz rs rm
  | .mla c s rd rn rs rm => encodeMultiply c 0b001#3 s rd rn rs rm
  | .unusedArithmetic c hi mid lo => c.bits ++ 0b000001#6 ++ hi ++ mid ++ 0b1001#4 ++ lo
  | .umull c s rdHi rdLo rs rm => encodeMultiply c 0b100#3 s rdHi rdLo rs rm
  | .umlal c s rdHi rdLo rs rm => encodeMultiply c 0b101#3 s rdHi rdLo rs rm
  | .smull c s rdHi rdLo rs rm => encodeMultiply c 0b110#3 s rdHi rdLo rs rm
  | .smlal c s rdHi rdLo rs rm => encodeMultiply c 0b111#3 s rdHi rdLo rs rm
  | .swp c rn rd sbz rm => encodeControl c 0b00#2 rn rd sbz 0b1001#4 rm
  | .swpb c rn rd sbz rm => encodeControl c 0b10#2 rn rd sbz 0b1001#4 rm
  | .unusedLoadStore c bits => c.bits ++ bits
  | .strh c p u w rn rd off => encodeHalfTransfer c p u w false rn rd 0b01#2 off
  | .ldrh c p u w rn rd off => encodeHalfTransfer c p u w true rn rd 0b01#2 off
  | .ldrsb c p u w rn rd off => encodeHalfTransfer c p u w true rn rd 0b10#2 off
  | .ldrsh c p u w rn rd off => encodeHalfTransfer c p u w true rn rd 0b11#2 off
  | .ldr c ix up rn rd off => encodeWordTransfer c ix.p up false ix.w true rn rd off
  | .ldrt c up rn rd off => encodeWordTransfer c false up false true true rn rd off
  | .ldrb c ix up rn rd off => encodeWordTransfer c ix.p up true ix.w true rn rd off
  | .ldrbt c up rn rd off => encodeWordTransfer c false up true true true rn rd off
  | .str c ix up rn rd off => encodeWordTransfer c ix.p up false ix.w false rn rd off
  | .strt c up rn rd off => encodeWordTransfer c false up false true false rn rd off
  | .strb c ix up rn rd off => encodeWordTransfer c ix.p up true ix.w false rn rd off
  | .strbt c up rn rd off => encodeWordTransfer c false up true true false rn rd off
  | .undefined c hi lo => c.bits ++ 0b011#3 ++ hi ++ 1#1 ++ lo
  | .ldm c p u w rn list => encodeMultiple c p u false w true rn list
  | .ldmUser c p u w rn list => encodeMultiple c p u true w true rn (0#1 ++ list)
  | .ldmRestore c p u w rn list => encodeMultiple c p u true w true rn (1#1 ++ list)
  | .stm c p u w rn list => encodeMultiple c p u false w false rn list
  | .stmUser c p u w rn list => encodeMultiple c p u true w false rn list
  | .b c off => c.bits ++ 0b1010#4 ++ off
  | .bl c off => c.bits ++ 0b1011#4 ++ off
  | .blxImm h off => 0b1111101#7 ++ bit h ++ off
  | .nvReserved bits => 0b1111#4 ++ bits
  | .unusedCoprocessor c n l rest => c.bits ++ 0b11000#5 ++ bit n ++ 0#1 ++ bit l ++ rest
  | .ldc c p u n w rn crd cp off8 => encodeCoprocTransfer c p u n w true rn crd cp off8
  | .stc c p u n w rn crd cp off8 => encodeCoprocTransfer c p u n w false rn crd cp off8
  | .cdp c op1 crn crd cp op2 crm => c.bits ++ 0b1110#4 ++ op1 ++ crn ++ crd ++ cp ++ op2 ++ 0#1 ++ crm
  | .mcr c op1 crn rd cp op2 crm => encodeCoprocRegister c op1 false crn rd cp op2 crm
  | .mrc c op1 crn rd cp op2 crm => encodeCoprocRegister c op1 true crn rd cp op2 crm
  | .swi c imm => c.bits ++ 0b1111#4 ++ imm

end Sys2Proof
end

