-- ==== Sys2Proof/Config.lean ====
section
/-!
DEFINITION. What an implementation or a platform fixes (spec/00_scope.md R6, spec/92_eei_decisions.md), and the
free values.

R6 calls for parameters "the model must take as an argument". The host's `exec` and `step` take a state and nothing
else, so the arguments are the plain data `Platform`, carried by the state and changed by no step (log 5). The values
the spec leaves under no law (a `draw`, R14) are the two opaque functions at the end: nothing evaluates them.
-/

namespace Sys2Proof

/-- `UNALIGNED` (R6, D4): the treatment of a misaligned data address. -/
inductive Unaligned where
  /-- Version 5 without alignment checking: rotate or ignore the low bits. -/
  | rotate
  /-- A Data Abort, as with alignment checking on. -/
  | abort
  /-- The model makes no claim about a misaligned access. -/
  | refuse
  deriving DecidableEq, Repr

/-- `NV_POLICY` (R6, R133, D5): a condition-`1111` word that is not BLX (immediate). -/
inductive NvPolicy where
  | refuse
  /-- The literal reading of the source: such a word is a no-op. -/
  | never
  deriving DecidableEq, Repr

/-- `UNUSED_POLICY` (R6, R292, D24): the unused arithmetic, control and load/store spaces. -/
inductive UnusedPolicy where
  | refuse
  /-- The Undefined Instruction exception. -/
  | undefinedTrap
  deriving DecidableEq, Repr

/-- BKPT's bits under a condition other than AL that fails, where two rules of the spec differ (log 13). -/
inductive BkptPolicy where
  /-- Such a word is refused whether or not its condition would pass (R291). -/
  | refuse
  /-- A failed condition makes it a no-op as it makes any word one (R131, R15, 93 group 1). -/
  | conditional
  deriving DecidableEq, Repr

/-- `PC_STORE_OFFSET` (R6, D13): what STR and STM store for r15 is the instruction's address plus 8 or plus 12. -/
inductive PcStore where
  | plus8
  | plus12
  deriving DecidableEq, Repr

/-- A range of byte addresses, from `base` up to but not including `base + size`, at which the platform has no
memory. -/
structure Hole where
  base : Nat
  size : Nat
  deriving DecidableEq, Repr

/-- The parameters of R6 that the spec leaves OPEN or gives alternatives for, and the model's own `bkptPolicy`. -/
structure Platform where
  /-- `BIGEND` (D3). -/
  bigEndian : Bool
  /-- `UNALIGNED` (D4). -/
  unaligned : Unaligned
  /-- `NV_POLICY` (D5). -/
  nvPolicy : NvPolicy
  /-- `UNUSED_POLICY` (D24). -/
  unusedPolicy : UnusedPolicy
  /-- Which of R291 and R131 holds where they differ (the model's own, log 13). -/
  bkptPolicy : BkptPolicy
  /-- `HIVECS` (D8): exception vectors at `0xFFFF0000`. -/
  highVectors : Bool
  /-- `PC_STORE_OFFSET` (D13). -/
  pcStore : PcStore
  /-- `ALLOW_SMC` (D14): a fetch may read a byte the program itself has stored. -/
  allowSelfModify : Bool
  /-- The complement of `Mapped` (D7): the default, total `Mapped`, is the empty list. -/
  unmapped : List Hole
  deriving DecidableEq, Repr

/-- The platform of the state after reset. R6's "value taken" for BIGEND, UNALIGNED, HIVECS and Mapped; for NV_POLICY,
UNUSED_POLICY and ALLOW_SMC the spec's alternative that gives the step an effect (DESIGN CHOICE, unsafe, log 6); 8 for
PC_STORE_OFFSET, which R6 leaves OPEN (DESIGN CHOICE, unsafe, log 7); for BKPT's bits without AL the no-op of R131
(DESIGN CHOICE, unsafe, log 13). -/
def Platform.atReset : Platform where
  bigEndian := false
  unaligned := .rotate
  nvPolicy := .never
  unusedPolicy := .undefinedTrap
  bkptPolicy := .conditional
  highVectors := false
  pcStore := .plus8
  allowSelfModify := true
  unmapped := []

/-- The platform with every parameter at the value R6 takes (8 for PC_STORE_OFFSET, the value the spec's test vectors
show), and R291's refusal, which test vector V219 shows. -/
def Platform.specDefault : Platform :=
  { Platform.atReset with nvPolicy := .refuse, unusedPolicy := .refuse, bkptPolicy := .refuse, allowSelfModify := false }

/-- A `draw` of one bit (R14, R201, R256): the n-th free bit of a run, under no law. -/
opaque Config.freeBit : Nat → Bool

/-- A `draw` of one word (R14; the unspecified values of R37 and R350): the n-th free word of a run, under no law. -/
opaque Config.freeWord : Nat → Word

end Sys2Proof
end

