-- ==== Sys2Proof/Machine/State.lean ====
section
/-!
DEFINITION. The state of the machine (spec/10_state.md), why a step can stop, and the state after reset (R37).
-/

namespace Sys2Proof.Machine

/-- The seven processor modes (R31). The other 25 values of `CPSR.M` are never held: a write of one is refused
(D15), so the state's CPSR holds a mode and not five bits. -/
inductive Mode where
  | usr | fiq | irq | svc | abt | und | sys
  deriving DecidableEq, Repr

/-- The CPSR (R27), field by field from bit 31 down. -/
structure Psr where
  /-- Bit 31. -/
  n : Bool
  /-- Bit 30. -/
  z : Bool
  /-- Bit 29. -/
  c : Bool
  /-- Bit 28. -/
  v : Bool
  /-- Bits 27:8 (R33). -/
  reserved : BitVec 20
  /-- Bit 7: IRQ disabled. -/
  i : Bool
  /-- Bit 6: FIQ disabled. -/
  f : Bool
  /-- Bit 5: Thumb state. -/
  t : Bool
  /-- Bits 4:0. -/
  mode : Mode
  deriving DecidableEq, Repr

/-- The thirty physical general registers other than the pc (R22). -/
inductive PReg where
  | r0 | r1 | r2 | r3 | r4 | r5 | r6 | r7
  | r8 | r9 | r10 | r11 | r12
  | r8_fiq | r9_fiq | r10_fiq | r11_fiq | r12_fiq
  | r13_usr | r13_fiq | r13_irq | r13_svc | r13_abt | r13_und
  | r14_usr | r14_fiq | r14_irq | r14_svc | r14_abt | r14_und
  deriving DecidableEq, Repr

/-- The five saved program status registers (R32). -/
inductive SpsrName where
  | fiq | irq | svc | abt | und
  deriving DecidableEq, Repr

/-- What the environment drives on the three input lines at one instruction boundary (R36, R320). -/
structure Lines where
  reset : Bool
  irq : Bool
  fiq : Bool
  deriving DecidableEq, Repr

/-- The state of the machine (R20, R36) and what its step takes besides: the inputs and the parameters. -/
structure State where
  /-- The general registers, by `PReg.index` (R21, R22). -/
  regs : Vector Word 30
  /-- r15: between instructions, the address of the next instruction (R24). -/
  pc : Word
  /-- The current program status register (R27). -/
  cpsr : Psr
  /-- The saved program status registers, by `SpsrName.index`; each holds any 32-bit value (R32). -/
  spsrs : Vector Word 5
  /-- Memory: the bytes that hold a value, addresses strictly rising (R34). -/
  mem : List Host.Cell
  /-- The byte addresses the program has stored to since reset, strictly rising (R36, R75). -/
  stored : List Nat
  /-- The mark `after_user_bank_transfer` (R36, R361). -/
  afterUserBank : Bool
  /-- The lines' values at the boundaries to come, the next first; past the end nothing is asserted (R36, log 9). -/
  lines : List Lines
  /-- How many free values have been drawn (R14; the model's own, log 8). -/
  draws : Nat
  /-- The parameters of R6 (log 5). -/
  platform : Platform
  deriving DecidableEq, Repr

/-- The machine stops because the model gives it no value to go on with. -/
inductive Fault where
  /-- A fetch or a load reads the byte at `addr`, which is memory but holds no value: nothing has written it
  (R354, 93 entry 3.5, log 3). Raised by the loads, the swaps and the fetch. Safe. -/
  | noValue (addr : Nat)
  deriving DecidableEq, Repr

/-- A step to which the spec gives no successor (R14, D15): what the architecture calls UNPREDICTABLE, the Thumb
state (D2), and the `refuse` value of a parameter. All are safe: no claim follows from a step that is refused. -/
inductive Refusal where
  /-- An instruction with no meaning in the model. No arm of `exec` answers it. Safe. -/
  | notModelled (mnemonic : String)
  /-- A step in Thumb state (R30, D2); raised by the fetch. Safe. -/
  | thumbState
  /-- A fetch from an address that is not word aligned (R25); raised by the fetch. Safe. -/
  | unalignedFetch
  /-- A fetch of a byte the program has stored, under ALLOW_SMC = false (R75); raised by the fetch. Safe. -/
  | selfModified
  /-- Sequential execution past `0xFFFFFFFC` (R26); raised by every instruction that only advances. Safe. -/
  | pcWrap
  /-- A branch target outside the address space (R26, R140); raised by B, BL and BLX (immediate). Safe. -/
  | branchWrap
  /-- A "should be" field holds another value (R110). Safe. -/
  | fixedField
  /-- A banked register accessed right after a User-bank transfer (R361). Safe. -/
  | bankedHazard
  /-- r15 where the instruction's rule forbids it (R163, R202, R209, R222, R224, R234, R255, R260, R270, R272,
  R143). Safe. -/
  | r15Operand
  /-- One register in two roles where the instruction's rule forbids it (R202, R224, R234, R260). Safe. -/
  | registerOverlap
  /-- A value written to r15 whose low bits no instruction address has (R142, R143, R167, R226, R252, R253). Safe. -/
  | unalignedTarget
  /-- LDR to r15 from an address that is not word aligned (R226). Safe. -/
  | unalignedPcLoad
  /-- A half-word access at an odd address (R64), or any misaligned access under UNALIGNED = refuse (D4). Safe. -/
  | unalignedAccess
  /-- A half-word or signed-byte transfer with P = 0 and W = 1 (R101, R234). Safe. -/
  | postIndexedW
  /-- LDM or STM with no register in the list (R255). Safe. -/
  | emptyList
  /-- LDM or STM with write-back and the base in the list, where R251, R252 and R255 forbid it. Safe. -/
  | baseInList
  /-- LDM or STM whose addresses cross the top of memory (R77, R255). Safe. -/
  | addressWrap
  /-- A User-bank LDM or STM in User or System mode, or with W = 1 (R254, R255). Safe. -/
  | userBankForm
  /-- The SPSR in User or System mode (R32); raised by MRS, MSR and the exception returns. Safe. -/
  | noSpsr
  /-- A CPSR whose mode bits are no mode (R31); raised by MSR and the exception returns. Safe. -/
  | illegalMode
  /-- MSR with an operand that has any of bits 27:8, or in a privileged mode and to the CPSR the T bit, set
  (R272). Safe. -/
  | msrOperand
  /-- BKPT with a condition other than AL that passes, or that fails under `BkptPolicy.refuse` (R291, log 13). Safe. -/
  | bkptCondition
  /-- A reserved condition-`1111` word under NV_POLICY = refuse (R133). Safe. -/
  | nvReserved
  /-- A word of an unused space under UNUSED_POLICY = refuse (R292). Safe. -/
  | unusedSpace
  deriving DecidableEq, Repr

/-- The outcome of a step or an instruction. -/
abbrev Out := Host.Outcome State Fault Refusal

/-- The CPSR after reset (R37): Supervisor, I = F = 1, T = 0, bits 27:8 zero (D21); the flags, which R37 leaves
unspecified, 0 (DESIGN CHOICE, unsafe, log 2). -/
def Psr.reset : Psr where
  n := false
  z := false
  c := false
  v := false
  reserved := 0
  i := true
  f := true
  t := false
  mode := .svc

/-- The machine right after reset (R37, R351). The general registers and the SPSRs, which R37 leaves unspecified, hold
0 (DESIGN CHOICE, unsafe, log 1 and log 2); no byte of memory holds a value (log 3); no line is asserted (log 9). -/
def State.reset : State where
  regs := Vector.replicate 30 0
  pc := 0
  cpsr := Psr.reset
  spsrs := Vector.replicate 5 0
  mem := []
  stored := []
  afterUserBank := false
  lines := []
  draws := 0
  platform := Platform.atReset

end Sys2Proof.Machine
end

