-- ==== Sys2Proof/Machine/Flags.lean ====
section
/-!
DEFINITION. The condition predicates (spec/40_conditional_execution.md R130) and the flag computations
(spec/00_scope.md R12, spec/43_data_processing.md R165, R166, spec/44_multiply_clz.md R201).
-/

namespace Sys2Proof.Machine

/-- R130's last column. -/
def condHolds (c : Cond) (p : Psr) : Bool :=
  match c with
  | .eq => p.z
  | .ne => !p.z
  | .cs => p.c
  | .cc => !p.c
  | .mi => p.n
  | .pl => !p.n
  | .vs => p.v
  | .vc => !p.v
  | .hi => p.c && !p.z
  | .ls => !p.c || p.z
  | .ge => p.n == p.v
  | .lt => p.n != p.v
  | .gt => !p.z && p.n == p.v
  | .le => p.z || p.n != p.v
  | .al => true

/-- What a data-processing instruction computes (R160): the result, the value for C, and for an arithmetic instruction
the value for V; a logical instruction has no overflow (R165). -/
structure AluResult where
  value : Word
  carry : Bool
  overflow : Option Bool
  deriving DecidableEq, Repr

/-- `AddWithCarry` (R12): the exact unsigned and signed sums, narrowed. -/
def addWithCarry (a b : Word) (cin : Bool) : AluResult :=
  let usum : Nat := a.toNat + b.toNat + cin.toNat
  let ssum : Int := a.toInt + b.toInt + cin.toNat
  { value := BitVec.ofNat 32 usum
    carry := decide (2 ^ 32 ≤ usum)
    overflow := some (decide (ssum < -2 ^ 31 ∨ 2 ^ 31 ≤ ssum)) }

/-- A logical instruction's result: C is the shifter's carry-out, V is left alone (R165). -/
def logical (value : Word) (shifterCarry : Bool) : AluResult :=
  { value := value, carry := shifterCarry, overflow := none }

/-- N and Z from a 32-bit result (R166, R201). -/
def setNZ (v : Word) (p : Psr) : Psr := { p with n := v.msb, z := v == 0#32 }

/-- N and Z from a 64-bit result (R201). -/
def setNZLong (v : BitVec 64) (p : Psr) : Psr := { p with n := v.msb, z := v == 0#64 }

/-- The flags of a data-processing instruction with S = 1 (R166). -/
def setFlags (r : AluResult) (p : Psr) : Psr :=
  { setNZ r.value p with c := r.carry, v := r.overflow.getD p.v }

end Sys2Proof.Machine
end

