-- ==== Sys2Proof/Machine/Ops.lean ====
section
/-!
DEFINITION. The named operations over the state: status words, banked registers, memory, free values, taking an
exception and returning from one, control transfers, and the frame every instruction runs in.
-/

namespace Sys2Proof.Machine

/-! ## Status words (spec/10_state.md R27, R31, R32) -/

/-- R31's first column. -/
def Mode.bits : Mode → BitVec 5
  | .usr => 0b10000#5
  | .fiq => 0b10001#5
  | .irq => 0b10010#5
  | .svc => 0b10011#5
  | .abt => 0b10111#5
  | .und => 0b11011#5
  | .sys => 0b11111#5

/-- The mode of five bits, `none` for the 25 values that are no mode (R31). -/
def Mode.ofBits : BitVec 5 → Option Mode
  | 0b10000#5 => some .usr
  | 0b10001#5 => some .fiq
  | 0b10010#5 => some .irq
  | 0b10011#5 => some .svc
  | 0b10111#5 => some .abt
  | 0b11011#5 => some .und
  | 0b11111#5 => some .sys
  | _ => none

/-- `InAPrivilegedMode` (R17). -/
def Mode.privileged (m : Mode) : Bool := m != .usr

/-- The SPSR of a mode, `none` in User and System (R17, R31, R32). -/
def Mode.spsr? : Mode → Option SpsrName
  | .usr | .sys => none
  | .fiq => some .fiq
  | .irq => some .irq
  | .svc => some .svc
  | .abt => some .abt
  | .und => some .und

/-- The CPSR as a 32-bit word (R27). -/
def Psr.toWord (p : Psr) : Word :=
  BitVec.ofBool p.n ++ BitVec.ofBool p.z ++ BitVec.ofBool p.c ++ BitVec.ofBool p.v ++ p.reserved ++
    BitVec.ofBool p.i ++ BitVec.ofBool p.f ++ BitVec.ofBool p.t ++ p.mode.bits

/-- The CPSR a word stands for, `none` where its mode bits are no mode (R31). -/
def Psr.ofWord? (w : Word) : Option Psr :=
  match Mode.ofBits (w.extractLsb' 0 5) with
  | none => none
  | some m => some
    { n := w.getLsbD 31
      z := w.getLsbD 30
      c := w.getLsbD 29
      v := w.getLsbD 28
      reserved := w.extractLsb' 8 20
      i := w.getLsbD 7
      f := w.getLsbD 6
      t := w.getLsbD 5
      mode := m }

/-! ## Registers (R21, R22, R32) -/

/-- The place of a physical register in `State.regs`. -/
def PReg.index : PReg → Fin 30
  | .r0 => 0
  | .r1 => 1
  | .r2 => 2
  | .r3 => 3
  | .r4 => 4
  | .r5 => 5
  | .r6 => 6
  | .r7 => 7
  | .r8 => 8
  | .r9 => 9
  | .r10 => 10
  | .r11 => 11
  | .r12 => 12
  | .r8_fiq => 13
  | .r9_fiq => 14
  | .r10_fiq => 15
  | .r11_fiq => 16
  | .r12_fiq => 17
  | .r13_usr => 18
  | .r13_fiq => 19
  | .r13_irq => 20
  | .r13_svc => 21
  | .r13_abt => 22
  | .r13_und => 23
  | .r14_usr => 24
  | .r14_fiq => 25
  | .r14_irq => 26
  | .r14_svc => 27
  | .r14_abt => 28
  | .r14_und => 29

/-- The place of an SPSR in `State.spsrs`. -/
def SpsrName.index : SpsrName → Fin 5
  | .fiq => 0
  | .irq => 1
  | .svc => 2
  | .abt => 3
  | .und => 4

/-- The physical register's value. -/
def State.reg (s : State) (p : PReg) : Word := s.regs.get p.index

/-- The physical register written. -/
def State.setReg (s : State) (p : PReg) (v : Word) : State := { s with regs := s.regs.set p.index v p.index.isLt }

/-- The SPSR's value. -/
def State.spsr (s : State) (q : SpsrName) : Word := s.spsrs.get q.index

/-- The SPSR written. -/
def State.setSpsr (s : State) (q : SpsrName) (v : Word) : State :=
  { s with spsrs := s.spsrs.set q.index v q.index.isLt }

/-- r13 of a mode (R22). -/
def Mode.sp : Mode → PReg
  | .usr | .sys => .r13_usr
  | .fiq => .r13_fiq
  | .irq => .r13_irq
  | .svc => .r13_svc
  | .abt => .r13_abt
  | .und => .r13_und

/-- r14 of a mode (R22). -/
def Mode.lr : Mode → PReg
  | .usr | .sys => .r14_usr
  | .fiq => .r14_fiq
  | .irq => .r14_irq
  | .svc => .r14_svc
  | .abt => .r14_abt
  | .und => .r14_und

/-- The physical register that a register number names in a mode (R22); `none` for r15, the pc. -/
def bankReg (m : Mode) (r : RegNum) : Option PReg :=
  match r.toNat with
  | 0 => some .r0
  | 1 => some .r1
  | 2 => some .r2
  | 3 => some .r3
  | 4 => some .r4
  | 5 => some .r5
  | 6 => some .r6
  | 7 => some .r7
  | 8 => some (if m = .fiq then .r8_fiq else .r8)
  | 9 => some (if m = .fiq then .r9_fiq else .r9)
  | 10 => some (if m = .fiq then .r10_fiq else .r10)
  | 11 => some (if m = .fiq then .r11_fiq else .r11)
  | 12 => some (if m = .fiq then .r12_fiq else .r12)
  | 13 => some m.sp
  | 14 => some m.lr
  | _ => none

/-- `x[r]` as the bank of mode `m` resolves it; r15 reads as the instruction's address plus 8 (R9, R24). -/
def readBank (m : Mode) (s : State) (r : RegNum) : Word :=
  match bankReg m r with
  | some p => s.reg p
  | none => s.pc + 8

/-- `x[r] <- v` as the bank of mode `m` resolves it; writing r15 is writing the pc (R9). -/
def writeBank (m : Mode) (s : State) (r : RegNum) (v : Word) : State :=
  match bankReg m r with
  | some p => s.setReg p v
  | none => { s with pc := v }

/-- `x[r]` in the current mode (R9, R22). -/
def readX (s : State) (r : RegNum) : Word := readBank s.cpsr.mode s r

/-- `x[r] <- v` in the current mode (R9, R22). -/
def writeX (s : State) (r : RegNum) (v : Word) : State := writeBank s.cpsr.mode s r v

/-- What STR and STM store for r15: the instruction's address plus 8 or plus 12 (R24, D13). -/
def pcStored (s : State) : Word :=
  match s.platform.pcStore with
  | .plus8 => s.pc + 8
  | .plus12 => s.pc + 12

/-- The value a store takes from register `r`, as the bank of mode `m` resolves it (R227, R251, R254). -/
def storeSource (m : Mode) (s : State) (r : RegNum) : Word :=
  match bankReg m r with
  | some p => s.reg p
  | none => pcStored s

/-! ## Memory (spec/10_state.md R34, spec/20_memory.md R60, R69, R70) -/

/-- Addresses that strictly rise from `lo` on and lie in the 32-bit address space. -/
def risingFrom (lo : Nat) : List Nat → Bool
  | [] => true
  | a :: t => decide (lo ≤ a) && decide (a < 2 ^ 32) && risingFrom (a + 1) t

/-- The canonical form of memory. An unlisted address reads as no value, so no entry can equal what it reads as. -/
def Memory.wf (m : List Host.Cell) : Bool := risingFrom 0 (m.map Prod.fst)

/-- The byte at an address; `none` where the byte holds no value (R354, log 3). -/
def Memory.read : List Host.Cell → Nat → Option Byte
  | [], _ => none
  | (b, v) :: t, a => if a = b then some v else Memory.read t a

/-- The byte at an address written. -/
def Memory.write : List Host.Cell → Nat → Byte → List Host.Cell
  | [], a, v => [(a, v)]
  | (b, w) :: t, a, v =>
    if a < b then (a, v) :: (b, w) :: t
    else if a = b then (a, v) :: t
    else (b, w) :: Memory.write t a v

/-- An address added to a rising list of addresses. -/
def insertAddr : List Nat → Nat → List Nat
  | [], a => [a]
  | b :: t, a => if a < b then a :: b :: t else if a = b then b :: t else b :: insertAddr t a

/-- `Mapped(addr)` (R6, R70, D7). -/
def mapped (p : Platform) (a : Nat) : Bool :=
  p.unmapped.all fun h => !(decide (h.base ≤ a) && decide (a < h.base + h.size))

/-- Every one of the `n` bytes from `a` on is mapped (R70). -/
def mappedRange (p : Platform) (a n : Nat) : Bool := (List.range n).all fun k => mapped p (a + k)

/-- What a memory read gives: a value, an abort (R70), or no value at an address (log 3). -/
inductive Access (α : Type) where
  | ok (v : α)
  | abort
  | noValue (addr : Nat)
  deriving DecidableEq, Repr

/-- Go on with the value of a read. -/
def Access.bind {α β : Type} (x : Access α) (f : α → Access β) : Access β :=
  match x with
  | .ok v => f v
  | .abort => .abort
  | .noValue a => .noValue a

/-- The byte at a mapped address. -/
def byteAt (s : State) (a : Nat) : Access Byte :=
  match Memory.read s.mem a with
  | some v => .ok v
  | none => .noValue a

/-- A read of `n` bytes aborts if any of them is not mapped (R70). -/
def ifMapped {α : Type} (s : State) (a n : Nat) (x : Access α) : Access α :=
  if mappedRange s.platform a n then x else .abort

/-- `MemRead(addr, 1)` (R10). -/
def readByte (s : State) (a : Word) : Access Byte := ifMapped s a.toNat 1 (byteAt s a.toNat)

/-- `MemRead(addr, 2)` at an even address (R10, R60). -/
def readHalf (s : State) (a : Word) : Access (BitVec 16) :=
  ifMapped s a.toNat 2 <|
    (byteAt s a.toNat).bind fun b0 =>
    (byteAt s (a.toNat + 1)).bind fun b1 =>
    .ok (joinHalf s.platform.bigEndian b0 b1)

/-- `MemRead(addr, 4)` at a word-aligned address (R10, R60). -/
def readWord (s : State) (a : Word) : Access Word :=
  ifMapped s a.toNat 4 <|
    (byteAt s a.toNat).bind fun b0 =>
    (byteAt s (a.toNat + 1)).bind fun b1 =>
    (byteAt s (a.toNat + 2)).bind fun b2 =>
    (byteAt s (a.toNat + 3)).bind fun b3 =>
    .ok (joinWord s.platform.bigEndian b0 b1 b2 b3)

/-- One byte stored, and its address noted (R36, R75). -/
def storeByteAt (s : State) (a : Nat) (v : Byte) : State :=
  { s with mem := Memory.write s.mem a v, stored := insertAddr s.stored a }

/-- `MemWrite(addr, 1, v)` (R10); `none` where it aborts (R70). -/
def writeByte (s : State) (a : Word) (v : Byte) : Option State :=
  if mappedRange s.platform a.toNat 1 then some (storeByteAt s a.toNat v) else none

/-- `MemWrite(addr, 2, v)` at an even address (R10, R60). -/
def writeHalf (s : State) (a : Word) (v : BitVec 16) : Option State :=
  if mappedRange s.platform a.toNat 2 then
    let b := byteOfHalf s.platform.bigEndian v
    some (storeByteAt (storeByteAt s a.toNat (b 0)) (a.toNat + 1) (b 1))
  else none

/-- `MemWrite(addr, 4, v)` at a word-aligned address (R10, R60). -/
def writeWord (s : State) (a : Word) (v : Word) : Option State :=
  if mappedRange s.platform a.toNat 4 then
    let b := byteOfWord s.platform.bigEndian v
    some (storeByteAt (storeByteAt (storeByteAt (storeByteAt s a.toNat (b 0)) (a.toNat + 1) (b 1)) (a.toNat + 2) (b 2))
      (a.toNat + 3) (b 3))
  else none

/-- The address with bits 1:0 cleared, `ea AND 0xFFFFFFFC` (R62, R63, R65). -/
def wordAligned (a : Word) : Word := a &&& 0xFFFFFFFC#32

/-- A word load under `UNALIGNED = rotate`: the aligned word rotated right by 8 times the low address bits (R62). -/
def readRotated (s : State) (ea : Word) : Access Word :=
  (readWord s (wordAligned ea)).bind fun w => .ok (w.rotateRight (8 * (ea.extractLsb' 0 2).toNat))

/-! ## Free values (R14, log 8) -/

/-- A free bit, and the state that has drawn it. -/
def drawBit (s : State) : Bool × State := (Config.freeBit s.draws, { s with draws := s.draws + 1 })

/-! ## Exceptions (spec/60_exceptions.md R300 to R317) -/

/-- The seven exceptions (R13, R300). -/
inductive Exc where
  | reset | undefined | swi | prefetchAbort | dataAbort | irq | fiq
  deriving DecidableEq, Repr

/-- The mode entered (R300). -/
def Exc.mode : Exc → Mode
  | .reset | .swi => .svc
  | .undefined => .und
  | .prefetchAbort | .dataAbort => .abt
  | .irq => .irq
  | .fiq => .fiq

/-- The SPSR of the mode entered (R300, R310). -/
def Exc.spsr : Exc → SpsrName
  | .reset | .swi => .svc
  | .undefined => .und
  | .prefetchAbort | .dataAbort => .abt
  | .irq => .irq
  | .fiq => .fiq

/-- The vector's offset (R300, R305). -/
def Exc.vector : Exc → Word
  | .reset => 0x00#32
  | .undefined => 0x04#32
  | .swi => 0x08#32
  | .prefetchAbort => 0x0C#32
  | .dataAbort => 0x10#32
  | .irq => 0x18#32
  | .fiq => 0x1C#32

/-- The exceptions that set `CPSR.F` (R310). -/
def Exc.masksFiq : Exc → Bool
  | .reset | .fiq => true
  | _ => false

/-- `VBASE` (R305). -/
def vectorBase (p : Platform) : Word := if p.highVectors then 0xFFFF0000#32 else 0#32

/-- Exception entry (R310), with what is saved in r14 and in the SPSR of the mode entered. The bookkeeping mark of
R361 is cleared, as by every step that is not a User-bank transfer (R361, log 14). -/
def enterException (e : Exc) (ret saved : Word) (s : State) : State :=
  { (s.setReg e.mode.lr ret).setSpsr e.spsr saved with
    cpsr := { s.cpsr with mode := e.mode, t := false, i := true, f := s.cpsr.f || e.masksFiq }
    pc := vectorBase s.platform + e.vector
    afterUserBank := false }

/-- Taking an exception other than Reset: the old CPSR goes to the SPSR (R310). -/
def takeException (e : Exc) (ret : Word) (s : State) : State := enterException e ret s.cpsr.toWord s

/-- `raise UndefinedInstruction(cur)` (R317). -/
def raiseUndefined (s : State) : State := takeException .undefined (s.pc + 4) s

/-- `raise SoftwareInterrupt` (R312). -/
def raiseSwi (s : State) : State := takeException .swi (s.pc + 4) s

/-- `raise PrefetchAbort(cur)` (R313). -/
def raisePrefetchAbort (s : State) : State := takeException .prefetchAbort (s.pc + 4) s

/-- `raise DataAbort(ea)` (R314). -/
def raiseDataAbort (s : State) : State := takeException .dataAbort (s.pc + 8) s

/-- An IRQ at an instruction boundary (R315). -/
def raiseIrq (s : State) : State := takeException .irq (s.pc + 4) s

/-- An FIQ at an instruction boundary (R316). -/
def raiseFiq (s : State) : State := takeException .fiq (s.pc + 4) s

/-- The bits a status register can hold in version 5T: all but 27:8 (R33, R271). -/
def psrBits : Word := 0xF00000FF#32

/-- Reset in mid-run (R311, R350, D19): every register and SPSR and the four flags take a free value, the SPSRs' within
what R33 lets an SPSR hold; bits 27:8 of the CPSR are 0 (R37); the stores noted since reset are none (R75); then the
entry of R310, with free values in r14_svc and SPSR_svc (log 10). -/
def resetEntry (s : State) : State :=
  let word := fun k => Config.freeWord (s.draws + k)
  let flag := fun k => Config.freeBit (s.draws + k)
  enterException .reset (word 35) (word 36 &&& psrBits)
    { s with
      regs := Vector.ofFn fun k => word k
      spsrs := Vector.ofFn fun k => word (30 + k) &&& psrBits
      cpsr := { s.cpsr with n := flag 0, z := flag 1, c := flag 2, v := flag 3, reserved := 0 }
      stored := []
      draws := s.draws + 37 }

/-- Exception return: `CPSR <- SPSR; pc <- v` (R167, R253, R325). -/
def exceptionReturn (v : Word) (s : State) : Out :=
  match s.cpsr.mode.spsr? with
  | none => .refused .noSpsr
  | some q =>
    match Psr.ofWord? (s.spsr q) with
    | none => .refused .illegalMode
    | some p =>
      if !p.t && v.extractLsb' 0 2 != 0#2 then .refused .unalignedTarget
      else .next { s with cpsr := p, pc := v }

/-! ## Control transfers (R24 to R26) -/

/-- `pc <- cur + 4`, refused where it runs past the top of the address space (R15, R26, log 15). -/
def advance (s : State) : Out :=
  if s.pc = 0xFFFFFFFC#32 then .refused .pcWrap else .next { s with pc := s.pc + 4 }

/-- `CPSR.T <- v[0]; pc <- v AND 0xFFFFFFFE`, refused where `v[1:0]` is `10` (R25, R142, R226, R252). -/
def exchange (v : Word) (s : State) : Out :=
  if v.extractLsb' 0 2 = 0b10#2 then .refused .unalignedTarget
  else .next { s with cpsr := { s.cpsr with t := v.getLsbD 0 }, pc := v &&& 0xFFFFFFFE#32 }

/-- `cur + 8 + offset`, exactly; `none` where it lies outside the address space (R26, R140, log 16). -/
def branchTarget (cur : Word) (offset : Int) : Option Word :=
  let t : Int := cur.toNat + 8 + offset
  if 0 ≤ t ∧ t < 2 ^ 32 then some (BitVec.ofInt 32 t) else none

/-- `sext_32(signed_immed_24 : 0b00)` as a number (R104). -/
def branchOffset (off : BitVec 24) : Int := (off ++ 0b00#2).toInt

/-! ## The frame of an instruction (R15, R131, R361) -/

/-- The registers whose number names a banked register in an exception mode: r8 to r14 in FIQ, r13 and r14 in the
others (R361). -/
def bankedIn (m : Mode) (r : RegNum) : Bool :=
  match m with
  | .usr | .sys => false
  | .fiq => decide (8 ≤ r.toNat) && decide (r.toNat ≤ 14)
  | _ => r == 13#4 || r == 14#4

/-- An instruction that touches the given registers of the current bank: refused right after a User-bank transfer if
one of them is banked, otherwise run with the mark cleared (R361, log 14). -/
def unconditional (touched : List RegNum) (s : State) (body : State → Out) : Out :=
  if s.afterUserBank && touched.any (bankedIn s.cpsr.mode) then .refused .bankedHazard
  else body { s with afterUserBank := false }

/-- A conditional instruction: a no-op if its condition fails (R15, R131, R132). -/
def conditional (c : Cond) (touched : List RegNum) (s : State) (body : State → Out) : Out :=
  if condHolds c s.cpsr then unconditional touched s body else advance { s with afterUserBank := false }

/-- Refuse if a check of the instruction's rule fails, else go on. -/
def guarded (r : Option Refusal) (k : Out) : Out :=
  match r with
  | some r => .refused r
  | none => k

/-- `some r` if the check fails. -/
def failIf (b : Bool) (r : Refusal) : Option Refusal := if b then some r else none

/-- Go on with a loaded value; an abort raises a Data Abort and changes nothing else (R239, R302, R314). -/
def withLoad {α : Type} (s : State) (x : Access α) (k : α → Out) : Out :=
  match x with
  | .ok v => k v
  | .abort => .next (raiseDataAbort s)
  | .noValue a => .fault (.noValue a)

/-- Go on from the state after a store; an abort raises a Data Abort and stores nothing (R239, R314). -/
def withStore (s : State) (x : Option State) (k : State → Out) : Out :=
  match x with
  | some s' => k s'
  | none => .next (raiseDataAbort s)

/-- A word access at `ea`, or the transfer of a block from base `ea`, by UNALIGNED (R62, R63, R65, D4, log 22). -/
def wordAccess (s : State) (ea : Word) (k : Out) : Out :=
  if ea.extractLsb' 0 2 = 0#2 then k
  else
    match s.platform.unaligned with
    | .rotate => k
    | .abort => .next (raiseDataAbort s)
    | .refuse => .refused .unalignedAccess

/-- A half-word access at `ea`, by UNALIGNED (R64, D4). -/
def halfAccess (s : State) (ea : Word) (k : Out) : Out :=
  if ea.getLsbD 0 = false then k
  else
    match s.platform.unaligned with
    | .abort => .next (raiseDataAbort s)
    | .rotate | .refuse => .refused .unalignedAccess

end Sys2Proof.Machine
end

