-- ==== Sys2Proof/Machine/Block.lean ====
section
/-!
DEFINITION. LDM and STM (spec/46_multiple_transfer_swap.md R250 to R257) and the swaps (R260, R261).
-/

namespace Sys2Proof.Machine

/-! ## Multiple transfers -/

/-- The registers of a list, lowest first (R250). -/
def blockRegs (list : BitVec 16) : List RegNum :=
  ((List.range 16).filter fun i => list.getLsbD i).map fun i => BitVec.ofNat 4 i

/-- The start address for `n` registers (R250). -/
def blockStart (p u : Bool) (base : Word) (n : Nat) : Word :=
  let size := BitVec.ofNat 32 (4 * n)
  match p, u with
  | false, true => base
  | true, true => base + 4
  | false, false => base - size + 4
  | true, false => base - size

/-- The write-back value for `n` registers (R250). -/
def blockFinal (u : Bool) (base : Word) (n : Nat) : Word :=
  let size := BitVec.ofNat 32 (4 * n)
  if u then base + size else base - size

/-- The restrictions that all multiple transfers share (R255): an empty list, r15 as the base, an address sequence
that wraps (R77). -/
def blockCheck (rn : RegNum) (list : BitVec 16) (start : Word) : Option Refusal :=
  if list = 0#16 then some .emptyList
  else if rn = pcNum then some .r15Operand
  else failIf (decide (2 ^ 32 < (wordAligned start).toNat + 4 * (blockRegs list).length)) .addressWrap

/-- The restrictions of the User-bank forms: User or System mode, write-back (R254). -/
def userFormCheck (m : Mode) (w : Bool) : Option Refusal := failIf (m == .usr || m == .sys || w) .userBankForm

/-- What the loads of a multiple transfer give. -/
inductive BlockRead where
  /-- Every register and its word, in order. -/
  | ok (loaded : List (RegNum × Word))
  /-- An access aborted; the registers before it and their words. -/
  | abort (loaded : List (RegNum × Word))
  /-- A byte with no value (log 3). -/
  | noValue (addr : Nat)
  deriving DecidableEq, Repr

/-- The words for a list of registers, from consecutive addresses with bits 1:0 forced to zero (R65, R250). -/
def readBlock (s : State) : Word → List RegNum → BlockRead
  | _, [] => .ok []
  | a, r :: rs =>
    match readWord s (wordAligned a) with
    | .abort => .abort []
    | .noValue x => .noValue x
    | .ok v =>
      match readBlock s (a + 4) rs with
      | .ok l => .ok ((r, v) :: l)
      | .abort l => .abort ((r, v) :: l)
      | .noValue x => .noValue x

/-- The loaded words go to their registers, as the bank of mode `m` resolves them; r15 is left to the caller. -/
def writeLoaded (m : Mode) : List (RegNum × Word) → State → State
  | [], s => s
  | (r, v) :: l, s => writeLoaded m l (if r = pcNum then s else writeBank m s r v)

/-- What an aborted LDM has loaded: each register before the aborting word holds its old or its loaded value, a draw
each; r15 and the base register, as the physical register it is, keep their values (R256, D17, log 17). -/
def drawLoaded (m : Mode) (base : Option PReg) : List (RegNum × Word) → State → State
  | [], s => s
  | (r, v) :: l, s =>
    drawLoaded m base l <|
      if r = pcNum ∨ bankReg m r = base then s
      else
        let d := drawBit s
        if d.1 then writeBank m d.2 r v else d.2

/-- Go on with the words of a multiple load; an abort raises a Data Abort (R256). -/
def withBlock (m : Mode) (rn : RegNum) (s : State) (x : BlockRead) (k : List (RegNum × Word) → Out) : Out :=
  match x with
  | .ok l => k l
  | .abort l => .next (raiseDataAbort (drawLoaded m (bankReg s.cpsr.mode rn) l s))
  | .noValue a => .fault (.noValue a)

/-- Registers stored at consecutive word addresses; `false` with the state before the word that aborted (R251,
R256). -/
def storeBlock (m : Mode) : Word → List RegNum → State → Bool × State
  | _, [], s => (true, s)
  | a, r :: rs, s =>
    match writeWord s (wordAligned a) (storeSource m s r) with
    | some s' => storeBlock m (a + 4) rs s'
    | none => (false, s)

/-- Go on from the state after a multiple store; an abort raises a Data Abort (R256). -/
def withStored (x : Bool × State) (k : State → Out) : Out :=
  if x.1 then k x.2 else .next (raiseDataAbort x.2)

/-- The base written back (R251, R252). -/
def writeBase (w : Bool) (rn : RegNum) (final : Word) (s : State) : State := if w then writeX s rn final else s

/-- LDM, S = 0 (R252). -/
def execLdm (c : Cond) (p u w : Bool) (rn : RegNum) (list : BitVec 16) (s : State) : Out :=
  let regs := blockRegs list
  conditional c (rn :: regs) s fun s =>
    let base := readX s rn
    let start := blockStart p u base regs.length
    guarded (blockCheck rn list start) <|
    guarded (failIf (w && regs.contains rn) .baseInList) <|
    wordAccess s base <|
    withBlock s.cpsr.mode rn s (readBlock s start regs) fun l =>
      let s' := writeBase w rn (blockFinal u base regs.length) (writeLoaded s.cpsr.mode l s)
      match l.lookup pcNum with
      | some v => exchange v s'
      | none => advance s'

/-- LDM, S = 1 without r15: the User-mode registers (R254). -/
def execLdmUser (c : Cond) (p u w : Bool) (rn : RegNum) (list : BitVec 15) (s : State) : Out :=
  let regs := blockRegs (0#1 ++ list)
  conditional c [rn] s fun s =>
    let base := readX s rn
    let start := blockStart p u base regs.length
    guarded (blockCheck rn (0#1 ++ list) start) <|
    guarded (userFormCheck s.cpsr.mode w) <|
    wordAccess s base <|
    withBlock .usr rn s (readBlock s start regs) fun l =>
      advance { writeLoaded .usr l s with afterUserBank := true }

/-- LDM, S = 1 with r15: load and restore the CPSR (R253). -/
def execLdmRestore (c : Cond) (p u w : Bool) (rn : RegNum) (list : BitVec 15) (s : State) : Out :=
  let regs := blockRegs (1#1 ++ list)
  conditional c (rn :: regs) s fun s =>
    let base := readX s rn
    let start := blockStart p u base regs.length
    guarded (blockCheck rn (1#1 ++ list) start) <|
    guarded (failIf s.cpsr.mode.spsr?.isNone .noSpsr) <|
    guarded (failIf (w && regs.contains rn) .baseInList) <|
    wordAccess s base <|
    withBlock s.cpsr.mode rn s (readBlock s start regs) fun l =>
      exceptionReturn ((l.lookup pcNum).getD 0#32)
        (writeBase w rn (blockFinal u base regs.length) (writeLoaded s.cpsr.mode l s))

/-- STM, S = 0 (R251): with write-back the base may be stored only as the lowest register of the list. -/
def execStm (c : Cond) (p u w : Bool) (rn : RegNum) (list : BitVec 16) (s : State) : Out :=
  let regs := blockRegs list
  conditional c (rn :: regs) s fun s =>
    let base := readX s rn
    let start := blockStart p u base regs.length
    guarded (blockCheck rn list start) <|
    guarded (failIf (w && regs.contains rn && regs.head? != some rn) .baseInList) <|
    wordAccess s base <|
    withStored (storeBlock s.cpsr.mode start regs s) fun s =>
      advance (writeBase w rn (blockFinal u base regs.length) s)

/-- STM, S = 1: the User-mode registers (R254). -/
def execStmUser (c : Cond) (p u w : Bool) (rn : RegNum) (list : BitVec 16) (s : State) : Out :=
  let regs := blockRegs list
  conditional c [rn] s fun s =>
    let base := readX s rn
    let start := blockStart p u base regs.length
    guarded (blockCheck rn list start) <|
    guarded (userFormCheck s.cpsr.mode w) <|
    wordAccess s base <|
    withStored (storeBlock .usr start regs s) fun s => advance { s with afterUserBank := true }

/-! ## Swaps -/

/-- The fixed bits and the register restrictions of SWP and SWPB (R260, R261). -/
def swapCheck (rn rd : RegNum) (sbz : BitVec 4) (rm : RegNum) : Option Refusal :=
  if sbz != 0#4 then some .fixedField
  else if [rn, rd, rm].contains pcNum then some .r15Operand
  else failIf (rn == rm || rn == rd) .registerOverlap

/-- SWP (R260). -/
def execSwp (c : Cond) (rn rd : RegNum) (sbz : BitVec 4) (rm : RegNum) (s : State) : Out :=
  conditional c [rn, rd, rm] s fun s =>
    guarded (swapCheck rn rd sbz rm) <|
      let addr := readX s rn
      wordAccess s addr <|
      withLoad s (readRotated s addr) fun temp =>
      withStore s (writeWord s (wordAligned addr) (readX s rm)) fun s =>
        advance (writeX s rd temp)

/-- SWPB (R261). -/
def execSwpb (c : Cond) (rn rd : RegNum) (sbz : BitVec 4) (rm : RegNum) (s : State) : Out :=
  conditional c [rn, rd, rm] s fun s =>
    guarded (swapCheck rn rd sbz rm) <|
      let addr := readX s rn
      withLoad s (readByte s addr) fun temp =>
      withStore s (writeByte s addr ((readX s rm).extractLsb' 0 8)) fun s =>
        advance (writeX s rd (temp.setWidth 32))

end Sys2Proof.Machine
end

