-- ==== Sys2Proof/Machine/Branch.lean ====
section
/-!
DEFINITION. B, BL, BX and BLX (spec/41_branch.md R140 to R146).
-/

namespace Sys2Proof.Machine

/-- Go on at a branch target, refused where it lies outside the address space (R26, R140). -/
def withTarget (t : Option Word) (k : Word → Out) : Out :=
  match t with
  | some t => k t
  | none => .refused .branchWrap

/-- `x[14] <- cur + 4` (R141). -/
def link (s : State) : State := writeX s lrNum (s.pc + 4)

/-- B (R140). -/
def execB (c : Cond) (off : BitVec 24) (s : State) : Out :=
  conditional c [] s fun s =>
    withTarget (branchTarget s.pc (branchOffset off)) fun t => .next { s with pc := t }

/-- BL (R141). -/
def execBl (c : Cond) (off : BitVec 24) (s : State) : Out :=
  conditional c [lrNum] s fun s =>
    withTarget (branchTarget s.pc (branchOffset off)) fun t => .next { link s with pc := t }

/-- BX (R142). `rm = 15` reads the instruction's address plus 8 and is defined (R142 against a test vector, log 29). -/
def execBx (c : Cond) (sbo : BitVec 12) (rm : RegNum) (s : State) : Out :=
  conditional c [rm] s fun s =>
    guarded (failIf (sbo != 0xFFF#12) .fixedField) <|
      exchange (readX s rm) s

/-- BLX with a register target (R143): Rm is read before r14 is written. -/
def execBlxReg (c : Cond) (sbo : BitVec 12) (rm : RegNum) (s : State) : Out :=
  conditional c [rm, lrNum] s fun s =>
    guarded (failIf (sbo != 0xFFF#12) .fixedField) <|
    guarded (failIf (rm == pcNum) .r15Operand) <|
      exchange (readX s rm) (link s)

/-- BLX with an immediate target (R144): always executed, always into Thumb state. -/
def execBlxImm (h : Bool) (off : BitVec 24) (s : State) : Out :=
  unconditional [lrNum] s fun s =>
    withTarget (branchTarget s.pc (branchOffset off + 2 * h.toNat)) fun t =>
      .next { link s with cpsr := { s.cpsr with t := true }, pc := t }

end Sys2Proof.Machine
end

