-- ==== Sys2Proof/Machine/Operands.lean ====
section
/-!
DEFINITION. The shifter (spec/00_scope.md R11, spec/43_data_processing.md R161 to R164) and the addresses of the data
transfers (spec/45_single_data_transfer.md R221 to R223, R234).
-/

namespace Sys2Proof.Machine

/-! ## Shifts (R11) -/

/-- `LSL_C(v, n)` for `n >= 1`. -/
def lslCarry (v : Word) (n : Nat) : Bool := if n ≤ 32 then v.getLsbD (32 - n) else false

/-- `LSR_C(v, n)` for `n >= 1`. -/
def lsrCarry (v : Word) (n : Nat) : Bool := if n ≤ 32 then v.getLsbD (n - 1) else false

/-- `ASR_C(v, n)` for `n >= 1`. -/
def asrCarry (v : Word) (n : Nat) : Bool := if n ≤ 31 then v.getLsbD (n - 1) else v.msb

/-- `RRX(v, c)` without its carry-out. -/
def rrx (v : Word) (c : Bool) : Word := BitVec.ofBool c ++ v.extractLsb' 1 31

/-- A shift by `n >= 1` places: the result and the carry-out (R11). -/
def shiftBy (kind : ShiftKind) (v : Word) (n : Nat) : Word × Bool :=
  match kind with
  | .lsl => (v <<< n, lslCarry v n)
  | .lsr => (v >>> n, lsrCarry v n)
  | .asr => (v.sshiftRight n, asrCarry v n)
  | .ror => (v.rotateRight n, (v.rotateRight n).msb)

/-- A register shifted by an immediate, `c` the carry flag (R162, R222): amount 0 means no shift, 32, 32 and RRX. -/
def shiftImm (kind : ShiftKind) (v : Word) (amount : BitVec 5) (c : Bool) : Word × Bool :=
  if amount = 0#5 then
    match kind with
    | .lsl => (v, c)
    | .lsr => shiftBy .lsr v 32
    | .asr => shiftBy .asr v 32
    | .ror => (rrx v c, v.getLsbD 0)
  else shiftBy kind v amount.toNat

/-- A register shifted by the low byte of a register, `c` the carry flag (R163). -/
def shiftReg (kind : ShiftKind) (v : Word) (amount : Byte) (c : Bool) : Word × Bool :=
  if amount = 0#8 then (v, c) else shiftBy kind v amount.toNat

/-- An 8-bit immediate rotated right by twice the rotate field (R95, R161, R271). -/
def rotatedImm (rotate : BitVec 4) (imm8 : BitVec 8) : Word := (imm8.setWidth 32).rotateRight (2 * rotate.toNat)

/-- Operand 2: its value and the shifter's carry-out (R161, R162, R163). -/
def operand2 (op : Operand2) (s : State) : Word × Bool :=
  match op with
  | .imm rotate imm8 =>
    let v := rotatedImm rotate imm8
    (v, if rotate = 0#4 then s.cpsr.c else v.msb)
  | .shiftImm rm kind amount => shiftImm kind (readX s rm) amount s.cpsr.c
  | .shiftReg rm kind rs => shiftReg kind (readX s rm) ((readX s rs).extractLsb' 0 8) s.cpsr.c

/-- The registers operand 2 reads. -/
def operandRegs : Operand2 → List RegNum
  | .imm .. => []
  | .shiftImm rm .. => [rm]
  | .shiftReg rm _ rs => [rm, rs]

/-- The check of a register-specified shift: r15 in none of the instruction's registers (R163, R164, D25). -/
def regShiftCheck (op : Operand2) (others : List RegNum) : Option Refusal :=
  match op with
  | .shiftReg rm _ rs => failIf ((rm :: rs :: others).contains pcNum) .r15Operand
  | _ => none

/-! ## Addresses of the single transfers (R221 to R223, R234) -/

/-- The effective address, the value for the base register, and whether it is written (R223). -/
structure Address where
  ea : Word
  index : Word
  writeBack : Bool
  deriving DecidableEq, Repr

/-- `base + offset` or `base - offset` (R223). -/
def indexed (up : Bool) (base offset : Word) : Word := if up then base + offset else base - offset

/-- The offset of a word or byte transfer (R221, R222); no flag is affected. -/
def wordOffset (off : WordOffset) (s : State) : Word :=
  match off with
  | .imm imm12 => imm12.setWidth 32
  | .scaled rm kind amount => (shiftImm kind (readX s rm) amount s.cpsr.c).1

/-- The address of a word or byte transfer (R223). -/
def wordAddress (ix : Index) (up : Bool) (rn : RegNum) (off : WordOffset) (s : State) : Address :=
  let base := readX s rn
  let index := indexed up base (wordOffset off s)
  match ix with
  | .offset => { ea := index, index := index, writeBack := false }
  | .pre => { ea := index, index := index, writeBack := true }
  | .post => { ea := base, index := index, writeBack := true }

/-- The offset of a half-word or signed-byte transfer (R234). -/
def halfOffset (off : HalfOffset) (s : State) : Word :=
  match off with
  | .imm imm8 => imm8.setWidth 32
  | .reg _ rm => readX s rm

/-- The address of a half-word or signed-byte transfer (R234). -/
def halfAddress (p u w : Bool) (rn : RegNum) (off : HalfOffset) (s : State) : Address :=
  let base := readX s rn
  let index := indexed u base (halfOffset off s)
  { ea := if p then index else base, index := index, writeBack := !p || w }

/-- The base update after the transfer (R223, R234). -/
def updateBase (a : Address) (rn : RegNum) (s : State) : State := if a.writeBack then writeX s rn a.index else s

/-- The registers an offset reads. -/
def wordOffsetRegs : WordOffset → List RegNum
  | .imm _ => []
  | .scaled rm .. => [rm]

/-- The registers an offset reads. -/
def halfOffsetRegs : HalfOffset → List RegNum
  | .imm _ => []
  | .reg _ rm => [rm]

/-- The register restrictions that all single transfers share: r15 as the offset, write-back to r15, write-back to the
register transferred or to the offset (R224, R234). -/
def transferCheck (writeBack : Bool) (rn rd : RegNum) (offsetRegs : List RegNum) : Option Refusal :=
  if offsetRegs.contains pcNum then some .r15Operand
  else if writeBack && rn == pcNum then some .r15Operand
  else if writeBack && (rn == rd || offsetRegs.contains rn) then some .registerOverlap
  else none

/-- The same with r15 forbidden as the register transferred (R224: byte and T forms; R234). -/
def transferCheckNoPc (writeBack : Bool) (rn rd : RegNum) (offsetRegs : List RegNum) : Option Refusal :=
  if rd == pcNum then some .r15Operand else transferCheck writeBack rn rd offsetRegs

end Sys2Proof.Machine
end

