-- ==== Sys2Proof/Machine/DataProcessing.lean ====
section
/-!
DEFINITION. The sixteen data-processing instructions (spec/43_data_processing.md R160 to R186). In each rule `a` is Rn,
`b` is operand 2, `sc` the shifter's carry-out and `cin` the C flag before the instruction.
-/

namespace Sys2Proof.Machine

/-- `pc <- v` by a data-processing instruction with S = 0 (R25, R167). -/
def jump (v : Word) (s : State) : Out :=
  if v.extractLsb' 0 2 = 0#2 then .next { s with pc := v } else .refused .unalignedTarget

/-- The result written and the flags set (R160, R166, R167). -/
def dataResult (sf : Bool) (rd : RegNum) (r : AluResult) (s : State) : Out :=
  if rd = pcNum then (if sf then exceptionReturn r.value s else jump r.value s)
  else
    let s' := writeX s rd r.value
    advance (if sf then { s' with cpsr := setFlags r s.cpsr } else s')

/-- The frame of the ten instructions with Rn and Rd (R160, R163). -/
def dataOp (f : (a b : Word) → (sc cin : Bool) → AluResult) (c : Cond) (sf : Bool) (rn rd : RegNum) (op : Operand2)
    (s : State) : Out :=
  conditional c (rn :: rd :: operandRegs op) s fun s =>
    guarded (regShiftCheck op [rn, rd]) <|
      let b := operand2 op s
      dataResult sf rd (f (readX s rn) b.1 b.2 s.cpsr.c) s

/-- The frame of TST, TEQ, CMP and CMN: no register written, the flags always set, the Rd field zero (R160, R166,
R168). -/
def compareOp (f : (a b : Word) → (sc : Bool) → AluResult) (c : Cond) (rn sbz : RegNum) (op : Operand2) (s : State) :
    Out :=
  conditional c (rn :: operandRegs op) s fun s =>
    guarded (failIf (sbz != 0#4) .fixedField) <|
    guarded (regShiftCheck op [rn]) <|
      let b := operand2 op s
      advance { s with cpsr := setFlags (f (readX s rn) b.1 b.2) s.cpsr }

/-- The frame of MOV and MVN: Rn not read, the Rn field zero (R160, R168). -/
def moveOp (f : (b : Word) → (sc : Bool) → AluResult) (c : Cond) (sf : Bool) (sbz rd : RegNum) (op : Operand2)
    (s : State) : Out :=
  conditional c (rd :: operandRegs op) s fun s =>
    guarded (failIf (sbz != 0#4) .fixedField) <|
    guarded (regShiftCheck op [rd]) <|
      let b := operand2 op s
      dataResult sf rd (f b.1 b.2) s

/-- AND (R170). -/
def execAnd (c : Cond) (sf : Bool) (rn rd : RegNum) (op : Operand2) (s : State) : Out :=
  dataOp (fun a b sc _ => logical (a &&& b) sc) c sf rn rd op s

/-- EOR (R171). -/
def execEor (c : Cond) (sf : Bool) (rn rd : RegNum) (op : Operand2) (s : State) : Out :=
  dataOp (fun a b sc _ => logical (a ^^^ b) sc) c sf rn rd op s

/-- SUB (R172). -/
def execSub (c : Cond) (sf : Bool) (rn rd : RegNum) (op : Operand2) (s : State) : Out :=
  dataOp (fun a b _ _ => addWithCarry a (~~~b) true) c sf rn rd op s

/-- RSB (R173). -/
def execRsb (c : Cond) (sf : Bool) (rn rd : RegNum) (op : Operand2) (s : State) : Out :=
  dataOp (fun a b _ _ => addWithCarry b (~~~a) true) c sf rn rd op s

/-- ADD (R174). -/
def execAdd (c : Cond) (sf : Bool) (rn rd : RegNum) (op : Operand2) (s : State) : Out :=
  dataOp (fun a b _ _ => addWithCarry a b false) c sf rn rd op s

/-- ADC (R175). -/
def execAdc (c : Cond) (sf : Bool) (rn rd : RegNum) (op : Operand2) (s : State) : Out :=
  dataOp (fun a b _ cin => addWithCarry a b cin) c sf rn rd op s

/-- SBC (R176). -/
def execSbc (c : Cond) (sf : Bool) (rn rd : RegNum) (op : Operand2) (s : State) : Out :=
  dataOp (fun a b _ cin => addWithCarry a (~~~b) cin) c sf rn rd op s

/-- RSC (R177). -/
def execRsc (c : Cond) (sf : Bool) (rn rd : RegNum) (op : Operand2) (s : State) : Out :=
  dataOp (fun a b _ cin => addWithCarry b (~~~a) cin) c sf rn rd op s

/-- TST (R178). -/
def execTst (c : Cond) (rn sbz : RegNum) (op : Operand2) (s : State) : Out :=
  compareOp (fun a b sc => logical (a &&& b) sc) c rn sbz op s

/-- TEQ (R179). -/
def execTeq (c : Cond) (rn sbz : RegNum) (op : Operand2) (s : State) : Out :=
  compareOp (fun a b sc => logical (a ^^^ b) sc) c rn sbz op s

/-- CMP (R180). -/
def execCmp (c : Cond) (rn sbz : RegNum) (op : Operand2) (s : State) : Out :=
  compareOp (fun a b _ => addWithCarry a (~~~b) true) c rn sbz op s

/-- CMN (R181). -/
def execCmn (c : Cond) (rn sbz : RegNum) (op : Operand2) (s : State) : Out :=
  compareOp (fun a b _ => addWithCarry a b false) c rn sbz op s

/-- ORR (R182). -/
def execOrr (c : Cond) (sf : Bool) (rn rd : RegNum) (op : Operand2) (s : State) : Out :=
  dataOp (fun a b sc _ => logical (a ||| b) sc) c sf rn rd op s

/-- MOV (R183). -/
def execMov (c : Cond) (sf : Bool) (sbz rd : RegNum) (op : Operand2) (s : State) : Out :=
  moveOp (fun b sc => logical b sc) c sf sbz rd op s

/-- BIC (R184). -/
def execBic (c : Cond) (sf : Bool) (rn rd : RegNum) (op : Operand2) (s : State) : Out :=
  dataOp (fun a b sc _ => logical (a &&& ~~~b) sc) c sf rn rd op s

/-- MVN (R185). -/
def execMvn (c : Cond) (sf : Bool) (sbz rd : RegNum) (op : Operand2) (s : State) : Out :=
  moveOp (fun b sc => logical (~~~b) sc) c sf sbz rd op s

end Sys2Proof.Machine
end

