-- ==== Sys2Proof/Machine/Half.lean ====
section
/-!
DEFINITION. The half-word and signed-byte transfers (spec/45_single_data_transfer.md R234 to R239).
-/

namespace Sys2Proof.Machine

/-- A loaded value goes to Rd and the base is updated. -/
def loadTo (rn rd : RegNum) (a : Address) (s : State) (x : Access Word) : Out :=
  withLoad s x fun v => advance (updateBase a rn (writeX s rd v))

/-- A half-word load from the address, aligned by R64; `extend` widens it. -/
def loadHalfTo (extend : BitVec 16 → Word) (rn rd : RegNum) (a : Address) (s : State) : Out :=
  halfAccess s a.ea <| loadTo rn rd a s ((readHalf s a.ea).bind fun v => .ok (extend v))

/-- A signed-byte load: no alignment requirement (R64, R237). -/
def loadSignedByteTo (rn rd : RegNum) (a : Address) (s : State) : Out :=
  loadTo rn rd a s ((readByte s a.ea).bind fun v => .ok (v.signExtend 32))

/-- Bits 15:0 of Rd go to the half-word at the address (R64, R236), and the base is updated. -/
def storeHalfFrom (rn rd : RegNum) (a : Address) (s : State) : Out :=
  halfAccess s a.ea <|
    withStore s (writeHalf s a.ea ((readX s rd).extractLsb' 0 16)) fun s => advance (updateBase a rn s)

/-- The frame of a half-word or signed-byte transfer (R234): the fixed bits, P = 0 with W = 1, the register
restrictions, then the transfer. -/
def halfTransfer (move : RegNum → RegNum → Address → State → Out) (c : Cond) (p u w : Bool) (rn rd : RegNum)
    (off : HalfOffset) (s : State) : Out :=
  conditional c (rn :: rd :: halfOffsetRegs off) s fun s =>
    let a := halfAddress p u w rn off s
    guarded (failIf (!off.fixedFields) .fixedField) <|
    guarded (failIf (!p && w) .postIndexedW) <|
    guarded (transferCheckNoPc a.writeBack rn rd (halfOffsetRegs off)) (move rn rd a s)

/-- LDRH (R235). -/
def execLdrh (c : Cond) (p u w : Bool) (rn rd : RegNum) (off : HalfOffset) (s : State) : Out :=
  halfTransfer (loadHalfTo fun v => v.setWidth 32) c p u w rn rd off s

/-- STRH (R236). -/
def execStrh (c : Cond) (p u w : Bool) (rn rd : RegNum) (off : HalfOffset) (s : State) : Out :=
  halfTransfer storeHalfFrom c p u w rn rd off s

/-- LDRSB (R237). -/
def execLdrsb (c : Cond) (p u w : Bool) (rn rd : RegNum) (off : HalfOffset) (s : State) : Out :=
  halfTransfer loadSignedByteTo c p u w rn rd off s

/-- LDRSH (R238). -/
def execLdrsh (c : Cond) (p u w : Bool) (rn rd : RegNum) (off : HalfOffset) (s : State) : Out :=
  halfTransfer (loadHalfTo fun v => v.signExtend 32) c p u w rn rd off s

end Sys2Proof.Machine
end

