-- ==== Sys2Proof/Machine/Multiply.lean ====
section
/-!
DEFINITION. The six multiply instructions and CLZ (spec/44_multiply_clz.md R200 to R210): exact products and sums,
narrowed at the end.
-/

namespace Sys2Proof.Machine

/-- The flags of MULS and MLAS: N and Z from the result, C a draw, V unchanged (R201, D16). -/
def setMulFlags (v : Word) (s : State) : State :=
  let d := drawBit s
  { d.2 with cpsr := { setNZ v s.cpsr with c := d.1 } }

/-- The flags of the long multiplies with S = 1: N and Z from the 64-bit result, C and V a draw each (R201, D16). -/
def setMulLongFlags (v : BitVec 64) (s : State) : State :=
  let d := drawBit s
  let e := drawBit d.2
  { e.2 with cpsr := { setNZLong v s.cpsr with c := d.1, v := e.1 } }

/-- A 32-bit product written (R203, R204). -/
def mulResult (sf : Bool) (rd : RegNum) (v : Word) (s : State) : Out :=
  let s' := writeX s rd v
  advance (if sf then setMulFlags v s' else s')

/-- A 64-bit product written (R205 to R208). -/
def mulLongResult (sf : Bool) (rdHi rdLo : RegNum) (v : BitVec 64) (s : State) : Out :=
  let s' := writeX (writeX s rdLo (v.extractLsb' 0 32)) rdHi (v.extractLsb' 32 32)
  advance (if sf then setMulLongFlags v s' else s')

/-- The restrictions of MUL and MLA (R202); `used` are the register fields in use. -/
def mulCheck (used : List RegNum) (rd rm : RegNum) : Option Refusal :=
  if used.contains pcNum then some .r15Operand else failIf (rd == rm) .registerOverlap

/-- The restrictions of the long multiplies (R202). -/
def mulLongCheck (rdHi rdLo rs rm : RegNum) : Option Refusal :=
  if [rdHi, rdLo, rs, rm].contains pcNum then some .r15Operand
  else failIf (rdHi == rdLo || rdHi == rm || rdLo == rm) .registerOverlap

/-- The frame of the long multiplies: `f` gives the 64-bit result from the accumulator RdHi:RdLo, Rm and Rs. -/
def mulLongOp (f : (acc : BitVec 64) → (m r : Word) → BitVec 64) (c : Cond) (sf : Bool) (rdHi rdLo rs rm : RegNum)
    (s : State) : Out :=
  conditional c [rdHi, rdLo, rs, rm] s fun s =>
    guarded (mulLongCheck rdHi rdLo rs rm) <|
      mulLongResult sf rdHi rdLo (f (readX s rdHi ++ readX s rdLo) (readX s rm) (readX s rs)) s

/-- `CountLeadingZeros` (R17). -/
def countLeadingZeros (v : Word) : Nat := if v = 0#32 then 32 else 31 - v.toNat.log2

/-- MUL (R203). -/
def execMul (c : Cond) (sf : Bool) (rd : RegNum) (sbz : BitVec 4) (rs rm : RegNum) (s : State) : Out :=
  conditional c [rd, rs, rm] s fun s =>
    guarded (failIf (sbz != 0#4) .fixedField) <|
    guarded (mulCheck [rd, rs, rm] rd rm) <|
      mulResult sf rd (BitVec.ofNat 32 ((readX s rm).toNat * (readX s rs).toNat)) s

/-- MLA (R204). -/
def execMla (c : Cond) (sf : Bool) (rd rn rs rm : RegNum) (s : State) : Out :=
  conditional c [rd, rn, rs, rm] s fun s =>
    guarded (mulCheck [rd, rn, rs, rm] rd rm) <|
      mulResult sf rd (BitVec.ofNat 32 ((readX s rm).toNat * (readX s rs).toNat + (readX s rn).toNat)) s

/-- UMULL (R205). -/
def execUmull (c : Cond) (sf : Bool) (rdHi rdLo rs rm : RegNum) (s : State) : Out :=
  mulLongOp (fun _ m r => BitVec.ofNat 64 (m.toNat * r.toNat)) c sf rdHi rdLo rs rm s

/-- UMLAL (R206). -/
def execUmlal (c : Cond) (sf : Bool) (rdHi rdLo rs rm : RegNum) (s : State) : Out :=
  mulLongOp (fun acc m r => BitVec.ofNat 64 (acc.toNat + m.toNat * r.toNat)) c sf rdHi rdLo rs rm s

/-- SMULL (R207). -/
def execSmull (c : Cond) (sf : Bool) (rdHi rdLo rs rm : RegNum) (s : State) : Out :=
  mulLongOp (fun _ m r => BitVec.ofInt 64 (m.toInt * r.toInt)) c sf rdHi rdLo rs rm s

/-- SMLAL (R208). -/
def execSmlal (c : Cond) (sf : Bool) (rdHi rdLo rs rm : RegNum) (s : State) : Out :=
  mulLongOp (fun acc m r => BitVec.ofInt 64 (acc.toInt + m.toInt * r.toInt)) c sf rdHi rdLo rs rm s

/-- CLZ (R209); the fields `f1` and `f2` may hold anything (D6, log 20). -/
def execClz (c : Cond) (_f1 : BitVec 4) (rd : RegNum) (_f2 : BitVec 4) (rm : RegNum) (s : State) : Out :=
  conditional c [rd, rm] s fun s =>
    guarded (failIf ([rd, rm].contains pcNum) .r15Operand) <|
      advance (writeX s rd (BitVec.ofNat 32 (countLeadingZeros (readX s rm))))

end Sys2Proof.Machine
end

