-- ==== Sys2Proof/Machine/Status.lean ====
section
/-!
DEFINITION. MRS and MSR (spec/47_status_register_transfer.md R270 to R273).
-/

namespace Sys2Proof.Machine

/-- MRS (R270). -/
def execMrs (c : Cond) (r : Bool) (sbo : BitVec 4) (rd : RegNum) (sbzHi sbzLo : BitVec 4) (s : State) : Out :=
  conditional c [rd] s fun s =>
    guarded (failIf (!(sbo == 15#4 && sbzHi == 0#4 && sbzLo == 0#4)) .fixedField) <|
    guarded (failIf (rd == pcNum) .r15Operand) <|
      if r then
        match s.cpsr.mode.spsr? with
        | none => .refused .noSpsr
        | some q => advance (writeX s rd (s.spsr q))
      else advance (writeX s rd s.cpsr.toWord)

/-- `byte_mask` of a field mask (R271). -/
def byteMask (mask : BitVec 4) : Word :=
  (if mask.getLsbD 0 then 0x000000FF#32 else 0#32) ||| (if mask.getLsbD 1 then 0x0000FF00#32 else 0#32) |||
    (if mask.getLsbD 2 then 0x00FF0000#32 else 0#32) ||| (if mask.getLsbD 3 then 0xFF000000#32 else 0#32)

/-- `UnallocMask` (R271). -/
def unallocMask : Word := 0x0FFFFF00#32

/-- `UserMask` (R271). -/
def userMask : Word := 0xF0000000#32

/-- `PrivMask` (R271). -/
def privMask : Word := 0x000000DF#32

/-- `StateMask` (R271). -/
def stateMask : Word := 0x00000020#32

/-- The bits of `old` outside the mask and those of `new` inside it (R272). -/
def merge (mask old new : Word) : Word := (old &&& ~~~mask) ||| (new &&& mask)

/-- The bits of the CPSR that MSR writes in a mode (R272). -/
def cpsrMask (m : Mode) (mask : BitVec 4) : Word :=
  if m.privileged then byteMask mask &&& (userMask ||| privMask) else byteMask mask &&& userMask

/-- MSR to the CPSR (R272). -/
def msrCpsr (mask : BitVec 4) (operand : Word) (s : State) : Out :=
  if s.cpsr.mode.privileged && operand &&& stateMask != 0#32 then .refused .msrOperand
  else
    match Psr.ofWord? (merge (cpsrMask s.cpsr.mode mask) s.cpsr.toWord operand) with
    | none => .refused .illegalMode
    | some p => advance { s with cpsr := p }

/-- MSR to the SPSR of the current mode (R272). -/
def msrSpsr (mask : BitVec 4) (operand : Word) (s : State) : Out :=
  match s.cpsr.mode.spsr? with
  | none => .refused .noSpsr
  | some q =>
    advance (s.setSpsr q (merge (byteMask mask &&& (userMask ||| privMask ||| stateMask)) (s.spsr q) operand))

/-- MSR with its operand (R272): the test on bits 27:8 of the whole operand comes first. -/
def msr (r : Bool) (mask : BitVec 4) (operand : Word) (s : State) : Out :=
  if operand &&& unallocMask != 0#32 then .refused .msrOperand
  else if r then msrSpsr mask operand s
  else msrCpsr mask operand s

/-- MSR, register operand (R271, R272). -/
def execMsrReg (c : Cond) (r : Bool) (mask sbo sbz : BitVec 4) (rm : RegNum) (s : State) : Out :=
  conditional c [rm] s fun s =>
    guarded (failIf (!(sbo == 15#4 && sbz == 0#4)) .fixedField) <|
    guarded (failIf (rm == pcNum) .r15Operand) <|
      msr r mask (readX s rm) s

/-- MSR, immediate operand (R271, R272). -/
def execMsrImm (c : Cond) (r : Bool) (mask sbo rotate : BitVec 4) (imm8 : BitVec 8) (s : State) : Out :=
  conditional c [] s fun s =>
    guarded (failIf (sbo != 15#4) .fixedField) <|
      msr r mask (rotatedImm rotate imm8) s

end Sys2Proof.Machine
end

