-- ==== Sys2Proof/Machine/System.lean ====
section
/-!
DEFINITION. SWI (spec/42_swi.md), BKPT, the unused spaces and the undefined space (spec/49_bkpt_unused_undefined.md),
the coprocessor instructions (spec/48_coprocessor.md) and the condition-`1111` space (spec/40_conditional_execution.md
R133).
-/

namespace Sys2Proof.Machine

/-- The Undefined Instruction exception if the condition passes (R280, R297, R317). -/
def undefinedTrap (c : Cond) (s : State) : Out := conditional c [] s fun s => .next (raiseUndefined s)

/-- A word of the unused arithmetic, control or load/store space (R292). -/
def unusedTrap (c : Cond) (s : State) : Out :=
  conditional c [] s fun s =>
    match s.platform.unusedPolicy with
    | .refuse => .refused .unusedSpace
    | .undefinedTrap => .next (raiseUndefined s)

/-- SWI (R150): the immediate is ignored (D23). -/
def execSwi (c : Cond) (_imm : BitVec 24) (s : State) : Out := conditional c [] s fun s => .next (raiseSwi s)

/-- BKPT (R290): the immediate is ignored. -/
def execBkpt (_imm : BitVec 16) (s : State) : Out := unconditional [] s fun s => .next (raisePrefetchAbort s)

/-- BKPT's bits with a condition other than AL: UNPREDICTABLE if the condition passes (R134, R291). If it fails, R131
makes the word a no-op and R291 refuses it: by the platform's `bkptPolicy` (log 13). -/
def execBkptNotAl (c : Cond) (_imm : BitVec 16) (s : State) : Out :=
  match s.platform.bkptPolicy with
  | .refuse => .refused .bkptCondition
  | .conditional => conditional c [] s fun _ => .refused .bkptCondition

/-- UNUSED_ARITHMETIC (R293). -/
def execUnusedArithmetic (c : Cond) (_hi : BitVec 2) (_mid : BitVec 12) (_lo : BitVec 4) (s : State) : Out :=
  unusedTrap c s

/-- UNUSED_CONTROL (R294). -/
def execUnusedControl (c : Cond) (_bits : BitVec 28) (s : State) : Out := unusedTrap c s

/-- UNUSED_LOADSTORE (R295). -/
def execUnusedLoadStore (c : Cond) (_bits : BitVec 28) (s : State) : Out := unusedTrap c s

/-- UNUSED_COPROCESSOR (R296), independently of UNUSED_POLICY. -/
def execUnusedCoprocessor (c : Cond) (_n _l : Bool) (_rest : BitVec 20) (s : State) : Out := undefinedTrap c s

/-- UNDEFINED (R297). -/
def execUndefined (c : Cond) (_hi : BitVec 20) (_lo : BitVec 4) (s : State) : Out := undefinedTrap c s

/-- CDP (R281): no coprocessor is present (R280, D10). -/
def execCdp (c : Cond) (_op1 _crn _crd _cp : BitVec 4) (_op2 : BitVec 3) (_crm : BitVec 4) (s : State) : Out :=
  undefinedTrap c s

/-- LDC (R282): no coprocessor is present. -/
def execLdc (c : Cond) (_p _u _n _w : Bool) (_rn : RegNum) (_crd _cp : BitVec 4) (_off8 : BitVec 8) (s : State) : Out :=
  undefinedTrap c s

/-- STC (R283): no coprocessor is present. -/
def execStc (c : Cond) (_p _u _n _w : Bool) (_rn : RegNum) (_crd _cp : BitVec 4) (_off8 : BitVec 8) (s : State) : Out :=
  undefinedTrap c s

/-- MCR (R284): no coprocessor is present. -/
def execMcr (c : Cond) (_op1 : BitVec 3) (_crn : BitVec 4) (_rd : RegNum) (_cp : BitVec 4) (_op2 : BitVec 3)
    (_crm : BitVec 4) (s : State) : Out :=
  undefinedTrap c s

/-- MRC (R285): no coprocessor is present. -/
def execMrc (c : Cond) (_op1 : BitVec 3) (_crn : BitVec 4) (_rd : RegNum) (_cp : BitVec 4) (_op2 : BitVec 3)
    (_crm : BitVec 4) (s : State) : Out :=
  undefinedTrap c s

/-- NV_RESERVED (R133): a condition-`1111` word that is not BLX (immediate). -/
def execNvReserved (_bits : BitVec 28) (s : State) : Out :=
  match s.platform.nvPolicy with
  | .refuse => .refused .nvReserved
  | .never => advance { s with afterUserBank := false }

end Sys2Proof.Machine
end

