-- ==== Sys2Proof/Machine/Transfer.lean ====
section
/-!
DEFINITION. The word and unsigned byte transfers (spec/45_single_data_transfer.md R220 to R233, R239). A T form is a
post-indexed transfer that cannot name r15; with no memory protection its User-mode access is a plain one (R71, R230).
-/

namespace Sys2Proof.Machine

/-- The word at the address goes to Rd, r15 included (R225, R226), and the base is updated. -/
def loadWordTo (rn rd : RegNum) (a : Address) (s : State) : Out :=
  wordAccess s a.ea <|
    if rd = pcNum ∧ a.ea.extractLsb' 0 2 ≠ 0#2 then .refused .unalignedPcLoad
    else
      withLoad s (readRotated s a.ea) fun v =>
        if rd = pcNum then exchange v (updateBase a rn s) else advance (updateBase a rn (writeX s rd v))

/-- The byte at the address goes to Rd, zero-extended (R228), and the base is updated. -/
def loadByteTo (rn rd : RegNum) (a : Address) (s : State) : Out :=
  withLoad s (readByte s a.ea) fun v => advance (updateBase a rn (writeX s rd (v.setWidth 32)))

/-- Rd goes to the word at the address (R63, R227), and the base is updated. -/
def storeWordFrom (rn rd : RegNum) (a : Address) (s : State) : Out :=
  wordAccess s a.ea <|
    withStore s (writeWord s (wordAligned a.ea) (storeSource s.cpsr.mode s rd)) fun s => advance (updateBase a rn s)

/-- Bits 7:0 of Rd go to the byte at the address (R229), and the base is updated. -/
def storeByteFrom (rn rd : RegNum) (a : Address) (s : State) : Out :=
  withStore s (writeByte s a.ea ((readX s rd).extractLsb' 0 8)) fun s => advance (updateBase a rn s)

/-- The frame of a word or byte transfer (R223, R224): the register restrictions, then the transfer. -/
def wordTransfer (check : Bool → RegNum → RegNum → List RegNum → Option Refusal)
    (move : RegNum → RegNum → Address → State → Out) (c : Cond) (ix : Index) (up : Bool) (rn rd : RegNum)
    (off : WordOffset) (s : State) : Out :=
  conditional c (rn :: rd :: wordOffsetRegs off) s fun s =>
    let a := wordAddress ix up rn off s
    guarded (check a.writeBack rn rd (wordOffsetRegs off)) (move rn rd a s)

/-- LDR (R225, R226). -/
def execLdr (c : Cond) (ix : Index) (up : Bool) (rn rd : RegNum) (off : WordOffset) (s : State) : Out :=
  wordTransfer transferCheck loadWordTo c ix up rn rd off s

/-- LDRT (R230). -/
def execLdrt (c : Cond) (up : Bool) (rn rd : RegNum) (off : WordOffset) (s : State) : Out :=
  wordTransfer transferCheckNoPc loadWordTo c .post up rn rd off s

/-- LDRB (R228). -/
def execLdrb (c : Cond) (ix : Index) (up : Bool) (rn rd : RegNum) (off : WordOffset) (s : State) : Out :=
  wordTransfer transferCheckNoPc loadByteTo c ix up rn rd off s

/-- LDRBT (R232). -/
def execLdrbt (c : Cond) (up : Bool) (rn rd : RegNum) (off : WordOffset) (s : State) : Out :=
  wordTransfer transferCheckNoPc loadByteTo c .post up rn rd off s

/-- STR (R227). -/
def execStr (c : Cond) (ix : Index) (up : Bool) (rn rd : RegNum) (off : WordOffset) (s : State) : Out :=
  wordTransfer transferCheck storeWordFrom c ix up rn rd off s

/-- STRT (R231). -/
def execStrt (c : Cond) (up : Bool) (rn rd : RegNum) (off : WordOffset) (s : State) : Out :=
  wordTransfer transferCheckNoPc storeWordFrom c .post up rn rd off s

/-- STRB (R229). -/
def execStrb (c : Cond) (ix : Index) (up : Bool) (rn rd : RegNum) (off : WordOffset) (s : State) : Out :=
  wordTransfer transferCheckNoPc storeByteFrom c ix up rn rd off s

/-- STRBT (R233). -/
def execStrbt (c : Cond) (up : Bool) (rn rd : RegNum) (off : WordOffset) (s : State) : Out :=
  wordTransfer transferCheckNoPc storeByteFrom c .post up rn rd off s

end Sys2Proof.Machine
end

