-- ==== Sys2Proof/Machine/Dispatch.lean ====
section
/-!
DEFINITION. What every instruction does: one arm per constructor, one meaning per arm.
-/

namespace Sys2Proof.Machine

/-- The instruction's rule of spec/40 to spec/49, on the state in which it is fetched (R15 step 4). -/
def exec (i : Instr) (s : State) : Host.Outcome State Fault Refusal :=
  match i with
  | .and c sf rn rd op => Sys2Proof.Machine.execAnd c sf rn rd op s
  | .eor c sf rn rd op => Sys2Proof.Machine.execEor c sf rn rd op s
  | .sub c sf rn rd op => Sys2Proof.Machine.execSub c sf rn rd op s
  | .rsb c sf rn rd op => Sys2Proof.Machine.execRsb c sf rn rd op s
  | .add c sf rn rd op => Sys2Proof.Machine.execAdd c sf rn rd op s
  | .adc c sf rn rd op => Sys2Proof.Machine.execAdc c sf rn rd op s
  | .sbc c sf rn rd op => Sys2Proof.Machine.execSbc c sf rn rd op s
  | .rsc c sf rn rd op => Sys2Proof.Machine.execRsc c sf rn rd op s
  | .tst c rn sbz op => Sys2Proof.Machine.execTst c rn sbz op s
  | .teq c rn sbz op => Sys2Proof.Machine.execTeq c rn sbz op s
  | .cmp c rn sbz op => Sys2Proof.Machine.execCmp c rn sbz op s
  | .cmn c rn sbz op => Sys2Proof.Machine.execCmn c rn sbz op s
  | .orr c sf rn rd op => Sys2Proof.Machine.execOrr c sf rn rd op s
  | .mov c sf sbz rd op => Sys2Proof.Machine.execMov c sf sbz rd op s
  | .bic c sf rn rd op => Sys2Proof.Machine.execBic c sf rn rd op s
  | .mvn c sf sbz rd op => Sys2Proof.Machine.execMvn c sf sbz rd op s
  | .mrs c r sbo rd sbzHi sbzLo => Sys2Proof.Machine.execMrs c r sbo rd sbzHi sbzLo s
  | .msrReg c r mask sbo sbz rm => Sys2Proof.Machine.execMsrReg c r mask sbo sbz rm s
  | .msrImm c r mask sbo rotate imm8 => Sys2Proof.Machine.execMsrImm c r mask sbo rotate imm8 s
  | .bx c sbo rm => Sys2Proof.Machine.execBx c sbo rm s
  | .blxReg c sbo rm => Sys2Proof.Machine.execBlxReg c sbo rm s
  | .clz c f1 rd f2 rm => Sys2Proof.Machine.execClz c f1 rd f2 rm s
  | .bkpt imm => Sys2Proof.Machine.execBkpt imm s
  | .bkptNotAl c imm => Sys2Proof.Machine.execBkptNotAl c imm s
  | .unusedControl c bits => Sys2Proof.Machine.execUnusedControl c bits s
  | .mul c sf rd sbz rs rm => Sys2Proof.Machine.execMul c sf rd sbz rs rm s
  | .mla c sf rd rn rs rm => Sys2Proof.Machine.execMla c sf rd rn rs rm s
  | .unusedArithmetic c hi mid lo => Sys2Proof.Machine.execUnusedArithmetic c hi mid lo s
  | .umull c sf rdHi rdLo rs rm => Sys2Proof.Machine.execUmull c sf rdHi rdLo rs rm s
  | .umlal c sf rdHi rdLo rs rm => Sys2Proof.Machine.execUmlal c sf rdHi rdLo rs rm s
  | .smull c sf rdHi rdLo rs rm => Sys2Proof.Machine.execSmull c sf rdHi rdLo rs rm s
  | .smlal c sf rdHi rdLo rs rm => Sys2Proof.Machine.execSmlal c sf rdHi rdLo rs rm s
  | .swp c rn rd sbz rm => Sys2Proof.Machine.execSwp c rn rd sbz rm s
  | .swpb c rn rd sbz rm => Sys2Proof.Machine.execSwpb c rn rd sbz rm s
  | .unusedLoadStore c bits => Sys2Proof.Machine.execUnusedLoadStore c bits s
  | .strh c p u w rn rd off => Sys2Proof.Machine.execStrh c p u w rn rd off s
  | .ldrh c p u w rn rd off => Sys2Proof.Machine.execLdrh c p u w rn rd off s
  | .ldrsb c p u w rn rd off => Sys2Proof.Machine.execLdrsb c p u w rn rd off s
  | .ldrsh c p u w rn rd off => Sys2Proof.Machine.execLdrsh c p u w rn rd off s
  | .ldr c ix up rn rd off => Sys2Proof.Machine.execLdr c ix up rn rd off s
  | .ldrt c up rn rd off => Sys2Proof.Machine.execLdrt c up rn rd off s
  | .ldrb c ix up rn rd off => Sys2Proof.Machine.execLdrb c ix up rn rd off s
  | .ldrbt c up rn rd off => Sys2Proof.Machine.execLdrbt c up rn rd off s
  | .str c ix up rn rd off => Sys2Proof.Machine.execStr c ix up rn rd off s
  | .strt c up rn rd off => Sys2Proof.Machine.execStrt c up rn rd off s
  | .strb c ix up rn rd off => Sys2Proof.Machine.execStrb c ix up rn rd off s
  | .strbt c up rn rd off => Sys2Proof.Machine.execStrbt c up rn rd off s
  | .undefined c hi lo => Sys2Proof.Machine.execUndefined c hi lo s
  | .ldm c p u w rn list => Sys2Proof.Machine.execLdm c p u w rn list s
  | .ldmUser c p u w rn list => Sys2Proof.Machine.execLdmUser c p u w rn list s
  | .ldmRestore c p u w rn list => Sys2Proof.Machine.execLdmRestore c p u w rn list s
  | .stm c p u w rn list => Sys2Proof.Machine.execStm c p u w rn list s
  | .stmUser c p u w rn list => Sys2Proof.Machine.execStmUser c p u w rn list s
  | .b c off => Sys2Proof.Machine.execB c off s
  | .bl c off => Sys2Proof.Machine.execBl c off s
  | .blxImm h off => Sys2Proof.Machine.execBlxImm h off s
  | .nvReserved bits => Sys2Proof.Machine.execNvReserved bits s
  | .unusedCoprocessor c n l rest => Sys2Proof.Machine.execUnusedCoprocessor c n l rest s
  | .ldc c p u n w rn crd cp off8 => Sys2Proof.Machine.execLdc c p u n w rn crd cp off8 s
  | .stc c p u n w rn crd cp off8 => Sys2Proof.Machine.execStc c p u n w rn crd cp off8 s
  | .cdp c op1 crn crd cp op2 crm => Sys2Proof.Machine.execCdp c op1 crn crd cp op2 crm s
  | .mcr c op1 crn rd cp op2 crm => Sys2Proof.Machine.execMcr c op1 crn rd cp op2 crm s
  | .mrc c op1 crn rd cp op2 crm => Sys2Proof.Machine.execMrc c op1 crn rd cp op2 crm s
  | .swi c imm => Sys2Proof.Machine.execSwi c imm s

end Sys2Proof.Machine
end

