-- ==== Sys2Proof/Machine/Fetch.lean ====
section
/-!
DEFINITION. What a step does around an instruction: the instruction boundary (spec/00_scope.md R15 steps 1 to 3,
spec/60_exceptions.md R318, R320) and the fetch (R15 step 4, spec/20_memory.md R61, R75).
-/

namespace Sys2Proof.Machine

/-- The lines' values at this boundary: the first sample, nothing asserted if there is none (R36, log 9). -/
def sampled (s : State) : Lines := s.lines.headD { reset := false, irq := false, fiq := false }

/-- The state in which the boundary's sample has been taken. -/
def sampleTaken (s : State) : State := { s with lines := s.lines.tail }

/-- One of the `n` bytes from `a` on has been stored to by the program (R75). -/
def selfWritten (s : State) (a n : Nat) : Bool := (List.range n).any fun k => s.stored.contains (a + k)

/-- The fetch and decoding at the pc, then `k` on the instruction (R15 step 4, R25, R30, R61, R75, R313). -/
def fetch (s : State) (k : Instr → Out) : Out :=
  if s.cpsr.t then .refused .thumbState
  else if s.pc.extractLsb' 0 2 ≠ 0#2 then .refused .unalignedFetch
  else
    match readWord s s.pc with
    | .abort => .next (raisePrefetchAbort s)
    | .noValue a => .fault (.noValue a)
    | .ok w =>
      if !s.platform.allowSelfModify && selfWritten s s.pc.toNat 4 then .refused .selfModified
      else k (decodeWord w)

/-- The instruction boundary: Reset, then FIQ, then IRQ, else `k` (R15 steps 1 to 3, R315, R316, R318). -/
def boundary (s : State) (k : State → Out) : Out :=
  let l := sampled s
  let s' := sampleTaken s
  if l.reset then .next (resetEntry s')
  else if l.fiq && !s.cpsr.f then .next (raiseFiq s')
  else if l.irq && !s.cpsr.i then .next (raiseIrq s')
  else k s'

/-- The four bytes of an instruction word put into memory at the pc, from outside the machine (R353, log 4, log 24). -/
def loadInstr (s : State) (w : Word) : State :=
  let b := byteOfWord s.platform.bigEndian w
  let a := s.pc.toNat
  { s with
    mem := Memory.write (Memory.write (Memory.write (Memory.write s.mem a (b 0)) (a + 1) (b 1)) (a + 2) (b 2)) (a + 3)
      (b 3) }

end Sys2Proof.Machine
end

