-- ==== Sys2Proof/Machine/Step.lean ====
section
/-!
DEFINITION. One step of the machine (spec/00_scope.md R15).
-/

namespace Sys2Proof.Machine

/-- R15: an asserted line is taken at the boundary; else the instruction at the pc is fetched and executed. -/
def step (s : State) : Host.Outcome State Fault Refusal :=
  boundary s fun s => fetch s fun i => exec i s

/-- The state with the instruction of an opcode-table word (the bits above `nbits` zero) at the pc (log 24). -/
def State.withFetchWord (s : State) (nbits w : Nat) : State := loadInstr s (BitVec.ofNat 32 (w % 2 ^ nbits))

end Sys2Proof.Machine
end

