-- ==== Sys2Proof/Safety.lean ====
section
/-!
DEFINITION. The terms in which claims about runs are stated: the launch states of spec/70_reset_and_hazards.md R354,
runs that end at END_PC (R355), and the invariant that every step keeps.
-/

namespace Sys2Proof.Machine

/-- The pc is word aligned in ARM state (R25). -/
def State.pcAligned (s : State) : Bool := s.cpsr.t || s.pc.extractLsb' 0 2 == 0#2

/-- No SPSR holds any of the reserved bits 27:8 (R33). -/
def State.spsrsReservedZero (s : State) : Bool :=
  s.spsrs.toList.all fun v => v &&& 0x0FFFFF00#32 == 0#32

/-- What holds after reset and is kept by every step: memory and the set of stored addresses are in canonical form,
the pc is aligned in ARM state (R25), and the reserved bits of the CPSR and of every SPSR are zero (R33). -/
def State.Inv (s : State) : Prop :=
  Memory.wf s.mem = true ∧ risingFrom 0 s.stored = true ∧ s.pcAligned = true ∧ s.cpsr.reserved = 0#20 ∧
    s.spsrsReservedZero = true

/-- A launch state (R354): the pc aligned, ARM state, bits 27:8 of the CPSR zero. The mode is legal by its type. -/
def State.launch (s : State) : Prop :=
  s.pc.extractLsb' 0 2 = 0#2 ∧ s.cpsr.t = false ∧ s.cpsr.reserved = 0#20

/-- A run of at most `n` steps that ends when the pc is `endPc` at an instruction boundary (R355, log 26): the outcome
of the run, or `none` if it has not ended. -/
def runUntil (endPc : Word) : Nat → State → Option Out
  | 0, s => if s.pc = endPc then some (.next s) else none
  | n + 1, s =>
    if s.pc = endPc then some (.next s)
    else
      match step s with
      | .next s' => runUntil endPc n s'
      | .fault f => some (.fault f)
      | .refused r => some (.refused r)

/-- A run to `endPc` neither faults nor is refused in its first `n` steps. -/
def SafeFor (endPc : Word) (n : Nat) (s : State) : Prop :=
  match runUntil endPc n s with
  | some (.fault _) | some (.refused _) => False
  | _ => True

/-! ## When an instruction executes -/

/-- The instruction is not the one that R361 forbids right after a User-bank transfer. -/
def NoHazard (touched : List RegNum) (s : State) : Prop :=
  s.afterUserBank = false ∨ ∀ r ∈ touched, bankedIn s.cpsr.mode r = false

/-- The condition passes (R131), and R361 does not forbid the registers touched. -/
def Runs (c : Cond) (touched : List RegNum) (s : State) : Prop := condHolds c s.cpsr = true ∧ NoHazard touched s

/-- There is an instruction after this one (R26). -/
def HasNext (s : State) : Prop := s.pc ≠ 0xFFFFFFFC#32

/-- The state an instruction's rule runs in: the mark of R361 cleared. -/
def State.unmarked (s : State) : State := { s with afterUserBank := false }

/-- The pc at the next instruction. -/
def State.advanced (s : State) : State := { s with pc := s.pc + 4 }

/-- A register-specified shift names r15 neither in itself nor in the instruction's other registers (R163). -/
def ShiftOk (op : Operand2) (others : List RegNum) : Prop :=
  match op with
  | .shiftReg rm _ rs => rm ≠ pcNum ∧ rs ≠ pcNum ∧ pcNum ∉ others
  | _ => True

/-- The restrictions of the word and byte transfers on registers (R224): r15 is not the offset register; a base that is
written back is not r15, not the register transferred and not the offset register. -/
def TransferOk (writeBack : Bool) (rn rd : RegNum) (offsetRegs : List RegNum) : Prop :=
  pcNum ∉ offsetRegs ∧ (writeBack = true → rn ≠ pcNum ∧ rn ≠ rd ∧ rn ∉ offsetRegs)

/-- A word access at `ea` is made: the address is aligned, or UNALIGNED is rotate (R62, R63). -/
def WordOk (s : State) (ea : Word) : Prop := ea.extractLsb' 0 2 = 0#2 ∨ s.platform.unaligned = .rotate

/-- A multiple transfer from base `rn` is not UNPREDICTABLE by R255: a register in the list, a base that is not r15,
no address sequence that wraps (R77). -/
def BlockOk (p u : Bool) (rn : RegNum) (list : BitVec 16) (s : State) : Prop :=
  list ≠ 0#16 ∧ rn ≠ pcNum ∧
    (wordAligned (blockStart p u (readX s rn) (blockRegs list).length)).toNat + 4 * (blockRegs list).length ≤ 2 ^ 32

/-- The word address of the `k`-th register of a multiple transfer (R65, R250). -/
def blockAddr (p u : Bool) (rn : RegNum) (list : BitVec 16) (s : State) (k : Nat) : Word :=
  wordAligned (blockStart p u (readX s rn) (blockRegs list).length + BitVec.ofNat 32 (4 * k))

/-- The multiple loads of `list` that R253 to R255 allow beside `BlockOk`, and the mode whose bank they load: the base
not in the list with write-back, no write-back and a mode with an SPSR for the User-bank form, an SPSR for the restoring
form. -/
def LoadForm (c : Cond) (p u w : Bool) (rn : RegNum) (list : BitVec 16) (s : State) (i : Instr) (m : Mode) : Prop :=
  (i = .ldm c p u w rn list ∧ m = s.cpsr.mode ∧ (w = true → list.getLsbD rn.toNat = false)) ∨
  (∃ l, list = 0#1 ++ l ∧ i = .ldmUser c p u w rn l ∧ m = .usr ∧ w = false ∧ s.cpsr.mode.spsr?.isSome = true) ∨
  ∃ l, list = 1#1 ++ l ∧ i = .ldmRestore c p u w rn l ∧ m = s.cpsr.mode ∧
    (w = true → list.getLsbD rn.toNat = false) ∧ s.cpsr.mode.spsr?.isSome = true

/-- The same for the multiple stores (R251, R254, R255): with write-back the base only as the lowest register. -/
def StoreForm (c : Cond) (p u w : Bool) (rn : RegNum) (list : BitVec 16) (s : State) (i : Instr) (m : Mode) : Prop :=
  (i = .stm c p u w rn list ∧ m = s.cpsr.mode ∧
    (w = true → list.getLsbD rn.toNat = true → (blockRegs list).head? = some rn)) ∨
  (i = .stmUser c p u w rn list ∧ m = .usr ∧ w = false ∧ s.cpsr.mode.spsr?.isSome = true)

/-- What a data-processing instruction that writes a register other than r15 leaves: the value, the flags `p` if S is 1,
the next pc. -/
def dataNext (s : State) (sf : Bool) (rd : RegNum) (v : Word) (p : Psr) : State :=
  { writeX s rd v with pc := s.pc + 4, cpsr := if sf then p else s.cpsr, afterUserBank := false }

/-- What a comparison leaves: the flags `p` and the next pc. -/
def compareNext (s : State) (p : Psr) : State := { s with pc := s.pc + 4, cpsr := p, afterUserBank := false }

/-- A status word with the four flags replaced. -/
def Psr.flags (p : Psr) (n z c v : Bool) : Psr := { p with n := n, z := z, c := c, v := v }

/-- The signed value lies outside the 32-bit range (R12). -/
def overflows (i : Int) : Bool := decide (i < -2 ^ 31 ∨ 2 ^ 31 ≤ i)

/-- The outcome of writing `v` to r15 by a data-processing instruction with S = 0 (R167). -/
def JumpsTo (e : Out) (s : State) (v : Word) : Prop :=
  e = if v.extractLsb' 0 2 = 0#2 then .next { s with pc := v, afterUserBank := false } else .refused .unalignedTarget

/-- The outcome of an exception return to `v` (R167, R253): refused without an SPSR, with an SPSR that holds no legal
mode, or to ARM code at an address that is not word aligned; else the CPSR is the SPSR and the pc is `v`. -/
def ReturnsTo (e : Out) (s : State) (v : Word) : Prop :=
  match s.cpsr.mode.spsr? with
  | none => e = .refused .noSpsr
  | some q =>
    match Psr.ofWord? (s.spsr q) with
    | none => e = .refused .illegalMode
    | some p =>
      e = if p.t = false ∧ v.extractLsb' 0 2 ≠ 0#2 then .refused .unalignedTarget
        else .next { s with cpsr := p, pc := v, afterUserBank := false }

/-- The outcome of BX, BLX or a load to r15 with the value `v` (R142, R226, R252). -/
def ExchangesTo (e : Out) (s : State) (v : Word) : Prop :=
  e = if v.getLsbD 0 = false ∧ v.getLsbD 1 = true then .refused .unalignedTarget
    else .next { s with cpsr := { s.cpsr with t := v.getLsbD 0 }, pc := v &&& 0xFFFFFFFE#32, afterUserBank := false }

/-- The registers of the current bank that an instruction's rule reads or writes (R361, log 14): its register fields,
r14 where it links, and the list of a transfer of the current bank. -/
def touched : Instr → List RegNum
  | .and _ _ rn rd op | .eor _ _ rn rd op | .sub _ _ rn rd op | .rsb _ _ rn rd op | .add _ _ rn rd op
  | .adc _ _ rn rd op | .sbc _ _ rn rd op | .rsc _ _ rn rd op | .orr _ _ rn rd op | .bic _ _ rn rd op =>
    rn :: rd :: operandRegs op
  | .mov _ _ _ rd op | .mvn _ _ _ rd op => rd :: operandRegs op
  | .tst _ rn _ op | .teq _ rn _ op | .cmp _ rn _ op | .cmn _ rn _ op => rn :: operandRegs op
  | .mrs _ _ _ rd _ _ => [rd]
  | .msrReg _ _ _ _ _ rm | .bx _ _ rm => [rm]
  | .blxReg _ _ rm => [rm, lrNum]
  | .clz _ _ rd _ rm => [rd, rm]
  | .mul _ _ rd _ rs rm => [rd, rs, rm]
  | .mla _ _ rd rn rs rm => [rd, rn, rs, rm]
  | .umull _ _ rdHi rdLo rs rm | .umlal _ _ rdHi rdLo rs rm | .smull _ _ rdHi rdLo rs rm
  | .smlal _ _ rdHi rdLo rs rm => [rdHi, rdLo, rs, rm]
  | .swp _ rn rd _ rm | .swpb _ rn rd _ rm => [rn, rd, rm]
  | .strh _ _ _ _ rn rd off | .ldrh _ _ _ _ rn rd off | .ldrsb _ _ _ _ rn rd off | .ldrsh _ _ _ _ rn rd off =>
    rn :: rd :: halfOffsetRegs off
  | .ldr _ _ _ rn rd off | .ldrb _ _ _ rn rd off | .str _ _ _ rn rd off | .strb _ _ _ rn rd off
  | .ldrt _ _ rn rd off | .ldrbt _ _ rn rd off | .strt _ _ rn rd off | .strbt _ _ rn rd off =>
    rn :: rd :: wordOffsetRegs off
  | .ldm _ _ _ _ rn list | .stm _ _ _ _ rn list => rn :: blockRegs list
  | .ldmRestore _ _ _ _ rn list => rn :: blockRegs (1#1 ++ list)
  | .ldmUser _ _ _ _ rn _ | .stmUser _ _ _ _ rn _ => [rn]
  | .bl .. | .blxImm .. => [lrNum]
  | .b .. | .msrImm .. | .swi .. | .bkpt _ | .bkptNotAl .. | .undefined .. | .nvReserved _ | .unusedControl ..
  | .unusedArithmetic .. | .unusedLoadStore .. | .unusedCoprocessor .. | .ldc .. | .stc .. | .cdp .. | .mcr ..
  | .mrc .. => []

/-- The instructions whose own rule can write the pc (R15, R140 to R144, R167, R226, R252, R253). -/
def writesPc : Instr → Bool
  | .b .. | .bl .. | .bx .. | .blxReg .. | .blxImm .. | .ldmRestore .. => true
  | .and _ _ _ rd _ | .eor _ _ _ rd _ | .sub _ _ _ rd _ | .rsb _ _ _ rd _ | .add _ _ _ rd _ | .adc _ _ _ rd _
  | .sbc _ _ _ rd _ | .rsc _ _ _ rd _ | .orr _ _ _ rd _ | .bic _ _ _ rd _ | .mov _ _ _ rd _ | .mvn _ _ _ rd _
  | .ldr _ _ _ _ rd _ => rd == pcNum
  | .ldm _ _ _ _ _ list => list.getLsbD 15
  | .tst .. | .teq .. | .cmp .. | .cmn .. | .mrs .. | .msrReg .. | .msrImm .. | .clz .. | .bkpt _ | .bkptNotAl ..
  | .unusedControl .. | .mul .. | .mla .. | .unusedArithmetic .. | .umull .. | .umlal .. | .smull .. | .smlal ..
  | .swp .. | .swpb .. | .unusedLoadStore .. | .strh .. | .ldrh .. | .ldrsb .. | .ldrsh .. | .ldrt .. | .ldrb ..
  | .ldrbt .. | .str .. | .strt .. | .strb .. | .strbt .. | .undefined .. | .ldmUser .. | .stm .. | .stmUser ..
  | .nvReserved _ | .unusedCoprocessor .. | .ldc .. | .stc .. | .cdp .. | .mcr .. | .mrc .. | .swi .. => false

/-- The address `x` is outside the `n` bytes from `a` on. -/
def Outside (a n x : Nat) : Prop := x < a ∨ a + n ≤ x

/-- Every byte of memory reads alike (R69). -/
def SameMemory (s t : State) : Prop := ∀ x, Memory.read t.mem x = Memory.read s.mem x

/-- Every general register but those in the list of physical registers is unchanged. -/
def SameRegsBut (written : List (Option PReg)) (s t : State) : Prop := ∀ p, some p ∉ written → t.reg p = s.reg p

/-- Every SPSR is unchanged. -/
def SameSpsrs (s t : State) : Prop := ∀ q, t.spsr q = s.spsr q

/-- The inputs and the parameters are unchanged. -/
def SameInputs (s t : State) : Prop := t.lines = s.lines ∧ t.platform = s.platform

/-- The outcome of an exception taken by an instruction (R310): `ret` in the link register `lr` and the old CPSR in the
SPSR `q`, mode `m`, T clear, I set, the pc at offset `v` of the vectors; every other register, SPSR and CPSR bit, memory
and the inputs as they were. -/
def Enters (o : Out) (s : State) (lr : PReg) (q : SpsrName) (m : Mode) (ret v : Word) : Prop :=
  ∃ t, o = .next t ∧ (∀ r, t.reg r = if r = lr then ret else s.reg r) ∧
    (∀ x, t.spsr x = if x = q then s.cpsr.toWord else s.spsr x) ∧
    t.cpsr = { s.cpsr with mode := m, t := false, i := true } ∧ t.pc = vectorBase s.platform + v ∧
    SameMemory s t ∧ SameInputs s t

end Sys2Proof.Machine
end

