-- ==== Sys2Proof/Certificates/Slice0/Obligations.lean ====
section
/-!
DEFINITION. The statements for the provers, in the order of OBLIGATIONS.json.
-/

section
open Sys2Proof Sys2Proof.Machine

/-! ## Decoding and encoding -/

/-- The words of R94 to R107's worked examples decode to the instructions they stand for. -/
def Obligations.SpecWordsDecode : Prop :=
  decodeWord 0xE0910002#32 = .add .al true 1#4 0#4 (.shiftImm 2#4 .lsl 0#5) ∧
    decodeWord 0xE0000291#32 = .mul .al false 0#4 0#4 2#4 1#4 ∧
    decodeWord 0xEBFFFFBE#32 = .bl .al 0xFFFFBE#24 ∧
    decodeWord 0xE5210004#32 = .str .al .pre false 1#4 0#4 (.imm 4#12) ∧
    decodeWord 0xE1D100B2#32 = .ldrh .al true true false 1#4 0#4 (.imm 2#8) ∧
    decodeWord 0xE92D4010#32 = .stm .al true false true 13#4 0x4010#16 ∧
    decodeWord 0xE121F000#32 = .msrReg .al false 1#4 15#4 0#4 0#4 ∧
    decodeWord 0xEE110F10#32 = .mrc .al 0#3 1#4 0#4 15#4 0#3 0#4 ∧
    decodeWord 0xE1212374#32 = .bkpt 0x1234#16 ∧
    decodeWord 0xEF000011#32 = .swi .al 0x11#24

/-- Decoding an encoded well-formed instruction gives the instruction (R93 to R109): no bit of an encoding is dropped. -/
def Obligations.DecodeOfEncode : Prop := ∀ i : Instr, i.wellFormed = true → decodeWord (encode i) = i

/-- Every word decodes to a well-formed instruction, and encoding that instruction gives the word back (R112). -/
def Obligations.EncodeOfDecode : Prop := ∀ w : Word, (decodeWord w).wellFormed = true ∧ encode (decodeWord w) = w

/-- R110: an instruction with a condition that passes, one of whose "should be" fields holds another value, is refused.
Where another rule refuses it too, that this reason is the one named is the model's choice (log 18, DESIGN CHOICE). -/
def Obligations.FixedFieldsRefused : Prop :=
  ∀ (i : Instr) (c : Cond) (s : State), i.cond? = some c → condHolds c s.cpsr = true → i.fixedFields = false →
    s.afterUserBank = false → exec i s = .refused .fixedField

/-! ## Conditions -/

/-- R130: bits 31:28 of a word select its condition; the code and the predicate of every condition; code `1111` is no
condition. -/
def Obligations.ConditionPredicates : Prop :=
  ([0x0#4, 0x1#4, 0x2#4, 0x3#4, 0x4#4, 0x5#4, 0x6#4, 0x7#4, 0x8#4, 0x9#4, 0xA#4, 0xB#4, 0xC#4, 0xD#4, 0xE#4].map
      Cond.ofBits = [some .eq, some .ne, some .cs, some .cc, some .mi, some .pl, some .vs, some .vc, some .hi, some .ls,
        some .ge, some .lt, some .gt, some .le, some .al] ∧ Cond.ofBits 0xF#4 = none) ∧
  (∀ (w : Word) (c : Cond), Cond.ofBits (w.extractLsb' 28 4) = some c → (decodeWord w).cond? = some c) ∧
  ∀ p : Psr,
    (condHolds .eq p = true ↔ p.z = true) ∧ (condHolds .ne p = true ↔ p.z = false) ∧
    (condHolds .cs p = true ↔ p.c = true) ∧ (condHolds .cc p = true ↔ p.c = false) ∧
    (condHolds .mi p = true ↔ p.n = true) ∧ (condHolds .pl p = true ↔ p.n = false) ∧
    (condHolds .vs p = true ↔ p.v = true) ∧ (condHolds .vc p = true ↔ p.v = false) ∧
    (condHolds .hi p = true ↔ p.c = true ∧ p.z = false) ∧ (condHolds .ls p = true ↔ p.c = false ∨ p.z = true) ∧
    (condHolds .ge p = true ↔ p.n = p.v) ∧ (condHolds .lt p = true ↔ p.n ≠ p.v) ∧
    (condHolds .gt p = true ↔ p.z = false ∧ p.n = p.v) ∧ (condHolds .le p = true ↔ p.z = true ∨ p.n ≠ p.v) ∧
    condHolds .al p = true

/-- R131, R15: an instruction whose condition fails only advances the pc, whatever it is; for BKPT's bits with a
condition other than AL that is R131's side of the parameter `bkptPolicy` (log 13, DESIGN CHOICE). R26: nothing advances
past the top of memory, which is refused in the step that would do it (log 15, DEDUCED): at address 0xFFFFFFFC an
instruction whose condition fails is refused, and one that completes is one whose own rule writes the pc or takes an
exception. -/
def Obligations.FailedConditionAndTopOfMemory : Prop :=
  (∀ (i : Instr) (c : Cond) (s : State), i.cond? = some c → condHolds c s.cpsr = false →
    (∀ imm, i = .bkptNotAl c imm → s.platform.bkptPolicy = .conditional) →
    exec i s = if s.pc = 0xFFFFFFFC#32 then .refused .pcWrap else .next s.unmarked.advanced) ∧
  ∀ (i : Instr) (s t : State), s.pc = 0xFFFFFFFC#32 → exec i s = .next t →
    writesPc i = true ∨ ∃ e ∈ [Exc.undefined, .swi, .prefetchAbort, .dataAbort],
      t.cpsr.mode = e.mode ∧ t.cpsr.i = true ∧ t.pc = vectorBase s.platform + e.vector

/-! ## Registers, status words, memory -/

/-- R22: the physical register of every number in every mode; r15 is the pc. -/
def Obligations.RegisterBanks : Prop :=
  (∀ m r, bankReg m r = none ↔ r = 15#4) ∧
    (∀ m, [0#4, 1#4, 2#4, 3#4, 4#4, 5#4, 6#4, 7#4].map (bankReg m) =
      [some .r0, some .r1, some .r2, some .r3, some .r4, some .r5, some .r6, some .r7]) ∧
    (∀ m, m ≠ .fiq → [8#4, 9#4, 10#4, 11#4, 12#4].map (bankReg m) =
      [some .r8, some .r9, some .r10, some .r11, some .r12]) ∧
    [8#4, 9#4, 10#4, 11#4, 12#4].map (bankReg .fiq) =
      [some .r8_fiq, some .r9_fiq, some .r10_fiq, some .r11_fiq, some .r12_fiq] ∧
    [Mode.usr, .sys, .fiq, .irq, .svc, .abt, .und].map (fun m => bankReg m 13#4) =
      [some .r13_usr, some .r13_usr, some .r13_fiq, some .r13_irq, some .r13_svc, some .r13_abt, some .r13_und] ∧
    [Mode.usr, .sys, .fiq, .irq, .svc, .abt, .und].map (fun m => bankReg m 14#4) =
      [some .r14_usr, some .r14_usr, some .r14_fiq, some .r14_irq, some .r14_svc, some .r14_abt, some .r14_und]

/-- R9, R21: a register reads what was last written to it and a write changes no other register; no register is
hard-wired; r15 reads as the instruction's address plus 8, and writing it writes the pc. -/
def Obligations.RegisterReadWrite : Prop :=
  (∀ (s : State) (r r' : RegNum) (v : Word), r ≠ pcNum →
      readX (writeX s r v) r' = if r' = r then v else readX s r') ∧
    (∀ (s : State) (r : RegNum) (v : Word) (p : PReg),
      (writeX s r v).reg p = if bankReg s.cpsr.mode r = some p then v else s.reg p) ∧
    ∀ (s : State) (v : Word), readX s pcNum = s.pc + 8 ∧ (writeX s pcNum v).pc = v

/-- R27, R31: the places of the CPSR's fields, the five bits of each mode, and that a word with a legal mode stands for
exactly one CPSR. -/
def Obligations.StatusWordLayout : Prop :=
  ([Mode.usr, .fiq, .irq, .svc, .abt, .und, .sys].map Mode.bits =
    [0b10000#5, 0b10001#5, 0b10010#5, 0b10011#5, 0b10111#5, 0b11011#5, 0b11111#5]) ∧
    (∀ (b : BitVec 5) (m : Mode), Mode.ofBits b = some m ↔ m.bits = b) ∧
  (∀ p : Psr, p.toWord.getLsbD 31 = p.n ∧ p.toWord.getLsbD 30 = p.z ∧ p.toWord.getLsbD 29 = p.c ∧
      p.toWord.getLsbD 28 = p.v ∧ p.toWord.extractLsb' 8 20 = p.reserved ∧ p.toWord.getLsbD 7 = p.i ∧
      p.toWord.getLsbD 6 = p.f ∧ p.toWord.getLsbD 5 = p.t ∧ p.toWord.extractLsb' 0 5 = p.mode.bits) ∧
    (∀ p : Psr, Psr.ofWord? p.toWord = some p) ∧
    ∀ (w : Word) (p : Psr), Psr.ofWord? w = some p → p.toWord = w

/-- R60, R63, R69, R36: a word store puts each byte where the byte order says, changes no other byte, is read back by a
word load, notes its four addresses as stored and no other, and keeps memory's canonical form. -/
def Obligations.WordStoreLoad : Prop :=
  ∀ (s t : State) (a v : Word), writeWord s (wordAligned a) v = some t →
    (∀ k < 4, Memory.read t.mem ((wordAligned a).toNat + k) =
      some (if s.platform.bigEndian then v.extractLsb' (8 * (3 - k)) 8 else v.extractLsb' (8 * k) 8)) ∧
    (∀ x, Outside (wordAligned a).toNat 4 x → Memory.read t.mem x = Memory.read s.mem x) ∧
    readWord t (wordAligned a) = .ok v ∧
    (∀ x, x ∈ t.stored ↔ x ∈ s.stored ∨ ¬Outside (wordAligned a).toNat 4 x) ∧
    (Memory.wf s.mem = true → Memory.wf t.mem = true)

/-! ## Data processing -/

/-- R161: the immediate operand and its carry-out. -/
def Obligations.ShifterImmediate : Prop :=
  ∀ (rotate : BitVec 4) (imm8 : BitVec 8) (s : State),
    let x : Word := imm8.setWidth 32
    let v := (x >>> (2 * rotate.toNat)) ||| (x <<< (32 - 2 * rotate.toNat))
    operand2 (.imm rotate imm8) s = (v, if rotate = 0#4 then s.cpsr.c else v.getLsbD 31)

/-- R162: a register shifted by an immediate, row by row; register 15 reads as the instruction's address plus 8. -/
def Obligations.ShifterByImmediate : Prop :=
  ∀ (rm : RegNum) (s : State),
    let m := readX s rm
    readX s pcNum = s.pc + 8 ∧
    operand2 (.shiftImm rm .lsl 0#5) s = (m, s.cpsr.c) ∧
    operand2 (.shiftImm rm .lsr 0#5) s = (0#32, m.getLsbD 31) ∧
    operand2 (.shiftImm rm .asr 0#5) s = (if m.getLsbD 31 then 0xFFFFFFFF#32 else 0#32, m.getLsbD 31) ∧
    operand2 (.shiftImm rm .ror 0#5) s = (BitVec.ofBool s.cpsr.c ++ m.extractLsb' 1 31, m.getLsbD 0) ∧
    ∀ n : BitVec 5, n ≠ 0#5 →
      operand2 (.shiftImm rm .lsl n) s = (m <<< n.toNat, m.getLsbD (32 - n.toNat)) ∧
      operand2 (.shiftImm rm .lsr n) s = (m >>> n.toNat, m.getLsbD (n.toNat - 1)) ∧
      operand2 (.shiftImm rm .asr n) s = (m.sshiftRight n.toNat, m.getLsbD (n.toNat - 1)) ∧
      operand2 (.shiftImm rm .ror n) s =
        ((m >>> n.toNat) ||| (m <<< (32 - n.toNat)), m.getLsbD (n.toNat - 1))

/-- R163's table: a register shifted by the low byte of a register, row by row. -/
def Obligations.ShifterByRegister : Prop :=
  ∀ (rm rs : RegNum) (s : State),
    let m := readX s rm
    let n := (readX s rs).toNat % 256
    (n = 0 → ∀ k, operand2 (.shiftReg rm k rs) s = (m, s.cpsr.c)) ∧
    (1 ≤ n ∧ n ≤ 31 → operand2 (.shiftReg rm .lsl rs) s = (m <<< n, m.getLsbD (32 - n)) ∧
      operand2 (.shiftReg rm .lsr rs) s = (m >>> n, m.getLsbD (n - 1)) ∧
      operand2 (.shiftReg rm .asr rs) s = (m.sshiftRight n, m.getLsbD (n - 1))) ∧
    (n = 32 → operand2 (.shiftReg rm .lsl rs) s = (0#32, m.getLsbD 0) ∧
      operand2 (.shiftReg rm .lsr rs) s = (0#32, m.getLsbD 31)) ∧
    (33 ≤ n → operand2 (.shiftReg rm .lsl rs) s = (0#32, false) ∧
      operand2 (.shiftReg rm .lsr rs) s = (0#32, false)) ∧
    (32 ≤ n → operand2 (.shiftReg rm .asr rs) s =
      (if m.getLsbD 31 then 0xFFFFFFFF#32 else 0#32, m.getLsbD 31)) ∧
    (0 < n ∧ n % 32 = 0 → operand2 (.shiftReg rm .ror rs) s = (m, m.getLsbD 31)) ∧
    (0 < n % 32 → operand2 (.shiftReg rm .ror rs) s =
      ((m >>> (n % 32)) ||| (m <<< (32 - n % 32)), m.getLsbD (n % 32 - 1)))

/-- R163, R164: with a register-specified shift, r15 in any register field that is used makes the instruction
UNPREDICTABLE. Where R167 refuses it too, that this reason is the one named is the model's choice (log 18, DESIGN
CHOICE). -/
def Obligations.RegisterShiftOfPcRefused : Prop :=
  ∀ (c : Cond) (sf : Bool) (rn rd rm rs : RegNum) (k : ShiftKind) (s : State),
    condHolds c s.cpsr = true → s.afterUserBank = false →
    let op := Operand2.shiftReg rm k rs
    ((rm = pcNum ∨ rs = pcNum ∨ rn = pcNum ∨ rd = pcNum) →
      ∀ i ∈ [Instr.and c sf rn rd op, .eor c sf rn rd op, .sub c sf rn rd op, .rsb c sf rn rd op, .add c sf rn rd op,
        .adc c sf rn rd op, .sbc c sf rn rd op, .rsc c sf rn rd op, .orr c sf rn rd op, .bic c sf rn rd op],
      exec i s = .refused .r15Operand) ∧
    ((rm = pcNum ∨ rs = pcNum ∨ rd = pcNum) →
      ∀ i ∈ [Instr.mov c sf 0#4 rd op, .mvn c sf 0#4 rd op], exec i s = .refused .r15Operand) ∧
    ((rm = pcNum ∨ rs = pcNum ∨ rn = pcNum) →
      ∀ i ∈ [Instr.tst c rn 0#4 op, .teq c rn 0#4 op, .cmp c rn 0#4 op, .cmn c rn 0#4 op],
      exec i s = .refused .r15Operand)

/-- R170, R171, R182, R184, with R160 and R166: AND, EOR, ORR and BIC complete with these values; with S = 1 they set N
and Z from the result and C from the shifter, and leave V. -/
def Obligations.LogicalResults : Prop :=
  ∀ (c : Cond) (sf : Bool) (rn rd : RegNum) (op : Operand2) (s : State),
    Runs c (rn :: rd :: operandRegs op) s → HasNext s → rd ≠ pcNum → ShiftOk op [rn, rd] →
    let a := readX s rn
    let b := (operand2 op s).1
    let done := fun v : Word =>
      Host.Outcome.next (dataNext s sf rd v (s.cpsr.flags v.msb (v == 0#32) (operand2 op s).2 s.cpsr.v))
    exec (.and c sf rn rd op) s = done (a &&& b) ∧ exec (.eor c sf rn rd op) s = done (a ^^^ b) ∧
      exec (.orr c sf rn rd op) s = done (a ||| b) ∧ exec (.bic c sf rn rd op) s = done (a &&& ~~~b)

/-- R172, R173, R174, with R12, R160 and R166: SUB, RSB and ADD complete with the difference, the reverse difference and
the sum modulo 2^32; with S = 1 C is the unsigned carry or the inverse of the borrow, V signed overflow. -/
def Obligations.AddSubResults : Prop :=
  ∀ (c : Cond) (sf : Bool) (rn rd : RegNum) (op : Operand2) (s : State),
    Runs c (rn :: rd :: operandRegs op) s → HasNext s → rd ≠ pcNum → ShiftOk op [rn, rd] →
    let a := readX s rn
    let b := (operand2 op s).1
    let done := fun (v : Word) (carry overflow : Bool) =>
      Host.Outcome.next (dataNext s sf rd v (s.cpsr.flags v.msb (v == 0#32) carry overflow))
    exec (.sub c sf rn rd op) s = done (a - b) (decide (b.toNat ≤ a.toNat)) (overflows (a.toInt - b.toInt)) ∧
      exec (.rsb c sf rn rd op) s = done (b - a) (decide (a.toNat ≤ b.toNat)) (overflows (b.toInt - a.toInt)) ∧
      exec (.add c sf rn rd op) s =
        done (a + b) (decide (2 ^ 32 ≤ a.toNat + b.toNat)) (overflows (a.toInt + b.toInt))

/-- R175, R176, R177, with R12, R160 and R166: ADC, SBC and RSC complete with the sum with carry and the differences
with borrow (the C flag before the instruction, not the shifter's). -/
def Obligations.CarryArithmeticResults : Prop :=
  ∀ (c : Cond) (sf : Bool) (rn rd : RegNum) (op : Operand2) (s : State),
    Runs c (rn :: rd :: operandRegs op) s → HasNext s → rd ≠ pcNum → ShiftOk op [rn, rd] →
    let a := readX s rn
    let b := (operand2 op s).1
    let cin : Nat := if s.cpsr.c then 1 else 0
    let borrow : Nat := 1 - cin
    let done := fun (v : Word) (carry overflow : Bool) =>
      Host.Outcome.next (dataNext s sf rd v (s.cpsr.flags v.msb (v == 0#32) carry overflow))
    exec (.adc c sf rn rd op) s =
        done (a + b + BitVec.ofNat 32 cin) (decide (2 ^ 32 ≤ a.toNat + b.toNat + cin))
          (overflows (a.toInt + b.toInt + cin)) ∧
      exec (.sbc c sf rn rd op) s =
        done (a - b - BitVec.ofNat 32 borrow) (decide (b.toNat + borrow ≤ a.toNat))
          (overflows (a.toInt - b.toInt - borrow)) ∧
      exec (.rsc c sf rn rd op) s =
        done (b - a - BitVec.ofNat 32 borrow) (decide (a.toNat + borrow ≤ b.toNat))
          (overflows (b.toInt - a.toInt - borrow))

/-- R183, R185, with R160 and R166: MOV and MVN complete with operand 2 and its complement. -/
def Obligations.MoveResults : Prop :=
  ∀ (c : Cond) (sf : Bool) (rd : RegNum) (op : Operand2) (s : State),
    Runs c (rd :: operandRegs op) s → HasNext s → rd ≠ pcNum → ShiftOk op [rd] →
    let b := (operand2 op s).1
    let done := fun v : Word =>
      Host.Outcome.next (dataNext s sf rd v (s.cpsr.flags v.msb (v == 0#32) (operand2 op s).2 s.cpsr.v))
    exec (.mov c sf 0#4 rd op) s = done b ∧ exec (.mvn c sf 0#4 rd op) s = done (~~~b)

/-- R178 to R181, with R12 and R166: TST, TEQ, CMP and CMN complete, writing the flags and no register. -/
def Obligations.CompareResults : Prop :=
  ∀ (c : Cond) (rn : RegNum) (op : Operand2) (s : State),
    Runs c (rn :: operandRegs op) s → HasNext s → ShiftOk op [rn] →
    let a := readX s rn
    let b := (operand2 op s).1
    let done := fun (v : Word) (carry overflow : Bool) =>
      Host.Outcome.next (compareNext s (s.cpsr.flags v.msb (v == 0#32) carry overflow))
    exec (.tst c rn 0#4 op) s = done (a &&& b) (operand2 op s).2 s.cpsr.v ∧
      exec (.teq c rn 0#4 op) s = done (a ^^^ b) (operand2 op s).2 s.cpsr.v ∧
      exec (.cmp c rn 0#4 op) s =
        done (a - b) (decide (b.toNat ≤ a.toNat)) (overflows (a.toInt - b.toInt)) ∧
      exec (.cmn c rn 0#4 op) s =
        done (a + b) (decide (2 ^ 32 ≤ a.toNat + b.toNat)) (overflows (a.toInt + b.toInt))

/-- R167: with Rd = r15 the result goes to the pc; with S = 1 it is an exception return, and the flags come from the
SPSR. The result is reduced modulo 2^32 and is not refused for having wrapped, which is the model's reading of R26 (log
16, DEDUCED). -/
def Obligations.DataProcessingToPc : Prop :=
  ∀ (c : Cond) (rn : RegNum) (op : Operand2) (s : State),
    Runs c (rn :: pcNum :: operandRegs op) s → ShiftOk op [rn, pcNum] →
    let a := readX s rn
    let b := (operand2 op s).1
    let cin : Word := if s.cpsr.c then 1#32 else 0#32
    ∀ iv ∈ ([(fun sf => .and c sf rn pcNum op, a &&& b), (fun sf => .eor c sf rn pcNum op, a ^^^ b),
        (fun sf => .sub c sf rn pcNum op, a - b), (fun sf => .rsb c sf rn pcNum op, b - a),
        (fun sf => .add c sf rn pcNum op, a + b), (fun sf => .adc c sf rn pcNum op, a + b + cin),
        (fun sf => .sbc c sf rn pcNum op, a - b + cin - 1#32), (fun sf => .rsc c sf rn pcNum op, b - a + cin - 1#32),
        (fun sf => .orr c sf rn pcNum op, a ||| b), (fun sf => .bic c sf rn pcNum op, a &&& ~~~b),
        (fun sf => .mov c sf 0#4 pcNum op, b), (fun sf => .mvn c sf 0#4 pcNum op, ~~~b)] :
        List ((Bool → Instr) × Word)),
      JumpsTo (exec (iv.1 false) s) s iv.2 ∧ ReturnsTo (exec (iv.1 true) s) s iv.2

/-! ## Multiplies and CLZ -/

/-- R203, R204, R201: MUL and MLA complete with the low half of the exact product, plus the accumulator; with S = 1 N
and Z are set from it, V is kept, and nothing is said of C, which is a draw. -/
def Obligations.MultiplyResults : Prop :=
  ∀ (c : Cond) (sf : Bool) (rd rn rs rm : RegNum) (s : State),
    Runs c [rd, rn, rs, rm] s → HasNext s → pcNum ∉ [rd, rn, rs, rm] → rd ≠ rm →
    let done := fun (o : Out) (v : Word) => ∃ t, o = .next t ∧
      (∀ p, t.reg p = if bankReg s.cpsr.mode rd = some p then v else s.reg p) ∧ t.pc = s.pc + 4 ∧
      t.cpsr = (if sf then s.cpsr.flags v.msb (v == 0#32) t.cpsr.c s.cpsr.v else s.cpsr) ∧
      SameSpsrs s t ∧ SameMemory s t ∧ SameInputs s t
    done (exec (.mul c sf rd 0#4 rs rm) s) (readX s rm * readX s rs) ∧
      done (exec (.mla c sf rd rn rs rm) s) (readX s rm * readX s rs + readX s rn)

/-- R205 to R208, R201: the long multiplies complete with the exact unsigned or signed product, or with its sum with
RdHi:RdLo modulo 2^64; with S = 1 N and Z are set from the 64 bits, and nothing is said of C and V, which are draws. -/
def Obligations.LongMultiplyResults : Prop :=
  ∀ (c : Cond) (sf : Bool) (rdHi rdLo rs rm : RegNum) (s : State),
    Runs c [rdHi, rdLo, rs, rm] s → HasNext s → pcNum ∉ [rdHi, rdLo, rs, rm] →
    rdHi ≠ rdLo → rdHi ≠ rm → rdLo ≠ rm →
    let acc : BitVec 64 := readX s rdHi ++ readX s rdLo
    let um : BitVec 64 := (readX s rm).setWidth 64 * (readX s rs).setWidth 64
    let sm : BitVec 64 := (readX s rm).signExtend 64 * (readX s rs).signExtend 64
    let done := fun (o : Out) (v : BitVec 64) => ∃ t, o = .next t ∧
      (∀ p, t.reg p = if bankReg s.cpsr.mode rdHi = some p then v.extractLsb' 32 32
        else if bankReg s.cpsr.mode rdLo = some p then v.extractLsb' 0 32 else s.reg p) ∧ t.pc = s.pc + 4 ∧
      t.cpsr = (if sf then s.cpsr.flags v.msb (v == 0#64) t.cpsr.c t.cpsr.v else s.cpsr) ∧
      SameSpsrs s t ∧ SameMemory s t ∧ SameInputs s t
    done (exec (.umull c sf rdHi rdLo rs rm) s) um ∧ done (exec (.umlal c sf rdHi rdLo rs rm) s) (acc + um) ∧
      done (exec (.smull c sf rdHi rdLo rs rm) s) sm ∧ done (exec (.smlal c sf rdHi rdLo rs rm) s) (acc + sm)

/-- R209, R17: CLZ completes with 32 for zero, else with the number of zero bits above the most significant one. -/
def Obligations.ClzResult : Prop :=
  ∀ (c : Cond) (f1 f2 : BitVec 4) (rd rm : RegNum) (s : State),
    Runs c [rd, rm] s → HasNext s → rd ≠ pcNum → rm ≠ pcNum →
    ∃ k : Nat, exec (.clz c f1 rd f2 rm) s = .next (dataNext s false rd (BitVec.ofNat 32 k) s.cpsr) ∧
      ((readX s rm = 0#32 ∧ k = 32) ∨
        (k ≤ 31 ∧ (readX s rm).getLsbD (31 - k) = true ∧ ∀ j, 31 - k < j → (readX s rm).getLsbD j = false))

/-- R202, R110, R209: the multiplies are refused where a register field in use names r15 or the destination overlaps as
R202 forbids, and MUL where its bits 15:12 are not zero (R110); CLZ is refused where a field names r15 (R209). -/
def Obligations.MultiplyRestrictions : Prop :=
  ∀ (c : Cond) (sf : Bool) (a b rs rm : RegNum) (f1 f2 : BitVec 4) (s : State),
    condHolds c s.cpsr = true →
    ((pcNum ∈ [a, rs, rm] ∨ a = rm ∨ f1 ≠ 0#4) → ∃ r, exec (.mul c sf a f1 rs rm) s = .refused r) ∧
    ((pcNum ∈ [a, b, rs, rm] ∨ a = rm) → ∃ r, exec (.mla c sf a b rs rm) s = .refused r) ∧
    ((pcNum ∈ [a, b, rs, rm] ∨ a = b ∨ a = rm ∨ b = rm) →
      ∀ i ∈ [Instr.umull c sf a b rs rm, .umlal c sf a b rs rm, .smull c sf a b rs rm, .smlal c sf a b rs rm],
        ∃ r, exec i s = .refused r) ∧
    (pcNum ∈ [a, rm] → ∃ r, exec (.clz c f1 a f2 rm) s = .refused r)

/-- The frame of the instructions that only write registers: data processing with Rd other than r15, the multiplies,
CLZ and MRS leave every register but the destinations, the control bits of the CPSR, every SPSR and every byte of memory
as they were; with S = 0 the flags too (R28, R160, R166, R201). -/
def Obligations.RegisterInstructionsFrame : Prop :=
  ∀ (c : Cond) (sf : Bool) (rn rd rs rm : RegNum) (f1 f2 : BitVec 4) (op : Operand2) (s t : State), rd ≠ pcNum →
    (∀ i ∈ [Instr.and c sf rn rd op, .eor c sf rn rd op, .sub c sf rn rd op, .rsb c sf rn rd op, .add c sf rn rd op,
        .adc c sf rn rd op, .sbc c sf rn rd op, .rsc c sf rn rd op, .orr c sf rn rd op, .bic c sf rn rd op,
        .mov c sf f1 rd op, .mvn c sf f1 rd op, .mul c sf rd f1 rs rm, .mla c sf rd rn rs rm, .clz c f1 rd f2 rm,
        .mrs c sf f1 rd f2 f2, .umull c sf rd rn rs rm, .umlal c sf rd rn rs rm, .smull c sf rd rn rs rm,
        .smlal c sf rd rn rs rm],
      exec i s = .next t →
        SameSpsrs s t ∧ SameMemory s t ∧ SameInputs s t ∧
        t.cpsr = s.cpsr.flags t.cpsr.n t.cpsr.z t.cpsr.c t.cpsr.v ∧ (sf = false → t.cpsr = s.cpsr) ∧
        SameRegsBut [bankReg s.cpsr.mode rd, bankReg s.cpsr.mode rn] s t) ∧
    (∀ i ∈ [Instr.and c sf rn rd op, .eor c sf rn rd op, .sub c sf rn rd op, .rsb c sf rn rd op, .add c sf rn rd op,
        .adc c sf rn rd op, .sbc c sf rn rd op, .rsc c sf rn rd op, .orr c sf rn rd op, .bic c sf rn rd op,
        .mov c sf f1 rd op, .mvn c sf f1 rd op, .mul c sf rd f1 rs rm, .mla c sf rd rn rs rm, .clz c f1 rd f2 rm,
        .mrs c sf f1 rd f2 f2],
      exec i s = .next t → SameRegsBut [bankReg s.cpsr.mode rd] s t) ∧
    ∀ i ∈ [Instr.tst c rn f1 op, .teq c rn f1 op, .cmp c rn f1 op, .cmn c rn f1 op],
      exec i s = .next t → SameRegsBut [] s t ∧ SameSpsrs s t ∧ SameMemory s t ∧ SameInputs s t ∧
        t.cpsr = s.cpsr.flags t.cpsr.n t.cpsr.z t.cpsr.c t.cpsr.v

/-! ## Branches -/

/-- R140, R141, R26: B and BL go to the instruction's address plus 8 plus four times the signed offset, exactly, and are
refused where that lies outside the address space; BL writes the address of the next instruction to r14 of the current
mode and nothing else. -/
def Obligations.BranchResults : Prop :=
  ∀ (c : Cond) (off : BitVec 24) (s : State),
    let t : Int := s.pc.toNat + 8 + 4 * off.toInt
    (Runs c [] s →
      exec (.b c off) s = if 0 ≤ t ∧ t < 2 ^ 32 then .next { s with pc := BitVec.ofInt 32 t, afterUserBank := false }
        else .refused .branchWrap) ∧
    (Runs c [lrNum] s →
      exec (.bl c off) s = if 0 ≤ t ∧ t < 2 ^ 32 then
          .next { s.setReg s.cpsr.mode.lr (s.pc + 4) with pc := BitVec.ofInt 32 t, afterUserBank := false }
        else .refused .branchWrap)

/-- R142, R143, R144: BX and BLX (register) copy bit 0 of the target to T and clear it in the pc; a target whose two low
bits are `10` is refused. BX with Rm = r15 goes to the address plus 8 as R142 says, against test vector V10 (log 29,
DEDUCED). BLX reads Rm before it writes r14 of the current mode, and r15 is forbidden to it. BLX (immediate) always
executes, writes r14, sets T, and goes to the branch target plus two times H; a target outside the address space is
refused (R26, log 16, DEDUCED). -/
def Obligations.BranchExchangeResults : Prop :=
  (∀ (c : Cond) (rm : RegNum) (s : State),
    (Runs c [rm] s → ExchangesTo (exec (.bx c 0xFFF#12 rm) s) s (readX s rm)) ∧
    (Runs c [rm, lrNum] s → rm ≠ pcNum →
      ExchangesTo (exec (.blxReg c 0xFFF#12 rm) s) (s.setReg s.cpsr.mode.lr (s.pc + 4)) (readX s rm)) ∧
    (Runs c [rm, lrNum] s → rm = pcNum → exec (.blxReg c 0xFFF#12 rm) s = .refused .r15Operand)) ∧
  ∀ (h : Bool) (off : BitVec 24) (s : State), NoHazard [lrNum] s →
    let t : Int := s.pc.toNat + 8 + 4 * off.toInt + (if h then 2 else 0)
    exec (.blxImm h off) s = if 0 ≤ t ∧ t < 2 ^ 32 then
        .next { s.setReg s.cpsr.mode.lr (s.pc + 4) with
          cpsr := { s.cpsr with t := true }, pc := BitVec.ofInt 32 t, afterUserBank := false }
      else .refused .branchWrap

/-! ## Single transfers -/

/-- The addresses of the transfers: R221 to R223 for a word or byte, R234 for a half-word or signed byte, and R250's table
for the multiple transfers: the registers of the list, lowest first, the start address and the write-back value of each
addressing mode, and consecutive word addresses with bits 1:0 cleared (R65). -/
def Obligations.TransferAddresses : Prop :=
  (∀ (up : Bool) (rn rm : RegNum) (imm12 : BitVec 12) (off : WordOffset) (s : State),
    let base := readX s rn
    let offset := wordOffset off s
    let index := if up then base + offset else base - offset
    wordAddress .offset up rn off s = ⟨index, index, false⟩ ∧ wordAddress .pre up rn off s = ⟨index, index, true⟩ ∧
    wordAddress .post up rn off s = ⟨base, index, true⟩ ∧
    (wordOffset (.imm imm12) s).toNat = imm12.toNat ∧
    (∀ (k : ShiftKind) (n : BitVec 5), wordOffset (.scaled rm k n) s = (operand2 (.shiftImm rm k n) s).1)) ∧
  (∀ (u w : Bool) (rn rm : RegNum) (sbz : BitVec 4) (imm8 : BitVec 8) (off : HalfOffset) (s : State),
    let base := readX s rn
    let offset := halfOffset off s
    let index := if u then base + offset else base - offset
    halfAddress true u w rn off s = ⟨index, index, w⟩ ∧ halfAddress false u w rn off s = ⟨base, index, true⟩ ∧
    (halfOffset (.imm imm8) s).toNat = imm8.toNat ∧ halfOffset (.reg sbz rm) s = readX s rm) ∧
  ∀ (list : BitVec 16) (base : Word) (n : Nat),
    let size := BitVec.ofNat 32 (4 * n)
    ((blockRegs list).Pairwise fun a b => a.toNat < b.toNat) ∧
    (∀ r : RegNum, r ∈ blockRegs list ↔ list.getLsbD r.toNat = true) ∧
    blockStart false true base n = base ∧ blockStart true true base n = base + 4 ∧
    blockStart false false base n = base - size + 4 ∧ blockStart true false base n = base - size ∧
    blockFinal true base n = base + size ∧ blockFinal false base n = base - size ∧
    ∀ (p u : Bool) (rn : RegNum) (s : State) (k : Nat), blockAddr p u rn list s k =
      (blockStart p u (readX s rn) (blockRegs list).length + BitVec.ofNat 32 (4 * k)) &&& 0xFFFFFFFC#32

/-- R225, R230, R62, R67: LDR and LDRT to a register other than r15 complete with the aligned word rotated right by
eight times the low address bits, and with the base update. -/
def Obligations.LoadWordResults : Prop :=
  ∀ (c : Cond) (ix : Index) (up : Bool) (rn rd : RegNum) (off : WordOffset) (s : State) (w : Word),
    Runs c (rn :: rd :: wordOffsetRegs off) s → HasNext s → rd ≠ pcNum →
    let done := fun (o : Out) (a : Address) =>
      TransferOk a.writeBack rn rd (wordOffsetRegs off) → WordOk s a.ea → readWord s (wordAligned a.ea) = .ok w →
      o = .next { updateBase a rn (writeX s rd (w.rotateRight (8 * (a.ea.toNat % 4)))) with
        pc := s.pc + 4, afterUserBank := false }
    done (exec (.ldr c ix up rn rd off) s) (wordAddress ix up rn off s) ∧
      done (exec (.ldrt c up rn rd off) s) (wordAddress .post up rn off s)

/-- R226: LDR to r15 from an aligned address copies bit 0 of the word to T and goes to the word with that bit cleared;
from an address that is not aligned it is refused under UNALIGNED = rotate. -/
def Obligations.LoadToPc : Prop :=
  ∀ (c : Cond) (ix : Index) (up : Bool) (rn : RegNum) (off : WordOffset) (s : State) (w : Word),
    Runs c (rn :: pcNum :: wordOffsetRegs off) s →
    let a := wordAddress ix up rn off s
    TransferOk a.writeBack rn pcNum (wordOffsetRegs off) →
    (a.ea.extractLsb' 0 2 = 0#2 → readWord s a.ea = .ok w →
      ExchangesTo (exec (.ldr c ix up rn pcNum off) s) (updateBase a rn s) w) ∧
    (a.ea.extractLsb' 0 2 ≠ 0#2 → s.platform.unaligned = .rotate →
      exec (.ldr c ix up rn pcNum off) s = .refused .unalignedPcLoad)

/-- R228, R232, R235, R237, R238, R64: the byte and half-word loads complete with the byte or half-word at the effective
address, zero- or sign-extended, and with the base update. -/
def Obligations.LoadByteHalfResults : Prop :=
  ∀ (c : Cond) (ix : Index) (p u w : Bool) (rn rd : RegNum) (wo : WordOffset) (ho : HalfOffset) (s : State) (b : Byte)
    (h : BitVec 16), HasNext s → rd ≠ pcNum →
    let done := fun (o : Out) (a : Address) (regs : List RegNum) (v : Word) =>
      Runs c (rn :: rd :: regs) s → TransferOk a.writeBack rn rd regs →
      o = .next { updateBase a rn (writeX s rd v) with pc := s.pc + 4, afterUserBank := false }
    let a := wordAddress ix u rn wo s
    let at' := wordAddress .post u rn wo s
    let ah := halfAddress p u w rn ho s
    (readByte s a.ea = .ok b → done (exec (.ldrb c ix u rn rd wo) s) a (wordOffsetRegs wo) (b.setWidth 32)) ∧
    (readByte s at'.ea = .ok b → done (exec (.ldrbt c u rn rd wo) s) at' (wordOffsetRegs wo) (b.setWidth 32)) ∧
    (ho.fixedFields = true → (p = true ∨ w = false) → readByte s ah.ea = .ok b →
      done (exec (.ldrsb c p u w rn rd ho) s) ah (halfOffsetRegs ho) (b.signExtend 32)) ∧
    (ho.fixedFields = true → (p = true ∨ w = false) → ah.ea.getLsbD 0 = false → readHalf s ah.ea = .ok h →
      done (exec (.ldrh c p u w rn rd ho) s) ah (halfOffsetRegs ho) (h.setWidth 32) ∧
      done (exec (.ldrsh c p u w rn rd ho) s) ah (halfOffsetRegs ho) (h.signExtend 32))

/-- R227, R231, R63, R24: STR and STRT complete: the word of the aligned address holds the register (r15: the instruction's
address plus 8 or 12), every byte outside it reads as before, and of the registers only the base changes. -/
def Obligations.StoreWordResults : Prop :=
  ∀ (c : Cond) (ix : Index) (up : Bool) (rn rd : RegNum) (off : WordOffset) (s : State),
    Runs c (rn :: rd :: wordOffsetRegs off) s → HasNext s →
    let done := fun (o : Out) (a : Address) =>
      TransferOk a.writeBack rn rd (wordOffsetRegs off) → WordOk s a.ea →
      mappedRange s.platform (wordAligned a.ea).toNat 4 = true →
      ∃ t, o = .next t ∧ readWord t (wordAligned a.ea) =
          .ok (if rd = pcNum then s.pc + (if s.platform.pcStore = .plus8 then 8 else 12) else readX s rd) ∧
        (∀ x, Outside (wordAligned a.ea).toNat 4 x → Memory.read t.mem x = Memory.read s.mem x) ∧
        (∀ q, t.reg q = if a.writeBack = true ∧ bankReg s.cpsr.mode rn = some q then a.index else s.reg q) ∧
        t.pc = s.pc + 4 ∧ t.cpsr = s.cpsr ∧ SameSpsrs s t ∧ SameInputs s t
    done (exec (.str c ix up rn rd off) s) (wordAddress ix up rn off s) ∧
      (rd ≠ pcNum → done (exec (.strt c up rn rd off) s) (wordAddress .post up rn off s))

/-- R229, R233, R236, R67: STRB, STRBT and STRH complete: the byte or half-word at the effective address holds the low
bits of the register, every other byte reads as before, and of the registers only the base changes. -/
def Obligations.StoreByteHalfResults : Prop :=
  ∀ (c : Cond) (ix : Index) (p u w : Bool) (rn rd : RegNum) (wo : WordOffset) (ho : HalfOffset) (s : State),
    HasNext s → rd ≠ pcNum →
    let done := fun (o : Out) (a : Address) (regs : List RegNum) (n : Nat) (bytes : State → Prop) =>
      Runs c (rn :: rd :: regs) s → TransferOk a.writeBack rn rd regs → mappedRange s.platform a.ea.toNat n = true →
      ∃ t, o = .next t ∧ bytes t ∧
        (∀ x, Outside a.ea.toNat n x → Memory.read t.mem x = Memory.read s.mem x) ∧
        (∀ q, t.reg q = if a.writeBack = true ∧ bankReg s.cpsr.mode rn = some q then a.index else s.reg q) ∧
        t.pc = s.pc + 4 ∧ t.cpsr = s.cpsr ∧ SameSpsrs s t ∧ SameInputs s t
    let a := wordAddress ix u rn wo s
    let at' := wordAddress .post u rn wo s
    let ah := halfAddress p u w rn ho s
    let low := (readX s rd).extractLsb' 0 8
    let high := (readX s rd).extractLsb' 8 8
    done (exec (.strb c ix u rn rd wo) s) a (wordOffsetRegs wo) 1
        (fun t => Memory.read t.mem a.ea.toNat = some low) ∧
    done (exec (.strbt c u rn rd wo) s) at' (wordOffsetRegs wo) 1
        (fun t => Memory.read t.mem at'.ea.toNat = some low) ∧
    (ho.fixedFields = true → (p = true ∨ w = false) → ah.ea.getLsbD 0 = false →
      done (exec (.strh c p u w rn rd ho) s) ah (halfOffsetRegs ho) 2 fun t =>
        Memory.read t.mem ah.ea.toNat = some (if s.platform.bigEndian then high else low) ∧
        Memory.read t.mem (ah.ea.toNat + 1) = some (if s.platform.bigEndian then low else high))

/-- R224, R230 to R234, R260, R261: the register restrictions of the single transfers and of the swaps refuse, and so
does P = 0 with W = 1 in the half-word and signed-byte forms. R62 to R64: a misaligned word under UNALIGNED = refuse and
an odd half-word address under rotate or refuse are refused. -/
def Obligations.TransferRestrictions : Prop :=
  ∀ (c : Cond) (ix : Index) (p u w : Bool) (rn rd rm : RegNum) (sbz : BitVec 4) (wo : WordOffset) (ho : HalfOffset)
    (s : State), condHolds c s.cpsr = true →
    let wordRefused := fun ea : Word => ea.extractLsb' 0 2 ≠ 0#2 ∧ s.platform.unaligned = .refuse
    (wordRefused (wordAddress ix u rn wo s).ea →
      ∀ i ∈ [Instr.ldr c ix u rn rd wo, .str c ix u rn rd wo], ∃ r, exec i s = .refused r) ∧
    (wordRefused (readX s rn) →
      ∀ i ∈ [Instr.ldrt c u rn rd wo, .strt c u rn rd wo, .swp c rn rd sbz rm], ∃ r, exec i s = .refused r) ∧
    ((halfAddress p u w rn ho s).ea.getLsbD 0 = true → s.platform.unaligned ≠ .abort →
      ∀ i ∈ [Instr.ldrh c p u w rn rd ho, .strh c p u w rn rd ho, .ldrsh c p u w rn rd ho],
        ∃ r, exec i s = .refused r) ∧
    ((pcNum ∈ [rn, rd, rm] ∨ rn = rm ∨ rn = rd ∨ sbz ≠ 0#4) →
      ∀ i ∈ [Instr.swp c rn rd sbz rm, .swpb c rn rd sbz rm], ∃ r, exec i s = .refused r) ∧
    (¬TransferOk (wordAddress ix u rn wo s).writeBack rn rd (wordOffsetRegs wo) →
      ∀ i ∈ [Instr.ldr c ix u rn rd wo, .str c ix u rn rd wo], ∃ r, exec i s = .refused r) ∧
    ((rd = pcNum ∨ ¬TransferOk (wordAddress ix u rn wo s).writeBack rn rd (wordOffsetRegs wo)) →
      ∀ i ∈ [Instr.ldrb c ix u rn rd wo, .strb c ix u rn rd wo], ∃ r, exec i s = .refused r) ∧
    ((rd = pcNum ∨ ¬TransferOk true rn rd (wordOffsetRegs wo)) →
      ∀ i ∈ [Instr.ldrt c u rn rd wo, .strt c u rn rd wo, .ldrbt c u rn rd wo, .strbt c u rn rd wo],
        ∃ r, exec i s = .refused r) ∧
    ((rd = pcNum ∨ (p = false ∧ w = true) ∨ ¬TransferOk (!p || w) rn rd (halfOffsetRegs ho)) →
      ∀ i ∈ [Instr.ldrh c p u w rn rd ho, .strh c p u w rn rd ho, .ldrsb c p u w rn rd ho, .ldrsh c p u w rn rd ho],
        ∃ r, exec i s = .refused r)

/-- R239, R314, R62 to R64, R260, R261: a single transfer or a swap whose access touches an unmapped byte, or is
misaligned under UNALIGNED = abort, raises a Data Abort and changes nothing else: no register, no memory. That LDR to
r15 from a misaligned address aborts too under UNALIGNED = abort, where R224 and R226 call it UNPREDICTABLE, is the
model's reading (log 22, DEDUCED). -/
def Obligations.TransferAborts : Prop :=
  ∀ (c : Cond) (ix : Index) (p u w : Bool) (rn rd rm : RegNum) (wo : WordOffset) (ho : HalfOffset) (s : State),
    s.afterUserBank = false → condHolds c s.cpsr = true →
    let a := wordAddress ix u rn wo s
    let ah := halfAddress p u w rn ho s
    let base := readX s rn
    let wordAborts := fun ea : Word => (WordOk s ea ∧ mappedRange s.platform (wordAligned ea).toNat 4 = false) ∨
      (ea.extractLsb' 0 2 ≠ 0#2 ∧ s.platform.unaligned = .abort)
    let halfAborts := fun ea : Word => (ea.getLsbD 0 = false ∧ mappedRange s.platform ea.toNat 2 = false) ∨
      (ea.getLsbD 0 = true ∧ s.platform.unaligned = .abort)
    let byteAborts := fun ea : Word => mappedRange s.platform ea.toNat 1 = false
    (TransferOk a.writeBack rn rd (wordOffsetRegs wo) → wordAborts a.ea →
      exec (.str c ix u rn rd wo) s = .next (raiseDataAbort s) ∧
      ((rd = pcNum → a.ea.extractLsb' 0 2 = 0#2 ∨ s.platform.unaligned = .abort) →
        exec (.ldr c ix u rn rd wo) s = .next (raiseDataAbort s))) ∧
    (rd ≠ pcNum →
      (TransferOk a.writeBack rn rd (wordOffsetRegs wo) → byteAborts a.ea →
        ∀ i ∈ [Instr.ldrb c ix u rn rd wo, .strb c ix u rn rd wo], exec i s = .next (raiseDataAbort s)) ∧
      (TransferOk true rn rd (wordOffsetRegs wo) → wordAborts base →
        ∀ i ∈ [Instr.ldrt c u rn rd wo, .strt c u rn rd wo], exec i s = .next (raiseDataAbort s)) ∧
      (TransferOk true rn rd (wordOffsetRegs wo) → byteAborts base →
        ∀ i ∈ [Instr.ldrbt c u rn rd wo, .strbt c u rn rd wo], exec i s = .next (raiseDataAbort s)) ∧
      (TransferOk ah.writeBack rn rd (halfOffsetRegs ho) → ho.fixedFields = true → (p = true ∨ w = false) →
        (halfAborts ah.ea → ∀ i ∈ [Instr.ldrh c p u w rn rd ho, .strh c p u w rn rd ho, .ldrsh c p u w rn rd ho],
          exec i s = .next (raiseDataAbort s)) ∧
        (byteAborts ah.ea → exec (.ldrsb c p u w rn rd ho) s = .next (raiseDataAbort s))) ∧
      (pcNum ∉ [rn, rm] → rn ≠ rm → rn ≠ rd →
        (wordAborts base → exec (.swp c rn rd 0#4 rm) s = .next (raiseDataAbort s)) ∧
        (byteAborts base → exec (.swpb c rn rd 0#4 rm) s = .next (raiseDataAbort s))))

/-- The frame of the loads: they change the register transferred, the base, for a load to r15 the T bit, and the pc; or
they raise a Data Abort; every byte of memory is unchanged either way (R223, R225 to R239). -/
def Obligations.LoadsFrame : Prop :=
  ∀ (c : Cond) (ix : Index) (p u w : Bool) (rn rd : RegNum) (wo : WordOffset) (ho : HalfOffset) (s t : State),
    ∀ i ∈ [Instr.ldr c ix u rn rd wo, .ldrb c ix u rn rd wo, .ldrt c u rn rd wo, .ldrbt c u rn rd wo,
        .ldrh c p u w rn rd ho, .ldrsb c p u w rn rd ho, .ldrsh c p u w rn rd ho],
      exec i s = .next t →
        SameMemory s t ∧ SameInputs s t ∧
        (t = raiseDataAbort s.unmarked ∨
          (SameRegsBut [bankReg s.cpsr.mode rd, bankReg s.cpsr.mode rn] s t ∧ SameSpsrs s t ∧
            t.cpsr = { s.cpsr with t := t.cpsr.t } ∧ (rd ≠ pcNum → t.cpsr = s.cpsr)))

/-- The frame of the stores: they change the bytes of the stored word, half-word or byte, the base and the pc, or they
raise a Data Abort; every other byte of memory is unchanged either way (R223, R227 to R236, R239). -/
def Obligations.StoresFrame : Prop :=
  ∀ (c : Cond) (ix : Index) (p u w : Bool) (rn rd : RegNum) (wo : WordOffset) (ho : HalfOffset) (s t : State),
    let a := wordAddress ix u rn wo s
    let ah := halfAddress p u w rn ho s
    ∀ x ∈ ([(.str c ix u rn rd wo, wordAligned a.ea, 4), (.strt c u rn rd wo, wordAligned (readX s rn), 4),
        (.strb c ix u rn rd wo, a.ea, 1), (.strbt c u rn rd wo, readX s rn, 1), (.strh c p u w rn rd ho, ah.ea, 2)] :
        List (Instr × Word × Nat)),
      exec x.1 s = .next t →
        (∀ y, Outside x.2.1.toNat x.2.2 y → Memory.read t.mem y = Memory.read s.mem y) ∧ SameInputs s t ∧
        (t = raiseDataAbort s.unmarked ∨
          (SameRegsBut [bankReg s.cpsr.mode rn] s t ∧ SameSpsrs s t ∧ t.cpsr = s.cpsr))

/-! ## Multiple transfers and swaps -/

/-- R252, R250, R65: LDM (S = 0) without r15 in the list completes: each register of the list holds the word of its
address, lowest register first, the base is written back if W = 1, every other register and all of memory are
unchanged. -/
def Obligations.LoadMultipleResult : Prop :=
  ∀ (c : Cond) (p u w : Bool) (rn : RegNum) (list : BitVec 16) (s : State) (v : Nat → Word),
    let regs := blockRegs list
    Runs c (rn :: regs) s → HasNext s → BlockOk p u rn list s → WordOk s (readX s rn) → list.getLsbD 15 = false →
    (w = true → list.getLsbD rn.toNat = false) →
    (∀ k < regs.length, readWord s (blockAddr p u rn list s k) = .ok (v k)) →
    ∃ t, exec (.ldm c p u w rn list) s = .next t ∧
      (∀ k (h : k < regs.length), readX t regs[k] = v k) ∧
      (w = true → readX t rn = blockFinal u (readX s rn) regs.length) ∧
      SameRegsBut ((if w then [bankReg s.cpsr.mode rn] else []) ++ regs.map (bankReg s.cpsr.mode)) s t ∧
      t.pc = s.pc + 4 ∧ t.cpsr = s.cpsr ∧ SameSpsrs s t ∧ SameMemory s t ∧ SameInputs s t

/-- R252: LDM (S = 0) with r15 in the list also copies bit 0 of the last word to T and goes to that word with bit 0
cleared; a word whose two low bits are `10` is refused. -/
def Obligations.LoadMultipleToPc : Prop :=
  ∀ (c : Cond) (p u w : Bool) (rn : RegNum) (list : BitVec 16) (s : State) (v : Nat → Word),
    let regs := blockRegs list
    Runs c (rn :: regs) s → BlockOk p u rn list s → WordOk s (readX s rn) → list.getLsbD 15 = true →
    (w = true → list.getLsbD rn.toNat = false) →
    (∀ k < regs.length, readWord s (blockAddr p u rn list s k) = .ok (v k)) →
    let target := v (regs.length - 1)
    (target.extractLsb' 0 2 = 0b10#2 → exec (.ldm c p u w rn list) s = .refused .unalignedTarget) ∧
    (target.extractLsb' 0 2 ≠ 0b10#2 → ∃ t, exec (.ldm c p u w rn list) s = .next t ∧
      (∀ k (h : k < regs.length - 1), readX t (regs[k]'(by omega)) = v k) ∧
      (w = true → readX t rn = blockFinal u (readX s rn) regs.length) ∧
      SameRegsBut ((if w then [bankReg s.cpsr.mode rn] else []) ++ regs.map (bankReg s.cpsr.mode)) s t ∧
      t.pc = target &&& 0xFFFFFFFE#32 ∧ t.cpsr = { s.cpsr with t := target.getLsbD 0 } ∧
      SameSpsrs s t ∧ SameMemory s t ∧ SameInputs s t)

/-- R253: LDM with S = 1 and r15 in the list loads the registers of the old mode, writes back the base of the old mode,
copies the SPSR to the CPSR and goes to the last word: the exception return. It is refused where the SPSR holds no legal
mode, and where it would leave T = 0 with a target that is not word aligned. With W = 1 the base must not be in the list
(log 12, DEDUCED). -/
def Obligations.LoadMultipleRestore : Prop :=
  ∀ (c : Cond) (p u w : Bool) (rn : RegNum) (list : BitVec 15) (s : State) (v : Nat → Word) (q : SpsrName),
    let regs := blockRegs (1#1 ++ list)
    Runs c (rn :: regs) s → BlockOk p u rn (1#1 ++ list) s → WordOk s (readX s rn) →
    (w = true → (1#1 ++ list : BitVec 16).getLsbD rn.toNat = false) →
    (∀ k < regs.length, readWord s (blockAddr p u rn (1#1 ++ list) s k) = .ok (v k)) →
    s.cpsr.mode.spsr? = some q →
    let target := v (regs.length - 1)
    (Psr.ofWord? (s.spsr q) = none → ∃ r, exec (.ldmRestore c p u w rn list) s = .refused r) ∧
    ∀ psr : Psr, Psr.ofWord? (s.spsr q) = some psr →
      (psr.t = false → target.extractLsb' 0 2 ≠ 0#2 → ∃ r, exec (.ldmRestore c p u w rn list) s = .refused r) ∧
      (psr.t = true ∨ target.extractLsb' 0 2 = 0#2 →
        ∃ t, exec (.ldmRestore c p u w rn list) s = .next t ∧
          (∀ k (h : k < regs.length - 1), readBank s.cpsr.mode t (regs[k]'(by omega)) = v k) ∧
          (w = true → readBank s.cpsr.mode t rn = blockFinal u (readX s rn) regs.length) ∧
          SameRegsBut ((if w then [bankReg s.cpsr.mode rn] else []) ++ regs.map (bankReg s.cpsr.mode)) s t ∧
          t.pc = target ∧ t.cpsr = psr ∧ SameSpsrs s t ∧ SameMemory s t ∧ SameInputs s t)

/-- R254, R361: LDM with S = 1 and no r15 loads the User-mode registers whatever the mode, keeps the base, and marks the
next instruction. -/
def Obligations.LoadMultipleUser : Prop :=
  ∀ (c : Cond) (p u : Bool) (rn : RegNum) (list : BitVec 15) (s : State) (v : Nat → Word),
    let regs := blockRegs (0#1 ++ list)
    Runs c [rn] s → HasNext s → BlockOk p u rn (0#1 ++ list) s → WordOk s (readX s rn) →
    s.cpsr.mode ≠ .usr → s.cpsr.mode ≠ .sys →
    (∀ k < regs.length, readWord s (blockAddr p u rn (0#1 ++ list) s k) = .ok (v k)) →
    ∃ t, exec (.ldmUser c p u false rn list) s = .next t ∧
      (∀ k (h : k < regs.length), readBank .usr t regs[k] = v k) ∧
      SameRegsBut (regs.map (bankReg .usr)) s t ∧ t.afterUserBank = true ∧
      t.pc = s.pc + 4 ∧ t.cpsr = s.cpsr ∧ SameSpsrs s t ∧ SameMemory s t ∧ SameInputs s t

/-- R251, R254, R250, R65, R24: STM completes: each word of the block holds its register (r15: the instruction's address plus
8 or 12), lowest register at the lowest address, every other byte reads as before; with S = 0 the registers are the
current mode's and W = 1 writes the base back, with S = 1 they are the User-mode registers and the next instruction is
marked. -/
def Obligations.StoreMultipleResults : Prop :=
  ∀ (c : Cond) (p u w : Bool) (rn : RegNum) (list : BitVec 16) (s : State),
    let regs := blockRegs list
    HasNext s → BlockOk p u rn list s → WordOk s (readX s rn) →
    (∀ k < regs.length, mappedRange s.platform (blockAddr p u rn list s k).toNat 4 = true) →
    let done := fun (o : Out) (m : Mode) (wb mark : Bool) => ∃ t, o = .next t ∧
      (∀ k (h : k < regs.length), readWord t (blockAddr p u rn list s k) =
        .ok (if regs[k] = pcNum then s.pc + (if s.platform.pcStore = .plus8 then 8 else 12)
          else readBank m s regs[k])) ∧
      (∀ x, (∀ k < regs.length, Outside (blockAddr p u rn list s k).toNat 4 x) →
        Memory.read t.mem x = Memory.read s.mem x) ∧
      (∀ q, t.reg q = if wb = true ∧ bankReg s.cpsr.mode rn = some q then blockFinal u (readX s rn) regs.length
        else s.reg q) ∧
      t.afterUserBank = mark ∧ t.pc = s.pc + 4 ∧ t.cpsr = s.cpsr ∧ SameSpsrs s t ∧ SameInputs s t
    (Runs c (rn :: regs) s → (w = true → list.getLsbD rn.toNat = true → regs.head? = some rn) →
      done (exec (.stm c p u w rn list) s) s.cpsr.mode w false) ∧
    (Runs c [rn] s → s.cpsr.mode ≠ .usr → s.cpsr.mode ≠ .sys →
      done (exec (.stmUser c p u false rn list) s) .usr false true)

/-- R255: the UNPREDICTABLE multiple transfers are refused: an empty list, r15 as the base, a wrapping address sequence,
the base in the list with write-back (for STM not as the lowest register), write-back or User or System mode in the
User-bank forms, no SPSR in the restoring form. The model reads the base-in-list case, which R255 names for R251 and R252,
as R253's too (log 12, DEDUCED), and it refuses a base that is not word aligned under UNALIGNED = refuse, of which R65
does not speak (log 22, DEDUCED). -/
def Obligations.BlockRestrictions : Prop :=
  ∀ (c : Cond) (p u w : Bool) (rn : RegNum) (list : BitVec 16) (l15 : BitVec 15) (s : State),
    condHolds c s.cpsr = true →
    (¬BlockOk p u rn list s → ∀ i ∈ [Instr.ldm c p u w rn list, .stm c p u w rn list, .stmUser c p u w rn list],
      ∃ r, exec i s = .refused r) ∧
    (¬BlockOk p u rn (0#1 ++ l15) s → ∃ r, exec (.ldmUser c p u w rn l15) s = .refused r) ∧
    (¬BlockOk p u rn (1#1 ++ l15) s → ∃ r, exec (.ldmRestore c p u w rn l15) s = .refused r) ∧
    (list.getLsbD rn.toNat = true → ∃ r, exec (.ldm c p u true rn list) s = .refused r) ∧
    ((1#1 ++ l15 : BitVec 16).getLsbD rn.toNat = true → ∃ r, exec (.ldmRestore c p u true rn l15) s = .refused r) ∧
    (list.getLsbD rn.toNat = true → (∃ j < rn.toNat, list.getLsbD j = true) →
      ∃ r, exec (.stm c p u true rn list) s = .refused r) ∧
    ((w = true ∨ s.cpsr.mode = .usr ∨ s.cpsr.mode = .sys) →
      (∃ r, exec (.ldmUser c p u w rn l15) s = .refused r) ∧ ∃ r, exec (.stmUser c p u w rn list) s = .refused r) ∧
    ((s.cpsr.mode = .usr ∨ s.cpsr.mode = .sys) → ∃ r, exec (.ldmRestore c p u w rn l15) s = .refused r) ∧
    ((readX s rn).extractLsb' 0 2 ≠ 0#2 → s.platform.unaligned = .refuse →
      ∀ i ∈ [Instr.ldm c p u w rn list, .ldmUser c p u w rn l15, .ldmRestore c p u w rn l15, .stm c p u w rn list,
        .stmUser c p u w rn list], ∃ r, exec i s = .refused r)

/-- R256, R65, R70, R314: a multiple transfer whose word `j` is the first that aborts completes by entering Abort mode.
A load keeps the base and every register that none of the words before `j` was for, each other register holds its old or
its loaded word, and memory is as it was; a store has stored the words before `j` and nothing else, and keeps every
register. r14_abt, the SPSRs, the CPSR and the pc are what the entry leaves. Under UNALIGNED = abort a base that is not
word aligned raises the abort at once. The base is kept as the physical register it is (log 17, DEDUCED), and with W = 1
a base in the list of a restoring load is left out (log 12, DEDUCED). -/
def Obligations.MultipleTransferAborts : Prop :=
  ∀ (c : Cond) (p u w : Bool) (rn : RegNum) (list : BitVec 16) (s : State) (j : Nat) (v : Nat → Word),
    let regs := blockRegs list
    let addr := blockAddr p u rn list s
    let aborted := fun t : State =>
      t.cpsr = { s.cpsr with mode := .abt, t := false, i := true } ∧ t.pc = vectorBase s.platform + 0x10#32 ∧
        t.reg .r14_abt = s.pc + 8 ∧ (∀ q, t.spsr q = if q = .abt then s.cpsr.toWord else s.spsr q) ∧ SameInputs s t
    BlockOk p u rn list s →
    (WordOk s (readX s rn) → j < regs.length → (∀ k < j, mappedRange s.platform (addr k).toNat 4 = true) →
      mappedRange s.platform (addr j).toNat 4 = false →
      (∀ (i : Instr) (m : Mode), LoadForm c p u w rn list s i m → Runs c (touched i) s →
        (∀ k < j, readWord s (addr k) = .ok (v k)) →
        ∃ t, exec i s = .next t ∧ aborted t ∧ SameMemory s t ∧ ∀ q, q ≠ .r14_abt →
          (bankReg s.cpsr.mode rn = some q ∨ (∀ k (h : k < regs.length), k < j → bankReg m regs[k] ≠ some q) →
            t.reg q = s.reg q) ∧
          ∀ k (h : k < regs.length), k < j → bankReg m regs[k] = some q → t.reg q = s.reg q ∨ t.reg q = v k) ∧
      (∀ (i : Instr) (m : Mode), StoreForm c p u w rn list s i m → Runs c (touched i) s →
        ∃ t, exec i s = .next t ∧ aborted t ∧ SameRegsBut [some .r14_abt] s t ∧
          (∀ k (h : k < regs.length), k < j → readWord t (addr k) =
            .ok (if regs[k] = pcNum then s.pc + (if s.platform.pcStore = .plus8 then 8 else 12)
              else readBank m s regs[k])) ∧
          ∀ x, (∀ k < j, Outside (addr k).toNat 4 x) → Memory.read t.mem x = Memory.read s.mem x)) ∧
    (s.platform.unaligned = .abort → (readX s rn).extractLsb' 0 2 ≠ 0#2 →
      ∀ (i : Instr) (m : Mode), LoadForm c p u w rn list s i m ∨ StoreForm c p u w rn list s i m →
        Runs c (touched i) s → exec i s = .next (raiseDataAbort s.unmarked))

/-- R260, R261: SWP and SWPB complete: Rd holds the old word (rotated as a word load) or byte, memory holds Rm or its low
byte, and nothing else changes. -/
def Obligations.SwapResults : Prop :=
  ∀ (c : Cond) (rn rd rm : RegNum) (s : State) (w : Word) (b : Byte),
    Runs c [rn, rd, rm] s → HasNext s → pcNum ∉ [rn, rd, rm] → rn ≠ rm → rn ≠ rd →
    let addr := readX s rn
    let done := fun (o : Out) (a : Word) (n : Nat) (old : Word) (bytes : State → Prop) => ∃ t, o = .next t ∧ bytes t ∧
      (∀ x, Outside a.toNat n x → Memory.read t.mem x = Memory.read s.mem x) ∧
      (∀ q, t.reg q = if bankReg s.cpsr.mode rd = some q then old else s.reg q) ∧
      t.pc = s.pc + 4 ∧ t.cpsr = s.cpsr ∧ SameSpsrs s t ∧ SameInputs s t
    (WordOk s addr → readWord s (wordAligned addr) = .ok w →
      done (exec (.swp c rn rd 0#4 rm) s) (wordAligned addr) 4 (w.rotateRight (8 * (addr.toNat % 4)))
        fun t => readWord t (wordAligned addr) = .ok (readX s rm)) ∧
    (readByte s addr = .ok b →
      done (exec (.swpb c rn rd 0#4 rm) s) addr 1 (b.setWidth 32)
        fun t => Memory.read t.mem addr.toNat = some ((readX s rm).extractLsb' 0 8))

/-! ## Status register transfers -/

/-- R270: MRS completes with the CPSR, or with the SPSR of the current mode, and is refused where there is none. -/
def Obligations.MrsResults : Prop :=
  ∀ (c : Cond) (rd : RegNum) (s : State), Runs c [rd] s → HasNext s → rd ≠ pcNum →
    exec (.mrs c false 15#4 rd 0#4 0#4) s = .next (dataNext s false rd s.cpsr.toWord s.cpsr) ∧
    (∀ q, s.cpsr.mode.spsr? = some q →
      exec (.mrs c true 15#4 rd 0#4 0#4) s = .next (dataNext s false rd (s.spsr q) s.cpsr)) ∧
    (s.cpsr.mode = .usr ∨ s.cpsr.mode = .sys → exec (.mrs c true 15#4 rd 0#4 0#4) s = .refused .noSpsr)

/-- R271, R272: MSR to the CPSR completes bit by bit: in a privileged mode the flags, I, F and the mode take the operand
where the field mask selects them, in User mode only the flags; every other bit is kept. The operand is a register or a
rotated immediate. -/
def Obligations.MsrCpsrResults : Prop :=
  ∀ (c : Cond) (mask rotate : BitVec 4) (imm8 : BitVec 8) (rm : RegNum) (s : State), HasNext s →
    let done := fun (o : Out) (x : Word) => x &&& 0x0FFFFF00#32 = 0#32 →
      (s.cpsr.mode ≠ .usr → x.getLsbD 5 = false) →
      (s.cpsr.mode ≠ .usr → mask.getLsbD 0 = true → (Mode.ofBits (x.extractLsb' 0 5)).isSome = true) →
      ∃ q, o = .next { s with cpsr := q, pc := s.pc + 4, afterUserBank := false } ∧
        ∀ k < 32, q.toWord.getLsbD k =
          if (28 ≤ k ∧ mask.getLsbD 3 = true) ∨ (k < 8 ∧ k ≠ 5 ∧ mask.getLsbD 0 = true ∧ s.cpsr.mode ≠ .usr)
          then x.getLsbD k else s.cpsr.toWord.getLsbD k
    (Runs c [rm] s → rm ≠ pcNum → done (exec (.msrReg c false mask 15#4 0#4 rm) s) (readX s rm)) ∧
      (Runs c [] s → done (exec (.msrImm c false mask 15#4 rotate imm8) s)
        ((imm8.setWidth 32 : Word).rotateRight (2 * rotate.toNat)))

/-- R271, R272: MSR to the SPSR completes bit by bit: the flags and the low byte, T included, take the operand where the
field mask selects them; nothing else of the state changes. -/
def Obligations.MsrSpsrResults : Prop :=
  ∀ (c : Cond) (mask rotate : BitVec 4) (imm8 : BitVec 8) (rm : RegNum) (s : State) (q : SpsrName), HasNext s →
    s.cpsr.mode.spsr? = some q →
    let done := fun (o : Out) (x : Word) => x &&& 0x0FFFFF00#32 = 0#32 →
      ∃ v, o = .next { s.setSpsr q v with pc := s.pc + 4, afterUserBank := false } ∧
        ∀ k < 32, v.getLsbD k =
          if (28 ≤ k ∧ mask.getLsbD 3 = true) ∨ (k < 8 ∧ mask.getLsbD 0 = true) then x.getLsbD k
          else (s.spsr q).getLsbD k
    (Runs c [rm] s → rm ≠ pcNum → done (exec (.msrReg c true mask 15#4 0#4 rm) s) (readX s rm)) ∧
      (Runs c [] s → done (exec (.msrImm c true mask 15#4 rotate imm8) s)
        ((imm8.setWidth 32 : Word).rotateRight (2 * rotate.toNat)))

/-- R272, R270, R31, R32: MSR and MRS are refused with r15, with an operand that has any of bits 27:8 set, with the T bit
set for the CPSR in a privileged mode, with a mode that is none of the seven, and for the SPSR in a mode without one. -/
def Obligations.StatusTransferRestrictions : Prop :=
  ∀ (c : Cond) (r : Bool) (mask rotate : BitVec 4) (imm8 : BitVec 8) (rm : RegNum) (s : State),
    condHolds c s.cpsr = true →
    let stops := fun (o : Out) => ∃ e, o = .refused e
    stops (exec (.mrs c r 15#4 pcNum 0#4 0#4) s) ∧ stops (exec (.msrReg c r mask 15#4 0#4 pcNum) s) ∧
    ∀ ix ∈ ([(fun r => .msrReg c r mask 15#4 0#4 rm, readX s rm),
        (fun r => .msrImm c r mask 15#4 rotate imm8, rotatedImm rotate imm8)] : List ((Bool → Instr) × Word)),
      (ix.2 &&& 0x0FFFFF00#32 ≠ 0#32 → stops (exec (ix.1 r) s)) ∧
      (s.cpsr.mode ≠ .usr → ix.2.getLsbD 5 = true → stops (exec (ix.1 false) s)) ∧
      (s.cpsr.mode ≠ .usr → mask.getLsbD 0 = true → Mode.ofBits (ix.2.extractLsb' 0 5) = none →
        stops (exec (ix.1 false) s)) ∧
      (s.cpsr.mode = .usr ∨ s.cpsr.mode = .sys → stops (exec (ix.1 true) s))

/-! ## Exceptions on purpose, unused spaces -/

/-- R150, R290, R280 to R285, R296, R297: SWI, BKPT, the undefined space and every coprocessor instruction complete by
taking their exception: the old CPSR and the address of the next instruction are saved, and nothing else but the mode, T,
I and the pc changes. -/
def Obligations.TrapsTaken : Prop :=
  ∀ (c : Cond) (s : State) (imm24 : BitVec 24) (imm16 : BitVec 16) (hi : BitVec 20) (lo crn crd cp crm op4 : BitVec 4)
    (op1 op2 : BitVec 3) (p u n w l : Bool) (rn rd : RegNum) (off8 : BitVec 8) (rest : BitVec 20),
    Enters (exec (.bkpt imm16) s) s .r14_abt .abt .abt (s.pc + 4) 0x0C#32 ∧
    (condHolds c s.cpsr = true →
      Enters (exec (.swi c imm24) s) s .r14_svc .svc .svc (s.pc + 4) 0x08#32 ∧
      ∀ i ∈ [Instr.undefined c hi lo, .unusedCoprocessor c n l rest, .cdp c op4 crn crd cp op2 crm,
          .ldc c p u n w rn crd cp off8, .stc c p u n w rn crd cp off8, .mcr c op1 crn rd cp op2 crm,
          .mrc c op1 crn rd cp op2 crm],
        Enters (exec i s) s .r14_und .und .und (s.pc + 4) 0x04#32)

/-- R292 to R295, R133, R134, R291: a word of the unused arithmetic, control or load/store space whose condition passes
takes the Undefined Instruction exception under UNUSED_POLICY = undefined_trap and is refused under refuse; a
condition-1111 word other than BLX (immediate) is a no-op under NV_POLICY = never and refused under refuse; BKPT's bits
with a condition other than AL are refused where the condition passes, and where it fails they are refused or a no-op, by
the parameter that stands for the difference between R291 and R131 (log 13, DESIGN CHOICE). -/
def Obligations.ReservedSpaces : Prop :=
  (∀ (c : Cond) (hi : BitVec 2) (mid : BitVec 12) (lo : BitVec 4) (bits : BitVec 28) (s : State),
    condHolds c s.cpsr = true →
    ∀ i ∈ [Instr.unusedArithmetic c hi mid lo, .unusedControl c bits, .unusedLoadStore c bits],
      (s.platform.unusedPolicy = .undefinedTrap → Enters (exec i s) s .r14_und .und .und (s.pc + 4) 0x04#32) ∧
      (s.platform.unusedPolicy = .refuse → exec i s = .refused .unusedSpace)) ∧
  (∀ (bits : BitVec 28) (s : State),
    (s.platform.nvPolicy = .refuse → exec (.nvReserved bits) s = .refused .nvReserved) ∧
    (s.platform.nvPolicy = .never → HasNext s → exec (.nvReserved bits) s = .next s.unmarked.advanced)) ∧
  ∀ (c : Cond) (imm : BitVec 16) (s : State),
    ((condHolds c s.cpsr = true ∨ s.platform.bkptPolicy = .refuse) →
      exec (.bkptNotAl c imm) s = .refused .bkptCondition) ∧
    (condHolds c s.cpsr = false → s.platform.bkptPolicy = .conditional → HasNext s →
      exec (.bkptNotAl c imm) s = .next s.unmarked.advanced)

/-! ## Exception entry, interrupts, reset -/

/-- R310, R300, R305: exception entry writes r14 and the SPSR of the mode entered, sets the mode, clears T, sets I, sets F
for Reset and FIQ, goes to the vector, and changes nothing else: no other register, SPSR or CPSR bit and no byte of memory.
Every exception but Reset saves the old CPSR; r14 gets the instruction's address plus 8 for a Data Abort and plus 4 for
the others, where for IRQ and FIQ it is that of the next instruction. -/
def Obligations.ExceptionEntry : Prop :=
  ∀ (e : Exc) (ret saved : Word) (s : State),
    let t := enterException e ret saved s
    (∀ r, t.reg r = if r = e.mode.lr then ret else s.reg r) ∧
    (∀ q, t.spsr q = if some q = e.mode.spsr? then saved else s.spsr q) ∧
    t.cpsr = { s.cpsr with
      mode := e.mode, t := false, i := true, f := if e = .reset ∨ e = .fiq then true else s.cpsr.f } ∧
    SameMemory s t ∧ SameInputs s t ∧
    t.pc = (if s.platform.highVectors then 0xFFFF0000#32 else 0#32) + e.vector ∧
    [Exc.reset, .undefined, .swi, .prefetchAbort, .dataAbort, .irq, .fiq].map (fun e => (e.mode, e.vector.toNat)) =
      [(.svc, 0x00), (.und, 0x04), (.svc, 0x08), (.abt, 0x0C), (.abt, 0x10), (.irq, 0x18), (.fiq, 0x1C)] ∧
    [raiseUndefined s, raiseSwi s, raisePrefetchAbort s, raiseDataAbort s, raiseIrq s, raiseFiq s] =
      [(Exc.undefined, 4#32), (.swi, 4#32), (.prefetchAbort, 4#32), (.dataAbort, 8#32), (.irq, 4#32), (.fiq, 4#32)].map
        fun x => enterException x.1 (s.pc + x.2) s.cpsr.toWord s

/-- R15 steps 1 to 3, R311, R315, R316, R318: at a boundary an asserted Reset is taken first, and leaves the values of R37,
R350 and R351: mode, I, F, T, the pc, bits 27:8 zero (where R310's own words leave them untouched) and memory kept, in
mid-run as the model reads it (log 10, DEDUCED); nothing is said of the registers and flags it leaves unspecified. Then
an FIQ that F does not mask; then an IRQ that I does not mask; FIQ and IRQ save the old CPSR and the pc plus 4. -/
def Obligations.InterruptsAtBoundary : Prop :=
  ∀ (s : State) (l : Lines) (ls : List Lines), s.lines = l :: ls →
    (l.reset = true → ∃ t, step s = .next t ∧ t.cpsr.mode = .svc ∧ t.cpsr.i = true ∧ t.cpsr.f = true ∧
      t.cpsr.t = false ∧ t.cpsr.reserved = 0#20 ∧ t.pc = vectorBase s.platform ∧ t.mem = s.mem ∧
      t.platform = s.platform ∧ t.lines = ls) ∧
    (l.reset = false → l.fiq = true → s.cpsr.f = false →
      step s = .next (enterException .fiq (s.pc + 4) s.cpsr.toWord { s with lines := ls })) ∧
    (l.reset = false → (l.fiq = false ∨ s.cpsr.f = true) → l.irq = true → s.cpsr.i = false →
      step s = .next (enterException .irq (s.pc + 4) s.cpsr.toWord { s with lines := ls }))

/-- R37, R351: the values the spec gives the state after Reset. -/
def Obligations.ResetState : Prop :=
  State.reset.pc = 0#32 ∧ State.reset.cpsr.mode = .svc ∧ State.reset.cpsr.i = true ∧ State.reset.cpsr.f = true ∧
    State.reset.cpsr.t = false ∧ State.reset.cpsr.reserved = 0#20

/-! ## The step -/

/-- R15: with no line to take, in ARM state, at an aligned pc whose four bytes are mapped and hold a word, and which the
program has not stored to unless ALLOW_SMC is set, a step is the decoded instruction's `exec` on the state whose boundary
sample has been taken. -/
def Obligations.StepRunsDecoded : Prop :=
  ∀ (s : State) (w : Word), (sampled s).reset = false → ((sampled s).fiq = false ∨ s.cpsr.f = true) →
    ((sampled s).irq = false ∨ s.cpsr.i = true) → s.cpsr.t = false → s.pc.extractLsb' 0 2 = 0#2 →
    readWord s s.pc = .ok w → (s.platform.allowSelfModify = true ∨ ∀ k < 4, (s.pc.toNat + k) ∉ s.stored) →
    step s = exec (decodeWord w) { s with lines := s.lines.tail }

/-- R15 step 4, R25, R30, R75, R313: the steps with no line to take that fetch nothing: Thumb state, a pc that is not
aligned and a fetch of a stored byte without ALLOW_SMC are refused; an unmapped byte raises a Prefetch Abort, also where
another byte of the word has been stored, which the spec does not order (log 28, DEDUCED). -/
def Obligations.FetchStops : Prop :=
  ∀ (s : State) (w : Word), (sampled s).reset = false → ((sampled s).fiq = false ∨ s.cpsr.f = true) →
    ((sampled s).irq = false ∨ s.cpsr.i = true) →
    (s.cpsr.t = true → step s = .refused .thumbState) ∧
    (s.cpsr.t = false → s.pc.extractLsb' 0 2 ≠ 0#2 → step s = .refused .unalignedFetch) ∧
    (s.cpsr.t = false → s.pc.extractLsb' 0 2 = 0#2 → mappedRange s.platform s.pc.toNat 4 = false →
      step s = .next (enterException .prefetchAbort (s.pc + 4) s.cpsr.toWord { s with lines := s.lines.tail })) ∧
    (s.cpsr.t = false → s.pc.extractLsb' 0 2 = 0#2 → readWord s s.pc = .ok w → s.platform.allowSelfModify = false →
      (∃ k < 4, (s.pc.toNat + k) ∈ s.stored) → step s = .refused .selfModified)

/-- Every step keeps the invariant: memory and the set of stored addresses in canonical form, the pc aligned in ARM state
(R25), bits 27:8 of the CPSR and of every SPSR zero (R33). That a Reset in mid-run leaves bits 27:8 of the SPSRs zero,
which R37 does not say, is the model's reading (log 10, DEDUCED). -/
def Obligations.StepKeepsInvariant : Prop := ∀ s t : State, s.Inv → step s = .next t → t.Inv

/-- The state after reset satisfies the invariant; for the SPSRs, which R37 leaves unspecified, by the model's choice of 0
(log 2, DESIGN CHOICE). -/
def Obligations.ResetInvariant : Prop := State.reset.Inv

/-- R330, R331, R310: in User mode an instruction either leaves the mode and the interrupt masks as they are and changes
no SPSR and no register of another mode's bank, or it takes an exception: the mode, T, I and the pc are the exception's,
the User-mode CPSR and the return address are saved in the SPSR and r14 of the mode entered, and no other register of
another mode's bank and no other SPSR changes. -/
def Obligations.UserModeConfined : Prop :=
  ∀ (i : Instr) (s t : State), s.cpsr.mode = .usr → exec i s = .next t →
    (t.cpsr.mode = .usr ∧ t.cpsr.i = s.cpsr.i ∧ t.cpsr.f = s.cpsr.f ∧ SameSpsrs s t ∧
        ∀ p, (∀ r, bankReg .usr r ≠ some p) → t.reg p = s.reg p) ∨
      ∃ e ∈ [Exc.undefined, .swi, .prefetchAbort, .dataAbort],
        t.cpsr = { s.cpsr with mode := e.mode, t := false, i := true } ∧ t.pc = vectorBase s.platform + e.vector ∧
        (∀ x, t.spsr x = if some x = e.mode.spsr? then s.cpsr.toWord else s.spsr x) ∧
        t.reg e.mode.lr = s.pc + (if e = .dataAbort then 8 else 4) ∧
        ∀ p, (∀ r, bankReg .usr r ≠ some p) → p ≠ e.mode.lr → t.reg p = s.reg p

/-- R361: the banked registers are r8 to r14 in FIQ mode, r13 and r14 in the other exception modes. An instruction leaves
the mark set only where it is a User-bank transfer that passes its condition and does not abort. Right after one, every
instruction whose condition passes and that touches a banked register of the current mode is refused, whichever register
it is; what counts as touched and what clears the mark is the model's reading (log 14, DEDUCED), and that this reason is
the one named where another rule refuses too is its choice (log 18, DESIGN CHOICE). -/
def Obligations.UserBankHazard : Prop :=
  (∀ (m : Mode) (r : RegNum), bankedIn m r = true ↔
    (m = .fiq ∧ 8 ≤ r.toNat ∧ r.toNat ≤ 14) ∨ (m ∈ [Mode.irq, .svc, .abt, .und] ∧ (r = 13#4 ∨ r = 14#4))) ∧
  (∀ (i : Instr) (s t : State), exec i s = .next t → t.afterUserBank = true →
    ((∃ c p u rn list, i = .ldmUser c p u false rn list ∧ condHolds c s.cpsr = true) ∨
      ∃ c p u rn list, i = .stmUser c p u false rn list ∧ condHolds c s.cpsr = true) ∧
    t.pc = s.pc + 4 ∧ t.cpsr = s.cpsr) ∧
  (∀ (i : Instr) (c : Cond) (s : State), s.afterUserBank = true → i.cond? = some c → condHolds c s.cpsr = true →
    (∃ r ∈ touched i, bankedIn s.cpsr.mode r = true) → exec i s = .refused .bankedHazard) ∧
  ∀ (h : Bool) (off : BitVec 24) (s : State), s.afterUserBank = true → bankedIn s.cpsr.mode lrNum = true →
    exec (.blxImm h off) s = .refused .bankedHazard

end
end

