-- ==== Sys2Proof/Laws/Arithmetic.lean ====
section
/-!
SUPPORT. `AddWithCarry` in the terms of the instructions that use it: sums, differences, borrow (spec/00_scope.md R12,
spec/43_data_processing.md R166).
-/

namespace Sys2Proof.Machine

/-- The adder without carry-in and with it. -/
theorem addWithCarry_eq (a b : Word) (cin : Bool) :
    addWithCarry a b cin =
      { value := a + b + BitVec.ofNat 32 cin.toNat
        carry := decide (2 ^ 32 ≤ a.toNat + b.toNat + cin.toNat)
        overflow := some (decide (a.toInt + b.toInt + cin.toNat < -2 ^ 31 ∨ 2 ^ 31 ≤ a.toInt + b.toInt + cin.toNat)) } := by
  simp only [addWithCarry, AluResult.mk.injEq, and_true]
  apply BitVec.eq_of_toNat_eq
  simp [BitVec.toNat_add]

theorem toInt_not_eq (b : Word) : (~~~b).toInt = -b.toInt - 1 := by
  have hb := b.isLt
  have e : (~~~b).toNat = 2 ^ 32 - 1 - b.toNat := BitVec.toNat_not
  rw [BitVec.toInt_eq_toNat_cond, BitVec.toInt_eq_toNat_cond, e]
  split <;> split <;> omega

/-- With the second operand complemented the adder subtracts: C is set exactly where no borrow occurs (R12). -/
theorem addWithCarry_not (a b : Word) (cin : Bool) :
    addWithCarry a (~~~b) cin =
      { value := a - b - BitVec.ofNat 32 (1 - cin.toNat)
        carry := decide (b.toNat + (1 - cin.toNat) ≤ a.toNat)
        overflow := some (decide (a.toInt - b.toInt - (1 - cin.toNat : Nat) < -2 ^ 31 ∨
          2 ^ 31 ≤ a.toInt - b.toInt - (1 - cin.toNat : Nat))) } := by
  have hb := b.isLt
  have ha := a.isLt
  have e : (~~~b).toNat = 2 ^ 32 - 1 - b.toNat := BitVec.toNat_not
  simp only [addWithCarry, AluResult.mk.injEq, Option.some.injEq, toInt_not_eq, e]
  refine ⟨?_, ?_, ?_⟩
  · apply BitVec.eq_of_toNat_eq
    cases cin <;> simp [BitVec.toNat_sub] <;> omega
  · apply Bool.decide_congr
    cases cin <;> simp only [Bool.toNat_true, Bool.toNat_false] <;> omega
  · apply Bool.decide_congr
    cases cin <;> simp only [Bool.toNat_true, Bool.toNat_false] <;> omega

end Sys2Proof.Machine
end

