-- ==== Sys2Proof/Laws/State.lean ====
section
/-!
SUPPORT. One lemma per field per update of the state: what each named update leaves of every field it does not write,
and what it writes.
-/

namespace Sys2Proof.Machine

/-! ## A general register written -/

@[simp] theorem setReg_pc (s : State) (p : PReg) (v : Word) : (s.setReg p v).pc = s.pc := rfl
@[simp] theorem setReg_cpsr (s : State) (p : PReg) (v : Word) : (s.setReg p v).cpsr = s.cpsr := rfl
@[simp] theorem setReg_spsrs (s : State) (p : PReg) (v : Word) : (s.setReg p v).spsrs = s.spsrs := rfl
@[simp] theorem setReg_mem (s : State) (p : PReg) (v : Word) : (s.setReg p v).mem = s.mem := rfl
@[simp] theorem setReg_stored (s : State) (p : PReg) (v : Word) : (s.setReg p v).stored = s.stored := rfl
@[simp] theorem setReg_afterUserBank (s : State) (p : PReg) (v : Word) : (s.setReg p v).afterUserBank = s.afterUserBank := rfl
@[simp] theorem setReg_lines (s : State) (p : PReg) (v : Word) : (s.setReg p v).lines = s.lines := rfl
@[simp] theorem setReg_draws (s : State) (p : PReg) (v : Word) : (s.setReg p v).draws = s.draws := rfl
@[simp] theorem setReg_platform (s : State) (p : PReg) (v : Word) : (s.setReg p v).platform = s.platform := rfl

/-! ## An SPSR written -/

@[simp] theorem setSpsr_regs (s : State) (q : SpsrName) (v : Word) : (s.setSpsr q v).regs = s.regs := rfl
@[simp] theorem setSpsr_pc (s : State) (q : SpsrName) (v : Word) : (s.setSpsr q v).pc = s.pc := rfl
@[simp] theorem setSpsr_cpsr (s : State) (q : SpsrName) (v : Word) : (s.setSpsr q v).cpsr = s.cpsr := rfl
@[simp] theorem setSpsr_mem (s : State) (q : SpsrName) (v : Word) : (s.setSpsr q v).mem = s.mem := rfl
@[simp] theorem setSpsr_stored (s : State) (q : SpsrName) (v : Word) : (s.setSpsr q v).stored = s.stored := rfl
@[simp] theorem setSpsr_afterUserBank (s : State) (q : SpsrName) (v : Word) : (s.setSpsr q v).afterUserBank = s.afterUserBank := rfl
@[simp] theorem setSpsr_lines (s : State) (q : SpsrName) (v : Word) : (s.setSpsr q v).lines = s.lines := rfl
@[simp] theorem setSpsr_draws (s : State) (q : SpsrName) (v : Word) : (s.setSpsr q v).draws = s.draws := rfl
@[simp] theorem setSpsr_platform (s : State) (q : SpsrName) (v : Word) : (s.setSpsr q v).platform = s.platform := rfl

/-! ## A byte stored -/

@[simp] theorem storeByteAt_regs (s : State) (a : Nat) (v : Byte) : (storeByteAt s a v).regs = s.regs := rfl
@[simp] theorem storeByteAt_pc (s : State) (a : Nat) (v : Byte) : (storeByteAt s a v).pc = s.pc := rfl
@[simp] theorem storeByteAt_cpsr (s : State) (a : Nat) (v : Byte) : (storeByteAt s a v).cpsr = s.cpsr := rfl
@[simp] theorem storeByteAt_spsrs (s : State) (a : Nat) (v : Byte) : (storeByteAt s a v).spsrs = s.spsrs := rfl
@[simp] theorem storeByteAt_afterUserBank (s : State) (a : Nat) (v : Byte) : (storeByteAt s a v).afterUserBank = s.afterUserBank := rfl
@[simp] theorem storeByteAt_lines (s : State) (a : Nat) (v : Byte) : (storeByteAt s a v).lines = s.lines := rfl
@[simp] theorem storeByteAt_draws (s : State) (a : Nat) (v : Byte) : (storeByteAt s a v).draws = s.draws := rfl
@[simp] theorem storeByteAt_platform (s : State) (a : Nat) (v : Byte) : (storeByteAt s a v).platform = s.platform := rfl
@[simp] theorem storeByteAt_mem (s : State) (a : Nat) (v : Byte) : (storeByteAt s a v).mem = Memory.write s.mem a v := rfl
@[simp] theorem storeByteAt_stored (s : State) (a : Nat) (v : Byte) : (storeByteAt s a v).stored = insertAddr s.stored a := rfl

/-! ## A free bit drawn -/

@[simp] theorem drawBit_regs (s : State) : (drawBit s).2.regs = s.regs := rfl
@[simp] theorem drawBit_pc (s : State) : (drawBit s).2.pc = s.pc := rfl
@[simp] theorem drawBit_cpsr (s : State) : (drawBit s).2.cpsr = s.cpsr := rfl
@[simp] theorem drawBit_spsrs (s : State) : (drawBit s).2.spsrs = s.spsrs := rfl
@[simp] theorem drawBit_mem (s : State) : (drawBit s).2.mem = s.mem := rfl
@[simp] theorem drawBit_stored (s : State) : (drawBit s).2.stored = s.stored := rfl
@[simp] theorem drawBit_afterUserBank (s : State) : (drawBit s).2.afterUserBank = s.afterUserBank := rfl
@[simp] theorem drawBit_lines (s : State) : (drawBit s).2.lines = s.lines := rfl
@[simp] theorem drawBit_platform (s : State) : (drawBit s).2.platform = s.platform := rfl
@[simp] theorem drawBit_draws (s : State) : (drawBit s).2.draws = s.draws + 1 := rfl

/-! ## The boundary's sample taken -/

@[simp] theorem sampleTaken_regs (s : State) : (sampleTaken s).regs = s.regs := rfl
@[simp] theorem sampleTaken_pc (s : State) : (sampleTaken s).pc = s.pc := rfl
@[simp] theorem sampleTaken_cpsr (s : State) : (sampleTaken s).cpsr = s.cpsr := rfl
@[simp] theorem sampleTaken_spsrs (s : State) : (sampleTaken s).spsrs = s.spsrs := rfl
@[simp] theorem sampleTaken_mem (s : State) : (sampleTaken s).mem = s.mem := rfl
@[simp] theorem sampleTaken_stored (s : State) : (sampleTaken s).stored = s.stored := rfl
@[simp] theorem sampleTaken_afterUserBank (s : State) : (sampleTaken s).afterUserBank = s.afterUserBank := rfl
@[simp] theorem sampleTaken_draws (s : State) : (sampleTaken s).draws = s.draws := rfl
@[simp] theorem sampleTaken_platform (s : State) : (sampleTaken s).platform = s.platform := rfl
@[simp] theorem sampleTaken_lines (s : State) : (sampleTaken s).lines = s.lines.tail := rfl

/-! ## An instruction put at the pc from outside -/

@[simp] theorem loadInstr_regs (s : State) (w : Word) : (loadInstr s w).regs = s.regs := rfl
@[simp] theorem loadInstr_pc (s : State) (w : Word) : (loadInstr s w).pc = s.pc := rfl
@[simp] theorem loadInstr_cpsr (s : State) (w : Word) : (loadInstr s w).cpsr = s.cpsr := rfl
@[simp] theorem loadInstr_spsrs (s : State) (w : Word) : (loadInstr s w).spsrs = s.spsrs := rfl
@[simp] theorem loadInstr_stored (s : State) (w : Word) : (loadInstr s w).stored = s.stored := rfl
@[simp] theorem loadInstr_afterUserBank (s : State) (w : Word) : (loadInstr s w).afterUserBank = s.afterUserBank := rfl
@[simp] theorem loadInstr_lines (s : State) (w : Word) : (loadInstr s w).lines = s.lines := rfl
@[simp] theorem loadInstr_draws (s : State) (w : Word) : (loadInstr s w).draws = s.draws := rfl
@[simp] theorem loadInstr_platform (s : State) (w : Word) : (loadInstr s w).platform = s.platform := rfl

/-! ## Exception entry -/

@[simp] theorem enterException_mem (e : Exc) (ret saved : Word) (s : State) : (enterException e ret saved s).mem = s.mem := rfl
@[simp] theorem enterException_stored (e : Exc) (ret saved : Word) (s : State) : (enterException e ret saved s).stored = s.stored := rfl
@[simp] theorem enterException_lines (e : Exc) (ret saved : Word) (s : State) : (enterException e ret saved s).lines = s.lines := rfl
@[simp] theorem enterException_draws (e : Exc) (ret saved : Word) (s : State) : (enterException e ret saved s).draws = s.draws := rfl
@[simp] theorem enterException_platform (e : Exc) (ret saved : Word) (s : State) : (enterException e ret saved s).platform = s.platform := rfl
@[simp] theorem enterException_pc (e : Exc) (ret saved : Word) (s : State) :
    (enterException e ret saved s).pc = vectorBase s.platform + e.vector := rfl
@[simp] theorem enterException_cpsr (e : Exc) (ret saved : Word) (s : State) :
    (enterException e ret saved s).cpsr =
      { s.cpsr with mode := e.mode, t := false, i := true, f := s.cpsr.f || e.masksFiq } := rfl
@[simp] theorem enterException_afterUserBank (e : Exc) (ret saved : Word) (s : State) :
    (enterException e ret saved s).afterUserBank = false := rfl

end Sys2Proof.Machine
end

