-- ==== Sys2Proof/Laws/Registers.lean ====
section
/-!
SUPPORT. Registers: reading after writing, and what a write through the bank leaves alone (spec/10_state.md R21 to R24,
R32).
-/

namespace Sys2Proof.Machine

theorem PReg.index_inj {p q : PReg} (h : p.index = q.index) : p = q := by
  cases p <;> cases q <;> first | rfl | (exact absurd h (by decide))

theorem SpsrName.index_inj {p q : SpsrName} (h : p.index = q.index) : p = q := by
  cases p <;> cases q <;> first | rfl | (exact absurd h (by decide))

@[simp] theorem reg_setReg_same (s : State) (p : PReg) (v : Word) : (s.setReg p v).reg p = v :=
  Vector.getElem_set_self p.index.isLt

@[simp] theorem reg_setReg_ne (s : State) {p q : PReg} (v : Word) (h : q ≠ p) : (s.setReg p v).reg q = s.reg q :=
  Vector.getElem_set_ne p.index.isLt q.index.isLt fun e => h (PReg.index_inj (Fin.ext e.symm))

theorem reg_setReg (s : State) (p q : PReg) (v : Word) : (s.setReg p v).reg q = if q = p then v else s.reg q := by
  by_cases h : q = p
  · subst h; simp
  · simp [h]

@[simp] theorem spsr_setSpsr_same (s : State) (q : SpsrName) (v : Word) : (s.setSpsr q v).spsr q = v :=
  Vector.getElem_set_self q.index.isLt

@[simp] theorem spsr_setSpsr_ne (s : State) {p q : SpsrName} (v : Word) (h : q ≠ p) :
    (s.setSpsr p v).spsr q = s.spsr q :=
  Vector.getElem_set_ne p.index.isLt q.index.isLt fun e => h (SpsrName.index_inj (Fin.ext e.symm))

/-- A state's register depends on the register file alone. -/
theorem reg_congr {s t : State} (h : t.regs = s.regs) (p : PReg) : t.reg p = s.reg p := by
  simp [State.reg, h]

/-- A state's SPSR depends on the SPSRs alone. -/
theorem spsr_congr {s t : State} (h : t.spsrs = s.spsrs) (q : SpsrName) : t.spsr q = s.spsr q := by
  simp [State.spsr, h]

/-- The number 15 and no other names the pc (R21, R22). -/
theorem bankReg_eq_none (m : Mode) (r : RegNum) : bankReg m r = none ↔ r = pcNum := by
  revert r; cases m <;> decide

/-- In one mode, two numbers that name one register are one number (R22). -/
theorem bankReg_inj (m : Mode) (r r' : RegNum) (h : bankReg m r = bankReg m r') : r = r' := by
  revert r r'; cases m <;> decide

/-- What a write through a bank does to the registers (R9, R22). -/
theorem writeBank_reg (m : Mode) (s : State) (r : RegNum) (v : Word) (p : PReg) :
    (writeBank m s r v).reg p = if bankReg m r = some p then v else s.reg p := by
  unfold writeBank
  cases h : bankReg m r with
  | none => simp; rfl
  | some q => by_cases e : q = p <;> simp [e, eq_comm, reg_setReg]

@[simp] theorem writeBank_pc_ne (m : Mode) (s : State) {r : RegNum} (v : Word) (h : r ≠ pcNum) :
    (writeBank m s r v).pc = s.pc := by
  unfold writeBank
  cases e : bankReg m r with
  | none => exact absurd ((bankReg_eq_none m r).1 e) h
  | some q => rfl

@[simp] theorem writeBank_cpsr (m : Mode) (s : State) (r : RegNum) (v : Word) : (writeBank m s r v).cpsr = s.cpsr := by
  unfold writeBank; split <;> rfl
@[simp] theorem writeBank_spsrs (m : Mode) (s : State) (r : RegNum) (v : Word) :
    (writeBank m s r v).spsrs = s.spsrs := by
  unfold writeBank; split <;> rfl
@[simp] theorem writeBank_mem (m : Mode) (s : State) (r : RegNum) (v : Word) : (writeBank m s r v).mem = s.mem := by
  unfold writeBank; split <;> rfl
@[simp] theorem writeBank_stored (m : Mode) (s : State) (r : RegNum) (v : Word) :
    (writeBank m s r v).stored = s.stored := by
  unfold writeBank; split <;> rfl
@[simp] theorem writeBank_afterUserBank (m : Mode) (s : State) (r : RegNum) (v : Word) :
    (writeBank m s r v).afterUserBank = s.afterUserBank := by
  unfold writeBank; split <;> rfl
@[simp] theorem writeBank_lines (m : Mode) (s : State) (r : RegNum) (v : Word) :
    (writeBank m s r v).lines = s.lines := by
  unfold writeBank; split <;> rfl
@[simp] theorem writeBank_draws (m : Mode) (s : State) (r : RegNum) (v : Word) :
    (writeBank m s r v).draws = s.draws := by
  unfold writeBank; split <;> rfl
@[simp] theorem writeBank_platform (m : Mode) (s : State) (r : RegNum) (v : Word) :
    (writeBank m s r v).platform = s.platform := by
  unfold writeBank; split <;> rfl

/-- A write in the current mode, register by register. -/
theorem writeX_reg (s : State) (r : RegNum) (v : Word) (p : PReg) :
    (writeX s r v).reg p = if bankReg s.cpsr.mode r = some p then v else s.reg p := writeBank_reg _ s r v p

@[simp] theorem writeX_pc_ne (s : State) {r : RegNum} (v : Word) (h : r ≠ pcNum) : (writeX s r v).pc = s.pc :=
  writeBank_pc_ne _ s v h
@[simp] theorem writeX_cpsr (s : State) (r : RegNum) (v : Word) : (writeX s r v).cpsr = s.cpsr := writeBank_cpsr ..
@[simp] theorem writeX_spsrs (s : State) (r : RegNum) (v : Word) : (writeX s r v).spsrs = s.spsrs := writeBank_spsrs ..
@[simp] theorem writeX_mem (s : State) (r : RegNum) (v : Word) : (writeX s r v).mem = s.mem := writeBank_mem ..
@[simp] theorem writeX_stored (s : State) (r : RegNum) (v : Word) : (writeX s r v).stored = s.stored :=
  writeBank_stored ..
@[simp] theorem writeX_afterUserBank (s : State) (r : RegNum) (v : Word) :
    (writeX s r v).afterUserBank = s.afterUserBank := writeBank_afterUserBank ..
@[simp] theorem writeX_lines (s : State) (r : RegNum) (v : Word) : (writeX s r v).lines = s.lines := writeBank_lines ..
@[simp] theorem writeX_draws (s : State) (r : RegNum) (v : Word) : (writeX s r v).draws = s.draws := writeBank_draws ..
@[simp] theorem writeX_platform (s : State) (r : RegNum) (v : Word) : (writeX s r v).platform = s.platform :=
  writeBank_platform ..

/-- A register reads what was written to it; r15 reads the new pc plus 8 (R9). -/
theorem readX_writeX_same (s : State) {r : RegNum} (v : Word) (h : r ≠ pcNum) : readX (writeX s r v) r = v := by
  unfold readX readBank
  rw [writeX_cpsr]
  cases e : bankReg s.cpsr.mode r with
  | none => exact absurd ((bankReg_eq_none _ r).1 e) h
  | some p => simp [writeX_reg, e]

/-- Another register reads as before (R22). -/
theorem readX_writeX_ne (s : State) {r r' : RegNum} (v : Word) (h : r ≠ pcNum) (hne : r' ≠ r) :
    readX (writeX s r v) r' = readX s r' := by
  unfold readX readBank
  rw [writeX_cpsr]
  cases e : bankReg s.cpsr.mode r' with
  | none => simp [h]
  | some p =>
    have : bankReg s.cpsr.mode r ≠ some p := fun e' => hne (bankReg_inj _ _ _ (e.trans e'.symm))
    simp [writeX_reg, this]

/-- What exception entry does to the registers: r14 of the mode entered (R310). -/
theorem enterException_reg (e : Exc) (ret saved : Word) (s : State) (p : PReg) :
    (enterException e ret saved s).reg p = if p = e.mode.lr then ret else s.reg p := by
  have h : (enterException e ret saved s).reg p = (s.setReg e.mode.lr ret).reg p := rfl
  rw [h, reg_setReg]

/-- What exception entry does to the SPSRs: the SPSR of the mode entered (R310). -/
theorem enterException_spsr (e : Exc) (ret saved : Word) (s : State) (q : SpsrName) :
    (enterException e ret saved s).spsr q = if q = e.spsr then saved else s.spsr q := by
  have h : (enterException e ret saved s).spsr q = (s.setSpsr e.spsr saved).spsr q := rfl
  by_cases hq : q = e.spsr
  · subst hq; simp [h]
  · simp [h, hq]

end Sys2Proof.Machine
end

