-- ==== Sys2Proof/Laws/Memory.lean ====
section
/-!
SUPPORT. Memory: reading after writing, the canonical form, byte order (spec/20_memory.md R60, R63, R65, R69).
-/

namespace Sys2Proof.Machine

/-! ## One byte -/

/-- A read of the address written gives the byte written (R69). -/
@[simp] theorem Memory.read_write_same (m : List Host.Cell) (a : Nat) (v : Byte) :
    Memory.read (Memory.write m a v) a = some v := by
  induction m with
  | nil => simp [Memory.write, Memory.read]
  | cons h t ih =>
    obtain ⟨b, w⟩ := h
    unfold Memory.write
    split
    · simp [Memory.read]
    · split
      · simp [Memory.read]
      · simp_all [Memory.read]

/-- A read of another address gives what it gave (R69). -/
theorem Memory.read_write_ne (m : List Host.Cell) {a x : Nat} (v : Byte) (h : x ≠ a) :
    Memory.read (Memory.write m a v) x = Memory.read m x := by
  induction m with
  | nil => simp [Memory.write, Memory.read, h]
  | cons c t ih =>
    obtain ⟨b, w⟩ := c
    unfold Memory.write
    split
    · rw [Memory.read, if_neg h]
    · split
      · next e => subst e; simp [Memory.read, h]
      · simp [Memory.read, ih]

theorem Memory.read_write (m : List Host.Cell) (a x : Nat) (v : Byte) :
    Memory.read (Memory.write m a v) x = if x = a then some v else Memory.read m x := by
  by_cases h : x = a
  · subst h; simp
  · simp [h, Memory.read_write_ne]

/-! ## The canonical form -/

theorem risingFrom_mono {lo lo' : Nat} {l : List Nat} (h : risingFrom lo l = true) (hl : lo' ≤ lo) :
    risingFrom lo' l = true := by
  cases l with
  | nil => rfl
  | cons a t =>
    simp only [risingFrom, Bool.and_eq_true, decide_eq_true_eq] at h ⊢
    exact ⟨⟨hl.trans h.1.1, h.1.2⟩, h.2⟩

/-- Adding an address keeps a list rising. -/
theorem insertAddr_rising {lo a : Nat} {l : List Nat} (h : risingFrom lo l = true) (hlo : lo ≤ a) (ha : a < 2 ^ 32) :
    risingFrom lo (insertAddr l a) = true := by
  induction l generalizing lo with
  | nil => simpa [insertAddr, risingFrom, hlo] using ha
  | cons b t ih =>
    simp only [risingFrom, Bool.and_eq_true, decide_eq_true_eq] at h
    unfold insertAddr
    split
    · next hlt => simp only [risingFrom, Bool.and_eq_true, decide_eq_true_eq]; exact ⟨⟨hlo, ha⟩, ⟨hlt, h.1.2⟩, h.2⟩
    · split
      · simp only [risingFrom, Bool.and_eq_true, decide_eq_true_eq]; exact h
      · simp only [risingFrom, Bool.and_eq_true, decide_eq_true_eq]
        exact ⟨h.1, ih h.2 (by omega)⟩

/-- The addresses after a write are those before it and the one written. -/
theorem Memory.write_addrs (m : List Host.Cell) (a : Nat) (v : Byte) :
    (Memory.write m a v).map Prod.fst = insertAddr (m.map Prod.fst) a := by
  induction m with
  | nil => rfl
  | cons c t ih =>
    obtain ⟨b, w⟩ := c
    simp only [Memory.write, List.map_cons, insertAddr]
    split
    · rfl
    · split
      · next e => subst e; rfl
      · simp [ih]

/-- A write to an address of the 32-bit space keeps the canonical form. -/
theorem Memory.write_wf {m : List Host.Cell} (h : Memory.wf m = true) {a : Nat} (ha : a < 2 ^ 32) (v : Byte) :
    Memory.wf (Memory.write m a v) = true := by
  rw [Memory.wf, Memory.write_addrs]
  exact insertAddr_rising h (Nat.zero_le a) ha

/-- A byte below every listed address is unlisted. -/
theorem Memory.read_below {m : List Host.Cell} {lo a : Nat} (h : risingFrom lo (m.map Prod.fst) = true) (ha : a < lo) :
    Memory.read m a = none := by
  induction m generalizing lo with
  | nil => rfl
  | cons c t ih =>
    simp only [List.map_cons, risingFrom, Bool.and_eq_true, decide_eq_true_eq] at h
    obtain ⟨b, w⟩ := c
    rw [Memory.read, if_neg (by omega)]
    exact ih h.2 (by omega)

/-- In canonical form, memories that read alike are equal lists. -/
theorem Memory.ext_of_read {m m' : List Host.Cell} (h : Memory.wf m = true) (h' : Memory.wf m' = true)
    (e : ∀ a, Memory.read m a = Memory.read m' a) : m = m' := by
  suffices H : ∀ (m m' : List Host.Cell) (lo : Nat), risingFrom lo (m.map Prod.fst) = true →
      risingFrom lo (m'.map Prod.fst) = true → (∀ a, Memory.read m a = Memory.read m' a) → m = m' from H m m' 0 h h' e
  clear h h' e m m'
  intro m
  induction m with
  | nil =>
    intro m' lo _ h' e
    cases m' with
    | nil => rfl
    | cons c t => have := e c.1; simp [Memory.read] at this
  | cons c t ih =>
    intro m' lo h h' e
    cases m' with
    | nil => have := e c.1; simp [Memory.read] at this
    | cons c' t' =>
      obtain ⟨b, w⟩ := c
      obtain ⟨b', w'⟩ := c'
      simp only [List.map_cons, risingFrom, Bool.and_eq_true, decide_eq_true_eq] at h h'
      have hb : b = b' := by
        rcases Nat.lt_trichotomy b b' with hlt | heq | hgt
        · have := e b
          rw [Memory.read, if_pos rfl, Memory.read, if_neg (by omega), Memory.read_below h'.2 (by omega)] at this
          exact absurd this (by simp)
        · exact heq
        · have := e b'
          rw [Memory.read, if_neg (by omega), Memory.read_below h.2 (by omega), Memory.read, if_pos rfl] at this
          exact absurd this (by simp)
      subst hb
      have hw : w = w' := by have := e b; simpa [Memory.read] using this
      subst hw
      congr 1
      refine ih t' (b + 1) h.2 h'.2 fun a => ?_
      have ha := e a
      by_cases hab : a = b
      · subst hab
        rw [Memory.read_below h.2 (by omega), Memory.read_below h'.2 (by omega)]
      · simpa [Memory.read, hab] using ha

/-! ## Byte order -/

/-- The four bytes of a word assemble to it again, in either order (R60). -/
theorem joinWord_byteOfWord (big : Bool) (v : Word) :
    joinWord big (byteOfWord big v 0) (byteOfWord big v 1) (byteOfWord big v 2) (byteOfWord big v 3) = v := by
  cases big <;>
  · simp only [joinWord, byteOfWord, if_true, Bool.false_eq_true, if_false]
    ext i hi
    simp only [BitVec.getElem_append, BitVec.getElem_extractLsb']
    repeat' split
    all_goals (first | omega | (rw [← BitVec.getLsbD_eq_getElem]; congr 1; omega))

/-- The two bytes of a half-word assemble to it again, in either order (R60). -/
theorem joinHalf_byteOfHalf (big : Bool) (v : BitVec 16) :
    joinHalf big (byteOfHalf big v 0) (byteOfHalf big v 1) = v := by
  cases big <;>
  · simp only [joinHalf, byteOfHalf, if_true, Bool.false_eq_true, if_false]
    ext i hi
    simp only [BitVec.getElem_append, BitVec.getElem_extractLsb']
    repeat' split
    all_goals (first | omega | (rw [← BitVec.getLsbD_eq_getElem]; congr 1; omega))

/-! ## Addresses -/

/-- `wordAligned` clears the two low bits (R62, R65). -/
theorem wordAligned_toNat (a : Word) : (wordAligned a).toNat = a.toNat / 4 * 4 := by
  unfold wordAligned
  have e : a &&& 0xFFFFFFFC#32 = (a >>> 2) <<< 2 := by
    have hk : ∀ j : Fin 32, (0xFFFFFFFC#32).getLsbD j.1 = !decide (j.1 < 2) := by decide
    refine BitVec.eq_of_getLsbD_eq fun i hi => ?_
    rw [BitVec.getLsbD_and, hk ⟨i, hi⟩, BitVec.getLsbD_shiftLeft, BitVec.getLsbD_ushiftRight]
    by_cases h2 : i < 2
    · simp [h2]
    · simp [h2, hi, show 2 + (i - 2) = i by omega]
  rw [e, BitVec.toNat_shiftLeft, BitVec.toNat_ushiftRight, Nat.shiftLeft_eq, Nat.shiftRight_eq_div_pow]
  have := a.isLt
  omega

theorem wordAligned_toNat_add_lt (a : Word) {k : Nat} (hk : k < 4) : (wordAligned a).toNat + k < 2 ^ 32 := by
  have := wordAligned_toNat a
  have := a.isLt
  omega

/-- An address with bits 1:0 clear is its own word address. -/
theorem wordAligned_of_aligned {a : Word} (h : a.extractLsb' 0 2 = 0#2) : wordAligned a = a := by
  apply BitVec.eq_of_toNat_eq
  rw [wordAligned_toNat]
  have := congrArg BitVec.toNat h
  simp [BitVec.extractLsb'_toNat] at this
  omega

/-! ## Words -/

/-- What a word store does to every byte (R60, R63). -/
theorem writeWord_read {s t : State} {a v : Word} (h : writeWord s a v = some t) (x : Nat) :
    Memory.read t.mem x =
      if a.toNat ≤ x ∧ x < a.toNat + 4 then some (byteOfWord s.platform.bigEndian v (x - a.toNat))
      else Memory.read s.mem x := by
  unfold writeWord at h
  split at h
  · cases h
    simp only [storeByteAt_mem, Memory.read_write]
    by_cases hx : a.toNat ≤ x ∧ x < a.toNat + 4
    · rw [if_pos hx]
      have : x = a.toNat ∨ x = a.toNat + 1 ∨ x = a.toNat + 2 ∨ x = a.toNat + 3 := by omega
      rcases this with rfl | rfl | rfl | rfl <;> simp
    · rw [if_neg hx, if_neg (by omega), if_neg (by omega), if_neg (by omega), if_neg (by omega)]
  · cases h

/-- What a half-word store does to every byte (R60). -/
theorem writeHalf_read {s t : State} {a : Word} {v : BitVec 16} (h : writeHalf s a v = some t) (x : Nat) :
    Memory.read t.mem x =
      if a.toNat ≤ x ∧ x < a.toNat + 2 then some (byteOfHalf s.platform.bigEndian v (x - a.toNat))
      else Memory.read s.mem x := by
  unfold writeHalf at h
  split at h
  · cases h
    simp only [storeByteAt_mem, Memory.read_write]
    by_cases hx : a.toNat ≤ x ∧ x < a.toNat + 2
    · rw [if_pos hx]
      have : x = a.toNat ∨ x = a.toNat + 1 := by omega
      rcases this with rfl | rfl <;> simp
    · rw [if_neg hx, if_neg (by omega), if_neg (by omega)]
  · cases h

/-- What a byte store does to every byte. -/
theorem writeByte_read {s t : State} {a : Word} {v : Byte} (h : writeByte s a v = some t) (x : Nat) :
    Memory.read t.mem x = if x = a.toNat then some v else Memory.read s.mem x := by
  unfold writeByte at h
  split at h
  · cases h
    simp only [storeByteAt_mem, Memory.read_write]
  · cases h

/-- A store writes memory and the set of stored addresses and nothing else. -/
structure StoresOnly (s t : State) : Prop where
  regs : t.regs = s.regs
  pc : t.pc = s.pc
  cpsr : t.cpsr = s.cpsr
  spsrs : t.spsrs = s.spsrs
  afterUserBank : t.afterUserBank = s.afterUserBank
  lines : t.lines = s.lines
  draws : t.draws = s.draws
  platform : t.platform = s.platform

theorem StoresOnly.refl (s : State) : StoresOnly s s := ⟨rfl, rfl, rfl, rfl, rfl, rfl, rfl, rfl⟩

theorem StoresOnly.trans {s t u : State} (h : StoresOnly s t) (h' : StoresOnly t u) : StoresOnly s u :=
  ⟨h'.1.trans h.1, h'.2.trans h.2, h'.3.trans h.3, h'.4.trans h.4, h'.5.trans h.5, h'.6.trans h.6, h'.7.trans h.7,
    h'.8.trans h.8⟩

theorem writeWord_only {s t : State} {a v : Word} (h : writeWord s a v = some t) : StoresOnly s t := by
  unfold writeWord at h
  split at h
  · cases h; exact ⟨rfl, rfl, rfl, rfl, rfl, rfl, rfl, rfl⟩
  · cases h

theorem writeHalf_only {s t : State} {a : Word} {v : BitVec 16} (h : writeHalf s a v = some t) : StoresOnly s t := by
  unfold writeHalf at h
  split at h
  · cases h; exact ⟨rfl, rfl, rfl, rfl, rfl, rfl, rfl, rfl⟩
  · cases h

theorem writeByte_only {s t : State} {a : Word} {v : Byte} (h : writeByte s a v = some t) : StoresOnly s t := by
  unfold writeByte at h
  split at h
  · cases h; exact ⟨rfl, rfl, rfl, rfl, rfl, rfl, rfl, rfl⟩
  · cases h

/-- A word store succeeds exactly where its four bytes are mapped (R70). -/
theorem writeWord_isSome (s : State) (a v : Word) : (writeWord s a v).isSome = mappedRange s.platform a.toNat 4 := by
  unfold writeWord; split <;> simp_all

/-- A half-word store succeeds exactly where its two bytes are mapped (R70). -/
theorem writeHalf_isSome (s : State) (a : Word) (v : BitVec 16) :
    (writeHalf s a v).isSome = mappedRange s.platform a.toNat 2 := by
  unfold writeHalf; split <;> simp_all

/-- A byte store succeeds exactly where its byte is mapped (R70). -/
theorem writeByte_isSome (s : State) (a : Word) (v : Byte) :
    (writeByte s a v).isSome = mappedRange s.platform a.toNat 1 := by
  unfold writeByte; split <;> simp_all

/-- A read of a word any byte of which is not mapped aborts (R70). -/
theorem readWord_abort {s : State} {a : Word} (h : mappedRange s.platform a.toNat 4 = false) :
    readWord s a = .abort := by
  unfold readWord ifMapped
  simp [h]

/-- What a word load gives: the four bytes in the platform's byte order, if all are mapped and hold values. -/
theorem readWord_ok {s : State} {a w : Word} :
    readWord s a = .ok w ↔
      mappedRange s.platform a.toNat 4 = true ∧
        ∃ b0 b1 b2 b3, Memory.read s.mem a.toNat = some b0 ∧ Memory.read s.mem (a.toNat + 1) = some b1 ∧
          Memory.read s.mem (a.toNat + 2) = some b2 ∧ Memory.read s.mem (a.toNat + 3) = some b3 ∧
          joinWord s.platform.bigEndian b0 b1 b2 b3 = w := by
  unfold readWord ifMapped byteAt
  by_cases hm : mappedRange s.platform a.toNat 4 = true
  · rw [if_pos hm]
    cases h0 : Memory.read s.mem a.toNat <;> cases h1 : Memory.read s.mem (a.toNat + 1) <;>
      cases h2 : Memory.read s.mem (a.toNat + 2) <;> cases h3 : Memory.read s.mem (a.toNat + 3) <;>
      simp [Access.bind, hm]
  · simp [hm]

/-- A word load after a word store to the same address gives the word stored, in either byte order (R60, R69). -/
theorem readWord_writeWord {s t : State} {a v : Word} (h : writeWord s a v = some t) : readWord t a = .ok v := by
  have hp := (writeWord_only h).platform
  have hm : mappedRange s.platform a.toNat 4 = true := by rw [← writeWord_isSome s a v, h]; rfl
  refine readWord_ok.2 ⟨by rw [hp]; exact hm, _, _, _, _, ?_, ?_, ?_, ?_, joinWord_byteOfWord t.platform.bigEndian v⟩ <;>
    rw [writeWord_read h, hp] <;> simp

end Sys2Proof.Machine
end

