-- ==== Sys2Proof/Laws/Ops.lean ====
section
/-!
SUPPORT. One lemma per shared operation: all that it can do, if it answers a next state.
-/

namespace Sys2Proof.Machine

/-! ## The frame of an instruction -/

theorem hazard_false_iff (touched : List RegNum) (s : State) :
    (s.afterUserBank && touched.any (bankedIn s.cpsr.mode)) = false ↔ NoHazard touched s := by
  unfold NoHazard
  rw [Bool.and_eq_false_iff, List.any_eq_false]
  simp

theorem unconditional_of_noHazard {touched : List RegNum} {s : State} (h : NoHazard touched s) (body : State → Out) :
    unconditional touched s body = body s.unmarked := by
  unfold unconditional
  rw [(hazard_false_iff touched s).2 h]
  rfl

theorem unconditional_next {touched : List RegNum} {s t : State} {body : State → Out} :
    unconditional touched s body = .next t ↔ NoHazard touched s ∧ body s.unmarked = .next t := by
  by_cases h : NoHazard touched s
  · simp [unconditional_of_noHazard h, h]
  · unfold unconditional
    rw [if_pos (by simpa using mt (hazard_false_iff touched s).1 h)]
    simp [h]

theorem conditional_of_runs {c : Cond} {touched : List RegNum} {s : State} (h : Runs c touched s)
    (body : State → Out) : conditional c touched s body = body s.unmarked := by
  unfold conditional
  rw [if_pos h.1, unconditional_of_noHazard h.2]

/-- A conditional instruction whose condition fails is a plain advance (R131). -/
theorem conditional_of_fails {c : Cond} {touched : List RegNum} {s : State} (h : condHolds c s.cpsr = false)
    (body : State → Out) : conditional c touched s body = advance s.unmarked := by
  unfold conditional
  rw [h]
  rfl

theorem advance_next {s t : State} : advance s = .next t ↔ HasNext s ∧ t = s.advanced := by
  unfold advance HasNext State.advanced
  split <;> simp_all [eq_comm]

theorem advance_of_hasNext {s : State} (h : HasNext s) : advance s = .next s.advanced := advance_next.2 ⟨h, rfl⟩

/-- A conditional instruction either runs, or is skipped (R131). -/
theorem conditional_next {c : Cond} {touched : List RegNum} {s t : State} {body : State → Out} :
    conditional c touched s body = .next t ↔
      (Runs c touched s ∧ body s.unmarked = .next t) ∨
        (condHolds c s.cpsr = false ∧ HasNext s ∧ t = s.unmarked.advanced) := by
  unfold conditional Runs
  cases h : condHolds c s.cpsr
  · simp only [Bool.false_eq_true, if_false, false_and, true_and, false_or]
    exact advance_next
  · simp [unconditional_next]

@[simp] theorem guarded_none (k : Out) : guarded none k = k := rfl
@[simp] theorem guarded_some (r : Refusal) (k : Out) : guarded (some r) k = .refused r := rfl

theorem guarded_next {r : Option Refusal} {k : Out} {t : State} :
    guarded r k = .next t ↔ r = none ∧ k = .next t := by
  cases r <;> simp [guarded]

@[simp] theorem failIf_eq_none {b : Bool} {r : Refusal} : failIf b r = none ↔ b = false := by
  cases b <;> simp [failIf]

/-! ## Accesses -/

theorem withLoad_next {α : Type} {s t : State} {x : Access α} {k : α → Out} :
    withLoad s x k = .next t ↔ (∃ v, x = .ok v ∧ k v = .next t) ∨ (x = .abort ∧ t = raiseDataAbort s) := by
  cases x <;> simp [withLoad, eq_comm]

theorem withStore_next {s t : State} {x : Option State} {k : State → Out} :
    withStore s x k = .next t ↔ (∃ s', x = some s' ∧ k s' = .next t) ∨ (x = none ∧ t = raiseDataAbort s) := by
  cases x <;> simp [withStore, eq_comm]

/-- A word access goes on at an aligned address, or under UNALIGNED = rotate; under `abort` a misaligned one raises a
Data Abort (R62, R63). -/
theorem wordAccess_next {s t : State} {ea : Word} {k : Out} :
    wordAccess s ea k = .next t ↔
      ((ea.extractLsb' 0 2 = 0#2 ∨ s.platform.unaligned = .rotate) ∧ k = .next t) ∨
        (ea.extractLsb' 0 2 ≠ 0#2 ∧ s.platform.unaligned = .abort ∧ t = raiseDataAbort s) := by
  unfold wordAccess
  by_cases h : ea.extractLsb' 0 2 = 0#2
  · simp [h]
  · cases hu : s.platform.unaligned <;> simp [h, eq_comm]

/-- A half-word access goes on at an even address; under UNALIGNED = abort an odd one raises a Data Abort (R64). -/
theorem halfAccess_next {s t : State} {ea : Word} {k : Out} :
    halfAccess s ea k = .next t ↔
      (ea.getLsbD 0 = false ∧ k = .next t) ∨
        (ea.getLsbD 0 = true ∧ s.platform.unaligned = .abort ∧ t = raiseDataAbort s) := by
  unfold halfAccess
  cases h : ea.getLsbD 0
  · simp
  · cases hu : s.platform.unaligned <;> simp [eq_comm]

/-! ## Control transfers -/

theorem exchange_next {v : Word} {s t : State} :
    exchange v s = .next t ↔ v.extractLsb' 0 2 ≠ 0b10#2 ∧
      t = { s with cpsr := { s.cpsr with t := v.getLsbD 0 }, pc := v &&& 0xFFFFFFFE#32 } := by
  unfold exchange
  split <;> simp_all [eq_comm]

theorem jump_next {v : Word} {s t : State} :
    jump v s = .next t ↔ v.extractLsb' 0 2 = 0#2 ∧ t = { s with pc := v } := by
  unfold jump
  split <;> simp_all [eq_comm]

theorem withTarget_next {x : Option Word} {k : Word → Out} {t : State} :
    withTarget x k = .next t ↔ ∃ a, x = some a ∧ k a = .next t := by
  cases x <;> simp [withTarget]

/-- An exception return that completes: the mode has an SPSR, its value is a legal CPSR, and the target is aligned if
it is ARM code (R167, R253). -/
theorem exceptionReturn_next {v : Word} {s t : State} :
    exceptionReturn v s = .next t ↔
      ∃ q p, s.cpsr.mode.spsr? = some q ∧ Psr.ofWord? (s.spsr q) = some p ∧
        (p.t = true ∨ v.extractLsb' 0 2 = 0#2) ∧ t = { s with cpsr := p, pc := v } := by
  have hif : ∀ p : Psr, (!p.t && v.extractLsb' 0 2 != 0#2) = true ↔ ¬(p.t = true ∨ v.extractLsb' 0 2 = 0#2) := by
    intro p
    cases p.t <;> simp
  unfold exceptionReturn
  constructor
  · intro h
    split at h
    · cases h
    · next q hq =>
      split at h
      · cases h
      · next p hp =>
        split at h
        · cases h
        · next hn =>
          cases h
          exact ⟨q, p, hq, hp, not_not.1 (mt (hif p).2 hn), rfl⟩
  · rintro ⟨q, p, hq, hp, hc, rfl⟩
    simp only [hq, hp]
    rw [if_neg (fun h => (hif p).1 h hc)]

/-! ## Results -/

/-- A data-processing result written: to a register, or to the pc with or without an exception return (R160, R167). -/
theorem dataResult_next {sf : Bool} {rd : RegNum} {r : AluResult} {s t : State} :
    dataResult sf rd r s = .next t ↔
      (rd ≠ pcNum ∧ HasNext s ∧
          t = { writeX s rd r.value with cpsr := if sf then setFlags r s.cpsr else s.cpsr, pc := s.pc + 4 }) ∨
        (rd = pcNum ∧ sf = true ∧ exceptionReturn r.value s = .next t) ∨
        (rd = pcNum ∧ sf = false ∧ jump r.value s = .next t) := by
  unfold dataResult
  by_cases h : rd = pcNum
  · cases sf <;> simp [h]
  · cases sf <;> simp [h, advance_next, HasNext, State.advanced]

/-- The shifter's check passes exactly where r15 is not named in a register-specified shift (R163). -/
theorem regShiftCheck_eq_none {op : Operand2} {others : List RegNum} :
    regShiftCheck op others = none ↔ ShiftOk op others := by
  cases op with
  | shiftReg rm k rs =>
    simp only [regShiftCheck, ShiftOk, failIf_eq_none, List.contains_eq_mem, decide_eq_false_iff_not, List.mem_cons,
      not_or]
    exact ⟨fun h => ⟨Ne.symm h.1, Ne.symm h.2.1, h.2.2⟩, fun h => ⟨Ne.symm h.1, Ne.symm h.2.1, h.2.2⟩⟩
  | _ => simp [regShiftCheck, ShiftOk]

/-! ## Multiple transfers -/

theorem withBlock_next {m : Mode} {rn : RegNum} {s t : State} {x : BlockRead} {k : List (RegNum × Word) → Out} :
    withBlock m rn s x k = .next t ↔
      (∃ l, x = .ok l ∧ k l = .next t) ∨
        (∃ l, x = .abort l ∧ t = raiseDataAbort (drawLoaded m (bankReg s.cpsr.mode rn) l s)) := by
  cases x <;> simp [withBlock, eq_comm]

theorem withStored_next {x : Bool × State} {k : State → Out} {t : State} :
    withStored x k = .next t ↔ (x.1 = true ∧ k x.2 = .next t) ∨ (x.1 = false ∧ t = raiseDataAbort x.2) := by
  obtain ⟨b, s⟩ := x
  cases b <;> simp [withStored, eq_comm]

/-- The registers of a list are the numbers of its set bits (R250). -/
theorem mem_blockRegs {list : BitVec 16} {r : RegNum} : r ∈ blockRegs list ↔ list.getLsbD r.toNat = true := by
  unfold blockRegs
  simp only [List.mem_map, List.mem_filter, List.mem_range]
  constructor
  · rintro ⟨i, ⟨hi, hl⟩, rfl⟩
    simpa [Nat.mod_eq_of_lt (show i < 16 by omega)] using hl
  · intro h
    exact ⟨r.toNat, ⟨by have := r.isLt; omega, h⟩, by simp⟩

/-! ## A step -/

/-- With no line asserted and unmasked, a step takes no exception at the boundary (R15). -/
theorem boundary_quiet {s : State} {k : State → Out} (hr : (sampled s).reset = false)
    (hf : ((sampled s).fiq && !s.cpsr.f) = false) (hi : ((sampled s).irq && !s.cpsr.i) = false) :
    boundary s k = k (sampleTaken s) := by
  simp [boundary, hr, hf, hi]

/-- A fetch that gives a word runs what it decodes to (R15 step 4). -/
theorem fetch_of_readWord {s : State} {k : Instr → Out} {w : Word} (ht : s.cpsr.t = false)
    (hp : s.pc.extractLsb' 0 2 = 0#2) (hw : readWord s s.pc = .ok w)
    (hs : s.platform.allowSelfModify = true ∨ selfWritten s s.pc.toNat 4 = false) :
    fetch s k = k (decodeWord w) := by
  rcases hs with hs | hs <;> simp [fetch, ht, hp, hw, hs]

end Sys2Proof.Machine
end

