-- ==== Sys2Proof/Laws/Invariant.lean ====
section
/-!
SUPPORT. The invariant of Safety.lean under each shared update of the state.
-/

namespace Sys2Proof.Machine

/-- The invariant depends on these fields alone. -/
theorem Inv_congr {s t : State} (h : s.Inv) (hm : t.mem = s.mem) (hs : t.stored = s.stored) (hp : t.pc = s.pc)
    (hc : t.cpsr = s.cpsr) (hq : t.spsrs = s.spsrs) : t.Inv := by
  unfold State.Inv State.pcAligned State.spsrsReservedZero
  rw [hm, hs, hp, hc, hq]
  exact h

/-- A register other than r15 written. -/
theorem Inv_writeBank {s : State} (h : s.Inv) (m : Mode) {r : RegNum} (hr : r ≠ pcNum) (v : Word) :
    (writeBank m s r v).Inv := Inv_congr h (by simp) (by simp) (by simp [hr]) (by simp) (by simp)

theorem Inv_writeX {s : State} (h : s.Inv) {r : RegNum} (hr : r ≠ pcNum) (v : Word) : (writeX s r v).Inv :=
  Inv_writeBank h _ hr v

/-- A base register updated; a base that is written back is not r15 (R224). -/
theorem Inv_updateBase {s : State} (h : s.Inv) (a : Address) {rn : RegNum} (hr : a.writeBack = true → rn ≠ pcNum) :
    (updateBase a rn s).Inv := by
  unfold updateBase
  split
  · next hw => exact Inv_writeX h (hr hw) _
  · exact h

theorem Inv_unmarked {s : State} (h : s.Inv) : s.unmarked.Inv := Inv_congr h rfl rfl rfl rfl rfl

theorem Inv_drawBit {s : State} (h : s.Inv) : (drawBit s).2.Inv := Inv_congr h rfl rfl rfl rfl rfl

/-- A store of one byte to an address of the 32-bit space keeps both canonical forms. -/
theorem Inv_storeByteAt {s : State} (h : s.Inv) {a : Nat} (ha : a < 2 ^ 32) (v : Byte) : (storeByteAt s a v).Inv :=
  ⟨Memory.write_wf h.1 ha v, insertAddr_rising h.2.1 (Nat.zero_le a) ha, h.2.2.1, h.2.2.2.1, h.2.2.2.2⟩

theorem Inv_writeWord {s t : State} (h : s.Inv) {a v : Word} (e : writeWord s (wordAligned a) v = some t) : t.Inv := by
  have hlt := fun k (hk : k < 4) => wordAligned_toNat_add_lt a hk
  unfold writeWord at e
  split at e
  · cases e
    exact Inv_storeByteAt (Inv_storeByteAt (Inv_storeByteAt (Inv_storeByteAt h (hlt 0 (by omega)) _) (hlt 1 (by omega)) _)
      (hlt 2 (by omega)) _) (hlt 3 (by omega)) _
  · cases e

/-- The byte after an even address is in the 32-bit space. -/
theorem even_add_one_lt {a : Word} (h : a.getLsbD 0 = false) : a.toNat + 1 < 2 ^ 32 := by
  have := a.isLt
  have : a.toNat % 2 = 0 := by simpa [BitVec.getLsbD, Nat.testBit_zero] using h
  omega

theorem Inv_writeHalf {s t : State} (h : s.Inv) {a : Word} {v : BitVec 16} (ha : a.getLsbD 0 = false)
    (e : writeHalf s a v = some t) : t.Inv := by
  unfold writeHalf at e
  split at e
  · cases e
    exact Inv_storeByteAt (Inv_storeByteAt h a.isLt _) (even_add_one_lt ha) _
  · cases e

theorem Inv_writeByte {s t : State} (h : s.Inv) {a : Word} {v : Byte} (e : writeByte s a v = some t) : t.Inv := by
  unfold writeByte at e
  split at e
  · cases e
    exact Inv_storeByteAt h a.isLt _
  · cases e

/-- No SPSR holds a reserved bit, SPSR by SPSR. -/
theorem spsrsReservedZero_iff (s : State) :
    s.spsrsReservedZero = true ↔ ∀ q : SpsrName, s.spsr q &&& 0x0FFFFF00#32 = 0#32 := by
  unfold State.spsrsReservedZero
  rw [List.all_eq_true]
  constructor
  · intro h q
    simpa using h (s.spsr q) (by simp [State.spsr, Vector.get_eq_getElem])
  · intro h v hv
    obtain ⟨i, hi, rfl⟩ := List.getElem_of_mem hv
    have hi5 : i < 5 := by simpa using hi
    have hq : ∃ q : SpsrName, q.index.1 = i := by
      have : ∀ j : Fin 5, ∃ q : SpsrName, q.index = j := by
        intro j
        match j with
        | 0 => exact ⟨.fiq, rfl⟩
        | 1 => exact ⟨.irq, rfl⟩
        | 2 => exact ⟨.svc, rfl⟩
        | 3 => exact ⟨.abt, rfl⟩
        | 4 => exact ⟨.und, rfl⟩
      obtain ⟨q, e⟩ := this ⟨i, hi5⟩
      exact ⟨q, congrArg Fin.val e⟩
    obtain ⟨q, rfl⟩ := hq
    simpa [State.spsr, Vector.get_eq_getElem] using h q

/-! ## Status words with no reserved bit -/

/-- The mask of the reserved bits, bit by bit (R33). -/
theorem reservedMask_getLsbD (i : Nat) (hi : i < 32) :
    (0x0FFFFF00#32).getLsbD i = (decide (8 ≤ i) && decide (i < 28)) := by
  have : ∀ j : Fin 32, (0x0FFFFF00#32).getLsbD j.1 = (decide (8 ≤ j.1) && decide (j.1 < 28)) := by decide
  exact this ⟨i, hi⟩

/-- A word has none of bits 27:8 exactly where the field is zero (R27, R33). -/
theorem reserved_zero_iff (w : Word) : w &&& 0x0FFFFF00#32 = 0#32 ↔ w.extractLsb' 8 20 = 0#20 := by
  constructor
  · intro h
    refine BitVec.eq_of_getLsbD_eq fun i hi => ?_
    have := congrArg (fun x => BitVec.getLsbD x (8 + i)) h
    simp only [BitVec.getLsbD_and, reservedMask_getLsbD (8 + i) (by omega)] at this
    simpa [hi, show 8 + i < 28 by omega] using this
  · intro h
    refine BitVec.eq_of_getLsbD_eq fun i hi => ?_
    rw [BitVec.getLsbD_and, reservedMask_getLsbD i hi]
    by_cases h8 : 8 ≤ i ∧ i < 28
    · have := congrArg (fun x => BitVec.getLsbD x (i - 8)) h
      simp only [BitVec.getLsbD_extractLsb', show i - 8 < 20 by omega, show 8 + (i - 8) = i by omega] at this
      have hz : w.getLsbD i = false := by simpa using this
      simp [hz]
    · by_cases h8' : 8 ≤ i
      · simp [show ¬i < 28 by omega]
      · simp [h8']

theorem psrBits_reserved (w : Word) : (w &&& psrBits) &&& 0x0FFFFF00#32 = 0#32 := by
  rw [BitVec.and_assoc]
  exact BitVec.and_zero

/-- The word of a CPSR with no reserved bit has none (R27, R33). -/
theorem toWord_reserved {p : Psr} (h : p.reserved = 0#20) : p.toWord &&& 0x0FFFFF00#32 = 0#32 := by
  refine (reserved_zero_iff _).2 (BitVec.eq_of_getLsbD_eq fun i hi => ?_)
  unfold Psr.toWord
  rw [h]
  simp only [BitVec.getLsbD_extractLsb', BitVec.getLsbD_append]
  simp [hi, show ¬8 + i < 5 by omega, show ¬8 + i - 5 < 1 by omega, show ¬8 + i - 5 - 1 < 1 by omega,
    show ¬8 + i - 5 - 1 - 1 < 1 by omega, show 8 + i - 5 - 1 - 1 - 1 < 20 by omega]

/-- The CPSR of a word with no reserved bit has none (R27, R33). -/
theorem ofWord_reserved {w : Word} {p : Psr} (hp : Psr.ofWord? w = some p) (h : w &&& 0x0FFFFF00#32 = 0#32) :
    p.reserved = 0#20 := by
  unfold Psr.ofWord? at hp
  split at hp
  · cases hp
  · cases hp
    exact (reserved_zero_iff w).1 h

/-- Exception entry keeps the invariant, if what it saves in the SPSR has no reserved bit (R310). -/
theorem Inv_enterException {s : State} (h : s.Inv) (e : Exc) (ret : Word) {saved : Word}
    (hs : saved &&& 0x0FFFFF00#32 = 0#32) : (enterException e ret saved s).Inv := by
  refine ⟨h.1, h.2.1, ?_, h.2.2.2.1, (spsrsReservedZero_iff _).2 fun q => ?_⟩
  · unfold State.pcAligned
    rw [enterException_pc, vectorBase]
    cases e <;> cases s.platform.highVectors <;> rfl
  · rw [enterException_spsr]
    split
    · exact hs
    · exact (spsrsReservedZero_iff s).1 h.2.2.2.2 q

theorem Inv_takeException {s : State} (h : s.Inv) (e : Exc) (ret : Word) : (takeException e ret s).Inv :=
  Inv_enterException h e ret (toWord_reserved h.2.2.2.1)

end Sys2Proof.Machine
end

