-- ==== Sys2Proof/Laws/Block.lean ====
section
/-!
SUPPORT. The multiple transfers: what the loads give, where the loaded words go, what the stores write, and what none of
them touches (spec/46_multiple_transfer_swap.md R250 to R256).
-/

namespace Sys2Proof.Machine

/-! ## The registers of a list -/

/-- The registers of a list rise (R250), so none stands in it twice. -/
theorem blockRegs_rising (list : BitVec 16) : (blockRegs list).Pairwise fun a b => a.toNat < b.toNat := by
  unfold blockRegs
  rw [List.pairwise_map]
  refine (List.pairwise_lt_range.filter _).imp_of_mem fun {i j} hi hj h => ?_
  have hi' := List.mem_range.1 (List.mem_of_mem_filter hi)
  have hj' := List.mem_range.1 (List.mem_of_mem_filter hj)
  rw [BitVec.toNat_ofNat, BitVec.toNat_ofNat, Nat.mod_eq_of_lt (by omega), Nat.mod_eq_of_lt (by omega)]
  exact h

theorem blockRegs_nodup (list : BitVec 16) : (blockRegs list).Nodup :=
  (blockRegs_rising list).imp fun {a b} h => fun e => by rw [e] at h; exact Nat.lt_irrefl _ h

theorem blockRegs_length_le (list : BitVec 16) : (blockRegs list).length ≤ 16 := by
  unfold blockRegs
  rw [List.length_map]
  exact (List.length_filter_le _ _).trans (by simp)

/-! ## Loads -/

/-- The address of the next word, counted from the next word or from this one. -/
theorem add_four_add (a : Word) (k : Nat) : a + 4 + BitVec.ofNat 32 (4 * k) = a + BitVec.ofNat 32 (4 * (k + 1)) := by
  rw [BitVec.add_assoc]
  congr 1
  rw [show (4 : Word) = BitVec.ofNat 32 4 from rfl, ← BitVec.ofNat_add]
  congr 1
  omega

/-- The loads give every register its word exactly where each word is read (R250). -/
theorem readBlock_ok {s : State} {regs : List RegNum} {a : Word} {l : List (RegNum × Word)} :
    readBlock s a regs = .ok l ↔
      l.map Prod.fst = regs ∧
        ∀ k (h : k < l.length), readWord s (wordAligned (a + BitVec.ofNat 32 (4 * k))) = .ok l[k].2 := by
  induction regs generalizing a l with
  | nil =>
    simp only [readBlock, BlockRead.ok.injEq, List.map_eq_nil_iff]
    constructor
    · rintro rfl; exact ⟨rfl, fun k h => absurd h (by simp)⟩
    · rintro ⟨rfl, -⟩; rfl
  | cons r rs ih =>
    have hstep := add_four_add a
    have hz : a + BitVec.ofNat 32 (4 * 0) = a := by simp
    constructor
    · intro h
      unfold readBlock at h
      split at h
      · cases h
      · cases h
      · next v hv =>
        split at h
        · next l' hl' =>
          cases h
          obtain ⟨e, hk⟩ := ih.1 hl'
          refine ⟨by simp [e], fun k hk' => ?_⟩
          cases k with
          | zero => rw [hz]; exact hv
          | succ k => rw [← hstep]; exact hk k (by simpa using hk')
        · cases h
        · cases h
    · rintro ⟨e, hk⟩
      cases l with
      | nil => simp at e
      | cons c l' =>
        simp only [List.map_cons, List.cons.injEq] at e
        have h0 := hk 0 (by simp)
        rw [hz] at h0
        have := ih.2 ⟨e.2, fun k h => by rw [hstep]; exact hk (k + 1) (by simpa using h)⟩
        unfold readBlock
        rw [h0, this]
        obtain ⟨rfl, -⟩ := e
        rfl

/-- The loads abort at word `j` if it is not mapped and every word before it is read (R256). -/
theorem readBlock_abort {s : State} {regs : List RegNum} {a : Word} {j : Nat} (v : Nat → Word) (hj : j < regs.length)
    (hok : ∀ k < j, readWord s (wordAligned (a + BitVec.ofNat 32 (4 * k))) = .ok (v k))
    (hab : mappedRange s.platform (wordAligned (a + BitVec.ofNat 32 (4 * j))).toNat 4 = false) :
    readBlock s a regs = .abort ((regs.take j).zip ((List.range j).map v)) := by
  induction regs generalizing a j v with
  | nil => simp at hj
  | cons r rs ih =>
    have hz : a + BitVec.ofNat 32 (4 * 0) = a := by simp
    unfold readBlock
    cases j with
    | zero =>
      rw [hz] at hab
      rw [readWord_abort hab]
      rfl
    | succ j =>
      have h0 := hok 0 (by omega)
      rw [hz] at h0
      have := ih (a := a + 4) (fun k => v (k + 1)) (by simpa using hj)
        (fun k hk => by rw [add_four_add]; exact hok (k + 1) (by omega)) (by rw [add_four_add]; exact hab)
      rw [h0, this]
      simp [List.range_succ_eq_map, Function.comp_def]

/-- Loaded words go to registers and to nothing else; r15 is left alone (R252). -/
theorem writeLoaded_only (m : Mode) (l : List (RegNum × Word)) (s : State) :
    (writeLoaded m l s).pc = s.pc ∧ (writeLoaded m l s).cpsr = s.cpsr ∧ (writeLoaded m l s).spsrs = s.spsrs ∧
      (writeLoaded m l s).mem = s.mem ∧ (writeLoaded m l s).stored = s.stored ∧
      (writeLoaded m l s).afterUserBank = s.afterUserBank ∧ (writeLoaded m l s).lines = s.lines ∧
      (writeLoaded m l s).draws = s.draws ∧ (writeLoaded m l s).platform = s.platform := by
  induction l generalizing s with
  | nil => exact ⟨rfl, rfl, rfl, rfl, rfl, rfl, rfl, rfl, rfl⟩
  | cons c l ih =>
    obtain ⟨r, v⟩ := c
    have := ih (if r = pcNum then s else writeBank m s r v)
    unfold writeLoaded
    by_cases hr : r = pcNum <;> simpa [hr] using this

/-- A register that no loaded number names keeps its value. -/
theorem writeLoaded_reg_other (m : Mode) (l : List (RegNum × Word)) (s : State) (p : PReg)
    (h : ∀ c ∈ l, bankReg m c.1 ≠ some p) : (writeLoaded m l s).reg p = s.reg p := by
  induction l generalizing s with
  | nil => rfl
  | cons c l ih =>
    obtain ⟨r, v⟩ := c
    unfold writeLoaded
    rw [ih _ fun c hc => h c (List.mem_cons_of_mem _ hc)]
    split
    · rfl
    · rw [writeBank_reg, if_neg (h _ (List.mem_cons_self ..))]

/-- A register named once holds its word. -/
theorem writeLoaded_reg_of_mem (m : Mode) (l : List (RegNum × Word)) (s : State) (p : PReg)
    (hn : (l.map Prod.fst).Nodup) {r : RegNum} {v : Word} (hl : (r, v) ∈ l) (hp : bankReg m r = some p) :
    (writeLoaded m l s).reg p = v := by
  induction l generalizing s with
  | nil => simp at hl
  | cons c l ih =>
    obtain ⟨r', v'⟩ := c
    rw [List.map_cons, List.nodup_cons] at hn
    unfold writeLoaded
    rcases List.mem_cons.1 hl with e | hl'
    · cases e
      have hr : r ≠ pcNum := fun e => by rw [(bankReg_eq_none m r).2 e] at hp; cases hp
      rw [if_neg hr, writeLoaded_reg_other, writeBank_reg, if_pos hp]
      intro c hc e
      have hr' : c.1 = r := bankReg_inj m _ _ (e.trans hp.symm)
      exact hn.1 (List.mem_map.2 ⟨c, hc, hr'⟩)
    · exact ih _ hn.2 hl'

/-- What an aborted multiple load leaves alone: all but registers and the count of draws (R256). -/
theorem drawLoaded_only (m : Mode) (base : Option PReg) (l : List (RegNum × Word)) (s : State) :
    (drawLoaded m base l s).pc = s.pc ∧ (drawLoaded m base l s).cpsr = s.cpsr ∧
      (drawLoaded m base l s).spsrs = s.spsrs ∧ (drawLoaded m base l s).mem = s.mem ∧
      (drawLoaded m base l s).stored = s.stored ∧ (drawLoaded m base l s).afterUserBank = s.afterUserBank ∧
      (drawLoaded m base l s).lines = s.lines ∧ (drawLoaded m base l s).platform = s.platform := by
  induction l generalizing s with
  | nil => exact ⟨rfl, rfl, rfl, rfl, rfl, rfl, rfl, rfl⟩
  | cons c l ih =>
    obtain ⟨r, v⟩ := c
    unfold drawLoaded
    split
    · exact ih s
    · have hd : (if (drawBit s).1 then writeBank m (drawBit s).2 r v else (drawBit s).2) = (drawBit s).2 ∨
          (if (drawBit s).1 then writeBank m (drawBit s).2 r v else (drawBit s).2) = writeBank m (drawBit s).2 r v := by
        split
        · exact Or.inr rfl
        · exact Or.inl rfl
      have hp : r ≠ pcNum := fun e => by simp_all
      rcases hd with e | e <;> simpa only [e, writeBank_pc_ne m _ _ hp, writeBank_cpsr, writeBank_spsrs, writeBank_mem,
        writeBank_stored, writeBank_afterUserBank, writeBank_lines, writeBank_platform, drawBit_pc, drawBit_cpsr,
        drawBit_spsrs, drawBit_mem, drawBit_stored, drawBit_afterUserBank, drawBit_lines, drawBit_platform] using
        ih (if (drawBit s).1 then writeBank m (drawBit s).2 r v else (drawBit s).2)

/-- The base keeps its value in an aborted multiple load, and so does every register not named (R256). -/
theorem drawLoaded_reg (m : Mode) (base : Option PReg) (l : List (RegNum × Word)) (s : State) (p : PReg)
    (h : base = some p ∨ ∀ c ∈ l, bankReg m c.1 ≠ some p) : (drawLoaded m base l s).reg p = s.reg p := by
  induction l generalizing s with
  | nil => rfl
  | cons c l ih =>
    obtain ⟨r, v⟩ := c
    have ih' := fun s => ih s (h.imp_right fun h c hc => h c (List.mem_cons_of_mem _ hc))
    unfold drawLoaded
    rw [ih']
    split
    · rfl
    · next hn =>
      have hne : bankReg m r ≠ some p := by
        rcases h with rfl | h
        · exact fun e => hn (Or.inr e)
        · exact h _ (List.mem_cons_self ..)
      show (if (drawBit s).1 = true then writeBank m (drawBit s).2 r v else (drawBit s).2).reg p = s.reg p
      split
      · rw [writeBank_reg, if_neg hne]
        rfl
      · rfl

/-- Each register of an aborted multiple load holds its old value or a word loaded for it (R256). -/
theorem drawLoaded_reg_old_or_loaded (m : Mode) (base : Option PReg) (l : List (RegNum × Word)) (s : State) (p : PReg) :
    (drawLoaded m base l s).reg p = s.reg p ∨
      ∃ c ∈ l, bankReg m c.1 = some p ∧ (drawLoaded m base l s).reg p = c.2 := by
  induction l generalizing s with
  | nil => exact Or.inl rfl
  | cons c l ih =>
    obtain ⟨r, v⟩ := c
    unfold drawLoaded
    have hs : ∀ s', (s'.reg p = s.reg p ∨ (bankReg m r = some p ∧ s'.reg p = v)) →
        (drawLoaded m base l s').reg p = s.reg p ∨
          ∃ c ∈ (r, v) :: l, bankReg m c.1 = some p ∧ (drawLoaded m base l s').reg p = c.2 := by
      intro s' hs'
      rcases ih s' with h | ⟨c, hc, hb, h⟩
      · rw [h]
        rcases hs' with h' | ⟨hb, h'⟩
        · exact Or.inl h'
        · exact Or.inr ⟨_, List.mem_cons_self .., hb, h'⟩
      · exact Or.inr ⟨c, List.mem_cons_of_mem _ hc, hb, h⟩
    refine hs _ ?_
    split
    · exact Or.inl rfl
    · dsimp only
      split
      · rw [writeBank_reg]
        split
        · next hb => exact Or.inr ⟨hb, rfl⟩
        · exact Or.inl rfl
      · exact Or.inl rfl

/-! ## Stores -/

/-- A multiple store changes memory and the set of stored addresses only, whether or not it aborts (R251, R256). -/
theorem storeBlock_only (m : Mode) (a : Word) (regs : List RegNum) (s : State) :
    StoresOnly s (storeBlock m a regs s).2 := by
  induction regs generalizing a s with
  | nil => exact StoresOnly.refl s
  | cons r rs ih =>
    unfold storeBlock
    split
    · next s' h => exact (writeWord_only h).trans (ih _ s')
    · exact StoresOnly.refl s

/-- It changes only bytes of its words (R251). -/
theorem storeBlock_read_outside (m : Mode) (a : Word) (regs : List RegNum) (s : State) (x : Nat)
    (h : ∀ k < regs.length, Outside (wordAligned (a + BitVec.ofNat 32 (4 * k))).toNat 4 x) :
    Memory.read (storeBlock m a regs s).2.mem x = Memory.read s.mem x := by
  induction regs generalizing a s with
  | nil => rfl
  | cons r rs ih =>
    have hstep := add_four_add a
    unfold storeBlock
    split
    · next s' e =>
      rw [ih (a + 4) s' fun k hk => by rw [hstep]; exact h (k + 1) (by simpa using hk), writeWord_read e, if_neg]
      have h0 := h 0 (by simp)
      rw [show a + BitVec.ofNat 32 (4 * 0) = a by simp] at h0
      unfold Outside at h0
      omega
    · rfl

/-- The address of word `k` of a sequence that does not wrap (R65, R77). -/
theorem wordAligned_add_toNat (a : Word) (k : Nat) (h : (wordAligned a).toNat + 4 * k < 2 ^ 32) :
    (wordAligned (a + BitVec.ofNat 32 (4 * k))).toNat = (wordAligned a).toNat + 4 * k := by
  rw [wordAligned_toNat] at *
  rw [wordAligned_toNat, BitVec.toNat_add, BitVec.toNat_ofNat]
  have := a.isLt
  omega

/-- A multiple store that aborts at word `j`, the first that is not mapped, is the multiple store of the registers before
it (R256). -/
theorem storeBlock_abort {s : State} (m : Mode) {regs : List RegNum} {a : Word} {j : Nat} (hj : j < regs.length)
    (hok : ∀ k < j, mappedRange s.platform (wordAligned (a + BitVec.ofNat 32 (4 * k))).toNat 4 = true)
    (hab : mappedRange s.platform (wordAligned (a + BitVec.ofNat 32 (4 * j))).toNat 4 = false) :
    storeBlock m a regs s = (false, (storeBlock m a (regs.take j) s).2) := by
  induction regs generalizing a j s with
  | nil => simp at hj
  | cons r rs ih =>
    have hz : a + BitVec.ofNat 32 (4 * 0) = a := by simp
    cases j with
    | zero =>
      rw [hz] at hab
      have : writeWord s (wordAligned a) (storeSource m s r) = none := by
        have := writeWord_isSome s (wordAligned a) (storeSource m s r)
        rw [hab] at this
        simpa using this
      simp [storeBlock, this]
    | succ j =>
      have h0 := hok 0 (by omega)
      rw [hz] at h0
      obtain ⟨s', e⟩ := Option.isSome_iff_exists.1 ((writeWord_isSome s (wordAligned a) (storeSource m s r)).trans h0)
      have hp := (writeWord_only e).platform
      have := ih (s := s') (a := a + 4) (j := j) (by simpa using hj)
        (fun k hk => by rw [add_four_add, hp]; exact hok (k + 1) (by omega)) (by rw [add_four_add, hp]; exact hab)
      simp only [storeBlock, e, List.take_succ_cons]
      exact this

/-- A multiple store of mapped words that does not wrap stores each register in its word (R251, R254). -/
theorem storeBlock_words {s : State} (m : Mode) {regs : List RegNum} {a : Word}
    (hw : (wordAligned a).toNat + 4 * regs.length ≤ 2 ^ 32)
    (hok : ∀ k < regs.length, mappedRange s.platform (wordAligned (a + BitVec.ofNat 32 (4 * k))).toNat 4 = true) :
    (storeBlock m a regs s).1 = true ∧ ∀ k (h : k < regs.length),
      readWord (storeBlock m a regs s).2 (wordAligned (a + BitVec.ofNat 32 (4 * k))) = .ok (storeSource m s regs[k]) := by
  induction regs generalizing a s with
  | nil => exact ⟨rfl, fun k h => absurd h (by simp)⟩
  | cons r rs ih =>
    have hz : a + BitVec.ofNat 32 (4 * 0) = a := by simp
    have h0 := hok 0 (by simp)
    rw [hz] at h0
    obtain ⟨s', e⟩ := Option.isSome_iff_exists.1 ((writeWord_isSome s (wordAligned a) (storeSource m s r)).trans h0)
    have ho := writeWord_only e
    rw [List.length_cons] at hw
    by_cases hr : rs = []
    · subst hr
      simp only [storeBlock, e]
      refine ⟨trivial, fun k h => ?_⟩
      have : k = 0 := by simpa using h
      subst this
      rw [hz]
      exact readWord_writeWord e
    · have hl : 0 < rs.length := List.length_pos_iff.2 hr
      have h4 : (wordAligned (a + 4)).toNat = (wordAligned a).toNat + 4 := by
        have := wordAligned_add_toNat a 1 (by omega)
        simpa using this
      have hsrc : ∀ r, storeSource m s' r = storeSource m s r := fun r => by
        unfold storeSource pcStored State.reg
        rw [ho.pc, ho.regs, ho.platform]
      have := ih (s := s') (a := a + 4) (by omega)
        (fun k hk => by rw [add_four_add, ho.platform]; exact hok (k + 1) (by simpa using hk))
      simp only [storeBlock, e]
      refine ⟨this.1, fun k h => ?_⟩
      cases k with
      | zero =>
        rw [hz]
        have hrd : ∀ x, (wordAligned a).toNat ≤ x → x < (wordAligned a).toNat + 4 →
            Memory.read (storeBlock m (a + 4) rs s').2.mem x = Memory.read s'.mem x := fun x h1 h2 =>
          storeBlock_read_outside m (a + 4) rs s' x fun k hk => by
            rw [wordAligned_add_toNat (a + 4) k (by omega), h4]
            exact Or.inl (by omega)
        obtain ⟨hm, b0, b1, b2, b3, h0, h1, h2, h3, hv⟩ := readWord_ok.1 (readWord_writeWord e)
        have hp := (storeBlock_only m (a + 4) rs s').platform
        refine readWord_ok.2 ⟨by rw [hp]; exact hm, b0, b1, b2, b3, ?_, ?_, ?_, ?_, by rw [hp]; exact hv⟩
        · rw [hrd _ (by omega) (by omega)]; exact h0
        · rw [hrd _ (by omega) (by omega)]; exact h1
        · rw [hrd _ (by omega) (by omega)]; exact h2
        · rw [hrd _ (by omega) (by omega)]; exact h3
      | succ k =>
        rw [← add_four_add, this.2 k (by simpa using h), hsrc]
        rfl

/-- The invariant is kept by a multiple store. -/
theorem Inv_storeBlock {s : State} (h : s.Inv) (m : Mode) (a : Word) (regs : List RegNum) :
    (storeBlock m a regs s).2.Inv := by
  induction regs generalizing a s with
  | nil => exact h
  | cons r rs ih =>
    unfold storeBlock
    split
    · next s' e => exact ih (Inv_writeWord h e) _
    · exact h

theorem Inv_writeLoaded {s : State} (h : s.Inv) (m : Mode) (l : List (RegNum × Word)) : (writeLoaded m l s).Inv := by
  obtain ⟨hp, hc, hq, hm, hs, -⟩ := writeLoaded_only m l s
  exact Inv_congr h hm hs hp hc hq

theorem Inv_drawLoaded {s : State} (h : s.Inv) (m : Mode) (base : Option PReg) (l : List (RegNum × Word)) :
    (drawLoaded m base l s).Inv := by
  obtain ⟨hp, hc, hq, hm, hs, -⟩ := drawLoaded_only m base l s
  exact Inv_congr h hm hs hp hc hq

end Sys2Proof.Machine
end

