-- ==== Sys2Proof/Laws/Dispatch.lean ====
section
/-!
SUPPORT. `exec` on each instruction is its meaning: one equation per constructor, so that no proof unfolds the dispatch.
-/

namespace Sys2Proof.Machine

@[simp] theorem exec_and (c : Cond) (sf : Bool) (rn rd : RegNum) (op : Operand2) (s : State) :
    exec (.and c sf rn rd op) s = execAnd c sf rn rd op s := rfl
@[simp] theorem exec_eor (c : Cond) (sf : Bool) (rn rd : RegNum) (op : Operand2) (s : State) :
    exec (.eor c sf rn rd op) s = execEor c sf rn rd op s := rfl
@[simp] theorem exec_sub (c : Cond) (sf : Bool) (rn rd : RegNum) (op : Operand2) (s : State) :
    exec (.sub c sf rn rd op) s = execSub c sf rn rd op s := rfl
@[simp] theorem exec_rsb (c : Cond) (sf : Bool) (rn rd : RegNum) (op : Operand2) (s : State) :
    exec (.rsb c sf rn rd op) s = execRsb c sf rn rd op s := rfl
@[simp] theorem exec_add (c : Cond) (sf : Bool) (rn rd : RegNum) (op : Operand2) (s : State) :
    exec (.add c sf rn rd op) s = execAdd c sf rn rd op s := rfl
@[simp] theorem exec_adc (c : Cond) (sf : Bool) (rn rd : RegNum) (op : Operand2) (s : State) :
    exec (.adc c sf rn rd op) s = execAdc c sf rn rd op s := rfl
@[simp] theorem exec_sbc (c : Cond) (sf : Bool) (rn rd : RegNum) (op : Operand2) (s : State) :
    exec (.sbc c sf rn rd op) s = execSbc c sf rn rd op s := rfl
@[simp] theorem exec_rsc (c : Cond) (sf : Bool) (rn rd : RegNum) (op : Operand2) (s : State) :
    exec (.rsc c sf rn rd op) s = execRsc c sf rn rd op s := rfl
@[simp] theorem exec_tst (c : Cond) (rn sbz : RegNum) (op : Operand2) (s : State) :
    exec (.tst c rn sbz op) s = execTst c rn sbz op s := rfl
@[simp] theorem exec_teq (c : Cond) (rn sbz : RegNum) (op : Operand2) (s : State) :
    exec (.teq c rn sbz op) s = execTeq c rn sbz op s := rfl
@[simp] theorem exec_cmp (c : Cond) (rn sbz : RegNum) (op : Operand2) (s : State) :
    exec (.cmp c rn sbz op) s = execCmp c rn sbz op s := rfl
@[simp] theorem exec_cmn (c : Cond) (rn sbz : RegNum) (op : Operand2) (s : State) :
    exec (.cmn c rn sbz op) s = execCmn c rn sbz op s := rfl
@[simp] theorem exec_orr (c : Cond) (sf : Bool) (rn rd : RegNum) (op : Operand2) (s : State) :
    exec (.orr c sf rn rd op) s = execOrr c sf rn rd op s := rfl
@[simp] theorem exec_mov (c : Cond) (sf : Bool) (sbz rd : RegNum) (op : Operand2) (s : State) :
    exec (.mov c sf sbz rd op) s = execMov c sf sbz rd op s := rfl
@[simp] theorem exec_bic (c : Cond) (sf : Bool) (rn rd : RegNum) (op : Operand2) (s : State) :
    exec (.bic c sf rn rd op) s = execBic c sf rn rd op s := rfl
@[simp] theorem exec_mvn (c : Cond) (sf : Bool) (sbz rd : RegNum) (op : Operand2) (s : State) :
    exec (.mvn c sf sbz rd op) s = execMvn c sf sbz rd op s := rfl
@[simp] theorem exec_mrs (c : Cond) (r : Bool) (sbo : BitVec 4) (rd : RegNum) (sbzHi sbzLo : BitVec 4) (s : State) :
    exec (.mrs c r sbo rd sbzHi sbzLo) s = execMrs c r sbo rd sbzHi sbzLo s := rfl
@[simp] theorem exec_msrReg (c : Cond) (r : Bool) (mask sbo sbz : BitVec 4) (rm : RegNum) (s : State) :
    exec (.msrReg c r mask sbo sbz rm) s = execMsrReg c r mask sbo sbz rm s := rfl
@[simp] theorem exec_msrImm (c : Cond) (r : Bool) (mask sbo rotate : BitVec 4) (imm8 : BitVec 8) (s : State) :
    exec (.msrImm c r mask sbo rotate imm8) s = execMsrImm c r mask sbo rotate imm8 s := rfl
@[simp] theorem exec_bx (c : Cond) (sbo : BitVec 12) (rm : RegNum) (s : State) :
    exec (.bx c sbo rm) s = execBx c sbo rm s := rfl
@[simp] theorem exec_blxReg (c : Cond) (sbo : BitVec 12) (rm : RegNum) (s : State) :
    exec (.blxReg c sbo rm) s = execBlxReg c sbo rm s := rfl
@[simp] theorem exec_clz (c : Cond) (f1 : BitVec 4) (rd : RegNum) (f2 : BitVec 4) (rm : RegNum) (s : State) :
    exec (.clz c f1 rd f2 rm) s = execClz c f1 rd f2 rm s := rfl
@[simp] theorem exec_bkpt (imm : BitVec 16) (s : State) :
    exec (.bkpt imm) s = execBkpt imm s := rfl
@[simp] theorem exec_bkptNotAl (c : Cond) (imm : BitVec 16) (s : State) :
    exec (.bkptNotAl c imm) s = execBkptNotAl c imm s := rfl
@[simp] theorem exec_unusedControl (c : Cond) (bits : BitVec 28) (s : State) :
    exec (.unusedControl c bits) s = execUnusedControl c bits s := rfl
@[simp] theorem exec_mul (c : Cond) (sf : Bool) (rd : RegNum) (sbz : BitVec 4) (rs rm : RegNum) (s : State) :
    exec (.mul c sf rd sbz rs rm) s = execMul c sf rd sbz rs rm s := rfl
@[simp] theorem exec_mla (c : Cond) (sf : Bool) (rd rn rs rm : RegNum) (s : State) :
    exec (.mla c sf rd rn rs rm) s = execMla c sf rd rn rs rm s := rfl
@[simp] theorem exec_unusedArithmetic (c : Cond) (hi : BitVec 2) (mid : BitVec 12) (lo : BitVec 4) (s : State) :
    exec (.unusedArithmetic c hi mid lo) s = execUnusedArithmetic c hi mid lo s := rfl
@[simp] theorem exec_umull (c : Cond) (sf : Bool) (rdHi rdLo rs rm : RegNum) (s : State) :
    exec (.umull c sf rdHi rdLo rs rm) s = execUmull c sf rdHi rdLo rs rm s := rfl
@[simp] theorem exec_umlal (c : Cond) (sf : Bool) (rdHi rdLo rs rm : RegNum) (s : State) :
    exec (.umlal c sf rdHi rdLo rs rm) s = execUmlal c sf rdHi rdLo rs rm s := rfl
@[simp] theorem exec_smull (c : Cond) (sf : Bool) (rdHi rdLo rs rm : RegNum) (s : State) :
    exec (.smull c sf rdHi rdLo rs rm) s = execSmull c sf rdHi rdLo rs rm s := rfl
@[simp] theorem exec_smlal (c : Cond) (sf : Bool) (rdHi rdLo rs rm : RegNum) (s : State) :
    exec (.smlal c sf rdHi rdLo rs rm) s = execSmlal c sf rdHi rdLo rs rm s := rfl
@[simp] theorem exec_swp (c : Cond) (rn rd : RegNum) (sbz : BitVec 4) (rm : RegNum) (s : State) :
    exec (.swp c rn rd sbz rm) s = execSwp c rn rd sbz rm s := rfl
@[simp] theorem exec_swpb (c : Cond) (rn rd : RegNum) (sbz : BitVec 4) (rm : RegNum) (s : State) :
    exec (.swpb c rn rd sbz rm) s = execSwpb c rn rd sbz rm s := rfl
@[simp] theorem exec_unusedLoadStore (c : Cond) (bits : BitVec 28) (s : State) :
    exec (.unusedLoadStore c bits) s = execUnusedLoadStore c bits s := rfl
@[simp] theorem exec_strh (c : Cond) (p u w : Bool) (rn rd : RegNum) (off : HalfOffset) (s : State) :
    exec (.strh c p u w rn rd off) s = execStrh c p u w rn rd off s := rfl
@[simp] theorem exec_ldrh (c : Cond) (p u w : Bool) (rn rd : RegNum) (off : HalfOffset) (s : State) :
    exec (.ldrh c p u w rn rd off) s = execLdrh c p u w rn rd off s := rfl
@[simp] theorem exec_ldrsb (c : Cond) (p u w : Bool) (rn rd : RegNum) (off : HalfOffset) (s : State) :
    exec (.ldrsb c p u w rn rd off) s = execLdrsb c p u w rn rd off s := rfl
@[simp] theorem exec_ldrsh (c : Cond) (p u w : Bool) (rn rd : RegNum) (off : HalfOffset) (s : State) :
    exec (.ldrsh c p u w rn rd off) s = execLdrsh c p u w rn rd off s := rfl
@[simp] theorem exec_ldr (c : Cond) (ix : Index) (up : Bool) (rn rd : RegNum) (off : WordOffset) (s : State) :
    exec (.ldr c ix up rn rd off) s = execLdr c ix up rn rd off s := rfl
@[simp] theorem exec_ldrt (c : Cond) (up : Bool) (rn rd : RegNum) (off : WordOffset) (s : State) :
    exec (.ldrt c up rn rd off) s = execLdrt c up rn rd off s := rfl
@[simp] theorem exec_ldrb (c : Cond) (ix : Index) (up : Bool) (rn rd : RegNum) (off : WordOffset) (s : State) :
    exec (.ldrb c ix up rn rd off) s = execLdrb c ix up rn rd off s := rfl
@[simp] theorem exec_ldrbt (c : Cond) (up : Bool) (rn rd : RegNum) (off : WordOffset) (s : State) :
    exec (.ldrbt c up rn rd off) s = execLdrbt c up rn rd off s := rfl
@[simp] theorem exec_str (c : Cond) (ix : Index) (up : Bool) (rn rd : RegNum) (off : WordOffset) (s : State) :
    exec (.str c ix up rn rd off) s = execStr c ix up rn rd off s := rfl
@[simp] theorem exec_strt (c : Cond) (up : Bool) (rn rd : RegNum) (off : WordOffset) (s : State) :
    exec (.strt c up rn rd off) s = execStrt c up rn rd off s := rfl
@[simp] theorem exec_strb (c : Cond) (ix : Index) (up : Bool) (rn rd : RegNum) (off : WordOffset) (s : State) :
    exec (.strb c ix up rn rd off) s = execStrb c ix up rn rd off s := rfl
@[simp] theorem exec_strbt (c : Cond) (up : Bool) (rn rd : RegNum) (off : WordOffset) (s : State) :
    exec (.strbt c up rn rd off) s = execStrbt c up rn rd off s := rfl
@[simp] theorem exec_undefined (c : Cond) (hi : BitVec 20) (lo : BitVec 4) (s : State) :
    exec (.undefined c hi lo) s = execUndefined c hi lo s := rfl
@[simp] theorem exec_ldm (c : Cond) (p u w : Bool) (rn : RegNum) (list : BitVec 16) (s : State) :
    exec (.ldm c p u w rn list) s = execLdm c p u w rn list s := rfl
@[simp] theorem exec_ldmUser (c : Cond) (p u w : Bool) (rn : RegNum) (list : BitVec 15) (s : State) :
    exec (.ldmUser c p u w rn list) s = execLdmUser c p u w rn list s := rfl
@[simp] theorem exec_ldmRestore (c : Cond) (p u w : Bool) (rn : RegNum) (list : BitVec 15) (s : State) :
    exec (.ldmRestore c p u w rn list) s = execLdmRestore c p u w rn list s := rfl
@[simp] theorem exec_stm (c : Cond) (p u w : Bool) (rn : RegNum) (list : BitVec 16) (s : State) :
    exec (.stm c p u w rn list) s = execStm c p u w rn list s := rfl
@[simp] theorem exec_stmUser (c : Cond) (p u w : Bool) (rn : RegNum) (list : BitVec 16) (s : State) :
    exec (.stmUser c p u w rn list) s = execStmUser c p u w rn list s := rfl
@[simp] theorem exec_b (c : Cond) (off : BitVec 24) (s : State) :
    exec (.b c off) s = execB c off s := rfl
@[simp] theorem exec_bl (c : Cond) (off : BitVec 24) (s : State) :
    exec (.bl c off) s = execBl c off s := rfl
@[simp] theorem exec_blxImm (h : Bool) (off : BitVec 24) (s : State) :
    exec (.blxImm h off) s = execBlxImm h off s := rfl
@[simp] theorem exec_nvReserved (bits : BitVec 28) (s : State) :
    exec (.nvReserved bits) s = execNvReserved bits s := rfl
@[simp] theorem exec_unusedCoprocessor (c : Cond) (n l : Bool) (rest : BitVec 20) (s : State) :
    exec (.unusedCoprocessor c n l rest) s = execUnusedCoprocessor c n l rest s := rfl
@[simp] theorem exec_ldc (c : Cond) (p u n w : Bool) (rn : RegNum) (crd cp : BitVec 4) (off8 : BitVec 8) (s : State) :
    exec (.ldc c p u n w rn crd cp off8) s = execLdc c p u n w rn crd cp off8 s := rfl
@[simp] theorem exec_stc (c : Cond) (p u n w : Bool) (rn : RegNum) (crd cp : BitVec 4) (off8 : BitVec 8) (s : State) :
    exec (.stc c p u n w rn crd cp off8) s = execStc c p u n w rn crd cp off8 s := rfl
@[simp] theorem exec_cdp (c : Cond) (op1 crn crd cp : BitVec 4) (op2 : BitVec 3) (crm : BitVec 4) (s : State) :
    exec (.cdp c op1 crn crd cp op2 crm) s = execCdp c op1 crn crd cp op2 crm s := rfl
@[simp] theorem exec_mcr (c : Cond) (op1 : BitVec 3) (crn : BitVec 4) (rd : RegNum) (cp : BitVec 4)
    (op2 : BitVec 3) (crm : BitVec 4) (s : State) :
    exec (.mcr c op1 crn rd cp op2 crm) s = execMcr c op1 crn rd cp op2 crm s := rfl
@[simp] theorem exec_mrc (c : Cond) (op1 : BitVec 3) (crn : BitVec 4) (rd : RegNum) (cp : BitVec 4)
    (op2 : BitVec 3) (crm : BitVec 4) (s : State) :
    exec (.mrc c op1 crn rd cp op2 crm) s = execMrc c op1 crn rd cp op2 crm s := rfl
@[simp] theorem exec_swi (c : Cond) (imm : BitVec 24) (s : State) :
    exec (.swi c imm) s = execSwi c imm s := rfl

end Sys2Proof.Machine
end

