-- ==== Sys2Proof/Laws/Encoding.lean ====
section
/-!
SUPPORT. The fields of an encoding: how a field or a bit of a concatenation is read, and the codes of conditions and
shifts (spec/30_encoding.md R94 to R109).
-/

namespace Sys2Proof

theorem Cond.ofBits_bits (c : Cond) : Cond.ofBits c.bits = some c := by cases c <;> rfl

/-- The condition codes are exactly the values that R130 gives a predicate. -/
theorem Cond.bits_of_ofBits {b : BitVec 4} {c : Cond} (h : Cond.ofBits b = some c) : c.bits = b := by
  cases c <;> revert b <;> decide

theorem ShiftKind.ofBits_bits (k : ShiftKind) : ShiftKind.ofBits k.bits = k := by cases k <;> rfl

theorem ShiftKind.bits_ofBits (b : BitVec 2) : (ShiftKind.ofBits b).bits = b := by revert b; decide

/-! ## A field of a concatenation -/

/-- A field that lies in the low part. -/
theorem field_append_low {v w i l : Nat} (x : BitVec v) (y : BitVec w) (h : i + l ≤ w) :
    (x ++ y).extractLsb' i l = y.extractLsb' i l := by
  rw [BitVec.extractLsb'_append_eq_ite]
  split
  · rfl
  · ext j hj; omega

/-- A field that lies in the high part. -/
theorem field_append_high {v w i l : Nat} (x : BitVec v) (y : BitVec w) (h : w ≤ i) :
    (x ++ y).extractLsb' i l = x.extractLsb' (i - w) l := by
  rw [BitVec.extractLsb'_append_eq_ite]
  simp
  omega

/-- A field that lies across the seam. -/
theorem field_append_across {v w i l : Nat} (x : BitVec v) (y : BitVec w) (h : i < w) (h2 : w < i + l) :
    (x ++ y).extractLsb' i l = (x.extractLsb' 0 (l - (w - i)) ++ y.extractLsb' i (w - i)).cast (by omega) := by
  ext j hj
  simp [BitVec.getElem_append, BitVec.getLsbD_append]
  split <;> split <;> first | omega | (congr 1; omega) | rfl

/-- A bit of the low part. -/
theorem bit_append_low {v w i : Nat} (x : BitVec v) (y : BitVec w) (h : i < w) :
    (x ++ y).getLsbD i = y.getLsbD i := by
  simp [BitVec.getLsbD_append, h]

/-- A bit of the high part. -/
theorem bit_append_high {v w i : Nat} (x : BitVec v) (y : BitVec w) (h : w ≤ i) :
    (x ++ y).getLsbD i = x.getLsbD (i - w) := by
  simp [BitVec.getLsbD_append]
  omega

/-! ## The fields of a data-processing instruction (R94) -/

theorem dataProcessing_cond (c : Cond) (o : BitVec 4) (s : Bool) (rn rd : RegNum) (op : Operand2) :
    (encodeDataProcessing c o s rn rd op).extractLsb' 28 4 = c.bits := by
  simp (disch := decide) only [encodeDataProcessing, field_append_high, Nat.reduceSub, BitVec.extractLsb'_eq_self]

theorem dataProcessing_opcode (c : Cond) (o : BitVec 4) (s : Bool) (rn rd : RegNum) (op : Operand2) :
    (encodeDataProcessing c o s rn rd op).extractLsb' 21 4 = o := by
  simp (disch := decide) only [encodeDataProcessing, field_append_low, field_append_high, Nat.reduceSub,
    BitVec.extractLsb'_eq_self]

theorem dataProcessing_rn (c : Cond) (o : BitVec 4) (s : Bool) (rn rd : RegNum) (op : Operand2) :
    (encodeDataProcessing c o s rn rd op).extractLsb' 16 4 = rn := by
  simp (disch := decide) only [encodeDataProcessing, field_append_low, field_append_high, Nat.reduceSub,
    BitVec.extractLsb'_eq_self]

theorem dataProcessing_rd (c : Cond) (o : BitVec 4) (s : Bool) (rn rd : RegNum) (op : Operand2) :
    (encodeDataProcessing c o s rn rd op).extractLsb' 12 4 = rd := by
  simp (disch := decide) only [encodeDataProcessing, field_append_low, field_append_high, Nat.reduceSub,
    BitVec.extractLsb'_eq_self]

theorem dataProcessing_s (c : Cond) (o : BitVec 4) (s : Bool) (rn rd : RegNum) (op : Operand2) :
    (encodeDataProcessing c o s rn rd op).getLsbD 20 = s := by
  simp (disch := decide) only [encodeDataProcessing, bit_append_low, bit_append_high, Nat.reduceSub]
  simp

/-- Bits 11:0 are operand 2's. -/
theorem dataProcessing_operand (c : Cond) (o : BitVec 4) (s : Bool) (rn rd : RegNum) (op : Operand2) {i l : Nat}
    (h : i + l ≤ 12) : (encodeDataProcessing c o s rn rd op).extractLsb' i l = op.bits.extractLsb' i l := by
  simp (disch := assumption) only [encodeDataProcessing, field_append_low]

end Sys2Proof
end

