-- ==== Sys2Proof/Tests/Slice0.lean ====
section
/-!
SUPPORT. Tests: ill-formed terms, words written out from the spec's encodings, single steps of spec/95_test_vectors.md,
and for every obligation with hypotheses a state and operands that meet them.
-/

namespace Sys2Proof.Tests
open Sys2Proof Sys2Proof.Machine

/-! ## Well-formedness -/

theorem test_wf_bkptNotAl :
    (Instr.bkptNotAl .al 0#16).wellFormed = false ∧ (Instr.bkptNotAl .eq 0#16).wellFormed = true := by decide

/-- MRS's bits are not in the unused control space (R294). -/
theorem test_wf_unusedControl :
    (Instr.unusedControl .al 0x10F0000#28).wellFormed = false ∧
      (Instr.unusedControl .al 0x3000000#28).wellFormed = true := by decide

/-- SWP's bits are not in the unused load/store space (R295). -/
theorem test_wf_unusedLoadStore :
    (Instr.unusedLoadStore .al 0x1000090#28).wellFormed = false ∧
      (Instr.unusedLoadStore .al 0x1C000F0#28).wellFormed = true := by decide

/-- BLX (immediate)'s bits are not reserved (R133). -/
theorem test_wf_nvReserved :
    (Instr.nvReserved 0xA000000#28).wellFormed = false ∧ (Instr.nvReserved 0x7F000F0#28).wellFormed = true := by decide

/-- P = U = W = 0 is the unused coprocessor space, not LDC or STC (R296). -/
theorem test_wf_coprocTransfer :
    (Instr.ldc .al false false true false 0#4 0#4 0#4 0#8).wellFormed = false ∧
      (Instr.stc .al false false false false 0#4 0#4 0#4 0#8).wellFormed = false ∧
      (Instr.ldc .al false false true true 0#4 0#4 0#4 0#8).wellFormed = true := by decide

/-! ## Decoding: every constructor's word, field by field from the left -/

/-- R94 to R97: the three operand forms in turn. -/
theorem test_decode_dataProcessing_1 :
    decodeWord 0b1110_00_0_0000_0_0001_0010_00011_01_0_0100#32 = .and .al false 1#4 2#4 (.shiftImm 4#4 .lsr 3#5) ∧
    decodeWord 0b1110_00_0_0001_1_0001_0010_0101_0_10_1_0100#32 = .eor .al true 1#4 2#4 (.shiftReg 4#4 .asr 5#4) ∧
    decodeWord 0b1110_00_1_0010_0_0001_0010_0110_00000111#32 = .sub .al false 1#4 2#4 (.imm 6#4 7#8) ∧
    decodeWord 0b1110_00_0_0011_1_0001_0010_00011_01_0_0100#32 = .rsb .al true 1#4 2#4 (.shiftImm 4#4 .lsr 3#5) ∧
    decodeWord 0b1110_00_0_0100_0_0001_0010_0101_0_10_1_0100#32 = .add .al false 1#4 2#4 (.shiftReg 4#4 .asr 5#4) ∧
    decodeWord 0b1110_00_1_0101_1_0001_0010_0110_00000111#32 = .adc .al true 1#4 2#4 (.imm 6#4 7#8) ∧
    decodeWord 0b1110_00_0_0110_0_0001_0010_00011_01_0_0100#32 = .sbc .al false 1#4 2#4 (.shiftImm 4#4 .lsr 3#5) ∧
    decodeWord 0b1110_00_0_0111_1_0001_0010_0101_0_10_1_0100#32 = .rsc .al true 1#4 2#4 (.shiftReg 4#4 .asr 5#4) := by decide

/-- R94 to R97: the three operand forms in turn. -/
theorem test_decode_dataProcessing_2 :
    decodeWord 0b1110_00_1_1000_1_0001_0000_0110_00000111#32 = .tst .al 1#4 0#4 (.imm 6#4 7#8) ∧
    decodeWord 0b1110_00_0_1001_1_0001_0000_00011_01_0_0100#32 = .teq .al 1#4 0#4 (.shiftImm 4#4 .lsr 3#5) ∧
    decodeWord 0b1110_00_0_1010_1_0001_0000_0101_0_10_1_0100#32 = .cmp .al 1#4 0#4 (.shiftReg 4#4 .asr 5#4) ∧
    decodeWord 0b1110_00_1_1011_1_0001_0000_0110_00000111#32 = .cmn .al 1#4 0#4 (.imm 6#4 7#8) ∧
    decodeWord 0b1110_00_0_1100_0_0001_0010_00011_01_0_0100#32 = .orr .al false 1#4 2#4 (.shiftImm 4#4 .lsr 3#5) ∧
    decodeWord 0b1110_00_0_1101_1_0000_0010_0101_0_10_1_0100#32 = .mov .al true 0#4 2#4 (.shiftReg 4#4 .asr 5#4) ∧
    decodeWord 0b1110_00_1_1110_0_0001_0010_0110_00000111#32 = .bic .al false 1#4 2#4 (.imm 6#4 7#8) ∧
    decodeWord 0b1110_00_0_1111_1_0000_0010_00011_01_0_0100#32 = .mvn .al true 0#4 2#4 (.shiftImm 4#4 .lsr 3#5) := by decide

/-- R99. -/
theorem test_decode_status :
    decodeWord 0b0001_00010_1_00_1111_0011_0000_0000_0000#32 = .mrs .ne true 15#4 3#4 0#4 0#4 ∧
    decodeWord 0b0001_00010_0_10_1001_1111_0000_0000_0011#32 = .msrReg .ne false 9#4 15#4 0#4 3#4 ∧
    decodeWord 0b0001_00110_1_10_1000_1111_0010_00000101#32 = .msrImm .ne true 8#4 15#4 2#4 5#8 := by decide

/-- R99, R104, R105. -/
theorem test_decode_branch :
    decodeWord 0b1011_101_0_100000000000000000000001#32 = .b .lt 0x800001#24 ∧
    decodeWord 0b1100_101_1_000000000000000000000010#32 = .bl .gt 2#24 ∧
    decodeWord 0b0010_00010010_111111111111_0001_1110#32 = .bx .cs 0xFFF#12 14#4 ∧
    decodeWord 0b0011_00010010_111111111111_0011_0011#32 = .blxReg .cc 0xFFF#12 3#4 ∧
    decodeWord 0b1111_101_1_000000000000000000000101#32 = .blxImm true 5#24 := by decide

/-- R98, R99. -/
theorem test_decode_multiply :
    decodeWord 0b1110_0000_000_1_0001_0000_0010_1001_0011#32 = .mul .al true 1#4 0#4 2#4 3#4 ∧
    decodeWord 0b1110_0000_001_0_0001_0100_0010_1001_0011#32 = .mla .al false 1#4 4#4 2#4 3#4 ∧
    decodeWord 0b1110_0000_100_1_0001_0100_0010_1001_0011#32 = .umull .al true 1#4 4#4 2#4 3#4 ∧
    decodeWord 0b1110_0000_101_0_0001_0100_0010_1001_0011#32 = .umlal .al false 1#4 4#4 2#4 3#4 ∧
    decodeWord 0b1110_0000_110_1_0001_0100_0010_1001_0011#32 = .smull .al true 1#4 4#4 2#4 3#4 ∧
    decodeWord 0b1110_0000_111_0_0001_0100_0010_1001_0011#32 = .smlal .al false 1#4 4#4 2#4 3#4 ∧
    decodeWord 0b1110_00010110_1111_0001_1111_0001_0010#32 = .clz .al 15#4 1#4 15#4 2#4 := by decide

/-- R100. -/
theorem test_decode_transfer :
    decodeWord 0b1110_01_0_1_1_0_1_1_0001_0010_100000000100#32 = .ldr .al .pre true 1#4 2#4 (.imm 0x804#12) ∧
    decodeWord 0b1110_01_1_1_0_1_0_1_0001_0010_01001_11_0_0011#32 = .ldrb .al .offset false 1#4 2#4 (.scaled 3#4 .ror 9#5) ∧
    decodeWord 0b1110_01_0_0_1_0_0_0_0001_0010_100000000100#32 = .str .al .post true 1#4 2#4 (.imm 0x804#12) ∧
    decodeWord 0b1110_01_1_1_0_1_1_0_0001_0010_01001_11_0_0011#32 = .strb .al .pre false 1#4 2#4 (.scaled 3#4 .ror 9#5) ∧
    decodeWord 0b1110_01_0_0_1_0_1_1_0001_0010_100000000100#32 = .ldrt .al true 1#4 2#4 (.imm 0x804#12) ∧
    decodeWord 0b1110_01_0_0_1_1_1_1_0001_0010_100000000100#32 = .ldrbt .al true 1#4 2#4 (.imm 0x804#12) ∧
    decodeWord 0b1110_01_0_0_1_0_1_0_0001_0010_100000000100#32 = .strt .al true 1#4 2#4 (.imm 0x804#12) ∧
    decodeWord 0b1110_01_0_0_1_1_1_0_0001_0010_100000000100#32 = .strbt .al true 1#4 2#4 (.imm 0x804#12) := by decide

/-- R101. -/
theorem test_decode_half :
    decodeWord 0b1110_000_1_0_1_1_0_0001_0010_1010_1_01_1_0101#32 = .strh .al true false true 1#4 2#4 (.imm 0xA5#8) ∧
    decodeWord 0b1110_000_0_1_0_0_1_0001_0010_0000_1_01_1_0011#32 = .ldrh .al false true false 1#4 2#4 (.reg 0#4 3#4) ∧
    decodeWord 0b1110_000_1_0_1_1_1_0001_0010_1010_1_10_1_0101#32 = .ldrsb .al true false true 1#4 2#4 (.imm 0xA5#8) ∧
    decodeWord 0b1110_000_0_1_0_0_1_0001_0010_0000_1_11_1_0011#32 = .ldrsh .al false true false 1#4 2#4 (.reg 0#4 3#4) := by decide

/-- R102, R103. -/
theorem test_decode_block :
    decodeWord 0b1110_100_0_1_0_1_1_1101_1000000000010000#32 = .ldm .al false true true 13#4 0x8010#16 ∧
    decodeWord 0b1110_100_1_0_1_0_1_0001_0_100000000000001#32 = .ldmUser .al true false false 1#4 0x4001#15 ∧
    decodeWord 0b1110_100_0_1_1_1_1_1101_1_000000000000001#32 = .ldmRestore .al false true true 13#4 1#15 ∧
    decodeWord 0b1110_100_1_0_0_1_0_1101_0100000000010000#32 = .stm .al true false true 13#4 0x4010#16 ∧
    decodeWord 0b1110_100_1_1_1_0_0_0001_1000000000000001#32 = .stmUser .al true true false 1#4 0x8001#16 ∧
    decodeWord 0b1110_00010_0_00_0001_0010_0000_1001_0011#32 = .swp .al 1#4 2#4 0#4 3#4 ∧
    decodeWord 0b1110_00010_1_00_0001_0010_0000_1001_0011#32 = .swpb .al 1#4 2#4 0#4 3#4 := by decide

/-- R106. -/
theorem test_decode_coprocessor :
    decodeWord 0b1110_1110_0001_0010_0011_0100_101_0_0110#32 = .cdp .al 1#4 2#4 3#4 4#4 5#3 6#4 ∧
    decodeWord 0b1110_110_1_0_1_0_1_0001_0010_0011_00000100#32 = .ldc .al true false true false 1#4 2#4 3#4 4#8 ∧
    decodeWord 0b1110_110_0_1_0_1_0_0001_0010_0011_00000100#32 = .stc .al false true false true 1#4 2#4 3#4 4#8 ∧
    decodeWord 0b1110_1110_001_0_0010_0011_0100_101_1_0110#32 = .mcr .al 1#3 2#4 3#4 4#4 5#3 6#4 ∧
    decodeWord 0b1110_1110_001_1_0010_0011_0100_101_1_0110#32 = .mrc .al 1#3 2#4 3#4 4#4 5#3 6#4 ∧
    decodeWord 0b1110_11000_1_0_1_00010010001101000101#32 = .unusedCoprocessor .al true true 0x12345#20 := by decide

/-- R107, R108, R109, R133, R291. -/
theorem test_decode_system :
    decodeWord 0b1110_1111_000100100011010001010110#32 = .swi .al 0x123456#24 ∧
    decodeWord 0b1110_00010010_000100100011_0111_0100#32 = .bkpt 0x1234#16 ∧
    decodeWord 0b0000_00010010_000100100011_0111_0100#32 = .bkptNotAl .eq 0x1234#16 ∧
    decodeWord 0b1110_011_00010010001101000101_1_0110#32 = .undefined .al 0x12345#20 6#4 ∧
    decodeWord 0b1111_1110_000000000000000000000000#32 = .nvReserved 0xE000000#28 ∧
    decodeWord 0b1110_000001_10_000100100011_1001_0100#32 = .unusedArithmetic .al 2#2 0x123#12 4#4 ∧
    decodeWord 0b1110_00010_11_0_000000000000_0011_0000#32 = .unusedControl .al 0x1600030#28 ∧
    decodeWord 0b1110_00011_000000000000000_1001_0000#32 = .unusedLoadStore .al 0x1800090#28 := by decide

/-- The encoder on a word of each addressing family gives the word back. -/
theorem test_encode :
    encode (.ldrsh .al false true false 1#4 2#4 (.reg 0#4 3#4)) = 0xE09120F3#32 ∧
      encode (.ldmRestore .al false true true 13#4 1#15) = 0xE8FD8001#32 ∧
      encode (.blxImm true 5#24) = 0xFB000005#32 := by decide

/-- Too few bytes are no instruction (R90); four are one, in either byte order (R61). -/
theorem test_decodeBytes :
    decodeBytes false [0#8, 0#8, 0xA0#8] = .error .truncated ∧
      decodeBytes true [0xEF#8, 0#8, 0#8, 0x11#8] = .ok (.swi .al 0x11#24, []) ∧
      decodeBytes false [0x11#8, 0#8, 0#8, 0xEF#8] = .ok (.swi .al 0x11#24, []) := by decide

/-! ## Single steps, from spec/95_test_vectors.md (V<n>) -/

/-- A CPSR with no flag and no mask set. -/
def psr (m : Mode) : Psr := { Psr.reset with i := false, f := false, mode := m }

/-- Words in little-endian memory from an address on. -/
def words (a : Nat) : List Word → List Host.Cell
  | [] => []
  | w :: ws =>
    (a, byteOfWord false w 0) :: (a + 1, byteOfWord false w 1) :: (a + 2, byteOfWord false w 2) ::
      (a + 3, byteOfWord false w 3) :: words (a + 4) ws

/-- The vectors' starting point: the instruction's address is 0x8000. -/
def start (p : Psr) (regs : List (PReg × Word)) (mem : List Host.Cell) : State :=
  regs.foldl (fun s x => s.setReg x.1 x.2) { State.reset with pc := 0x8000#32, cpsr := p, mem := mem }

/-- One step of the word placed at the pc. -/
def run (s : State) (w : Word) : Out := step (loadInstr s w)

/-- What is seen of a next state. -/
def sees {α : Type} (o : Out) (f : State → α) : Option α :=
  match o with
  | .next t => some (f t)
  | _ => none

/-- Why a step is refused. -/
def refusedAs (o : Out) : Option Refusal :=
  match o with
  | .refused r => some r
  | _ => none

def nzcv (t : State) : List Bool := [t.cpsr.n, t.cpsr.z, t.cpsr.c, t.cpsr.v]

def usr : Psr := psr .usr
def svc : Psr := { psr .svc with i := true, f := true }

/-- V59, V61: ADDS. -/
theorem test_adds :
    sees (run (start usr [(.r1, 0xFFFFFFFF#32), (.r2, 1#32)] []) 0xE0910002#32) (fun t => (t.reg .r0, nzcv t)) =
        some (0#32, [false, true, true, false]) ∧
      sees (run (start usr [(.r1, 0x7FFFFFFF#32), (.r2, 0x7FFFFFFF#32)] []) 0xE0910002#32)
        (fun t => (t.reg .r0, nzcv t)) = some (0xFFFFFFFE#32, [true, false, false, true]) := by decide

/-- V64, V65: SUBS, overflow and borrow. -/
theorem test_subs :
    sees (run (start usr [(.r1, 0x80000000#32), (.r2, 1#32)] []) 0xE0510002#32) (fun t => (t.reg .r0, nzcv t)) =
        some (0x7FFFFFFF#32, [false, false, true, true]) ∧
      sees (run (start usr [(.r1, 0#32), (.r2, 1#32)] []) 0xE0510002#32) (fun t => (t.reg .r0, nzcv t)) =
        some (0xFFFFFFFF#32, [true, false, false, false]) := by decide

/-- V74, V76: SBCS and RSCS with a borrow. -/
theorem test_sbcs_rscs :
    sees (run (start usr [(.r1, 0x80000000#32), (.r2, 0#32)] []) 0xE0D10002#32) (fun t => (t.reg .r0, nzcv t)) =
        some (0x7FFFFFFF#32, [false, false, true, true]) ∧
      sees (run (start usr [(.r1, 3#32), (.r2, 5#32)] []) 0xE0F10002#32) (fun t => (t.reg .r0, nzcv t)) =
        some (1#32, [false, false, true, false]) := by decide

/-- V78: ANDS takes C from the shifter and leaves V. -/
theorem test_ands :
    sees (run (start { usr with v := true } [(.r1, 0x55555555#32), (.r2, 0xD5555555#32)] []) 0xE0110082#32)
      (fun t => (t.reg .r0, nzcv t)) = some (0#32, [false, true, true, true]) := by decide

/-- V17, V24, V28, V32, V55: the shifter. -/
theorem test_shifter :
    sees (run (start { usr with c := true } [] []) 0xE3B00FFF#32) (fun t => (t.reg .r0, nzcv t)) =
        some (0x3FC#32, [false, false, false, false]) ∧
      sees (run (start usr [(.r1, 0x80000001#32)] []) 0xE1B00041#32) (fun t => (t.reg .r0, nzcv t)) =
        some (0xFFFFFFFF#32, [true, false, true, false]) ∧
      sees (run (start { usr with c := true } [(.r1, 2#32)] []) 0xE1B00061#32) (fun t => (t.reg .r0, nzcv t)) =
        some (0x80000001#32, [true, false, false, false]) ∧
      sees (run (start usr [(.r1, 0x80000001#32), (.r2, 0x20#32)] []) 0xE1B00211#32) (fun t => (t.reg .r0, nzcv t)) =
        some (0#32, [false, true, true, false]) ∧
      sees (run (start usr [(.r1, 0x80000001#32), (.r2, 0xFF#32)] []) 0xE1B00271#32) (fun t => (t.reg .r0, nzcv t)) =
        some (3#32, [false, false, false, false]) := by decide

/-- V93, V91: MOVS pc is an exception return; MOV pc to an unaligned address is refused. -/
theorem test_mov_pc :
    sees (run ((start svc [(.r14_svc, 0x8120#32)] []).setSpsr .svc 0x60000010#32) 0xE1B0F00E#32)
        (fun t => (t.cpsr.toWord, t.pc)) = some (0x60000010#32, 0x8120#32) ∧
      refusedAs (run (start usr [(.r14_usr, 0x8122#32)] []) 0xE1A0F00E#32) = some .unalignedTarget := by decide

/-- V102, V99: MLA and MULS; C after MULS is a draw. -/
theorem test_mul :
    sees (run (start usr [(.r0, 0xFFFFFFFF#32), (.r1, 2#32), (.r2, 3#32)] []) 0xE0200291#32) (fun t => t.reg .r0) =
        some 5#32 ∧
      sees (run (start usr [(.r1, 0xFFFFFFFF#32), (.r2, 2#32)] []) 0xE0100291#32)
        (fun t => (t.reg .r0, t.cpsr.n, t.cpsr.z)) = some (0xFFFFFFFE#32, true, false) := by decide

/-- R207's SMULL r0, r1, r2, r3 on minus 1 and 2, and CLZ r0, r1 of 1. -/
theorem test_smull_clz :
    sees (run (start usr [(.r2, 0xFFFFFFFF#32), (.r3, 2#32)] []) 0xE0C10392#32) (fun t => (t.reg .r1, t.reg .r0)) =
        some (0xFFFFFFFF#32, 0xFFFFFFFE#32) ∧
      sees (run (start usr [(.r1, 1#32)] []) 0xE16F0F11#32) (fun t => t.reg .r0) = some 31#32 := by decide

/-- V7, V3: BL and the most negative offset of B. -/
theorem test_branch :
    sees (run (start usr [] []) 0xEBFFFFBE#32) (fun t => (t.reg .r14_usr, t.pc)) = some (0x8004#32, 0x7F00#32) ∧
      sees (run { start usr [] [] with pc := 0x02000000#32 } 0xEA800000#32) (fun t => t.pc) = some 8#32 := by decide

/-- V8, V12, V13: BX, BLX (register) on r14 itself, BLX (immediate) with H = 1. -/
theorem test_exchange :
    sees (run (start usr [(.r0, 0x9001#32)] []) 0xE12FFF10#32) (fun t => (t.cpsr.toWord, t.pc)) =
        some (0x30#32, 0x9000#32) ∧
      sees (run (start usr [(.r14_usr, 0x9000#32)] []) 0xE12FFF3E#32) (fun t => (t.reg .r14_usr, t.pc)) =
        some (0x8004#32, 0x9000#32) ∧
      sees (run (start usr [] []) 0xFB000000#32) (fun t => (t.reg .r14_usr, t.cpsr.toWord, t.pc)) =
        some (0x8004#32, 0x30#32, 0x800A#32) := by decide

/-- V230, V159: LDR with a register offset, STRH pre-indexed. -/
theorem test_transfer :
    sees (run (start usr [(.r1, 0x1000#32), (.r2, 4#32)] (words 0x1000 [0x44332211#32, 0x88776655#32])) 0xE7910002#32)
        (fun t => t.reg .r0) = some 0x88776655#32 ∧
      sees (run (start usr [(.r0, 0xDEADBEEF#32), (.r1, 0x1000#32)] (words 0x1000 [0x44332211#32, 0x88776655#32]))
        0xE1E100B2#32) (fun t => (t.reg .r1, readWord t 0x1000#32)) = some (0x1002#32, .ok 0xBEEF2211#32) := by decide

/-- V171, V167: LDMDB and STMDB. -/
theorem test_block :
    sees (run (start usr [(.r0, 0x1010#32)] (words 0x1000 [0xA0#32, 0xA1#32, 0xA2#32, 0xA3#32])) 0xE930000E#32)
        (fun t => [t.reg .r0, t.reg .r1, t.reg .r2, t.reg .r3]) = some [0x1004#32, 0xA1#32, 0xA2#32, 0xA3#32] ∧
      sees (run (start usr [(.r0, 0x1010#32), (.r1, 0x11#32), (.r2, 0x22#32), (.r3, 0x33#32)] []) 0xE920000E#32)
        (fun t => (t.reg .r0, readWord t 0x1004#32, readWord t 0x100C#32)) =
        some (0x1004#32, .ok 0x11#32, .ok 0x33#32) := by decide

/-- V182, V184: the exception return and the User-bank store. -/
theorem test_block_privileged :
    sees (run ((start { psr .irq with i := true } [(.r13_irq, 0x3000#32)] (words 0x3000 [0x11#32, 0x8010#32])).setSpsr
        .irq 0x60000010#32) 0xE8FD8001#32) (fun t => (t.reg .r0, t.reg .r13_irq, t.cpsr.toWord, t.pc)) =
        some (0x11#32, 0x3008#32, 0x60000010#32, 0x8010#32) ∧
      sees (run (start svc [(.r13_svc, 0x4000#32), (.r13_usr, 0x7000#32), (.r14_usr, 0x8120#32)] []) 0xE8CD6000#32)
        (fun t => (readWord t 0x4000#32, readWord t 0x4004#32, t.afterUserBank)) =
        some (.ok 0x7000#32, .ok 0x8120#32, true) := by decide

/-- V188: SWP at an unaligned address reads rotated and writes the aligned word. -/
theorem test_swp :
    sees (run (start usr [(.r1, 0xCAFEBABE#32), (.r2, 0x1001#32)] (words 0x1000 [0x44332211#32])) 0xE1020091#32)
      (fun t => (t.reg .r0, readWord t 0x1000#32)) = some (0x11443322#32, .ok 0xCAFEBABE#32) := by decide

/-- V200, V201, V209: MSR in User mode, in Supervisor mode, and to an SPSR. -/
theorem test_msr :
    sees (run (start usr [(.r0, 0xF00000D3#32)] []) 0xE129F000#32) (fun t => t.cpsr.toWord) = some 0xF0000010#32 ∧
      sees (run (start svc [(.r0, 0xF000001F#32)] []) 0xE129F000#32) (fun t => t.cpsr.toWord) = some 0xF000001F#32 ∧
      sees (run ((start { svc with mode := .und } [(.r0, 0x80000033#32)] []).setSpsr .und 0x10#32) 0xE169F000#32)
        (fun t => t.spsr .und) = some 0x80000033#32 := by decide

/-- V231, V218, V228: SWI, BKPT and the undefined space. -/
theorem test_traps :
    sees (run (start usr [] []) 0xEF123456#32) (fun t => (t.reg .r14_svc, t.cpsr.toWord, t.spsr .svc, t.pc)) =
        some (0x8004#32, 0x93#32, 0x10#32, 8#32) ∧
      sees (run (start svc [] []) 0xE12FFF7F#32) (fun t => (t.reg .r14_abt, t.cpsr.toWord, t.spsr .abt, t.pc)) =
        some (0x8004#32, 0xD7#32, 0xD3#32, 0xC#32) ∧
      sees (run (start { psr .irq with i := true } [] []) 0xE6000010#32)
        (fun t => (t.reg .r14_und, t.cpsr.toWord, t.spsr .und, t.pc)) = some (0x8004#32, 0x9B#32, 0x92#32, 4#32) := by
  decide

/-- V236, V238: an IRQ in Supervisor mode, an FIQ in IRQ mode. -/
theorem test_interrupts :
    sees (step { start { svc with i := false } [] [] with pc := 0x8010#32, lines := [⟨false, true, false⟩] })
        (fun t => (t.reg .r14_irq, t.spsr .irq, t.cpsr.toWord, t.pc)) = some (0x8014#32, 0x53#32, 0xD2#32, 0x18#32) ∧
      sees (step { start { psr .irq with i := true } [] [] with pc := 0x8010#32, lines := [⟨false, true, true⟩] })
        (fun t => (t.reg .r14_fiq, t.spsr .fiq, t.cpsr.toWord, t.pc)) = some (0x8014#32, 0x92#32, 0xD1#32, 0x1C#32) := by
  decide

/-- A load of a byte that holds no value is the model's one fault (log 3). -/
theorem test_noValue :
    run (start usr [(.r1, 0x1000#32)] []) 0xE5910000#32 = .fault (.noValue 0x1000) := rfl

/-! ## Witnesses: the hypotheses of every obligation are met -/

theorem next_of_sees {α : Type} {o : Out} {f : State → α} {v : α} (h : sees o f = some v) :
    ∃ t, o = .next t ∧ f t = v := by
  cases o with
  | next t => exact ⟨t, rfl, Option.some.inj h⟩
  | fault _ => cases h
  | refused _ => cases h

/-- Supervisor mode at 0x8000, words 0xA0 to 0xA7 from 0x1000 on, a loadable SPSR, pointers in r0, r1 and r13. -/
def w0 : State :=
  (start svc [(.r0, 0x1010#32), (.r1, 0x1000#32), (.r2, 4#32), (.r3, 0x1001#32), (.r13_svc, 0x1010#32)]
    (words 0x1000 [0xA0#32, 0xA1#32, 0xA2#32, 0xA3#32, 0xA4#32, 0xA5#32, 0xA6#32, 0xA8#32])).setSpsr .svc 0x60000010#32

/-- The same in User mode. -/
def wUser : State := { w0 with cpsr := usr }

/-- The same right after a User-bank transfer. -/
def wMarked : State := { w0 with afterUserBank := true }

/-- The same with nothing mapped from 0x1018 on. -/
def wHole : State := { w0 with platform := { Platform.atReset with unmapped := [⟨0x1018, 0x100⟩] } }

/-- The state w0 on a platform that refuses misaligned accesses; r3 holds a misaligned address. -/
def wRefuse : State := { w0 with platform := { Platform.atReset with unaligned := .refuse } }

/-- The same at the last instruction address. -/
def wTop : State := { w0 with pc := 0xFFFFFFFC#32 }

theorem w0_next : HasNext w0 := by unfold HasNext; decide
theorem w0_runs (l : List RegNum) : Runs .al l w0 := ⟨rfl, Or.inl rfl⟩
theorem wHole_runs (l : List RegNum) : Runs .al l wHole := ⟨rfl, Or.inl rfl⟩

theorem witness_FixedFieldsRefused :
    (Instr.mul .al false 0#4 1#4 2#4 3#4).cond? = some .al ∧ condHolds .al w0.cpsr = true ∧
      (Instr.mul .al false 0#4 1#4 2#4 3#4).fixedFields = false ∧ w0.afterUserBank = false := by decide

/-- The first and the last code that is a condition. -/
theorem witness_ConditionPredicates :
    Cond.ofBits ((0x00000000#32 : Word).extractLsb' 28 4) = some .eq ∧
      Cond.ofBits ((0xE0000000#32 : Word).extractLsb' 28 4) = some .al := by decide

/-- A failed SWI, a failed word of BKPT's bits, each at 0x8000 and at the top of memory; there a branch back completes,
a SWI takes its exception and a MOV is refused. -/
theorem witness_FailedConditionAndTopOfMemory :
    (Instr.swi .eq 0#24).cond? = some .eq ∧ condHolds .eq w0.cpsr = false ∧ w0.pc ≠ 0xFFFFFFFC#32 ∧
      (Instr.bkptNotAl .eq 0#16).cond? = some .eq ∧ w0.platform.bkptPolicy = .conditional ∧
      wTop.pc = 0xFFFFFFFC#32 ∧ refusedAs (exec (.bkptNotAl .eq 0#16) wTop) = some .pcWrap ∧
      sees (exec (.b .al 0xFFFFFE#24) wTop) (fun t => t.pc) = some 0xFFFFFFFC#32 ∧
      sees (exec (.swi .al 0#24) wTop) (fun t => t.pc) = some 8#32 ∧
      refusedAs (exec (.mov .al false 0#4 0#4 (.imm 0#4 1#8)) wTop) = some .pcWrap := by decide

theorem witness_RegisterReadWrite : (14#4 : RegNum) ≠ pcNum := by decide

theorem witness_StatusWordLayout :
    (Psr.ofWord? 0xF00000FF#32).isSome = true ∧ Mode.ofBits 0b10111#5 = some .abt ∧ Mode.ofBits 0b10100#5 = none := by
  decide

/-- The last word of memory. -/
theorem witness_WordStoreLoad : ∃ t, writeWord w0 (wordAligned 0xFFFFFFFF#32) 5#32 = some t := ⟨_, rfl⟩

/-- One value of the low byte of Rs for each row, at the rows' ends. -/
theorem witness_ShifterByRegister :
    [0x100#32, 1#32, 31#32, 32#32, 33#32, 255#32, 224#32].map
      (fun v => (readX (w0.setReg .r2 v) 2#4).toNat % 256) = [0, 1, 31, 32, 33, 255, 224] ∧ 224 % 32 = 0 := by decide

theorem witness_RegisterShiftOfPcRefused :
    condHolds .al w0.cpsr = true ∧ w0.afterUserBank = false ∧ (15#4 : RegNum) = pcNum := by decide

theorem witness_LogicalResults :
    Runs .al [1#4, 0#4] w0 ∧ HasNext w0 ∧ (0#4 : RegNum) ≠ pcNum ∧ ShiftOk (.imm 4#4 0xFF#8) [1#4, 0#4] :=
  ⟨w0_runs _, w0_next, by decide, trivial⟩

theorem witness_AddSubResults :
    Runs .al [1#4, 0#4, 15#4] w0 ∧ HasNext w0 ∧ (0#4 : RegNum) ≠ pcNum ∧
      ShiftOk (.shiftImm 15#4 .ror 0#5) [1#4, 0#4] := ⟨w0_runs _, w0_next, by decide, trivial⟩

theorem witness_CarryArithmeticResults :
    Runs .al [1#4, 0#4, 1#4, 2#4] w0 ∧ HasNext w0 ∧ (0#4 : RegNum) ≠ pcNum ∧
      ShiftOk (.shiftReg 1#4 .lsl 2#4) [1#4, 0#4] :=
  ⟨w0_runs _, w0_next, by decide, by decide, by decide, by decide⟩

theorem witness_MoveResults :
    Runs .al [0#4, 1#4, 2#4] w0 ∧ HasNext w0 ∧ (0#4 : RegNum) ≠ pcNum ∧ ShiftOk (.shiftReg 1#4 .lsl 2#4) [0#4] :=
  ⟨w0_runs _, w0_next, by decide, by decide, by decide, by decide⟩

theorem witness_CompareResults :
    Runs .al [15#4, 1#4] w0 ∧ HasNext w0 ∧ ShiftOk (.shiftImm 1#4 .asr 0#5) [15#4] := ⟨w0_runs _, w0_next, trivial⟩

/-- A jump and an exception return that complete: MOV and MOVS pc, #0x10. -/
theorem witness_DataProcessingToPc :
    Runs .al [0#4, pcNum] w0 ∧ ShiftOk (.imm 0#4 16#8) [0#4, pcNum] ∧
      sees (exec (.mov .al false 0#4 pcNum (.imm 0#4 16#8)) w0) (fun t => t.pc) = some 16#32 ∧
      sees (exec (.mov .al true 0#4 pcNum (.imm 0#4 16#8)) w0) (fun t => t.cpsr.mode) = some .usr :=
  ⟨w0_runs _, trivial, by decide, by decide⟩

theorem witness_MultiplyResults :
    Runs .al [0#4, 1#4, 2#4, 3#4] w0 ∧ HasNext w0 ∧ pcNum ∉ [0#4, 1#4, 2#4, 3#4] ∧ (0#4 : RegNum) ≠ 3#4 :=
  ⟨w0_runs _, w0_next, by decide, by decide⟩

theorem witness_LongMultiplyResults :
    Runs .al [0#4, 1#4, 2#4, 3#4] w0 ∧ HasNext w0 ∧ pcNum ∉ [0#4, 1#4, 2#4, 3#4] ∧ (0#4 : RegNum) ≠ 1#4 ∧
      (0#4 : RegNum) ≠ 3#4 ∧ (1#4 : RegNum) ≠ 3#4 := ⟨w0_runs _, w0_next, by decide, by decide, by decide, by decide⟩

theorem witness_ClzResult :
    Runs .al [0#4, 1#4] w0 ∧ HasNext w0 ∧ (0#4 : RegNum) ≠ pcNum ∧ (1#4 : RegNum) ≠ pcNum :=
  ⟨w0_runs _, w0_next, by decide, by decide⟩

theorem witness_MultiplyRestrictions :
    condHolds .al w0.cpsr = true ∧ pcNum ∈ [0#4, 1#4, 15#4] ∧ (1#4 : BitVec 4) ≠ 0#4 ∧ pcNum ∈ [0#4, 1#4, 2#4, 15#4] ∧ pcNum ∈ [15#4, 1#4] := by
  decide

/-- An instruction of each of the three groups that completes. -/
theorem witness_RegisterInstructionsFrame :
    (0#4 : RegNum) ≠ pcNum ∧ (∃ t, exec (.umlal .al true 0#4 1#4 2#4 3#4) w0 = .next t) ∧
      (∃ t, exec (.add .al true 1#4 0#4 (.imm 0#4 1#8)) w0 = .next t) ∧
      ∃ t, exec (.cmp .al 1#4 0#4 (.imm 0#4 1#8)) w0 = .next t := ⟨by decide, ⟨_, rfl⟩, ⟨_, rfl⟩, ⟨_, rfl⟩⟩

/-- The most negative offset that stays in the address space from 0x8000, and one word less. -/
theorem witness_BranchResults :
    Runs .al [lrNum] w0 ∧ sees (exec (.b .al 0xFFDFFE#24) w0) (fun t => t.pc) = some 0#32 ∧
      refusedAs (exec (.bl .al 0xFFDFFD#24) w0) = some .branchWrap := ⟨w0_runs _, by decide, by decide⟩

theorem witness_BranchExchangeResults :
    Runs .al [1#4, lrNum] w0 ∧ (1#4 : RegNum) ≠ pcNum ∧ NoHazard [lrNum] w0 ∧
      sees (exec (.bx .al 0xFFF#12 3#4) w0) (fun t => (t.pc, t.cpsr.t)) = some (0x1000#32, true) ∧
      refusedAs (exec (.bx .al 0xFFF#12 3#4) (w0.setReg .r3 0x1002#32)) = some .unalignedTarget :=
  ⟨w0_runs _, by decide, Or.inl rfl, by decide, by decide⟩

/-- An aligned post-indexed load and a rotated one from an address that is not aligned. -/
theorem witness_LoadWordResults :
    Runs .al [1#4, 0#4] w0 ∧ HasNext w0 ∧ (0#4 : RegNum) ≠ pcNum ∧ TransferOk true 1#4 0#4 [] ∧
      WordOk w0 (wordAddress .post true 1#4 (.imm 4#12) w0).ea ∧
      readWord w0 (wordAligned (wordAddress .post true 1#4 (.imm 4#12) w0).ea) = .ok 0xA0#32 ∧
      WordOk w0 (wordAddress .pre true 3#4 (.imm 4#12) w0).ea ∧
      readWord w0 (wordAligned (wordAddress .pre true 3#4 (.imm 4#12) w0).ea) = .ok 0xA1#32 :=
  ⟨w0_runs _, w0_next, by decide, ⟨by decide, fun _ => by decide⟩, Or.inl (by decide), by decide, Or.inr rfl, by decide⟩

theorem witness_LoadToPc :
    Runs .al [1#4, pcNum] w0 ∧ TransferOk false 1#4 pcNum [] ∧
      (wordAddress .offset true 1#4 (.imm 28#12) w0).ea.extractLsb' 0 2 = 0#2 ∧
      readWord w0 (wordAddress .offset true 1#4 (.imm 28#12) w0).ea = .ok 0xA8#32 ∧
      (wordAddress .offset true 1#4 (.imm 3#12) w0).ea.extractLsb' 0 2 ≠ 0#2 ∧ w0.platform.unaligned = .rotate :=
  ⟨w0_runs _, ⟨by decide, nofun⟩, by decide, by decide, by decide, rfl⟩

theorem witness_LoadByteHalfResults :
    Runs .al [1#4, 0#4] w0 ∧ HasNext w0 ∧ (0#4 : RegNum) ≠ pcNum ∧ TransferOk true 1#4 0#4 [] ∧
      readByte w0 (wordAddress .post true 1#4 (.imm 1#12) w0).ea = .ok 0xA0#8 ∧
      (HalfOffset.imm 2#8).fixedFields = true ∧ (halfAddress true true true 1#4 (.imm 2#8) w0).ea.getLsbD 0 = false ∧
      readByte w0 (halfAddress true true true 1#4 (.imm 2#8) w0).ea = .ok 0#8 ∧
      readHalf w0 (halfAddress true true true 1#4 (.imm 4#8) w0).ea = .ok 0xA1#16 :=
  ⟨w0_runs _, w0_next, by decide, ⟨by decide, fun _ => by decide⟩, by decide, by decide, by decide, by decide, by decide⟩

theorem witness_StoreWordResults :
    Runs .al [1#4, pcNum] w0 ∧ HasNext w0 ∧ TransferOk false 1#4 pcNum [] ∧
      WordOk w0 (wordAddress .offset true 1#4 (.imm 3#12) w0).ea ∧
      mappedRange w0.platform (wordAligned (wordAddress .offset true 1#4 (.imm 3#12) w0).ea).toNat 4 = true ∧
      TransferOk true 1#4 0#4 [] ∧ (0#4 : RegNum) ≠ pcNum :=
  ⟨w0_runs _, w0_next, ⟨by decide, nofun⟩, Or.inr rfl, by decide, ⟨by decide, fun _ => by decide⟩, by decide⟩

theorem witness_StoreByteHalfResults :
    Runs .al [1#4, 0#4, 2#4] w0 ∧ HasNext w0 ∧ (0#4 : RegNum) ≠ pcNum ∧ TransferOk true 1#4 0#4 [2#4] ∧
      mappedRange w0.platform (wordAddress .pre true 1#4 (.scaled 2#4 .lsl 0#5) w0).ea.toNat 1 = true ∧
      (HalfOffset.reg 0#4 2#4).fixedFields = true ∧
      (halfAddress true true true 1#4 (.reg 0#4 2#4) w0).ea.getLsbD 0 = false ∧
      mappedRange w0.platform (halfAddress true true true 1#4 (.reg 0#4 2#4) w0).ea.toNat 2 = true :=
  ⟨w0_runs _, w0_next, by decide, ⟨by decide, fun _ => by decide⟩, by decide, by decide, by decide, by decide⟩

/-- Each way to violate R224: r15 as the offset, as a base written back, the base as the register transferred. -/
theorem witness_TransferRestrictions :
    condHolds .al w0.cpsr = true ∧ ¬TransferOk false 1#4 0#4 [pcNum] ∧ ¬TransferOk true pcNum 0#4 [] ∧
      ¬TransferOk true 1#4 1#4 [] ∧ ¬TransferOk true 1#4 0#4 [1#4] :=
  ⟨rfl, fun h => h.1 (by decide), fun h => (h.2 rfl).1 rfl, fun h => (h.2 rfl).2.1 rfl,
    fun h => (h.2 rfl).2.2 (by decide)⟩

/-- A misaligned word under UNALIGNED = refuse, an odd half-word address under rotate, and r15 or one register twice in a
swap. -/
theorem witness_TransferRestrictions_misaligned :
    condHolds .al wRefuse.cpsr = true ∧ wRefuse.platform.unaligned = .refuse ∧
      (wordAddress .offset true 3#4 (.imm 0#12) wRefuse).ea.extractLsb' 0 2 ≠ 0#2 ∧
      (readX wRefuse 3#4).extractLsb' 0 2 ≠ 0#2 ∧
      (halfAddress true true false 3#4 (.imm 0#8) w0).ea.getLsbD 0 = true ∧ w0.platform.unaligned ≠ .abort ∧
      pcNum ∈ [1#4, 2#4, 15#4] ∧ refusedAs (exec (.swp .al 1#4 2#4 0#4 1#4) w0) = some .registerOverlap := by decide

/-- The first unmapped word, half-word and byte; the base of the T forms and the swaps unmapped. -/
theorem witness_TransferAborts :
    wHole.afterUserBank = false ∧ condHolds .al wHole.cpsr = true ∧ (2#4 : RegNum) ≠ pcNum ∧
      TransferOk true 0#4 2#4 [] ∧ (HalfOffset.imm 8#8).fixedFields = true ∧
      WordOk wHole (wordAddress .pre true 0#4 (.imm 8#12) wHole).ea ∧
      mappedRange wHole.platform (wordAligned (wordAddress .pre true 0#4 (.imm 8#12) wHole).ea).toNat 4 = false ∧
      mappedRange wHole.platform (wordAddress .pre true 0#4 (.imm 8#12) wHole).ea.toNat 1 = false ∧
      (halfAddress true true true 0#4 (.imm 8#8) wHole).ea.getLsbD 0 = false ∧
      mappedRange wHole.platform (halfAddress true true true 0#4 (.imm 8#8) wHole).ea.toNat 2 = false ∧
      WordOk wHole (readX (wHole.setReg .r0 0x101B#32) 0#4) ∧
      mappedRange wHole.platform (wordAligned (readX (wHole.setReg .r0 0x101B#32) 0#4)).toNat 4 = false ∧
      mappedRange wHole.platform (readX (wHole.setReg .r0 0x101B#32) 0#4).toNat 1 = false ∧ pcNum ∉ [0#4, 1#4] :=
  ⟨rfl, rfl, by decide, ⟨by decide, fun _ => by decide⟩, by decide, Or.inl (by decide), by decide, by decide, by decide,
    by decide, Or.inr rfl, by decide, by decide, by decide⟩

/-- The state w0 on a platform that aborts misaligned accesses, with a misaligned r0. -/
def wStrict : State :=
  { w0.setReg .r0 0x1013#32 with platform := { Platform.atReset with unaligned := .abort } }

/-- The other reason to abort: a misaligned word and half-word under UNALIGNED = abort. -/
theorem witness_TransferAborts_misaligned :
    wStrict.afterUserBank = false ∧ condHolds .al wStrict.cpsr = true ∧ wStrict.platform.unaligned = .abort ∧
      (readX wStrict 0#4).extractLsb' 0 2 ≠ 0#2 ∧ (readX wStrict 0#4).getLsbD 0 = true := by decide

/-- A load that completes, one to r15, one that aborts. -/
theorem witness_LoadsFrame :
    (∃ t, exec (.ldrb .al .post true 1#4 0#4 (.imm 1#12)) w0 = .next t ∧ t.reg .r1 = 0x1001#32) ∧
      (∃ t, exec (.ldr .al .offset true 1#4 pcNum (.imm 0#12)) w0 = .next t ∧ t.pc = 0xA0#32) ∧
      ∃ t, exec (.ldrsh .al true true false 0#4 2#4 (.imm 8#8)) wHole = .next t ∧ t.cpsr.mode = .abt :=
  ⟨next_of_sees (f := fun t => t.reg .r1) (by decide), next_of_sees (f := fun t => t.pc) (by decide),
    next_of_sees (f := fun t => t.cpsr.mode) (by decide)⟩

/-- A store that completes and one that aborts. -/
theorem witness_StoresFrame :
    (∃ t, exec (.str .al .pre true 1#4 0#4 (.imm 4#12)) w0 = .next t ∧ t.reg .r1 = 0x1004#32) ∧
      ∃ t, exec (.strh .al true true false 0#4 2#4 (.imm 8#8)) wHole = .next t ∧ t.cpsr.mode = .abt :=
  ⟨next_of_sees (f := fun t => t.reg .r1) (by decide), next_of_sees (f := fun t => t.cpsr.mode) (by decide)⟩

/-- Base r0 at 0x1010, registers r2 and r3, decrement before with write-back; the whole words are readable. -/
theorem witness_LoadMultipleResult :
    Runs .al (0#4 :: blockRegs 0xC#16) w0 ∧ HasNext w0 ∧ BlockOk true false 0#4 0xC#16 w0 ∧ WordOk w0 (readX w0 0#4) ∧
      (0xC#16).getLsbD 15 = false ∧ (0xC#16).getLsbD (0#4).toNat = false ∧
      ∀ k < (blockRegs 0xC#16).length,
        readWord w0 (blockAddr true false 0#4 0xC#16 w0 k) = .ok ([0xA2#32, 0xA3#32].getD k 0#32) :=
  ⟨w0_runs _, w0_next, ⟨by decide, by decide, by decide⟩, Or.inl (by decide), by decide, by decide, by decide⟩

/-- r2 and pc, the last word with bits 1:0 clear; and its neighbour with bits 1:0 equal to 10 (the word 0xA6). -/
theorem witness_LoadMultipleToPc :
    Runs .al (0#4 :: blockRegs 0x8004#16) w0 ∧ BlockOk true true 0#4 0x8004#16 w0 ∧ WordOk w0 (readX w0 0#4) ∧
      (0x8004#16).getLsbD 15 = true ∧ (0x8004#16).getLsbD (0#4).toNat = false ∧
      (∀ k < (blockRegs 0x8004#16).length,
        readWord w0 (blockAddr true true 0#4 0x8004#16 w0 k) = .ok ([0xA5#32, 0xA6#32].getD k 0#32)) ∧
      (0xA6#32).extractLsb' 0 2 = 0b10#2 ∧
      (∀ k < (blockRegs 0x8004#16).length,
        readWord w0 (blockAddr false true 0#4 0x8004#16 w0 k) = .ok ([0xA4#32, 0xA5#32].getD k 0#32)) ∧
      (0xA5#32).extractLsb' 0 2 ≠ 0b10#2 :=
  ⟨w0_runs _, ⟨by decide, by decide, by decide⟩, Or.inl (by decide), by decide, by decide, by decide, by decide,
    by decide, by decide⟩

/-- The return that completes; an SPSR with no legal mode; and, with the base 8 bytes on, a target of 0xA6. -/
theorem witness_LoadMultipleRestore :
    Runs .al (0#4 :: blockRegs (1#1 ++ 4#15)) w0 ∧ BlockOk false false 0#4 (1#1 ++ 4#15) w0 ∧ WordOk w0 (readX w0 0#4) ∧
      (1#1 ++ 4#15 : BitVec 16).getLsbD (0#4).toNat = false ∧
      (∀ k < (blockRegs (1#1 ++ 4#15)).length,
        readWord w0 (blockAddr false false 0#4 (1#1 ++ 4#15) w0 k) = .ok ([0xA3#32, 0xA4#32].getD k 0#32)) ∧
      w0.cpsr.mode.spsr? = some .svc ∧ (Psr.ofWord? (w0.spsr .svc)).isSome = true ∧ (0xA4#32).extractLsb' 0 2 = 0#2 ∧
      Psr.ofWord? ((w0.setSpsr .svc 0x14#32).spsr .svc) = none ∧
      (∀ k < (blockRegs (1#1 ++ 4#15)).length,
        readWord w0 (blockAddr true true 0#4 (1#1 ++ 4#15) w0 k) = .ok ([0xA5#32, 0xA6#32].getD k 0#32)) ∧
      (Psr.ofWord? (w0.spsr .svc)).map (fun p => p.t) = some false ∧ (0xA6#32).extractLsb' 0 2 ≠ 0#2 :=
  ⟨w0_runs _, ⟨by decide, by decide, by decide⟩, Or.inl (by decide), by decide, by decide, by decide, by decide,
    by decide, by decide, by decide, by decide, by decide⟩

theorem witness_LoadMultipleUser :
    Runs .al [0#4] w0 ∧ HasNext w0 ∧ BlockOk false true 0#4 (0#1 ++ 0x6000#15) w0 ∧ WordOk w0 (readX w0 0#4) ∧
      w0.cpsr.mode ≠ .usr ∧ w0.cpsr.mode ≠ .sys ∧
      ∀ k < (blockRegs (0#1 ++ 0x6000#15)).length,
        readWord w0 (blockAddr false true 0#4 (0#1 ++ 0x6000#15) w0 k) = .ok ([0xA4#32, 0xA5#32].getD k 0#32) :=
  ⟨w0_runs _, w0_next, ⟨by decide, by decide, by decide⟩, Or.inl (by decide), by decide, by decide, by decide⟩

/-- The base lowest in the list with write-back, and r15 in the list. -/
theorem witness_StoreMultipleResults :
    HasNext w0 ∧ BlockOk false true 0#4 0x8001#16 w0 ∧ WordOk w0 (readX w0 0#4) ∧
      (∀ k < (blockRegs 0x8001#16).length,
        mappedRange w0.platform (blockAddr false true 0#4 0x8001#16 w0 k).toNat 4 = true) ∧
      Runs .al (0#4 :: blockRegs 0x8001#16) w0 ∧ (blockRegs 0x8001#16).head? = some 0#4 ∧ Runs .al [0#4] w0 ∧
      w0.cpsr.mode ≠ .usr ∧ w0.cpsr.mode ≠ .sys :=
  ⟨w0_next, ⟨by decide, by decide, by decide⟩, Or.inl (by decide), by decide, w0_runs _, by decide, w0_runs _, by decide,
    by decide⟩

/-- Each clause: an empty list, r15 as the base, a wrapping sequence, the base in the list, User mode, a misaligned base
under UNALIGNED = refuse. -/
theorem witness_BlockRestrictions :
    condHolds .al w0.cpsr = true ∧ ¬BlockOk false true 0#4 0#16 w0 ∧ ¬BlockOk false true pcNum 1#16 w0 ∧
      ¬BlockOk false true 0#4 3#16 (w0.setReg .r0 0xFFFFFFFC#32) ∧ (2#16).getLsbD (1#4).toNat = true ∧
      (∃ j < (1#4).toNat, (3#16).getLsbD j = true) ∧ wUser.cpsr.mode = .usr ∧ wRefuse.platform.unaligned = .refuse ∧
      (readX wRefuse 3#4).extractLsb' 0 2 ≠ 0#2 :=
  ⟨rfl, fun h => h.1 rfl, fun h => h.2.1 rfl, fun h => absurd h.2.2 (by decide), by decide, ⟨0, by decide, by decide⟩,
    rfl, rfl, by decide⟩

/-- The third word of r2, r3, r4 from 0x1010 is the first that is not mapped; each of the five forms is allowed. -/
theorem witness_MultipleTransferAborts :
    BlockOk false true 0#4 0x1C#16 wHole ∧ WordOk wHole (readX wHole 0#4) ∧ 2 < (blockRegs 0x1C#16).length ∧
      (∀ k < 2, mappedRange wHole.platform (blockAddr false true 0#4 0x1C#16 wHole k).toNat 4 = true) ∧
      mappedRange wHole.platform (blockAddr false true 0#4 0x1C#16 wHole 2).toNat 4 = false ∧
      (∀ k < 2, readWord wHole (blockAddr false true 0#4 0x1C#16 wHole k) = .ok ([0xA4#32, 0xA5#32].getD k 0#32)) ∧
      LoadForm .al false true true 0#4 0x1C#16 wHole (.ldm .al false true true 0#4 0x1C#16) .svc ∧
      LoadForm .al false true false 0#4 0x1C#16 wHole (.ldmUser .al false true false 0#4 0x1C#15) .usr ∧
      LoadForm .al false true true 0#4 0x801C#16 wHole (.ldmRestore .al false true true 0#4 0x1C#15) .svc ∧
      StoreForm .al false true false 0#4 0x1C#16 wHole (.stmUser .al false true false 0#4 0x1C#16) .usr ∧
      Runs .al (touched (.ldm .al false true true 0#4 0x1C#16)) wHole :=
  ⟨⟨by decide, by decide, by decide⟩, Or.inl (by decide), by decide, by decide, by decide, by decide,
    Or.inl ⟨rfl, rfl, fun _ => by decide⟩, Or.inr (Or.inl ⟨0x1C#15, by decide, rfl, rfl, rfl, by decide⟩),
    Or.inr (Or.inr ⟨0x1C#15, by decide, rfl, rfl, fun _ => by decide, by decide⟩), Or.inr ⟨rfl, rfl, rfl, by decide⟩,
    wHole_runs _⟩

/-- STM with write-back and the base lowest in the list: r0 and r2 are stored, r3's word aborts. -/
theorem witness_MultipleTransferAborts_base :
    StoreForm .al false true true 0#4 0xD#16 wHole (.stm .al false true true 0#4 0xD#16) .svc ∧
      BlockOk false true 0#4 0xD#16 wHole ∧
      mappedRange wHole.platform (blockAddr false true 0#4 0xD#16 wHole 2).toNat 4 = false ∧
      sees (exec (.stm .al false true true 0#4 0xD#16) wHole) (fun t => (t.cpsr.mode, t.reg .r0, readWord t 0x1010#32)) =
        some (.abt, 0x1010#32, .ok 0x1010#32) :=
  ⟨Or.inl ⟨rfl, rfl, fun _ _ => by decide⟩, ⟨by decide, by decide, by decide⟩, by decide, by decide⟩

theorem witness_MultipleTransferAborts_misaligned :
    Runs .al (touched (.ldm .al false true true 0#4 0x1C#16)) wStrict ∧ BlockOk false true 0#4 0x1C#16 wStrict ∧
      LoadForm .al false true true 0#4 0x1C#16 wStrict (.ldm .al false true true 0#4 0x1C#16) .svc ∧
      wStrict.platform.unaligned = .abort ∧ (readX wStrict 0#4).extractLsb' 0 2 ≠ 0#2 :=
  ⟨⟨rfl, Or.inl rfl⟩, ⟨by decide, by decide, by decide⟩, Or.inl ⟨rfl, rfl, fun _ => by decide⟩, rfl, by decide⟩

theorem witness_SwapResults :
    Runs .al [3#4, 0#4, 2#4] w0 ∧ HasNext w0 ∧ pcNum ∉ [3#4, 0#4, 2#4] ∧ (3#4 : RegNum) ≠ 2#4 ∧ (3#4 : RegNum) ≠ 0#4 ∧
      WordOk w0 (readX w0 3#4) ∧ readWord w0 (wordAligned (readX w0 3#4)) = .ok 0xA0#32 ∧
      readByte w0 (readX w0 3#4) = .ok 0#8 :=
  ⟨w0_runs _, w0_next, by decide, by decide, by decide, Or.inr rfl, by decide, by decide⟩

theorem witness_MrsResults :
    Runs .al [0#4] w0 ∧ HasNext w0 ∧ (0#4 : RegNum) ≠ pcNum ∧ w0.cpsr.mode.spsr? = some .svc ∧
      wUser.cpsr.mode = .usr := ⟨w0_runs _, w0_next, by decide, rfl, rfl⟩

/-- A whole-mask write of flags and mode, from r4 and from an immediate. -/
theorem witness_MsrCpsrResults :
    Runs .al [4#4] (w0.setReg .r4 0xF000001F#32) ∧ HasNext w0 ∧ (4#4 : RegNum) ≠ pcNum ∧
      readX (w0.setReg .r4 0xF000001F#32) 4#4 &&& 0x0FFFFF00#32 = 0#32 ∧
      (readX (w0.setReg .r4 0xF000001F#32) 4#4).getLsbD 5 = false ∧
      (Mode.ofBits ((readX (w0.setReg .r4 0xF000001F#32) 4#4).extractLsb' 0 5)).isSome = true ∧
      (((0xD2#8).setWidth 32 : Word).rotateRight (2 * (0#4).toNat)) &&& 0x0FFFFF00#32 = 0#32 ∧
      (((0xD2#8).setWidth 32 : Word).rotateRight (2 * (0#4).toNat)).getLsbD 5 = false :=
  ⟨⟨rfl, Or.inl rfl⟩, w0_next, by decide, by decide, by decide, by decide, by decide, by decide⟩

theorem witness_MsrSpsrResults :
    Runs .al [4#4] w0 ∧ HasNext w0 ∧ w0.cpsr.mode.spsr? = some .svc ∧ (4#4 : RegNum) ≠ pcNum ∧
      readX w0 4#4 &&& 0x0FFFFF00#32 = 0#32 := ⟨w0_runs _, w0_next, rfl, by decide, by decide⟩

/-- Each clause: a bit of 27:8, the T bit, a mode that is none, User mode. -/
theorem witness_StatusTransferRestrictions :
    condHolds .al w0.cpsr = true ∧ readX w0 0#4 &&& 0x0FFFFF00#32 ≠ 0#32 ∧ w0.cpsr.mode ≠ .usr ∧
      (rotatedImm 0#4 0x20#8).getLsbD 5 = true ∧ Mode.ofBits ((rotatedImm 0#4 0x14#8).extractLsb' 0 5) = none ∧
      (1#4).getLsbD 0 = true ∧ wUser.cpsr.mode = .usr := by decide

theorem witness_TrapsTaken : condHolds .al wUser.cpsr = true := rfl

theorem witness_ReservedSpaces :
    condHolds .al w0.cpsr = true ∧ w0.platform.unusedPolicy = .undefinedTrap ∧ w0.platform.nvPolicy = .never ∧
      HasNext w0 ∧ Platform.specDefault.unusedPolicy = .refuse ∧ Platform.specDefault.nvPolicy = .refuse ∧
      condHolds .ne w0.cpsr = true ∧ condHolds .eq w0.cpsr = false ∧ w0.platform.bkptPolicy = .conditional ∧
      Platform.specDefault.bkptPolicy = .refuse :=
  ⟨rfl, rfl, rfl, w0_next, rfl, rfl, rfl, rfl, rfl, rfl⟩

/-- All three lines; FIQ and IRQ; IRQ with an FIQ that is masked. -/
theorem witness_InterruptsAtBoundary :
    { w0 with lines := [⟨true, true, true⟩] }.lines = [⟨true, true, true⟩] ∧
      { wUser with lines := [⟨false, true, true⟩] }.lines = [⟨false, true, true⟩] ∧ wUser.cpsr.f = false ∧
      { wUser with cpsr := { usr with f := true }, lines := [⟨false, true, true⟩] }.cpsr.f = true ∧
      wUser.cpsr.i = false := by decide

theorem witness_StepRunsDecoded :
    (sampled w0).reset = false ∧ (sampled w0).fiq = false ∧ (sampled w0).irq = false ∧ w0.cpsr.t = false ∧
      (loadInstr w0 0xE0910002#32).pc.extractLsb' 0 2 = 0#2 ∧
      readWord (loadInstr w0 0xE0910002#32) (loadInstr w0 0xE0910002#32).pc = .ok 0xE0910002#32 ∧
      w0.platform.allowSelfModify = true ∧ ∀ k < 4, ((loadInstr w0 0xE0910002#32).pc.toNat + k) ∉ w0.stored := by decide

/-- Each clause: Thumb state, an unaligned pc, an unmapped one, one whose last byte was stored; with no sample, with one
that asserts nothing and with an IRQ that is masked. -/
theorem witness_FetchStops :
    w0.lines = [] ∧ w0.cpsr.i = true ∧ (sampled { w0 with lines := [⟨false, true, false⟩] }).reset = false ∧
      (sampled { w0 with lines := [⟨false, true, false⟩] }).fiq = false ∧
      { w0 with cpsr := { svc with t := true } }.cpsr.t = true ∧
      ({ w0 with pc := 0x8003#32 } : State).pc.extractLsb' 0 2 ≠ 0#2 ∧
      mappedRange { wHole with pc := 0x1018#32 }.platform (0x1018#32).toNat 4 = false ∧
      readWord { loadInstr w0 0#32 with platform := Platform.specDefault, stored := [0x8003] } w0.pc = .ok 0#32 ∧
      Platform.specDefault.allowSelfModify = false ∧ (∃ k < 4, (w0.pc.toNat + k) ∈ [0x8003]) := by decide

theorem w0_Inv : w0.Inv := by unfold State.Inv; decide

theorem witness_StepKeepsInvariant :
    (loadInstr w0 0xE1B0F00E#32).Inv ∧ ∃ t, step (loadInstr w0 0xE1B0F00E#32) = .next t ∧ t.cpsr.mode = .usr :=
  ⟨by unfold State.Inv; decide, next_of_sees (f := fun t => t.cpsr.mode) (by decide)⟩

/-- An instruction that stays in User mode and one that takes an exception. -/
theorem witness_UserModeConfined :
    wUser.cpsr.mode = .usr ∧
      (∃ t, exec (.msrImm .al false 9#4 15#4 0#4 0xD3#8) wUser = .next t ∧ t.cpsr.mode = .usr) ∧
      ∃ t, exec (.swi .al 0#24) wUser = .next t ∧ t.cpsr.mode = .svc :=
  ⟨rfl, next_of_sees (f := fun t => t.cpsr.mode) (by decide), next_of_sees (f := fun t => t.cpsr.mode) (by decide)⟩

/-- A transfer that sets the mark; a banked register as the operand of an immediate-shifted instruction and as the base of
a User-bank transfer; r14, which BLX (immediate) writes. -/
theorem witness_UserBankHazard :
    (∃ t, exec (.stmUser .al false true false 0#4 0x4000#16) w0 = .next t ∧ t.afterUserBank = true) ∧
      wMarked.afterUserBank = true ∧ condHolds .al wMarked.cpsr = true ∧
      (∃ r ∈ touched (.mov .al false 0#4 0#4 (.shiftImm 13#4 .lsl 0#5)), bankedIn wMarked.cpsr.mode r = true) ∧
      (∃ r ∈ touched (.stmUser .al false true false 13#4 1#16), bankedIn wMarked.cpsr.mode r = true) ∧
      bankedIn wMarked.cpsr.mode lrNum = true :=
  ⟨next_of_sees (f := fun t => t.afterUserBank) (by decide), rfl, rfl, ⟨13#4, by decide, by decide⟩,
    ⟨13#4, by decide, by decide⟩, by decide⟩

end Sys2Proof.Tests
end

section
/-!
Proofs of `RegisterReadWrite`, `StepRunsDecoded`, `FetchStops` and `InterruptsAtBoundary`: r15 as a register, and what
the boundary and the fetch do in each of their cases (spec/00_scope.md R15, spec/10_state.md R9, R21, R24).
-/

namespace Sys2Proof.Machine

/-! ## Registers -/

/-- r15 reads as the instruction's address plus 8 (R24). -/
theorem readX_pcNum (s : State) : readX s pcNum = s.pc + 8 := rfl

/-- A write of r15 is a write of the pc and of nothing else (R9). -/
theorem writeX_pcNum (s : State) (v : Word) : writeX s pcNum v = { s with pc := v } := rfl

/-- Settles O8: r15 is the pc by definition; the other registers go through `readX_writeX_same`, `readX_writeX_ne` and
`writeX_reg`. -/
theorem registerReadWrite : Obligations.RegisterReadWrite := by
  refine ⟨fun s r r' v hr => ?_, writeX_reg, fun s v => ⟨readX_pcNum s, by rw [writeX_pcNum]⟩⟩
  by_cases h : r' = r
  · rw [if_pos h, h, readX_writeX_same s v hr]
  · rw [if_neg h, readX_writeX_ne s v hr h]

/-! ## The fetch (R15 step 4) -/

theorem fetch_thumb {s : State} (k : Instr → Out) (ht : s.cpsr.t = true) : fetch s k = .refused .thumbState := by
  unfold fetch
  rw [if_pos ht]

theorem fetch_unaligned {s : State} (k : Instr → Out) (ht : s.cpsr.t = false) (hp : s.pc.extractLsb' 0 2 ≠ 0#2) :
    fetch s k = .refused .unalignedFetch := by
  unfold fetch
  rw [if_neg (by simp [ht]), if_pos hp]

theorem fetch_unmapped {s : State} (k : Instr → Out) (ht : s.cpsr.t = false) (hp : s.pc.extractLsb' 0 2 = 0#2)
    (hm : mappedRange s.platform s.pc.toNat 4 = false) : fetch s k = .next (raisePrefetchAbort s) := by
  simp [fetch, ht, hp, readWord_abort hm]

theorem fetch_selfModified {s : State} {w : Word} (k : Instr → Out) (ht : s.cpsr.t = false)
    (hp : s.pc.extractLsb' 0 2 = 0#2) (hw : readWord s s.pc = .ok w) (ha : s.platform.allowSelfModify = false)
    (hs : selfWritten s s.pc.toNat 4 = true) : fetch s k = .refused .selfModified := by
  simp [fetch, ht, hp, hw, ha, hs]

theorem selfWritten_iff (s : State) (a n : Nat) : selfWritten s a n = true ↔ ∃ k < n, (a + k) ∈ s.stored := by
  simp [selfWritten]

theorem selfWritten_eq_false (s : State) (a n : Nat) : selfWritten s a n = false ↔ ∀ k < n, (a + k) ∉ s.stored := by
  simp [selfWritten]

/-! ## The boundary (R15 steps 1 to 3) -/

/-- A line that is not asserted or is masked is not taken. -/
theorem line_not_taken {line mask : Bool} (h : line = false ∨ mask = true) : (line && !mask) = false := by
  rcases h with rfl | rfl <;> simp

/-- With no line to take, a step is the fetch on the state whose sample has been taken (R15). -/
theorem step_of_quiet {s : State} (hr : (sampled s).reset = false) (hf : (sampled s).fiq = false ∨ s.cpsr.f = true)
    (hi : (sampled s).irq = false ∨ s.cpsr.i = true) :
    step s = fetch (sampleTaken s) fun i => exec i (sampleTaken s) :=
  boundary_quiet hr (line_not_taken hf) (line_not_taken hi)

theorem boundary_reset {s : State} (k : State → Out) (hr : (sampled s).reset = true) :
    boundary s k = .next (resetEntry (sampleTaken s)) := by
  simp [boundary, hr]

theorem boundary_fiq {s : State} (k : State → Out) (hr : (sampled s).reset = false) (hl : (sampled s).fiq = true)
    (hf : s.cpsr.f = false) : boundary s k = .next (raiseFiq (sampleTaken s)) := by
  simp [boundary, hr, hl, hf]

theorem boundary_irq {s : State} (k : State → Out) (hr : (sampled s).reset = false)
    (hf : (sampled s).fiq = false ∨ s.cpsr.f = true) (hl : (sampled s).irq = true) (hi : s.cpsr.i = false) :
    boundary s k = .next (raiseIrq (sampleTaken s)) := by
  simp [boundary, hr, line_not_taken hf, hl, hi]

theorem sampled_cons {s : State} {l : Lines} {ls : List Lines} (h : s.lines = l :: ls) : sampled s = l := by
  simp [sampled, h]

theorem sampleTaken_cons {s : State} {l : Lines} {ls : List Lines} (h : s.lines = l :: ls) :
    sampleTaken s = { s with lines := ls } := by
  simp [sampleTaken, h]

/-- The CPSR after a Reset in mid-run, flags apart (R37, R310). -/
theorem resetEntry_cpsr (s : State) :
    ∃ n z c v, (resetEntry s).cpsr =
      { n := n, z := z, c := c, v := v, reserved := 0#20, i := true, f := true, t := false, mode := .svc } := by
  simp [resetEntry, Exc.masksFiq, Exc.mode]

/-- The pc after a Reset in mid-run is the first vector (R305, R351). -/
theorem resetEntry_pc (s : State) : (resetEntry s).pc = vectorBase s.platform := by
  simp [resetEntry, Exc.vector]

@[simp] theorem resetEntry_mem (s : State) : (resetEntry s).mem = s.mem := by simp [resetEntry]
@[simp] theorem resetEntry_platform (s : State) : (resetEntry s).platform = s.platform := by simp [resetEntry]
@[simp] theorem resetEntry_lines (s : State) : (resetEntry s).lines = s.lines := by simp [resetEntry]

/-! ## The obligations on the step -/

/-- Settles O55: the boundary is quiet and the fetch gives the word. -/
theorem stepRunsDecoded : Obligations.StepRunsDecoded := by
  intro s w hr hf hi ht hp hw hs
  rw [step_of_quiet hr hf hi]
  exact fetch_of_readWord (s := sampleTaken s) ht hp hw
    (hs.imp_right (selfWritten_eq_false (sampleTaken s) s.pc.toNat 4).2)

/-- Settles O56, one lemma on the fetch for each stop. -/
theorem fetchStops : Obligations.FetchStops := by
  intro s w hr hf hi
  rw [step_of_quiet hr hf hi]
  refine ⟨fun ht => ?_, fun ht hp => ?_, fun ht hp hm => ?_, fun ht hp hw ha hs => ?_⟩
  · exact fetch_thumb (s := sampleTaken s) _ ht
  · exact fetch_unaligned (s := sampleTaken s) _ ht hp
  · exact fetch_unmapped (s := sampleTaken s) _ ht hp hm
  · exact fetch_selfModified (s := sampleTaken s) _ ht hp hw ha ((selfWritten_iff (sampleTaken s) _ 4).2 hs)

/-- Settles O53, one lemma on the boundary for each line. -/
theorem interruptsAtBoundary : Obligations.InterruptsAtBoundary := by
  intro s l ls h
  have hl := sampled_cons h
  have ht := sampleTaken_cons h
  subst hl
  refine ⟨fun hr => ⟨_, boundary_reset _ hr, ?_⟩, fun hr hq hf => ?_, fun hr hf hq hi => ?_⟩
  · obtain ⟨n, z, c, v, hc⟩ := resetEntry_cpsr (sampleTaken s)
    simp [hc, resetEntry_pc, h]
  · rw [step, boundary_fiq _ hr hq hf, ht]
    rfl
  · rw [step, boundary_irq _ hr hf hq hi, ht]
    rfl

end Sys2Proof.Machine
end

section
/-!
Proof of `ConditionPredicates`: each part of the decoder hands on the condition it is given (spec/30_encoding.md R93,
spec/40_conditional_execution.md R130).
-/

namespace Sys2Proof

/-- A choice between two instructions with one condition has that condition. -/
theorem cond?_ite {P : Prop} [Decidable P] {i j : Instr} {c : Cond} (hi : i.cond? = some c) (hj : j.cond? = some c) :
    (if P then i else j).cond? = some c := by
  split
  · exact hi
  · exact hj

/-- BKPT's own condition is AL, the one it is decoded under (R290). -/
theorem cond?_bkpt (c : Cond) (imm : BitVec 16) :
    (if c = .al then Instr.bkpt imm else .bkptNotAl c imm).cond? = some c := by
  split
  · next h => rw [h]; rfl
  · rfl

@[simp] theorem decodeDataProcessing_cond? (c : Cond) (w : Word) (op : Operand2) :
    (decodeDataProcessing c w op).cond? = some c := by
  unfold decodeDataProcessing
  repeat' with_reducible apply cond?_ite
  all_goals rfl

@[simp] theorem decodeMultiply_cond? (c : Cond) (w : Word) : (decodeMultiply c w).cond? = some c := by
  unfold decodeMultiply
  repeat' with_reducible apply cond?_ite
  all_goals rfl

@[simp] theorem decodeExtra_cond? (c : Cond) (w : Word) : (decodeExtra c w).cond? = some c := by
  unfold decodeExtra
  repeat' with_reducible apply cond?_ite
  all_goals first | rfl | exact decodeMultiply_cond? c w

@[simp] theorem decodeControl_cond? (c : Cond) (w : Word) : (decodeControl c w).cond? = some c := by
  unfold decodeControl
  repeat' first | exact cond?_bkpt c _ | with_reducible apply cond?_ite
  all_goals rfl

@[simp] theorem decodeWordTransfer_cond? (c : Cond) (w : Word) : (decodeWordTransfer c w).cond? = some c := by
  unfold decodeWordTransfer
  repeat' with_reducible apply cond?_ite
  all_goals rfl

@[simp] theorem decodeMultiple_cond? (c : Cond) (w : Word) : (decodeMultiple c w).cond? = some c := by
  unfold decodeMultiple
  repeat' with_reducible apply cond?_ite
  all_goals rfl

@[simp] theorem decodeCoprocTransfer_cond? (c : Cond) (w : Word) : (decodeCoprocTransfer c w).cond? = some c := by
  unfold decodeCoprocTransfer
  repeat' with_reducible apply cond?_ite
  all_goals rfl

@[simp] theorem decodeSystem_cond? (c : Cond) (w : Word) : (decodeSystem c w).cond? = some c := by
  unfold decodeSystem
  repeat' with_reducible apply cond?_ite
  all_goals rfl

/-- The words with a condition decode to instructions with that condition (R93 step 2). -/
theorem decodeConditional_cond? (c : Cond) (w : Word) : (decodeConditional c w).cond? = some c := by
  unfold decodeConditional
  repeat' with_reducible apply cond?_ite
  all_goals first | rfl | simp

/-- Bits 31:28 select the condition (R130). -/
theorem decodeWord_cond? {w : Word} {c : Cond} (h : Cond.ofBits (w.extractLsb' 28 4) = some c) :
    (decodeWord w).cond? = some c := by
  simp only [decodeWord, h]
  exact decodeConditional_cond? c w

end Sys2Proof

namespace Sys2Proof.Machine

/-- Settles O5: the table of codes by evaluation, the condition field by `decodeWord_cond?`, the predicates by
definition. -/
theorem conditionPredicates : Obligations.ConditionPredicates := by
  refine ⟨by decide, fun w c => decodeWord_cond?, fun p => ?_⟩
  simp [condHolds]

end Sys2Proof.Machine
end

section
/-!
Proofs of `AddSubResults`, `CarryArithmeticResults`, `CompareResults` and `ClzResult`: the frames of data processing
run to the end once, the adder in the terms of each instruction, and the leading zeros of a word
(spec/43_data_processing.md R160 to R181, spec/44_multiply_clz.md R209).
-/

namespace Sys2Proof.Machine

/-! ## The state without the mark of R361 -/

@[simp] theorem readX_unmarked (s : State) (r : RegNum) : readX s.unmarked r = readX s r := rfl

@[simp] theorem operand2_unmarked (op : Operand2) (s : State) : operand2 op s.unmarked = operand2 op s := by
  cases op <;> rfl

theorem writeX_unmarked (s : State) (r : RegNum) (v : Word) : writeX s.unmarked r v = (writeX s r v).unmarked := by
  unfold writeX writeBank
  show (match bankReg s.cpsr.mode r with | some p => _ | none => _) = _
  cases bankReg s.cpsr.mode r <;> rfl

/-! ## The frames of data processing, run to the end -/

/-- The flags of R166, field by field. -/
theorem setFlags_eq_flags (r : AluResult) (p : Psr) :
    setFlags r p = p.flags r.value.msb (r.value == 0#32) r.carry (r.overflow.getD p.v) := rfl

/-- A result written to a register other than r15 (R160, R166). -/
theorem dataResult_completes {s : State} {rd : RegNum} (hn : HasNext s) (hd : rd ≠ pcNum) (sf : Bool) (r : AluResult) :
    dataResult sf rd r s.unmarked = .next (dataNext s sf rd r.value (setFlags r s.cpsr)) := by
  refine dataResult_next.2 (.inl ⟨hd, hn, ?_⟩)
  rw [writeX_unmarked]
  rfl

/-- An instruction with Rn and Rd that is not refused writes what it computes from Rn, operand 2, the shifter's
carry-out and C (R160). -/
theorem dataOp_completes {c : Cond} {rn rd : RegNum} {op : Operand2} {s : State}
    (hr : Runs c (rn :: rd :: operandRegs op) s) (hn : HasNext s) (hd : rd ≠ pcNum) (hs : ShiftOk op [rn, rd])
    (sf : Bool) (f : (a b : Word) → (sc cin : Bool) → AluResult) :
    dataOp f c sf rn rd op s =
      let r := f (readX s rn) (operand2 op s).1 (operand2 op s).2 s.cpsr.c
      .next (dataNext s sf rd r.value (setFlags r s.cpsr)) := by
  unfold dataOp
  rw [conditional_of_runs hr, regShiftCheck_eq_none.2 hs, guarded_none]
  simp only [readX_unmarked, operand2_unmarked]
  exact dataResult_completes hn hd sf _

/-- A comparison that is not refused writes the flags alone (R160, R166). -/
theorem compareOp_completes {c : Cond} {rn : RegNum} {op : Operand2} {s : State}
    (hr : Runs c (rn :: operandRegs op) s) (hn : HasNext s) (hs : ShiftOk op [rn])
    (f : (a b : Word) → (sc : Bool) → AluResult) :
    compareOp f c rn 0#4 op s =
      .next (compareNext s (setFlags (f (readX s rn) (operand2 op s).1 (operand2 op s).2) s.cpsr)) := by
  unfold compareOp
  rw [conditional_of_runs hr, failIf_eq_none.2 (by decide), regShiftCheck_eq_none.2 hs, guarded_none, guarded_none]
  simp only [readX_unmarked, operand2_unmarked]
  exact advance_of_hasNext hn

/-! ## The adder, instruction by instruction (R12, R172 to R177) -/

/-- The sum without carry-in. -/
theorem addWithCarry_add (a b : Word) :
    addWithCarry a b false =
      { value := a + b, carry := decide (2 ^ 32 ≤ a.toNat + b.toNat)
        overflow := some (overflows (a.toInt + b.toInt)) } := by
  simp [addWithCarry_eq, overflows]

/-- The difference without borrow. -/
theorem addWithCarry_sub (a b : Word) :
    addWithCarry a (~~~b) true =
      { value := a - b, carry := decide (b.toNat ≤ a.toNat), overflow := some (overflows (a.toInt - b.toInt)) } := by
  simp [addWithCarry_not, overflows]

/-- The sum with a carry-in of 0 or 1. -/
theorem addWithCarry_adc (a b : Word) (c : Bool) :
    addWithCarry a b c =
      let cin : Nat := if c then 1 else 0
      { value := a + b + BitVec.ofNat 32 cin, carry := decide (2 ^ 32 ≤ a.toNat + b.toNat + cin)
        overflow := some (overflows (a.toInt + b.toInt + cin)) } := by
  cases c <;> exact addWithCarry_eq a b _

/-- The difference with a borrow of 1 or 0, the inverse of the carry-in. -/
theorem addWithCarry_sbc (a b : Word) (c : Bool) :
    addWithCarry a (~~~b) c =
      let borrow : Nat := 1 - if c then 1 else 0
      { value := a - b - BitVec.ofNat 32 borrow, carry := decide (b.toNat + borrow ≤ a.toNat)
        overflow := some (overflows (a.toInt - b.toInt - borrow)) } := by
  cases c <;> exact addWithCarry_not a b _

/-! ## Leading zeros (R17) -/

/-- The most significant one of a word that is not zero. -/
theorem getLsbD_log2 {v : Word} (h : v ≠ 0#32) : v.getLsbD v.toNat.log2 = true :=
  Nat.testBit_log2 fun e => h (BitVec.eq_of_toNat_eq e)

/-- No one above it. -/
theorem getLsbD_of_log2_lt {v : Word} {j : Nat} (h : v.toNat.log2 < j) : v.getLsbD j = false :=
  Nat.testBit_lt_two_pow (Nat.lt_log2_self.trans_le (Nat.pow_le_pow_right Nat.two_pos h))

/-- `CountLeadingZeros` counts the zeros above the most significant one; 32 for zero (R17). -/
theorem countLeadingZeros_spec (v : Word) :
    (v = 0#32 ∧ countLeadingZeros v = 32) ∨
      (countLeadingZeros v ≤ 31 ∧ v.getLsbD (31 - countLeadingZeros v) = true ∧
        ∀ j, 31 - countLeadingZeros v < j → v.getLsbD j = false) := by
  by_cases h : v = 0#32
  · exact .inl ⟨h, if_pos h⟩
  · have hk : countLeadingZeros v = 31 - v.toNat.log2 := if_neg h
    have hlt : v.toNat.log2 < 32 := (Nat.log2_lt fun e => h (BitVec.eq_of_toNat_eq e)).2 v.isLt
    rw [hk, show 31 - (31 - v.toNat.log2) = v.toNat.log2 by omega]
    exact .inr ⟨Nat.sub_le .., getLsbD_log2 h, fun j hj => getLsbD_of_log2_lt hj⟩

/-- A CLZ that is not refused writes the count to Rd and no flag (R209). -/
theorem execClz_completes {c : Cond} {rd rm : RegNum} {s : State} (hr : Runs c [rd, rm] s) (hn : HasNext s)
    (hd : rd ≠ pcNum) (hm : rm ≠ pcNum) (f1 f2 : BitVec 4) :
    execClz c f1 rd f2 rm s =
      .next (dataNext s false rd (BitVec.ofNat 32 (countLeadingZeros (readX s rm))) s.cpsr) := by
  have hck : [rd, rm].contains pcNum = false := by simp [hd.symm, hm.symm]
  unfold execClz
  rw [conditional_of_runs hr, failIf_eq_none.2 hck, guarded_none, writeX_unmarked, readX_unmarked]
  have hpc : (writeX s rd (BitVec.ofNat 32 (countLeadingZeros (readX s rm)))).unmarked.pc = s.pc := writeX_pc_ne s _ hd
  rw [advance_of_hasNext (by rwa [HasNext, hpc]), State.advanced, hpc, dataNext]
  simp [State.unmarked]

/-! ## The obligations -/

/-- Settles O16: the frame of data processing with the adder as sum and as difference. -/
theorem addSubResults : Obligations.AddSubResults := by
  intro c sf rn rd op s hr hn hd hs
  simp only [exec_sub, execSub, exec_rsb, execRsb, exec_add, execAdd, dataOp_completes hr hn hd hs, addWithCarry_add,
    addWithCarry_sub, setFlags_eq_flags, Option.getD_some, and_self]

/-- Settles O17: the frame of data processing with the adder under a carry-in. -/
theorem carryArithmeticResults : Obligations.CarryArithmeticResults := by
  intro c sf rn rd op s hr hn hd hs
  simp only [exec_adc, execAdc, exec_sbc, execSbc, exec_rsc, execRsc, dataOp_completes hr hn hd hs, addWithCarry_sbc,
    setFlags_eq_flags, Option.getD_some, and_true]
  rw [addWithCarry_adc, Option.getD_some]

/-- Settles O19: the frame of the comparisons with the logical results and the adder. -/
theorem compareResults : Obligations.CompareResults := by
  intro c rn op s hr hn hs
  simp only [exec_tst, execTst, exec_teq, execTeq, exec_cmp, execCmp, exec_cmn, execCmn, compareOp_completes hr hn hs,
    logical, addWithCarry_add, addWithCarry_sub, setFlags_eq_flags, Option.getD_some, Option.getD_none, and_self]

/-- Settles O23: the count is `CountLeadingZeros` of Rm. -/
theorem clzResult : Obligations.ClzResult := by
  intro c f1 f2 rd rm s hr hn hd hm
  exact ⟨_, execClz_completes hr hn hd hm f1 f2, countLeadingZeros_spec _⟩

end Sys2Proof.Machine
end

section
/-!
Proof of `FailedConditionAndTopOfMemory`: every instruction with a condition runs in the frame `conditional`, and an
instruction that cannot write the pc either goes on to the next address or takes an exception
(spec/00_scope.md R15, spec/10_state.md R26, spec/40_conditional_execution.md R131).
-/

namespace Sys2Proof.Machine

/-! ## The conditional frame (R131) -/

/-- An instruction with a condition runs its rule in the conditional frame, BKPT with its fixed condition apart, and
BKPT's bits with another condition where the platform takes R131's side (log 13). -/
theorem exec_eq_conditional {i : Instr} {c : Cond} {s : State} (hc : i.cond? = some c) (hal : ∀ imm, i ≠ .bkpt imm)
    (hb : ∀ imm, i = .bkptNotAl c imm → s.platform.bkptPolicy = .conditional) :
    ∃ body, exec i s = conditional c (touched i) s body := by
  cases i with
  | bkpt imm => exact absurd rfl (hal imm)
  | bkptNotAl c' imm =>
    obtain rfl : c' = c := Option.some.inj hc
    refine ⟨fun _ => .refused .bkptCondition, ?_⟩
    rw [exec_bkptNotAl, execBkptNotAl, hb imm rfl]
    rfl
  | blxImm h off => cases hc
  | nvReserved bits => cases hc
  | _ => cases hc; exact ⟨_, rfl⟩

/-- An instruction whose condition fails only advances (R131). -/
theorem exec_of_fails {i : Instr} {c : Cond} {s : State} (hc : i.cond? = some c) (hf : condHolds c s.cpsr = false)
    (hb : ∀ imm, i = .bkptNotAl c imm → s.platform.bkptPolicy = .conditional) :
    exec i s = advance s.unmarked := by
  have hal : ∀ imm, i ≠ .bkpt imm := by
    rintro imm rfl
    obtain rfl : Cond.al = c := Option.some.inj hc
    cases hf
  obtain ⟨body, e⟩ := exec_eq_conditional hc hal hb
  rw [e, conditional_of_fails hf]

/-! ## Going on to the next address, or trapping -/

/-- The state `t` is one in which an exception that an instruction can raise has been taken from `s` (R310). -/
def TrappedFrom (s t : State) : Prop :=
  ∃ e ∈ [Exc.undefined, .swi, .prefetchAbort, .dataAbort],
    t.cpsr.mode = e.mode ∧ t.cpsr.i = true ∧ t.pc = vectorBase s.platform + e.vector

/-- If the outcome is a state, it is at the next address, which exists (R26), or an exception has been taken. -/
def NextOrTrap (s : State) (o : Out) : Prop :=
  ∀ t, o = .next t → (HasNext s ∧ t.pc = s.pc + 4) ∨ TrappedFrom s t

theorem nextOrTrap_refused {s : State} {r : Refusal} : NextOrTrap s (.refused r) := fun _ h => by cases h

theorem nextOrTrap_advance {s s' : State} (hp : s'.pc = s.pc) : NextOrTrap s (advance s') := fun t h => by
  obtain ⟨hn, rfl⟩ := advance_next.1 h
  refine .inl ⟨by rwa [HasNext, ← hp], ?_⟩
  rw [← hp]
  rfl

/-- An exception taken from a state on the same platform (R305, R310). -/
theorem nextOrTrap_exception {s s' : State} {e : Exc} (he : e ∈ [Exc.undefined, .swi, .prefetchAbort, .dataAbort])
    (hq : s'.platform = s.platform) {ret : Word} : NextOrTrap s (.next (takeException e ret s')) := by
  rintro t ⟨⟩
  exact .inr ⟨e, he, rfl, rfl, by rw [takeException, enterException_pc, hq]⟩

theorem nextOrTrap_dataAbort {s s' : State} (hq : s'.platform = s.platform) :
    NextOrTrap s (.next (raiseDataAbort s')) := nextOrTrap_exception (by decide) hq

theorem nextOrTrap_undefined {s : State} : NextOrTrap s (.next (raiseUndefined s)) :=
  nextOrTrap_exception (by decide) rfl

/-! ## The shared operations -/

theorem nextOrTrap_unconditional {regs : List RegNum} {s : State} {body : State → Out}
    (h : NextOrTrap s.unmarked (body s.unmarked)) : NextOrTrap s (unconditional regs s body) := fun t ht =>
  h t (unconditional_next.1 ht).2

theorem nextOrTrap_conditional {c : Cond} {regs : List RegNum} {s : State} {body : State → Out}
    (h : NextOrTrap s.unmarked (body s.unmarked)) : NextOrTrap s (conditional c regs s body) := fun t ht => by
  rcases conditional_next.1 ht with ⟨-, hb⟩ | ⟨-, hn, rfl⟩
  · exact h t hb
  · exact .inl ⟨hn, rfl⟩

theorem nextOrTrap_guarded {r : Option Refusal} {s : State} {k : Out} (h : r = none → NextOrTrap s k) :
    NextOrTrap s (guarded r k) := fun t ht =>
  h (guarded_next.1 ht).1 t (guarded_next.1 ht).2

theorem nextOrTrap_withLoad {α : Type} {s : State} {x : Access α} {k : α → Out} (h : ∀ v, NextOrTrap s (k v)) :
    NextOrTrap s (withLoad s x k) := fun t ht => by
  rcases withLoad_next.1 ht with ⟨v, -, hk⟩ | ⟨-, rfl⟩
  · exact h v t hk
  · exact nextOrTrap_dataAbort rfl _ rfl

theorem nextOrTrap_withStore {s : State} {x : Option State} {k : State → Out}
    (h : ∀ s', x = some s' → NextOrTrap s (k s')) : NextOrTrap s (withStore s x k) := fun t ht => by
  rcases withStore_next.1 ht with ⟨s', hx, hk⟩ | ⟨-, rfl⟩
  · exact h s' hx t hk
  · exact nextOrTrap_dataAbort rfl _ rfl

theorem nextOrTrap_wordAccess {s : State} {ea : Word} {k : Out} (h : NextOrTrap s k) :
    NextOrTrap s (wordAccess s ea k) := fun t ht => by
  rcases wordAccess_next.1 ht with ⟨-, hk⟩ | ⟨-, -, rfl⟩
  · exact h t hk
  · exact nextOrTrap_dataAbort rfl _ rfl

theorem nextOrTrap_halfAccess {s : State} {ea : Word} {k : Out} (h : NextOrTrap s k) :
    NextOrTrap s (halfAccess s ea k) := fun t ht => by
  rcases halfAccess_next.1 ht with ⟨-, hk⟩ | ⟨-, -, rfl⟩
  · exact h t hk
  · exact nextOrTrap_dataAbort rfl _ rfl

theorem nextOrTrap_withBlock {m : Mode} {rn : RegNum} {s : State} {x : BlockRead} {k : List (RegNum × Word) → Out}
    (h : ∀ l, x = .ok l → NextOrTrap s (k l)) : NextOrTrap s (withBlock m rn s x k) := fun t ht => by
  rcases withBlock_next.1 ht with ⟨l, hx, hk⟩ | ⟨l, -, rfl⟩
  · exact h l hx t hk
  · obtain ⟨-, -, -, -, -, -, -, hq⟩ := drawLoaded_only m (bankReg s.cpsr.mode rn) l s
    exact nextOrTrap_dataAbort hq _ rfl

/-- A multiple store goes on, or aborts, in a state that differs from `s` in memory alone (R251, R256). -/
theorem nextOrTrap_withStored {s : State} {x : Bool × State} {k : State → Out} (hx : StoresOnly s x.2)
    (h : NextOrTrap s (k x.2)) : NextOrTrap s (withStored x k) := fun t ht => by
  rcases withStored_next.1 ht with ⟨-, hk⟩ | ⟨-, rfl⟩
  · exact h t hk
  · exact nextOrTrap_dataAbort hx.platform _ rfl

/-! ## Data processing, multiplies, status registers -/

theorem nextOrTrap_dataResult {rd : RegNum} (hd : rd ≠ pcNum) {sf : Bool} {r : AluResult} {s : State} :
    NextOrTrap s (dataResult sf rd r s) := fun t ht => by
  rcases dataResult_next.1 ht with ⟨-, hn, rfl⟩ | ⟨e, -⟩ | ⟨e, -⟩
  · exact .inl ⟨hn, rfl⟩
  · exact absurd e hd
  · exact absurd e hd

theorem nextOrTrap_dataOp {rd : RegNum} (hd : rd ≠ pcNum) {f : (a b : Word) → (sc cin : Bool) → AluResult} {c : Cond}
    {sf : Bool} {rn : RegNum} {op : Operand2} {s : State} : NextOrTrap s (dataOp f c sf rn rd op s) :=
  nextOrTrap_conditional <| nextOrTrap_guarded fun _ => nextOrTrap_dataResult hd

theorem nextOrTrap_moveOp {rd : RegNum} (hd : rd ≠ pcNum) {f : (b : Word) → (sc : Bool) → AluResult} {c : Cond}
    {sf : Bool} {sbz : RegNum} {op : Operand2} {s : State} : NextOrTrap s (moveOp f c sf sbz rd op s) :=
  nextOrTrap_conditional <| nextOrTrap_guarded fun _ => nextOrTrap_guarded fun _ => nextOrTrap_dataResult hd

theorem nextOrTrap_compareOp {f : (a b : Word) → (sc : Bool) → AluResult} {c : Cond} {rn sbz : RegNum} {op : Operand2}
    {s : State} : NextOrTrap s (compareOp f c rn sbz op s) :=
  nextOrTrap_conditional <| nextOrTrap_guarded fun _ => nextOrTrap_guarded fun _ => nextOrTrap_advance rfl

theorem nextOrTrap_mulResult {rd : RegNum} (hd : rd ≠ pcNum) {sf : Bool} {v : Word} {s : State} :
    NextOrTrap s (mulResult sf rd v s) :=
  nextOrTrap_advance (by cases sf <;> simp [setMulFlags, hd])

theorem nextOrTrap_mulLongOp {f : (acc : BitVec 64) → (m r : Word) → BitVec 64} {c : Cond} {sf : Bool}
    {rdHi rdLo rs rm : RegNum} {s : State} : NextOrTrap s (mulLongOp f c sf rdHi rdLo rs rm s) :=
  nextOrTrap_conditional <| nextOrTrap_guarded fun hck => by
    obtain ⟨hHi, hLo⟩ : rdHi ≠ pcNum ∧ rdLo ≠ pcNum := by
      unfold mulLongCheck at hck
      split at hck
      · cases hck
      · next h => constructor <;> rintro rfl <;> simp at h
    exact nextOrTrap_advance (by cases sf <;> simp [setMulLongFlags, hHi, hLo])

/-- MUL and MLA, once the check is passed, write a register that is not r15 (R202). -/
theorem ne_pcNum_of_mulCheck {used : List RegNum} {rd rm : RegNum} (hrd : rd ∈ used) (h : mulCheck used rd rm = none) :
    rd ≠ pcNum := by
  unfold mulCheck at h
  split at h
  · cases h
  · next hc => rintro rfl; simp [hrd] at hc

theorem nextOrTrap_mul {c : Cond} {sf : Bool} {rd : RegNum} {sbz : BitVec 4} {rs rm : RegNum} {s : State} :
    NextOrTrap s (execMul c sf rd sbz rs rm s) :=
  nextOrTrap_conditional <| nextOrTrap_guarded fun _ => nextOrTrap_guarded fun hck =>
    nextOrTrap_mulResult (ne_pcNum_of_mulCheck (by simp) hck)

theorem nextOrTrap_mla {c : Cond} {sf : Bool} {rd rn rs rm : RegNum} {s : State} :
    NextOrTrap s (execMla c sf rd rn rs rm s) :=
  nextOrTrap_conditional <| nextOrTrap_guarded fun hck =>
    nextOrTrap_mulResult (ne_pcNum_of_mulCheck (by simp) hck)

theorem nextOrTrap_clz {c : Cond} {f1 : BitVec 4} {rd : RegNum} {f2 : BitVec 4} {rm : RegNum} {s : State} :
    NextOrTrap s (execClz c f1 rd f2 rm s) :=
  nextOrTrap_conditional <| nextOrTrap_guarded fun hck =>
    nextOrTrap_advance (writeX_pc_ne _ _ (by rintro rfl; simp at hck))

theorem nextOrTrap_mrs {c : Cond} {r : Bool} {sbo : BitVec 4} {rd : RegNum} {sbzHi sbzLo : BitVec 4} {s : State} :
    NextOrTrap s (execMrs c r sbo rd sbzHi sbzLo s) :=
  nextOrTrap_conditional <| nextOrTrap_guarded fun _ => nextOrTrap_guarded fun hck => by
    have hd : rd ≠ pcNum := by rintro rfl; simp at hck
    split
    · split
      · exact nextOrTrap_refused
      · exact nextOrTrap_advance (writeX_pc_ne _ _ hd)
    · exact nextOrTrap_advance (writeX_pc_ne _ _ hd)

theorem nextOrTrap_msr {r : Bool} {mask : BitVec 4} {operand : Word} {s : State} :
    NextOrTrap s (msr r mask operand s) := by
  unfold msr msrSpsr msrCpsr
  repeat' split
  all_goals first | exact nextOrTrap_refused | exact nextOrTrap_advance rfl

/-! ## Single transfers -/

/-- The restrictions of the single transfers are those of R224 and R234. -/
theorem transferCheck_eq_none {wb : Bool} {rn rd : RegNum} {offs : List RegNum} :
    transferCheck wb rn rd offs = none ↔ TransferOk wb rn rd offs := by
  unfold transferCheck TransferOk
  by_cases ho : pcNum ∈ offs
  · simp [ho]
  · cases wb <;> by_cases hn : rn = pcNum <;> simp [ho, hn]

theorem transferCheckNoPc_eq_none {wb : Bool} {rn rd : RegNum} {offs : List RegNum} :
    transferCheckNoPc wb rn rd offs = none ↔ rd ≠ pcNum ∧ TransferOk wb rn rd offs := by
  unfold transferCheckNoPc
  by_cases h : rd = pcNum
  · simp [h]
  · simp [h, transferCheck_eq_none]

/-- A base that the restrictions let be written back is not r15, so its update leaves the pc (R224). -/
theorem updateBase_pc {a : Address} {rn rd : RegNum} {offs : List RegNum} (h : TransferOk a.writeBack rn rd offs)
    (s : State) : (updateBase a rn s).pc = s.pc := by
  unfold updateBase
  split
  · next hw => exact writeX_pc_ne s _ (h.2 hw).1
  · rfl

section
variable {rn rd : RegNum} {offs : List RegNum} {a : Address} {s : State}

/-- The end of a load to a register other than r15. -/
theorem nextOrTrap_loaded (hd : rd ≠ pcNum) (h : TransferOk a.writeBack rn rd offs) {v : Word} :
    NextOrTrap s (advance (updateBase a rn (writeX s rd v))) :=
  nextOrTrap_advance (by rw [updateBase_pc h, writeX_pc_ne s v hd])

/-- The end of a store. -/
theorem nextOrTrap_stored (h : TransferOk a.writeBack rn rd offs) {s' : State} (hs : StoresOnly s s') :
    NextOrTrap s (advance (updateBase a rn s')) :=
  nextOrTrap_advance (by rw [updateBase_pc h, hs.pc])

theorem nextOrTrap_loadWordTo (hd : rd ≠ pcNum) (h : TransferOk a.writeBack rn rd offs) :
    NextOrTrap s (loadWordTo rn rd a s) := by
  unfold loadWordTo
  refine nextOrTrap_wordAccess ?_
  rw [if_neg (fun e => hd e.1)]
  refine nextOrTrap_withLoad fun v => ?_
  rw [if_neg hd]
  exact nextOrTrap_loaded hd h

theorem nextOrTrap_loadByteTo (hd : rd ≠ pcNum) (h : TransferOk a.writeBack rn rd offs) :
    NextOrTrap s (loadByteTo rn rd a s) := nextOrTrap_withLoad fun _ => nextOrTrap_loaded hd h

theorem nextOrTrap_loadHalfTo {ext : BitVec 16 → Word} (hd : rd ≠ pcNum) (h : TransferOk a.writeBack rn rd offs) :
    NextOrTrap s (loadHalfTo ext rn rd a s) :=
  nextOrTrap_halfAccess <| nextOrTrap_withLoad fun _ => nextOrTrap_loaded hd h

theorem nextOrTrap_loadSignedByteTo (hd : rd ≠ pcNum) (h : TransferOk a.writeBack rn rd offs) :
    NextOrTrap s (loadSignedByteTo rn rd a s) := nextOrTrap_withLoad fun _ => nextOrTrap_loaded hd h

theorem nextOrTrap_storeWordFrom (h : TransferOk a.writeBack rn rd offs) : NextOrTrap s (storeWordFrom rn rd a s) :=
  nextOrTrap_wordAccess <| nextOrTrap_withStore fun _ e => nextOrTrap_stored h (writeWord_only e)

theorem nextOrTrap_storeByteFrom (h : TransferOk a.writeBack rn rd offs) : NextOrTrap s (storeByteFrom rn rd a s) :=
  nextOrTrap_withStore fun _ e => nextOrTrap_stored h (writeByte_only e)

theorem nextOrTrap_storeHalfFrom (h : TransferOk a.writeBack rn rd offs) : NextOrTrap s (storeHalfFrom rn rd a s) :=
  nextOrTrap_halfAccess <| nextOrTrap_withStore fun _ e => nextOrTrap_stored h (writeHalf_only e)

end

/-- A word or byte transfer is decided by its move, under the restrictions that its check leaves (R223, R224). -/
theorem nextOrTrap_wordTransfer {check : Bool → RegNum → RegNum → List RegNum → Option Refusal}
    {move : RegNum → RegNum → Address → State → Out} {rn rd : RegNum} {off : WordOffset}
    (h : ∀ (a : Address) (s : State), check a.writeBack rn rd (wordOffsetRegs off) = none →
      NextOrTrap s (move rn rd a s)) {c : Cond} {ix : Index} {up : Bool} {s : State} :
    NextOrTrap s (wordTransfer check move c ix up rn rd off s) :=
  nextOrTrap_conditional <| nextOrTrap_guarded fun hck => h _ _ hck

/-- A half-word or signed-byte transfer is decided by its move (R234). -/
theorem nextOrTrap_halfTransfer {move : RegNum → RegNum → Address → State → Out} {rn rd : RegNum} {off : HalfOffset}
    (h : ∀ (a : Address) (s : State), rd ≠ pcNum → TransferOk a.writeBack rn rd (halfOffsetRegs off) →
      NextOrTrap s (move rn rd a s)) {c : Cond} {p u w : Bool} {s : State} :
    NextOrTrap s (halfTransfer move c p u w rn rd off s) :=
  nextOrTrap_conditional <| nextOrTrap_guarded fun _ => nextOrTrap_guarded fun _ => nextOrTrap_guarded fun hck =>
    (transferCheckNoPc_eq_none.1 hck).elim (h _ _)

/-! ## Multiple transfers and swaps -/

/-- A multiple transfer that is not refused has a base other than r15 (R255). -/
theorem ne_pcNum_of_blockCheck {rn : RegNum} {list : BitVec 16} {start : Word} (h : blockCheck rn list start = none) :
    rn ≠ pcNum := by
  rintro rfl
  unfold blockCheck at h
  split at h <;> simp at h

theorem writeBase_pc {rn : RegNum} (h : rn ≠ pcNum) (w : Bool) (final : Word) (s : State) :
    (writeBase w rn final s).pc = s.pc := by
  cases w
  · rfl
  · exact writeX_pc_ne s final h

theorem writeLoaded_pc (m : Mode) (l : List (RegNum × Word)) (s : State) : (writeLoaded m l s).pc = s.pc :=
  (writeLoaded_only m l s).1

/-- A list without r15 loads no word for r15 (R252). -/
theorem lookup_pcNum_of_readBlock {s : State} {a : Word} {list : BitVec 16} {l : List (RegNum × Word)}
    (h : readBlock s a (blockRegs list) = .ok l) (hl : list.getLsbD 15 = false) : l.lookup pcNum = none := by
  have hm : pcNum ∉ l.map Prod.fst := by
    rw [(readBlock_ok.1 h).1, mem_blockRegs]
    simpa using hl
  exact List.lookup_eq_none_iff.2 fun c hc => by
    simpa using fun e : pcNum = c.1 => hm (e ▸ List.mem_map_of_mem hc)

theorem nextOrTrap_ldm {list : BitVec 16} (hl : list.getLsbD 15 = false) {c : Cond} {p u w : Bool} {rn : RegNum}
    {s : State} : NextOrTrap s (execLdm c p u w rn list s) :=
  nextOrTrap_conditional <| nextOrTrap_guarded fun hck => nextOrTrap_guarded fun _ => nextOrTrap_wordAccess <|
    nextOrTrap_withBlock fun l hr => by
      rw [lookup_pcNum_of_readBlock hr hl]
      exact nextOrTrap_advance (by rw [writeBase_pc (ne_pcNum_of_blockCheck hck), writeLoaded_pc])

theorem nextOrTrap_ldmUser {c : Cond} {p u w : Bool} {rn : RegNum} {list : BitVec 15} {s : State} :
    NextOrTrap s (execLdmUser c p u w rn list s) :=
  nextOrTrap_conditional <| nextOrTrap_guarded fun _ => nextOrTrap_guarded fun _ => nextOrTrap_wordAccess <|
    nextOrTrap_withBlock fun l _ => nextOrTrap_advance (writeLoaded_pc .usr l s.unmarked)

theorem nextOrTrap_stm {c : Cond} {p u w : Bool} {rn : RegNum} {list : BitVec 16} {s : State} :
    NextOrTrap s (execStm c p u w rn list s) :=
  nextOrTrap_conditional <| nextOrTrap_guarded fun hck => nextOrTrap_guarded fun _ => nextOrTrap_wordAccess <|
    have hs := storeBlock_only ..
    nextOrTrap_withStored hs <| nextOrTrap_advance ((writeBase_pc (ne_pcNum_of_blockCheck hck) ..).trans hs.pc)

theorem nextOrTrap_stmUser {c : Cond} {p u w : Bool} {rn : RegNum} {list : BitVec 16} {s : State} :
    NextOrTrap s (execStmUser c p u w rn list s) :=
  nextOrTrap_conditional <| nextOrTrap_guarded fun _ => nextOrTrap_guarded fun _ => nextOrTrap_wordAccess <|
    have hs := storeBlock_only ..
    nextOrTrap_withStored hs <| nextOrTrap_advance hs.pc

/-- A swap that is not refused writes a register other than r15 (R260). -/
theorem ne_pcNum_of_swapCheck {rn rd rm : RegNum} {sbz : BitVec 4} (h : swapCheck rn rd sbz rm = none) :
    rd ≠ pcNum := by
  rintro rfl
  unfold swapCheck at h
  split at h <;> simp at h

/-- The end of a swap: Rd takes the old value after the store. -/
theorem nextOrTrap_swapped {rd : RegNum} (hd : rd ≠ pcNum) {s s' : State} (hs : StoresOnly s s') {v : Word} :
    NextOrTrap s (advance (writeX s' rd v)) := nextOrTrap_advance (by rw [writeX_pc_ne s' v hd, hs.pc])

theorem nextOrTrap_swp {c : Cond} {rn rd : RegNum} {sbz : BitVec 4} {rm : RegNum} {s : State} :
    NextOrTrap s (execSwp c rn rd sbz rm s) :=
  nextOrTrap_conditional <| nextOrTrap_guarded fun hck => nextOrTrap_wordAccess <| nextOrTrap_withLoad fun _ =>
    nextOrTrap_withStore fun _ e => nextOrTrap_swapped (ne_pcNum_of_swapCheck hck) (writeWord_only e)

theorem nextOrTrap_swpb {c : Cond} {rn rd : RegNum} {sbz : BitVec 4} {rm : RegNum} {s : State} :
    NextOrTrap s (execSwpb c rn rd sbz rm s) :=
  nextOrTrap_conditional <| nextOrTrap_guarded fun hck => nextOrTrap_withLoad fun _ =>
    nextOrTrap_withStore fun _ e => nextOrTrap_swapped (ne_pcNum_of_swapCheck hck) (writeByte_only e)

/-! ## Exceptions on purpose, unused spaces -/

theorem nextOrTrap_swi {c : Cond} {imm : BitVec 24} {s : State} : NextOrTrap s (execSwi c imm s) :=
  nextOrTrap_conditional (nextOrTrap_exception (e := .swi) (by decide) rfl)

theorem nextOrTrap_bkpt {imm : BitVec 16} {s : State} : NextOrTrap s (execBkpt imm s) :=
  nextOrTrap_unconditional (nextOrTrap_exception (e := .prefetchAbort) (by decide) rfl)

theorem nextOrTrap_undefinedTrap {c : Cond} {s : State} : NextOrTrap s (undefinedTrap c s) :=
  nextOrTrap_conditional nextOrTrap_undefined

theorem nextOrTrap_unusedTrap {c : Cond} {s : State} : NextOrTrap s (unusedTrap c s) :=
  nextOrTrap_conditional <| by
    split
    · exact nextOrTrap_refused
    · exact nextOrTrap_undefined

theorem nextOrTrap_bkptNotAl {c : Cond} {imm : BitVec 16} {s : State} : NextOrTrap s (execBkptNotAl c imm s) := by
  unfold execBkptNotAl
  split
  · exact nextOrTrap_refused
  · exact nextOrTrap_conditional nextOrTrap_refused

theorem nextOrTrap_nvReserved {bits : BitVec 28} {s : State} : NextOrTrap s (execNvReserved bits s) := by
  unfold execNvReserved
  split
  · exact nextOrTrap_refused
  · exact nextOrTrap_advance rfl

/-! ## Every instruction -/

/-- An instruction whose rule cannot write the pc goes on to the next address, if there is one, or takes an exception
(R15, R26). -/
theorem exec_nextOrTrap {i : Instr} (hw : writesPc i = false) (s : State) : NextOrTrap s (exec i s) := by
  cases i with
  | and c sf rn rd op | eor c sf rn rd op | sub c sf rn rd op | rsb c sf rn rd op | add c sf rn rd op
  | adc c sf rn rd op | sbc c sf rn rd op | rsc c sf rn rd op | orr c sf rn rd op | bic c sf rn rd op =>
    simp only [exec_and, exec_eor, exec_sub, exec_rsb, exec_add, exec_adc, exec_sbc, exec_rsc, exec_orr, exec_bic]
    exact nextOrTrap_dataOp (by simpa [writesPc] using hw)
  | mov c sf sbz rd op | mvn c sf sbz rd op =>
    simp only [exec_mov, exec_mvn]
    exact nextOrTrap_moveOp (by simpa [writesPc] using hw)
  | tst c rn sbz op | teq c rn sbz op | cmp c rn sbz op | cmn c rn sbz op =>
    simp only [exec_tst, exec_teq, exec_cmp, exec_cmn]
    exact nextOrTrap_compareOp
  | mul c sf rd sbz rs rm => exact nextOrTrap_mul
  | mla c sf rd rn rs rm => exact nextOrTrap_mla
  | umull c sf rdHi rdLo rs rm | umlal c sf rdHi rdLo rs rm | smull c sf rdHi rdLo rs rm
  | smlal c sf rdHi rdLo rs rm =>
    simp only [exec_umull, exec_umlal, exec_smull, exec_smlal]
    exact nextOrTrap_mulLongOp
  | clz c f1 rd f2 rm => exact nextOrTrap_clz (f1 := f1) (f2 := f2)
  | mrs c r sbo rd sbzHi sbzLo => exact nextOrTrap_mrs
  | msrReg c r mask sbo sbz rm =>
    exact nextOrTrap_conditional <| nextOrTrap_guarded fun _ => nextOrTrap_guarded fun _ => nextOrTrap_msr
  | msrImm c r mask sbo rotate imm8 => exact nextOrTrap_conditional <| nextOrTrap_guarded fun _ => nextOrTrap_msr
  | ldr c ix up rn rd off =>
    rw [exec_ldr]
    exact nextOrTrap_wordTransfer fun _ _ h =>
      nextOrTrap_loadWordTo (by simpa [writesPc] using hw) (transferCheck_eq_none.1 h)
  | ldrt c up rn rd off =>
    rw [exec_ldrt]
    exact nextOrTrap_wordTransfer fun _ _ h => (transferCheckNoPc_eq_none.1 h).elim nextOrTrap_loadWordTo
  | ldrb c ix up rn rd off | ldrbt c up rn rd off =>
    simp only [exec_ldrb, exec_ldrbt]
    exact nextOrTrap_wordTransfer fun _ _ h => (transferCheckNoPc_eq_none.1 h).elim nextOrTrap_loadByteTo
  | str c ix up rn rd off =>
    rw [exec_str]
    exact nextOrTrap_wordTransfer fun _ _ h => nextOrTrap_storeWordFrom (transferCheck_eq_none.1 h)
  | strt c up rn rd off =>
    rw [exec_strt]
    exact nextOrTrap_wordTransfer fun _ _ h => nextOrTrap_storeWordFrom (transferCheckNoPc_eq_none.1 h).2
  | strb c ix up rn rd off | strbt c up rn rd off =>
    simp only [exec_strb, exec_strbt]
    exact nextOrTrap_wordTransfer fun _ _ h => nextOrTrap_storeByteFrom (transferCheckNoPc_eq_none.1 h).2
  | ldrh c p u w rn rd off | ldrsh c p u w rn rd off =>
    exact nextOrTrap_halfTransfer fun _ _ => nextOrTrap_loadHalfTo
  | ldrsb c p u w rn rd off => exact nextOrTrap_halfTransfer fun _ _ => nextOrTrap_loadSignedByteTo
  | strh c p u w rn rd off => exact nextOrTrap_halfTransfer fun _ _ _ => nextOrTrap_storeHalfFrom
  | ldm c p u w rn list => exact nextOrTrap_ldm hw
  | ldmUser c p u w rn list => exact nextOrTrap_ldmUser
  | stm c p u w rn list => exact nextOrTrap_stm
  | stmUser c p u w rn list => exact nextOrTrap_stmUser
  | swp c rn rd sbz rm => exact nextOrTrap_swp
  | swpb c rn rd sbz rm => exact nextOrTrap_swpb
  | swi c imm => exact nextOrTrap_swi (imm := imm)
  | bkpt imm => exact nextOrTrap_bkpt (imm := imm)
  | bkptNotAl c imm => exact nextOrTrap_bkptNotAl (imm := imm)
  | unusedControl c bits | unusedArithmetic c hi mid lo | unusedLoadStore c bits =>
    simp only [exec_unusedControl, exec_unusedArithmetic, exec_unusedLoadStore]
    exact nextOrTrap_unusedTrap
  | unusedCoprocessor c n l rest | undefined c hi lo | ldc c p u n w rn crd cp off8 | stc c p u n w rn crd cp off8
  | cdp c op1 crn crd cp op2 crm | mcr c op1 crn rd cp op2 crm | mrc c op1 crn rd cp op2 crm =>
    simp only [exec_unusedCoprocessor, exec_undefined, exec_ldc, exec_stc, exec_cdp, exec_mcr, exec_mrc]
    exact nextOrTrap_undefinedTrap
  | nvReserved bits => exact nextOrTrap_nvReserved (bits := bits)
  | b | bl | bx | blxReg | blxImm | ldmRestore => cases hw

/-- Settles O6: a failed condition is a plain advance, and an instruction that cannot write the pc has no next address
at the top of memory, so it has taken an exception. -/
theorem failedConditionAndTopOfMemory : Obligations.FailedConditionAndTopOfMemory := by
  refine ⟨fun i c s hc hf hb => exec_of_fails hc hf hb, fun i s t htop ht => ?_⟩
  cases hw : writesPc i with
  | true => exact .inl rfl
  | false =>
    rcases exec_nextOrTrap hw s t ht with ⟨hn, -⟩ | htrap
    · exact absurd htop hn
    · exact .inr htrap

end Sys2Proof.Machine
end

section
/-!
Proof of `StatusWordLayout`: the fields of a status word and the round trip (spec/10_state.md R27, R31).
-/

namespace Sys2Proof.Machine

theorem Mode.ofBits_eq_some (b : BitVec 5) (m : Mode) : Mode.ofBits b = some m ↔ m.bits = b := by
  revert b
  cases m <;> decide

/-! ## The fields of the word (R27) -/

section
variable (p : Psr)

theorem toWord_n : p.toWord.getLsbD 31 = p.n := by
  simp (disch := decide) only [Psr.toWord, bit_append_high, Nat.reduceSub]
  simp

theorem toWord_z : p.toWord.getLsbD 30 = p.z := by
  simp (disch := decide) only [Psr.toWord, bit_append_low, bit_append_high, Nat.reduceSub]
  simp

theorem toWord_c : p.toWord.getLsbD 29 = p.c := by
  simp (disch := decide) only [Psr.toWord, bit_append_low, bit_append_high, Nat.reduceSub]
  simp

theorem toWord_v : p.toWord.getLsbD 28 = p.v := by
  simp (disch := decide) only [Psr.toWord, bit_append_low, bit_append_high, Nat.reduceSub]
  simp

theorem toWord_reservedField : p.toWord.extractLsb' 8 20 = p.reserved := by
  simp (disch := decide) only [Psr.toWord, field_append_low, field_append_high, Nat.reduceSub,
    BitVec.extractLsb'_eq_self]

theorem toWord_i : p.toWord.getLsbD 7 = p.i := by
  simp (disch := decide) only [Psr.toWord, bit_append_low, bit_append_high, Nat.reduceSub]
  simp

theorem toWord_f : p.toWord.getLsbD 6 = p.f := by
  simp (disch := decide) only [Psr.toWord, bit_append_low, bit_append_high, Nat.reduceSub]
  simp

theorem toWord_t : p.toWord.getLsbD 5 = p.t := by
  simp (disch := decide) only [Psr.toWord, bit_append_low, bit_append_high, Nat.reduceSub]
  simp

theorem toWord_mode : p.toWord.extractLsb' 0 5 = p.mode.bits := by
  simp (disch := decide) only [Psr.toWord, field_append_low, BitVec.extractLsb'_eq_self]

end

/-! ## The round trip -/

theorem ofWord?_eq_none (w : Word) : Psr.ofWord? w = none ↔ Mode.ofBits (w.extractLsb' 0 5) = none := by
  unfold Psr.ofWord?
  cases Mode.ofBits (w.extractLsb' 0 5) <;> simp

theorem ofWord?_toWord (p : Psr) : Psr.ofWord? p.toWord = some p := by
  unfold Psr.ofWord?
  rw [toWord_mode, (Mode.ofBits_eq_some _ _).2 rfl]
  simp only [toWord_n, toWord_z, toWord_c, toWord_v, toWord_reservedField, toWord_i, toWord_f, toWord_t]

/-- A bit of a word taken as a field of one bit. -/
theorem ofBool_getLsbD {w : Nat} (x : BitVec w) (i : Nat) : BitVec.ofBool (x.getLsbD i) = x.extractLsb' i 1 := by
  refine BitVec.eq_of_getLsbD_eq fun j hj => ?_
  obtain rfl : j = 0 := by omega
  simp

/-- A field and the one below it are one field. -/
theorem field_append_field {w k l n m : Nat} (x : BitVec w) (h : k = l + m) :
    x.extractLsb' k n ++ x.extractLsb' l m = x.extractLsb' l (n + m) := by
  subst h
  exact BitVec.extractLsb'_append_extractLsb'_eq_extractLsb' rfl

/-- The word that a CPSR is read from is the word of that CPSR. -/
theorem toWord_of_ofWord? {w : Word} {p : Psr} (h : Psr.ofWord? w = some p) : p.toWord = w := by
  unfold Psr.ofWord? at h
  split at h
  · cases h
  · next m hm =>
    obtain rfl := Option.some.inj h
    simp only [Psr.toWord, (Mode.ofBits_eq_some _ m).1 hm, ofBool_getLsbD]
    simp (disch := rfl) only [field_append_field]
    exact BitVec.extractLsb'_eq_self

/-- Settles O9: the fields one by one, and the two directions of the round trip. -/
theorem statusWordLayout : Obligations.StatusWordLayout :=
  ⟨rfl, Mode.ofBits_eq_some,
    fun p => ⟨toWord_n p, toWord_z p, toWord_c p, toWord_v p, toWord_reservedField p, toWord_i p, toWord_f p,
      toWord_t p, toWord_mode p⟩,
    ofWord?_toWord, fun _ _ => toWord_of_ofWord?⟩

end Sys2Proof.Machine
end

section
/-!
Proofs of `StepKeepsInvariant` and `ResetInvariant`: one rule per shared operation for a property of the states that an
outcome can be, then the invariant through every instruction, the fetch and the boundary (spec/00_scope.md R15,
spec/10_state.md R25, R33, R37, R69).
-/

namespace Sys2Proof.Machine

/-! ## A property of the states an outcome can be -/

/-- If the outcome is a state, that state has the property. -/
def AllNext (P : State → Prop) (o : Out) : Prop := ∀ t, o = .next t → P t

section
variable {P : State → Prop} {s : State}

theorem allNext_refused {r : Refusal} : AllNext P (.refused r) := fun _ h => by cases h

theorem allNext_fault {f : Fault} : AllNext P (.fault f) := fun _ h => by cases h

theorem allNext_next (h : P s) : AllNext P (.next s) := by
  rintro t ⟨⟩
  exact h

theorem allNext_advance (h : P s.advanced) : AllNext P (advance s) := fun t ht => by
  obtain ⟨-, rfl⟩ := advance_next.1 ht
  exact h

theorem allNext_unconditional {regs : List RegNum} {body : State → Out} (h : AllNext P (body s.unmarked)) :
    AllNext P (unconditional regs s body) := fun t ht => h t (unconditional_next.1 ht).2

/-- A conditional instruction: the property of its rule's outcome and of the state that skips it (R131). -/
theorem allNext_conditional {c : Cond} {regs : List RegNum} {body : State → Out} (hs : P s.unmarked.advanced)
    (h : AllNext P (body s.unmarked)) : AllNext P (conditional c regs s body) := fun t ht => by
  rcases conditional_next.1 ht with ⟨-, hb⟩ | ⟨-, -, rfl⟩
  · exact h t hb
  · exact hs

theorem allNext_guarded {r : Option Refusal} {k : Out} (h : r = none → AllNext P k) : AllNext P (guarded r k) :=
  fun t ht => h (guarded_next.1 ht).1 t (guarded_next.1 ht).2

theorem allNext_withTarget {x : Option Word} {k : Word → Out} (h : ∀ a, x = some a → AllNext P (k a)) :
    AllNext P (withTarget x k) := fun t ht => by
  obtain ⟨a, hx, hk⟩ := withTarget_next.1 ht
  exact h a hx t hk

theorem allNext_withLoad {α : Type} {x : Access α} {k : α → Out} (ha : P (raiseDataAbort s))
    (h : ∀ v, AllNext P (k v)) : AllNext P (withLoad s x k) := fun t ht => by
  rcases withLoad_next.1 ht with ⟨v, -, hk⟩ | ⟨-, rfl⟩
  · exact h v t hk
  · exact ha

theorem allNext_withStore {x : Option State} {k : State → Out} (ha : P (raiseDataAbort s))
    (h : ∀ s', x = some s' → AllNext P (k s')) : AllNext P (withStore s x k) := fun t ht => by
  rcases withStore_next.1 ht with ⟨s', hx, hk⟩ | ⟨-, rfl⟩
  · exact h s' hx t hk
  · exact ha

theorem allNext_wordAccess {ea : Word} {k : Out} (ha : P (raiseDataAbort s)) (h : AllNext P k) :
    AllNext P (wordAccess s ea k) := fun t ht => by
  rcases wordAccess_next.1 ht with ⟨-, hk⟩ | ⟨-, -, rfl⟩
  · exact h t hk
  · exact ha

theorem allNext_halfAccess {ea : Word} {k : Out} (ha : P (raiseDataAbort s))
    (h : ea.getLsbD 0 = false → AllNext P k) : AllNext P (halfAccess s ea k) := fun t ht => by
  rcases halfAccess_next.1 ht with ⟨he, hk⟩ | ⟨-, -, rfl⟩
  · exact h he t hk
  · exact ha

theorem allNext_withBlock {m : Mode} {rn : RegNum} {x : BlockRead} {k : List (RegNum × Word) → Out}
    (ha : ∀ l, P (raiseDataAbort (drawLoaded m (bankReg s.cpsr.mode rn) l s))) (h : ∀ l, AllNext P (k l)) :
    AllNext P (withBlock m rn s x k) := fun t ht => by
  rcases withBlock_next.1 ht with ⟨l, -, hk⟩ | ⟨l, -, rfl⟩
  · exact h l t hk
  · exact ha l

theorem allNext_withStored {x : Bool × State} {k : State → Out} (ha : P (raiseDataAbort x.2))
    (h : AllNext P (k x.2)) : AllNext P (withStored x k) := fun t ht => by
  rcases withStored_next.1 ht with ⟨-, hk⟩ | ⟨-, rfl⟩
  · exact h t hk
  · exact ha

/-- The fetch ends in a Prefetch Abort, or goes on with an instruction (R15 step 4, R313). -/
theorem allNext_fetch {k : Instr → Out} (ha : P (raisePrefetchAbort s)) (h : ∀ i, AllNext P (k i)) :
    AllNext P (fetch s k) := by
  unfold fetch
  split
  · exact allNext_refused
  · split
    · exact allNext_refused
    · split
      · exact allNext_next ha
      · exact allNext_fault
      · split
        · exact allNext_refused
        · exact h _

/-- The boundary takes a line, or goes on with the state whose sample has been taken (R15 steps 1 to 3). -/
theorem allNext_boundary {k : State → Out} (hr : P (resetEntry (sampleTaken s))) (hf : P (raiseFiq (sampleTaken s)))
    (hi : P (raiseIrq (sampleTaken s))) (h : AllNext P (k (sampleTaken s))) : AllNext P (boundary s k) := by
  unfold boundary
  dsimp only
  split
  · exact allNext_next hr
  · split
    · exact allNext_next hf
    · split
      · exact allNext_next hi
      · exact h

end

/-! ## Aligned addresses (R25) -/

/-- The two low bits are clear exactly at the multiples of four. -/
theorem lowBits_zero_iff (a : Word) : a.extractLsb' 0 2 = 0#2 ↔ a.toNat % 4 = 0 := by
  rw [← BitVec.toNat_inj]
  simp [BitVec.extractLsb'_toNat]

theorem lowBits_add_four {a : Word} (h : a.extractLsb' 0 2 = 0#2) : (a + 4).extractLsb' 0 2 = 0#2 := by
  rw [lowBits_zero_iff] at h ⊢
  rw [BitVec.toNat_add, show (4 : Word).toNat = 4 from rfl]
  omega

/-- A target of BX whose low bits are not `10` is, with bit 0 cleared, aligned unless it is Thumb code (R142). -/
theorem lowBits_exchange {v : Word} (h : v.extractLsb' 0 2 ≠ 0b10#2) :
    v.getLsbD 0 = true ∨ (v &&& 0xFFFFFFFE#32).extractLsb' 0 2 = 0#2 := by
  have hbit : v.getLsbD 0 = (v.extractLsb' 0 2).getLsbD 0 := by simp
  have hcases : ∀ x : BitVec 2, x ≠ 0b10#2 → x.getLsbD 0 = true ∨ x &&& 0b10#2 = 0#2 := by decide
  rw [hbit, BitVec.extractLsb'_and]
  exact hcases _ h

/-- The offset of a branch is four times the signed field (R104). -/
theorem branchOffset_eq (off : BitVec 24) : branchOffset off = 4 * off.toInt := by
  unfold branchOffset
  have hn : (off ++ 0b00#2).toNat = 4 * off.toNat := by
    rw [BitVec.toNat_append]
    simp [Nat.shiftLeft_eq, Nat.mul_comm]
  have := off.isLt
  rw [BitVec.toInt_eq_toNat_cond, BitVec.toInt_eq_toNat_cond, hn]
  split <;> split <;> omega

/-- A target inside the address space is exact: it is congruent to the sum modulo four (R26, R140). -/
theorem branchTarget_toNat {cur a : Word} {offset : Int} (h : branchTarget cur offset = some a) :
    (a.toNat : Int) = cur.toNat + 8 + offset := by
  unfold branchTarget at h
  dsimp only at h
  split at h
  · next hr =>
    obtain rfl := Option.some.inj h
    rw [BitVec.toNat_ofInt, Int.toNat_of_nonneg (by omega), Int.emod_eq_of_lt hr.1 (by simpa using hr.2)]
  · cases h

theorem lowBits_branchTarget {cur a : Word} {off : BitVec 24} (hc : cur.extractLsb' 0 2 = 0#2)
    (h : branchTarget cur (branchOffset off) = some a) : a.extractLsb' 0 2 = 0#2 := by
  have ht := branchTarget_toNat h
  rw [branchOffset_eq] at ht
  rw [lowBits_zero_iff] at hc ⊢
  omega

/-! ## The invariant under changes of the pc and of the status registers -/

theorem pcAligned_iff (s : State) : s.pcAligned = true ↔ s.cpsr.t = true ∨ s.pc.extractLsb' 0 2 = 0#2 := by
  simp [State.pcAligned]

theorem Inv_pcAligned {s : State} (h : s.Inv) : s.cpsr.t = true ∨ s.pc.extractLsb' 0 2 = 0#2 := by
  obtain ⟨-, -, hp, -, -⟩ := h
  exact (pcAligned_iff s).1 hp

theorem Inv_reserved {s : State} (h : s.Inv) : s.cpsr.reserved = 0#20 := by
  obtain ⟨-, -, -, hr, -⟩ := h
  exact hr

theorem Inv_spsr {s : State} (h : s.Inv) (q : SpsrName) : s.spsr q &&& 0x0FFFFF00#32 = 0#32 := by
  obtain ⟨-, -, -, -, hq⟩ := h
  exact (spsrsReservedZero_iff s).1 hq q

/-- A new CPSR without reserved bits and a new pc that is aligned in ARM state (R25, R33). -/
theorem Inv_withCpsrPc {s : State} (h : s.Inv) {p : Psr} {a : Word} (hr : p.reserved = 0#20)
    (ha : p.t = true ∨ a.extractLsb' 0 2 = 0#2) : ({ s with cpsr := p, pc := a } : State).Inv := by
  obtain ⟨hm, hs, -, -, hq⟩ := h
  exact ⟨hm, hs, (pcAligned_iff _).2 ha, hr, hq⟩

/-- A new CPSR that keeps T and has no reserved bits. -/
theorem Inv_withCpsr {s : State} (h : s.Inv) {p : Psr} (ht : p.t = s.cpsr.t) (hr : p.reserved = 0#20) :
    ({ s with cpsr := p } : State).Inv :=
  Inv_withCpsrPc h hr (by rw [ht]; exact Inv_pcAligned h)

theorem Inv_advanced {s : State} (h : s.Inv) : s.advanced.Inv :=
  Inv_withCpsrPc h (Inv_reserved h) ((Inv_pcAligned h).imp_right lowBits_add_four)

/-- An SPSR written with a value without reserved bits (R33). -/
theorem Inv_setSpsr {s : State} (h : s.Inv) (q : SpsrName) {v : Word} (hv : v &&& 0x0FFFFF00#32 = 0#32) :
    (s.setSpsr q v).Inv := by
  have hall := Inv_spsr h
  obtain ⟨hm, hs, hp, hr, -⟩ := h
  refine ⟨hm, hs, hp, hr, (spsrsReservedZero_iff _).2 fun q' => ?_⟩
  by_cases e : q' = q
  · rw [e, spsr_setSpsr_same]
    exact hv
  · rw [spsr_setSpsr_ne s v e]
    exact hall q'

theorem Inv_raiseDataAbort {s : State} (h : s.Inv) : (raiseDataAbort s).Inv := Inv_takeException h _ _

theorem Inv_raiseUndefined {s : State} (h : s.Inv) : (raiseUndefined s).Inv := Inv_takeException h _ _

/-! ## The invariant through the control transfers -/

theorem keepsInv_advance {s : State} (h : s.Inv) : AllNext State.Inv (advance s) := allNext_advance (Inv_advanced h)

theorem keepsInv_exchange {s : State} (h : s.Inv) (v : Word) : AllNext State.Inv (exchange v s) := fun t ht => by
  obtain ⟨hv, rfl⟩ := exchange_next.1 ht
  exact Inv_withCpsrPc h (Inv_reserved h) (lowBits_exchange hv)

theorem keepsInv_jump {s : State} (h : s.Inv) (v : Word) : AllNext State.Inv (jump v s) := fun t ht => by
  obtain ⟨hv, rfl⟩ := jump_next.1 ht
  exact Inv_withCpsrPc h (Inv_reserved h) (.inr hv)

/-- The CPSR that an exception return restores has no reserved bits, since no SPSR has (R33, R325). -/
theorem keepsInv_exceptionReturn {s : State} (h : s.Inv) (v : Word) : AllNext State.Inv (exceptionReturn v s) :=
  fun t ht => by
    obtain ⟨q, p, -, hp, ha, rfl⟩ := exceptionReturn_next.1 ht
    exact Inv_withCpsrPc h (ofWord_reserved hp (Inv_spsr h q)) ha

theorem keepsInv_conditional {c : Cond} {regs : List RegNum} {s : State} {body : State → Out} (h : s.Inv)
    (hb : s.unmarked.Inv → AllNext State.Inv (body s.unmarked)) : AllNext State.Inv (conditional c regs s body) :=
  allNext_conditional (Inv_advanced (Inv_unmarked h)) (hb (Inv_unmarked h))

/-! ## Data processing, multiplies, status registers -/

theorem keepsInv_dataResult {sf : Bool} {rd : RegNum} {r : AluResult} {s : State} (h : s.Inv) :
    AllNext State.Inv (dataResult sf rd r s) := fun t ht => by
  rcases dataResult_next.1 ht with ⟨hd, -, rfl⟩ | ⟨-, -, he⟩ | ⟨-, -, hj⟩
  · refine Inv_withCpsrPc (Inv_writeX h hd r.value) ?_ ?_
    · cases sf <;> exact Inv_reserved h
    · cases sf <;> exact (Inv_pcAligned h).imp_right lowBits_add_four
  · exact keepsInv_exceptionReturn h _ t he
  · exact keepsInv_jump h _ t hj

section
variable {c : Cond} {sf : Bool} {rn rd : RegNum} {op : Operand2} {s : State}

theorem keepsInv_dataOp {f : (a b : Word) → (sc cin : Bool) → AluResult} (h : s.Inv) :
    AllNext State.Inv (dataOp f c sf rn rd op s) :=
  keepsInv_conditional h fun h => allNext_guarded fun _ => keepsInv_dataResult h

theorem keepsInv_moveOp {f : (b : Word) → (sc : Bool) → AluResult} (h : s.Inv) :
    AllNext State.Inv (moveOp f c sf rn rd op s) :=
  keepsInv_conditional h fun h => allNext_guarded fun _ => allNext_guarded fun _ => keepsInv_dataResult h

theorem keepsInv_compareOp {f : (a b : Word) → (sc : Bool) → AluResult} (h : s.Inv) :
    AllNext State.Inv (compareOp f c rn rd op s) :=
  keepsInv_conditional h fun h => allNext_guarded fun _ => allNext_guarded fun _ =>
    keepsInv_advance (Inv_withCpsr h rfl (Inv_reserved h))

end

theorem Inv_setMulFlags {s : State} (h : s.Inv) (v : Word) : (setMulFlags v s).Inv :=
  Inv_withCpsr (Inv_drawBit h) rfl (Inv_reserved h)

theorem Inv_setMulLongFlags {s : State} (h : s.Inv) (v : BitVec 64) : (setMulLongFlags v s).Inv :=
  Inv_withCpsr (Inv_drawBit (Inv_drawBit h)) rfl (Inv_reserved h)

theorem keepsInv_mulResult {sf : Bool} {rd : RegNum} {v : Word} {s : State} (h : s.Inv) (hd : rd ≠ pcNum) :
    AllNext State.Inv (mulResult sf rd v s) := by
  have hw := Inv_writeX h hd v
  cases sf
  · exact keepsInv_advance hw
  · exact keepsInv_advance (Inv_setMulFlags hw v)

/-- A long multiply that is not refused writes registers other than r15 (R202). -/
theorem ne_pcNum_of_mulLongCheck {rdHi rdLo rs rm : RegNum} (h : mulLongCheck rdHi rdLo rs rm = none) :
    rdHi ≠ pcNum ∧ rdLo ≠ pcNum := by
  unfold mulLongCheck at h
  split at h
  · cases h
  · next hc => constructor <;> rintro rfl <;> simp at hc

theorem keepsInv_mulLongOp {f : (acc : BitVec 64) → (m r : Word) → BitVec 64} {c : Cond} {sf : Bool}
    {rdHi rdLo rs rm : RegNum} {s : State} (h : s.Inv) : AllNext State.Inv (mulLongOp f c sf rdHi rdLo rs rm s) :=
  keepsInv_conditional h fun h => allNext_guarded fun hck => by
    obtain ⟨hHi, hLo⟩ := ne_pcNum_of_mulLongCheck hck
    have hw := fun v w => Inv_writeX (Inv_writeX h hLo v) hHi w
    cases sf
    · exact keepsInv_advance (hw _ _)
    · exact keepsInv_advance (Inv_setMulLongFlags (hw _ _) _)

theorem keepsInv_mul {c : Cond} {sf : Bool} {rd : RegNum} {sbz : BitVec 4} {rs rm : RegNum} {s : State} (h : s.Inv) :
    AllNext State.Inv (execMul c sf rd sbz rs rm s) :=
  keepsInv_conditional h fun h => allNext_guarded fun _ => allNext_guarded fun hck =>
    keepsInv_mulResult h (ne_pcNum_of_mulCheck (by simp) hck)

theorem keepsInv_mla {c : Cond} {sf : Bool} {rd rn rs rm : RegNum} {s : State} (h : s.Inv) :
    AllNext State.Inv (execMla c sf rd rn rs rm s) :=
  keepsInv_conditional h fun h => allNext_guarded fun hck =>
    keepsInv_mulResult h (ne_pcNum_of_mulCheck (by simp) hck)

theorem keepsInv_clz {c : Cond} {f1 : BitVec 4} {rd : RegNum} {f2 : BitVec 4} {rm : RegNum} {s : State} (h : s.Inv) :
    AllNext State.Inv (execClz c f1 rd f2 rm s) :=
  keepsInv_conditional h fun h => allNext_guarded fun hck =>
    keepsInv_advance (Inv_writeX h (by rintro rfl; simp at hck) _)

theorem keepsInv_mrs {c : Cond} {r : Bool} {sbo : BitVec 4} {rd : RegNum} {sbzHi sbzLo : BitVec 4} {s : State}
    (h : s.Inv) : AllNext State.Inv (execMrs c r sbo rd sbzHi sbzLo s) :=
  keepsInv_conditional h fun h => allNext_guarded fun _ => allNext_guarded fun hck => by
    have hd : rd ≠ pcNum := by rintro rfl; simp at hck
    split
    · split
      · exact allNext_refused
      · exact keepsInv_advance (Inv_writeX h hd _)
    · exact keepsInv_advance (Inv_writeX h hd _)

/-- A merge keeps the bits of the old word that its mask leaves out (R272). -/
theorem merge_and_of_disjoint {mask m : Word} (h : mask &&& m = 0#32) (old new : Word) :
    merge mask old new &&& m = old &&& m := by
  refine BitVec.eq_of_getLsbD_eq fun i hi => ?_
  have hb := congrArg (fun x => BitVec.getLsbD x i) h
  simp only [BitVec.getLsbD_and, BitVec.getLsbD_zero] at hb
  unfold merge
  simp only [BitVec.getLsbD_and, BitVec.getLsbD_or, BitVec.getLsbD_not, hi, decide_true, Bool.true_and]
  cases h1 : mask.getLsbD i <;> cases h2 : m.getLsbD i <;> simp_all

/-- MSR writes none of the CPSR's bits that the two masks of R272 leave out. -/
theorem cpsrMask_and {m : Word} (hu : userMask &&& m = 0#32) (hp : (userMask ||| privMask) &&& m = 0#32) (md : Mode)
    (mask : BitVec 4) : cpsrMask md mask &&& m = 0#32 := by
  unfold cpsrMask
  split
  · rw [BitVec.and_assoc, hp, BitVec.and_zero]
  · rw [BitVec.and_assoc, hu, BitVec.and_zero]

/-- MSR to the CPSR keeps T and bits 27:8, which no mask of R272 has. -/
theorem keepsInv_msrCpsr {mask : BitVec 4} {operand : Word} {s : State} (h : s.Inv) :
    AllNext State.Inv (msrCpsr mask operand s) := by
  have hkeep := fun m hu hp =>
    merge_and_of_disjoint (cpsrMask_and (m := m) hu hp s.cpsr.mode mask) s.cpsr.toWord operand
  unfold msrCpsr
  split
  · exact allNext_refused
  · split
    · exact allNext_refused
    · next p hp =>
      refine keepsInv_advance (Inv_withCpsr h ?_ (ofWord_reserved hp ?_))
      · have ht := congrArg (fun x => BitVec.getLsbD x 5) (hkeep stateMask (by decide) (by decide))
        rw [← toWord_of_ofWord? hp] at ht
        simp only [BitVec.getLsbD_and, toWord_t, show stateMask.getLsbD 5 = true from rfl, Bool.and_true] at ht
        exact ht
      · rw [hkeep _ (by decide) (by decide)]
        exact toWord_reserved (Inv_reserved h)

theorem keepsInv_msrSpsr {mask : BitVec 4} {operand : Word} {s : State} (h : s.Inv) :
    AllNext State.Inv (msrSpsr mask operand s) := by
  unfold msrSpsr
  split
  · exact allNext_refused
  · next q _ =>
    have hmask : (byteMask mask &&& (userMask ||| privMask ||| stateMask)) &&& 0x0FFFFF00#32 = 0#32 := by
      rw [BitVec.and_assoc, show (userMask ||| privMask ||| stateMask) &&& 0x0FFFFF00#32 = 0#32 by decide,
        BitVec.and_zero]
    exact keepsInv_advance (Inv_setSpsr h q (by rw [merge_and_of_disjoint hmask, Inv_spsr h q]))

theorem keepsInv_msr {r : Bool} {mask : BitVec 4} {operand : Word} {s : State} (h : s.Inv) :
    AllNext State.Inv (msr r mask operand s) := by
  unfold msr
  split
  · exact allNext_refused
  · split
    · exact keepsInv_msrSpsr h
    · exact keepsInv_msrCpsr h

/-! ## Branches (R140 to R144) -/

theorem Inv_link {s : State} (h : s.Inv) : (link s).Inv := Inv_writeX h (by decide) _

/-- A branch target is aligned wherever the branch is, so in Thumb state there is nothing to show (R25). -/
theorem lowBits_of_target {s : State} (h : s.Inv) {off : BitVec 24} {a : Word}
    (ha : branchTarget s.pc (branchOffset off) = some a) : s.cpsr.t = true ∨ a.extractLsb' 0 2 = 0#2 :=
  (Inv_pcAligned h).imp_right fun hp => lowBits_branchTarget hp ha

theorem keepsInv_b {c : Cond} {off : BitVec 24} {s : State} (h : s.Inv) : AllNext State.Inv (execB c off s) :=
  keepsInv_conditional h fun h => allNext_withTarget fun _ ha =>
    allNext_next (Inv_withCpsrPc h (Inv_reserved h) (lowBits_of_target h ha))

theorem keepsInv_bl {c : Cond} {off : BitVec 24} {s : State} (h : s.Inv) : AllNext State.Inv (execBl c off s) :=
  keepsInv_conditional h fun h => allNext_withTarget fun _ ha =>
    have hl := Inv_link h
    allNext_next (Inv_withCpsrPc hl (Inv_reserved hl) (lowBits_of_target h ha))

theorem keepsInv_blxImm {x : Bool} {off : BitVec 24} {s : State} (h : s.Inv) :
    AllNext State.Inv (execBlxImm x off s) :=
  allNext_unconditional <| allNext_withTarget fun _ _ =>
    allNext_next (Inv_withCpsrPc (Inv_link (Inv_unmarked h)) (Inv_reserved h) (.inl rfl))

theorem keepsInv_bx {c : Cond} {sbo : BitVec 12} {rm : RegNum} {s : State} (h : s.Inv) :
    AllNext State.Inv (execBx c sbo rm s) :=
  keepsInv_conditional h fun h => allNext_guarded fun _ => keepsInv_exchange h _

theorem keepsInv_blxReg {c : Cond} {sbo : BitVec 12} {rm : RegNum} {s : State} (h : s.Inv) :
    AllNext State.Inv (execBlxReg c sbo rm s) :=
  keepsInv_conditional h fun h => allNext_guarded fun _ => allNext_guarded fun _ => keepsInv_exchange (Inv_link h) _

/-! ## Single transfers (R220 to R239) -/

section
variable {rn rd : RegNum} {offs : List RegNum} {a : Address} {s : State}

/-- A base that the restrictions let be written back is not r15 (R224). -/
theorem Inv_updateBase_of_ok {s : State} (h : s.Inv) (hok : TransferOk a.writeBack rn rd offs) :
    (updateBase a rn s).Inv := Inv_updateBase h a fun hw => (hok.2 hw).1

theorem keepsInv_loaded (h : s.Inv) (hd : rd ≠ pcNum) (hok : TransferOk a.writeBack rn rd offs) {v : Word} :
    AllNext State.Inv (advance (updateBase a rn (writeX s rd v))) :=
  keepsInv_advance (Inv_updateBase_of_ok (Inv_writeX h hd v) hok)

theorem keepsInv_loadTo (h : s.Inv) (hd : rd ≠ pcNum) (hok : TransferOk a.writeBack rn rd offs) {x : Access Word} :
    AllNext State.Inv (loadTo rn rd a s x) :=
  allNext_withLoad (Inv_raiseDataAbort h) fun _ => keepsInv_loaded h hd hok

theorem keepsInv_loadWordTo (h : s.Inv) (hok : TransferOk a.writeBack rn rd offs) :
    AllNext State.Inv (loadWordTo rn rd a s) := by
  refine allNext_wordAccess (Inv_raiseDataAbort h) ?_
  split
  · exact allNext_refused
  · refine allNext_withLoad (Inv_raiseDataAbort h) fun v => ?_
    split
    · exact keepsInv_exchange (Inv_updateBase_of_ok h hok) v
    · next hd => exact keepsInv_loaded h hd hok

theorem keepsInv_loadByteTo (h : s.Inv) (hd : rd ≠ pcNum) (hok : TransferOk a.writeBack rn rd offs) :
    AllNext State.Inv (loadByteTo rn rd a s) :=
  allNext_withLoad (Inv_raiseDataAbort h) fun _ => keepsInv_loaded h hd hok

theorem keepsInv_loadHalfTo {ext : BitVec 16 → Word} (h : s.Inv) (hd : rd ≠ pcNum)
    (hok : TransferOk a.writeBack rn rd offs) : AllNext State.Inv (loadHalfTo ext rn rd a s) :=
  allNext_halfAccess (Inv_raiseDataAbort h) fun _ => keepsInv_loadTo h hd hok

theorem keepsInv_storeWordFrom (h : s.Inv) (hok : TransferOk a.writeBack rn rd offs) :
    AllNext State.Inv (storeWordFrom rn rd a s) :=
  allNext_wordAccess (Inv_raiseDataAbort h) <| allNext_withStore (Inv_raiseDataAbort h) fun _ e =>
    keepsInv_advance (Inv_updateBase_of_ok (Inv_writeWord h e) hok)

theorem keepsInv_storeByteFrom (h : s.Inv) (hok : TransferOk a.writeBack rn rd offs) :
    AllNext State.Inv (storeByteFrom rn rd a s) :=
  allNext_withStore (Inv_raiseDataAbort h) fun _ e =>
    keepsInv_advance (Inv_updateBase_of_ok (Inv_writeByte h e) hok)

theorem keepsInv_storeHalfFrom (h : s.Inv) (hok : TransferOk a.writeBack rn rd offs) :
    AllNext State.Inv (storeHalfFrom rn rd a s) :=
  allNext_halfAccess (Inv_raiseDataAbort h) fun he => allNext_withStore (Inv_raiseDataAbort h) fun _ e =>
    keepsInv_advance (Inv_updateBase_of_ok (Inv_writeHalf h he e) hok)

end

/-- A word or byte transfer is decided by its move, under the restrictions that its check leaves (R223, R224). -/
theorem keepsInv_wordTransfer {check : Bool → RegNum → RegNum → List RegNum → Option Refusal}
    {move : RegNum → RegNum → Address → State → Out} {c : Cond} {ix : Index} {up : Bool} {rn rd : RegNum}
    {off : WordOffset} {s : State} (h : s.Inv)
    (hm : ∀ (a : Address) (s : State), s.Inv → check a.writeBack rn rd (wordOffsetRegs off) = none →
      AllNext State.Inv (move rn rd a s)) : AllNext State.Inv (wordTransfer check move c ix up rn rd off s) :=
  keepsInv_conditional h fun h => allNext_guarded fun hck => hm _ _ h hck

/-- A half-word or signed-byte transfer is decided by its move (R234). -/
theorem keepsInv_halfTransfer {move : RegNum → RegNum → Address → State → Out} {c : Cond} {p u w : Bool}
    {rn rd : RegNum} {off : HalfOffset} {s : State} (h : s.Inv)
    (hm : ∀ (a : Address) (s : State), s.Inv → rd ≠ pcNum → TransferOk a.writeBack rn rd (halfOffsetRegs off) →
      AllNext State.Inv (move rn rd a s)) : AllNext State.Inv (halfTransfer move c p u w rn rd off s) :=
  keepsInv_conditional h fun h => allNext_guarded fun _ => allNext_guarded fun _ => allNext_guarded fun hck =>
    (transferCheckNoPc_eq_none.1 hck).elim (hm _ _ h)

/-! ## Multiple transfers and swaps (R250 to R261) -/

theorem Inv_writeBase {s : State} (h : s.Inv) (w : Bool) {rn : RegNum} (hr : rn ≠ pcNum) (final : Word) :
    (writeBase w rn final s).Inv := by
  cases w
  · exact h
  · exact Inv_writeX h hr final

/-- The aborting end of a multiple load (R256). -/
theorem keepsInv_withBlock {m : Mode} {rn : RegNum} {s : State} {x : BlockRead} {k : List (RegNum × Word) → Out}
    (h : s.Inv) (hk : ∀ l, AllNext State.Inv (k l)) : AllNext State.Inv (withBlock m rn s x k) :=
  allNext_withBlock (fun l => Inv_raiseDataAbort (Inv_drawLoaded h m _ l)) hk

section
variable {c : Cond} {p u w : Bool} {rn : RegNum} {s : State}

theorem keepsInv_ldm {list : BitVec 16} (h : s.Inv) : AllNext State.Inv (execLdm c p u w rn list s) :=
  keepsInv_conditional h fun h => allNext_guarded fun hck => allNext_guarded fun _ =>
    allNext_wordAccess (Inv_raiseDataAbort h) <| keepsInv_withBlock h fun l => by
      have hw := fun f => Inv_writeBase (Inv_writeLoaded h s.unmarked.cpsr.mode l) w (ne_pcNum_of_blockCheck hck) f
      dsimp only
      split
      · exact keepsInv_exchange (hw _) _
      · exact keepsInv_advance (hw _)

theorem keepsInv_ldmUser {list : BitVec 15} (h : s.Inv) : AllNext State.Inv (execLdmUser c p u w rn list s) :=
  keepsInv_conditional h fun h => allNext_guarded fun _ => allNext_guarded fun _ =>
    allNext_wordAccess (Inv_raiseDataAbort h) <| keepsInv_withBlock h fun l =>
      keepsInv_advance (Inv_congr (Inv_writeLoaded h .usr l) rfl rfl rfl rfl rfl)

theorem keepsInv_ldmRestore {list : BitVec 15} (h : s.Inv) : AllNext State.Inv (execLdmRestore c p u w rn list s) :=
  keepsInv_conditional h fun h => allNext_guarded fun hck => allNext_guarded fun _ => allNext_guarded fun _ =>
    allNext_wordAccess (Inv_raiseDataAbort h) <| keepsInv_withBlock h fun l =>
      keepsInv_exceptionReturn (Inv_writeBase (Inv_writeLoaded h _ l) w (ne_pcNum_of_blockCheck hck) _) _

theorem keepsInv_stm {list : BitVec 16} (h : s.Inv) : AllNext State.Inv (execStm c p u w rn list s) :=
  keepsInv_conditional h fun h => allNext_guarded fun hck => allNext_guarded fun _ =>
    have hs := Inv_storeBlock h _ _ _
    allNext_wordAccess (Inv_raiseDataAbort h) <| allNext_withStored (Inv_raiseDataAbort hs) <|
      keepsInv_advance (Inv_writeBase hs w (ne_pcNum_of_blockCheck hck) _)

theorem keepsInv_stmUser {list : BitVec 16} (h : s.Inv) : AllNext State.Inv (execStmUser c p u w rn list s) :=
  keepsInv_conditional h fun h => allNext_guarded fun _ => allNext_guarded fun _ =>
    have hs := Inv_storeBlock h _ _ _
    allNext_wordAccess (Inv_raiseDataAbort h) <| allNext_withStored (Inv_raiseDataAbort hs) <|
      keepsInv_advance (Inv_congr hs rfl rfl rfl rfl rfl)

end

section
variable {c : Cond} {rn rd : RegNum} {sbz : BitVec 4} {rm : RegNum} {s : State}

theorem keepsInv_swp (h : s.Inv) : AllNext State.Inv (execSwp c rn rd sbz rm s) :=
  keepsInv_conditional h fun h => allNext_guarded fun hck =>
    allNext_wordAccess (Inv_raiseDataAbort h) <| allNext_withLoad (Inv_raiseDataAbort h) fun v =>
      allNext_withStore (Inv_raiseDataAbort h) fun _ e =>
        keepsInv_advance (Inv_writeX (Inv_writeWord h e) (ne_pcNum_of_swapCheck hck) v)

theorem keepsInv_swpb (h : s.Inv) : AllNext State.Inv (execSwpb c rn rd sbz rm s) :=
  keepsInv_conditional h fun h => allNext_guarded fun hck =>
    allNext_withLoad (Inv_raiseDataAbort h) fun _ => allNext_withStore (Inv_raiseDataAbort h) fun _ e =>
      keepsInv_advance (Inv_writeX (Inv_writeByte h e) (ne_pcNum_of_swapCheck hck) _)

end

/-! ## Exceptions on purpose, unused spaces -/

section
variable {c : Cond} {s : State}

theorem keepsInv_swi {imm : BitVec 24} (h : s.Inv) : AllNext State.Inv (execSwi c imm s) :=
  keepsInv_conditional h fun h => allNext_next (Inv_takeException h _ _)

theorem keepsInv_bkpt {imm : BitVec 16} (h : s.Inv) : AllNext State.Inv (execBkpt imm s) :=
  allNext_unconditional <| allNext_next (Inv_takeException (Inv_unmarked h) _ _)

theorem keepsInv_bkptNotAl {imm : BitVec 16} (h : s.Inv) : AllNext State.Inv (execBkptNotAl c imm s) := by
  unfold execBkptNotAl
  split
  · exact allNext_refused
  · exact keepsInv_conditional h fun _ => allNext_refused

theorem keepsInv_undefinedTrap (h : s.Inv) : AllNext State.Inv (undefinedTrap c s) :=
  keepsInv_conditional h fun h => allNext_next (Inv_raiseUndefined h)

theorem keepsInv_unusedTrap (h : s.Inv) : AllNext State.Inv (unusedTrap c s) :=
  keepsInv_conditional h fun h => by
    split
    · exact allNext_refused
    · exact allNext_next (Inv_raiseUndefined h)

theorem keepsInv_nvReserved {bits : BitVec 28} (h : s.Inv) : AllNext State.Inv (execNvReserved bits s) := by
  unfold execNvReserved
  split
  · exact allNext_refused
  · exact keepsInv_advance (Inv_unmarked h)

end

/-! ## Every instruction -/

/-- Every instruction keeps the invariant. -/
theorem exec_keepsInv (i : Instr) {s : State} (h : s.Inv) : AllNext State.Inv (exec i s) := by
  cases i with
  | and c sf rn rd op | eor c sf rn rd op | sub c sf rn rd op | rsb c sf rn rd op | add c sf rn rd op
  | adc c sf rn rd op | sbc c sf rn rd op | rsc c sf rn rd op | orr c sf rn rd op | bic c sf rn rd op =>
    simp only [exec_and, exec_eor, exec_sub, exec_rsb, exec_add, exec_adc, exec_sbc, exec_rsc, exec_orr, exec_bic]
    exact keepsInv_dataOp h
  | mov c sf sbz rd op | mvn c sf sbz rd op =>
    simp only [exec_mov, exec_mvn]
    exact keepsInv_moveOp h
  | tst c rn sbz op | teq c rn sbz op | cmp c rn sbz op | cmn c rn sbz op =>
    simp only [exec_tst, exec_teq, exec_cmp, exec_cmn]
    exact keepsInv_compareOp h
  | mul c sf rd sbz rs rm => exact keepsInv_mul h
  | mla c sf rd rn rs rm => exact keepsInv_mla h
  | umull c sf rdHi rdLo rs rm | umlal c sf rdHi rdLo rs rm | smull c sf rdHi rdLo rs rm
  | smlal c sf rdHi rdLo rs rm =>
    simp only [exec_umull, exec_umlal, exec_smull, exec_smlal]
    exact keepsInv_mulLongOp h
  | clz c f1 rd f2 rm => exact keepsInv_clz (f1 := f1) (f2 := f2) h
  | mrs c r sbo rd sbzHi sbzLo => exact keepsInv_mrs h
  | msrReg c r mask sbo sbz rm =>
    exact keepsInv_conditional h fun h => allNext_guarded fun _ => allNext_guarded fun _ => keepsInv_msr h
  | msrImm c r mask sbo rotate imm8 =>
    exact keepsInv_conditional h fun h => allNext_guarded fun _ => keepsInv_msr h
  | ldr c ix up rn rd off =>
    exact keepsInv_wordTransfer h fun _ _ h hck => keepsInv_loadWordTo h (transferCheck_eq_none.1 hck)
  | ldrt c up rn rd off =>
    exact keepsInv_wordTransfer h fun _ _ h hck => keepsInv_loadWordTo h (transferCheckNoPc_eq_none.1 hck).2
  | ldrb c ix up rn rd off | ldrbt c up rn rd off =>
    simp only [exec_ldrb, exec_ldrbt]
    exact keepsInv_wordTransfer h fun _ _ h hck =>
      (transferCheckNoPc_eq_none.1 hck).elim (keepsInv_loadByteTo h)
  | str c ix up rn rd off =>
    exact keepsInv_wordTransfer h fun _ _ h hck => keepsInv_storeWordFrom h (transferCheck_eq_none.1 hck)
  | strt c up rn rd off =>
    exact keepsInv_wordTransfer h fun _ _ h hck => keepsInv_storeWordFrom h (transferCheckNoPc_eq_none.1 hck).2
  | strb c ix up rn rd off | strbt c up rn rd off =>
    simp only [exec_strb, exec_strbt]
    exact keepsInv_wordTransfer h fun _ _ h hck => keepsInv_storeByteFrom h (transferCheckNoPc_eq_none.1 hck).2
  | ldrh c p u w rn rd off | ldrsh c p u w rn rd off =>
    exact keepsInv_halfTransfer h fun _ _ => keepsInv_loadHalfTo
  | ldrsb c p u w rn rd off => exact keepsInv_halfTransfer h fun _ _ h hd hok => keepsInv_loadTo h hd hok
  | strh c p u w rn rd off => exact keepsInv_halfTransfer h fun _ _ h _ => keepsInv_storeHalfFrom h
  | ldm c p u w rn list => exact keepsInv_ldm h
  | ldmUser c p u w rn list => exact keepsInv_ldmUser h
  | ldmRestore c p u w rn list => exact keepsInv_ldmRestore h
  | stm c p u w rn list => exact keepsInv_stm h
  | stmUser c p u w rn list => exact keepsInv_stmUser h
  | swp c rn rd sbz rm => exact keepsInv_swp h
  | swpb c rn rd sbz rm => exact keepsInv_swpb h
  | b c off => exact keepsInv_b h
  | bl c off => exact keepsInv_bl h
  | bx c sbo rm => exact keepsInv_bx h
  | blxReg c sbo rm => exact keepsInv_blxReg h
  | blxImm x off => exact keepsInv_blxImm h
  | swi c imm => exact keepsInv_swi (imm := imm) h
  | bkpt imm => exact keepsInv_bkpt (imm := imm) h
  | bkptNotAl c imm => exact keepsInv_bkptNotAl (imm := imm) h
  | unusedControl c bits | unusedArithmetic c hi mid lo | unusedLoadStore c bits =>
    simp only [exec_unusedControl, exec_unusedArithmetic, exec_unusedLoadStore]
    exact keepsInv_unusedTrap h
  | unusedCoprocessor c n l rest | undefined c hi lo | ldc c p u n w rn crd cp off8 | stc c p u n w rn crd cp off8
  | cdp c op1 crn crd cp op2 crm | mcr c op1 crn rd cp op2 crm | mrc c op1 crn rd cp op2 crm =>
    simp only [exec_unusedCoprocessor, exec_undefined, exec_ldc, exec_stc, exec_cdp, exec_mcr, exec_mrc]
    exact keepsInv_undefinedTrap h
  | nvReserved bits => exact keepsInv_nvReserved (bits := bits) h

/-! ## The boundary -/

/-- A Reset in mid-run leaves no reserved bit in any SPSR and none in the CPSR, and keeps memory (R33, R37, log 10). -/
theorem Inv_resetEntry {s : State} (h : s.Inv) : (resetEntry s).Inv := by
  have ha := Inv_pcAligned h
  obtain ⟨hm, -, -, -, -⟩ := h
  unfold resetEntry
  refine Inv_enterException ?_ _ _ (psrBits_reserved _)
  refine ⟨hm, rfl, (pcAligned_iff _).2 ha, rfl, (spsrsReservedZero_iff _).2 fun q => ?_⟩
  simp only [State.spsr, Vector.get_eq_getElem, Vector.getElem_ofFn]
  exact psrBits_reserved _

/-- Settles O57: the boundary and the fetch by their exceptions, the instruction by `exec_keepsInv`. -/
theorem stepKeepsInvariant : Obligations.StepKeepsInvariant := by
  intro s t h ht
  have hs : (sampleTaken s).Inv := Inv_congr h rfl rfl rfl rfl rfl
  exact allNext_boundary (Inv_resetEntry hs) (Inv_takeException hs _ _) (Inv_takeException hs _ _)
    (allNext_fetch (Inv_takeException hs _ _) fun i => exec_keepsInv i hs) t ht

/-- Settles O58, by evaluation of each part. -/
theorem resetInvariant : Obligations.ResetInvariant := by
  refine ⟨rfl, rfl, rfl, rfl, (spsrsReservedZero_iff _).2 fun q => ?_⟩
  simp [State.spsr, State.reset, Vector.get_eq_getElem]

end Sys2Proof.Machine
end

section
/-!
Proofs of `BranchResults` and `BranchExchangeResults`: the branch target as a number, the link, and the exchange of bit
0 with T (spec/41_branch.md R140 to R144).
-/

namespace Sys2Proof.Machine

/-- A branch goes on exactly where its target `t` is inside the address space (R26, R140). -/
theorem withTarget_branchTarget {cur : Word} {offset t : Int} (ht : cur.toNat + 8 + offset = t) (k : Word → Out) :
    withTarget (branchTarget cur offset) k =
      if 0 ≤ t ∧ t < 2 ^ 32 then k (BitVec.ofInt 32 t) else .refused .branchWrap := by
  subst ht
  unfold branchTarget
  dsimp only
  split <;> rfl

/-- The two low bits are `10` exactly where bit 0 is clear and bit 1 is set. -/
theorem lowBits_eq_two_iff (v : Word) :
    v.extractLsb' 0 2 = 0b10#2 ↔ v.getLsbD 0 = false ∧ v.getLsbD 1 = true := by
  have hbits : ∀ x : BitVec 2, x = 0b10#2 ↔ x.getLsbD 0 = false ∧ x.getLsbD 1 = true := by decide
  rw [hbits, BitVec.getLsbD_extractLsb', BitVec.getLsbD_extractLsb']
  rfl

/-- `exchange` has the outcome of R142. -/
theorem exchangesTo_exchange (v : Word) (s : State) : ExchangesTo (exchange v s.unmarked) s v := by
  unfold ExchangesTo exchange
  simp only [lowBits_eq_two_iff]
  rfl

/-- Settles O26: `withTarget_branchTarget` at the offset of `branchOffset_eq`. -/
theorem branchResults : Obligations.BranchResults := by
  intro c off s t
  have ht : (s.pc.toNat : Int) + 8 + branchOffset off = t := by rw [branchOffset_eq]
  refine ⟨fun hr => ?_, fun hr => ?_⟩
  · rw [exec_b, execB, conditional_of_runs hr]
    exact withTarget_branchTarget ht _
  · rw [exec_bl, execBl, conditional_of_runs hr]
    exact withTarget_branchTarget ht _

/-- Settles O27: BX and BLX (register) by `exchangesTo_exchange`, BLX (immediate) as a branch. -/
theorem branchExchangeResults : Obligations.BranchExchangeResults := by
  have hsbo : failIf ((0xFFF#12 : BitVec 12) != 0xFFF#12) .fixedField = none := rfl
  refine ⟨fun c rm s => ⟨fun hr => ?_, fun hr hm => ?_, fun hr hm => ?_⟩, fun h off s hz => ?_⟩
  · rw [exec_bx, execBx, conditional_of_runs hr, hsbo, guarded_none]
    exact exchangesTo_exchange _ s
  · rw [exec_blxReg, execBlxReg, conditional_of_runs hr, hsbo, guarded_none,
      failIf_eq_none.2 (beq_eq_false_iff_ne.2 hm), guarded_none]
    exact exchangesTo_exchange _ (link s)
  · rw [exec_blxReg, execBlxReg, conditional_of_runs hr, hsbo, guarded_none, hm]
    rfl
  · intro t
    have ht : (s.pc.toNat : Int) + 8 + (branchOffset off + 2 * h.toNat) = t := by
      rw [branchOffset_eq]
      cases h <;> simp only [t, Bool.toNat_true, Bool.toNat_false, if_true, Bool.false_eq_true, if_false] <;> omega
    rw [exec_blxImm, execBlxImm, unconditional_of_noHazard hz]
    exact withTarget_branchTarget ht _

end Sys2Proof.Machine
end

section
/-!
Proofs of `WordStoreLoad`, `StoreWordResults` and `StoreMultipleResults`: what a word store notes as stored, what a
store takes from a register, and the base written back (spec/10_state.md R24, R36, spec/20_memory.md R60 to R69,
spec/45_single_data_transfer.md R223 to R231, spec/46_multiple_transfer_swap.md R250 to R254).
-/

namespace Sys2Proof.Machine

/-! ## The set of stored addresses and the canonical form (R36, R69) -/

theorem mem_insertAddr {l : List Nat} {a x : Nat} : x ∈ insertAddr l a ↔ x ∈ l ∨ x = a := by
  induction l with
  | nil => simp [insertAddr]
  | cons b t ih =>
    unfold insertAddr
    split
    · rw [List.mem_cons, or_comm]
    · split
      · next e => simp only [e, List.mem_cons]; tauto
      · simp only [List.mem_cons, ih, or_assoc]

/-- A word store notes its four addresses (R36, R75). -/
theorem writeWord_stored {s t : State} {a v : Word} (h : writeWord s a v = some t) (x : Nat) :
    x ∈ t.stored ↔ x ∈ s.stored ∨ ¬Outside a.toNat 4 x := by
  unfold writeWord at h
  split at h
  · obtain rfl := Option.some.inj h
    simp only [storeByteAt_stored, mem_insertAddr, Outside, or_assoc]
    exact or_congr_right (by omega)
  · cases h

theorem writeWord_wf {s t : State} {a v : Word} (h : writeWord s (wordAligned a) v = some t)
    (hm : Memory.wf s.mem = true) : Memory.wf t.mem = true := by
  have hlt := fun k (hk : k < 4) => wordAligned_toNat_add_lt a hk
  unfold writeWord at h
  split at h
  · obtain rfl := Option.some.inj h
    refine Memory.write_wf (Memory.write_wf (Memory.write_wf (Memory.write_wf hm (hlt 0 (by omega)) _) ?_ _) ?_ _) ?_ _
    · exact hlt 1 (by omega)
    · exact hlt 2 (by omega)
    · exact hlt 3 (by omega)
  · cases h

theorem writeWord_read_inside {s t : State} {a v : Word} (h : writeWord s a v = some t) {k : Nat} (hk : k < 4) :
    Memory.read t.mem (a.toNat + k) = some (byteOfWord s.platform.bigEndian v k) := by
  rw [writeWord_read h, if_pos ⟨by omega, by omega⟩, Nat.add_sub_cancel_left]

theorem writeWord_read_outside {s t : State} {a v : Word} (h : writeWord s a v = some t) {x : Nat}
    (hx : Outside a.toNat 4 x) : Memory.read t.mem x = Memory.read s.mem x := by
  unfold Outside at hx
  rw [writeWord_read h, if_neg (by omega)]

/-- Settles O10: one lemma on the word store for each part. -/
theorem wordStoreLoad : Obligations.WordStoreLoad := by
  intro s t a v h
  refine ⟨fun k hk => ?_, fun x => writeWord_read_outside h, readWord_writeWord h, writeWord_stored h, writeWord_wf h⟩
  rw [writeWord_read_inside h hk, byteOfWord]
  cases s.platform.bigEndian <;> rfl

/-! ## What a load and a store read of the state -/

/-- A word load depends on memory and the platform alone. -/
theorem readWord_congr {s t : State} (hm : t.mem = s.mem) (hp : t.platform = s.platform) (a : Word) :
    readWord t a = readWord s a := by
  unfold readWord ifMapped byteAt
  rw [hm, hp]

/-- A store takes r15 as the address plus 8 or 12, another register as the bank resolves it (R24, R227, R251). -/
theorem storeSource_eq (m : Mode) (s : State) (r : RegNum) :
    storeSource m s r =
      if r = pcNum then s.pc + (if s.platform.pcStore = .plus8 then 8 else 12) else readBank m s r := by
  unfold storeSource readBank
  cases h : bankReg m r with
  | none =>
    rw [if_pos ((bankReg_eq_none m r).1 h)]
    show pcStored s = _
    unfold pcStored
    cases s.platform.pcStore <;> rfl
  | some p => exact (if_neg (mt (bankReg_eq_none m r).2 (by simp [h]))).symm

/-- The current mode's bank is the one that `readX` reads (R9, R22). -/
theorem readBank_current (s : State) (r : RegNum) : readBank s.cpsr.mode s r = readX s r := rfl

theorem wordAccess_of_ok {s : State} {ea : Word} (h : WordOk s ea) (k : Out) : wordAccess s ea k = k := by
  unfold wordAccess
  split
  · rfl
  · next hn => rw [h.resolve_left hn]

/-- A word store to mapped bytes completes (R70). -/
theorem exists_writeWord {s : State} {a : Word} (h : mappedRange s.platform a.toNat 4 = true) (v : Word) :
    ∃ t, writeWord s a v = some t := Option.isSome_iff_exists.1 ((writeWord_isSome s a v).trans h)

/-! ## The base written back (R223, R251) -/

section
variable (w : Bool) (rn : RegNum) (v : Word) (s : State)

theorem writeBase_reg (p : PReg) :
    (writeBase w rn v s).reg p = if w = true ∧ bankReg s.cpsr.mode rn = some p then v else s.reg p := by
  cases w
  · rw [if_neg (by simp)]
    rfl
  · simp only [true_and]
    exact writeX_reg s rn v p

@[simp] theorem writeBase_cpsr : (writeBase w rn v s).cpsr = s.cpsr := by cases w <;> simp [writeBase]
@[simp] theorem writeBase_spsrs : (writeBase w rn v s).spsrs = s.spsrs := by cases w <;> simp [writeBase]
@[simp] theorem writeBase_mem : (writeBase w rn v s).mem = s.mem := by cases w <;> simp [writeBase]
@[simp] theorem writeBase_afterUserBank : (writeBase w rn v s).afterUserBank = s.afterUserBank := by
  cases w <;> simp [writeBase]
@[simp] theorem writeBase_lines : (writeBase w rn v s).lines = s.lines := by cases w <;> simp [writeBase]
@[simp] theorem writeBase_platform : (writeBase w rn v s).platform = s.platform := by cases w <;> simp [writeBase]

end

/-! ## The end of a store -/

/-- What a store and the write-back of its base leave: the memory of the store, the registers but for the base, the pc
of the next instruction, the mark, the status registers and the inputs (R223, R251). -/
theorem store_ends {s s' : State} (hs : StoresOnly s s') (hn : HasNext s) {w : Bool} {rn : RegNum}
    (hr : w = true → rn ≠ pcNum) (v : Word) :
    ∃ t, advance (writeBase w rn v s') = .next t ∧ t.mem = s'.mem ∧
      (∀ q, t.reg q = if w = true ∧ bankReg s.cpsr.mode rn = some q then v else s.reg q) ∧
      t.afterUserBank = s.afterUserBank ∧ t.pc = s.pc + 4 ∧ t.cpsr = s.cpsr ∧ SameSpsrs s t ∧ SameInputs s t := by
  have hpc : (writeBase w rn v s').pc = s.pc := by
    cases w
    · exact hs.pc
    · exact (writeX_pc_ne s' v (hr rfl)).trans hs.pc
  have hreg : ∀ q, (writeBase w rn v s').reg q = if w = true ∧ bankReg s.cpsr.mode rn = some q then v else s.reg q :=
    fun q => by rw [writeBase_reg, hs.cpsr, reg_congr hs.regs]
  refine ⟨_, advance_of_hasNext (by rwa [HasNext, hpc]), writeBase_mem .., hreg, ?_, congrArg (· + 4) hpc, ?_,
    spsr_congr ?_, ?_, ?_⟩
  · exact (writeBase_afterUserBank ..).trans hs.afterUserBank
  · exact (writeBase_cpsr ..).trans hs.cpsr
  · exact (writeBase_spsrs ..).trans hs.spsrs
  · exact (writeBase_lines ..).trans hs.lines
  · exact (writeBase_platform ..).trans hs.platform

/-! ## Single stores -/

@[simp] theorem wordAddress_unmarked (ix : Index) (up : Bool) (rn : RegNum) (off : WordOffset) (s : State) :
    wordAddress ix up rn off s.unmarked = wordAddress ix up rn off s := by
  cases off <;> rfl

/-- A word or byte transfer that runs and whose check passes is its move (R223, R224). -/
theorem wordTransfer_of_runs {c : Cond} {ix : Index} {up : Bool} {rn rd : RegNum} {off : WordOffset} {s : State}
    (hr : Runs c (rn :: rd :: wordOffsetRegs off) s)
    {check : Bool → RegNum → RegNum → List RegNum → Option Refusal}
    (hck : check (wordAddress ix up rn off s).writeBack rn rd (wordOffsetRegs off) = none)
    (move : RegNum → RegNum → Address → State → Out) :
    wordTransfer check move c ix up rn rd off s = move rn rd (wordAddress ix up rn off s) s.unmarked := by
  unfold wordTransfer
  rw [conditional_of_runs hr, wordAddress_unmarked]
  dsimp only
  rw [hck, guarded_none]

/-- A word store that is made completes (R63, R227). -/
theorem storeWordFrom_completes {rn : RegNum} {a : Address} {s : State} (hn : HasNext s)
    (hr : a.writeBack = true → rn ≠ pcNum) (hok : WordOk s a.ea)
    (hm : mappedRange s.platform (wordAligned a.ea).toNat 4 = true) (rd : RegNum) :
    ∃ t, storeWordFrom rn rd a s.unmarked = .next t ∧
      readWord t (wordAligned a.ea) = .ok (storeSource s.cpsr.mode s rd) ∧
      (∀ x, Outside (wordAligned a.ea).toNat 4 x → Memory.read t.mem x = Memory.read s.mem x) ∧
      (∀ q, t.reg q = if a.writeBack = true ∧ bankReg s.cpsr.mode rn = some q then a.index else s.reg q) ∧
      t.pc = s.pc + 4 ∧ t.cpsr = s.cpsr ∧ SameSpsrs s t ∧ SameInputs s t := by
  obtain ⟨s', hs'⟩ := exists_writeWord (s := s.unmarked) hm (storeSource s.cpsr.mode s rd)
  have ho := writeWord_only hs'
  obtain ⟨t, ht, hmem, hreg, -, hpc, hcpsr, hspsr, hin⟩ := store_ends (s := s.unmarked) ho hn hr a.index
  refine ⟨t, ?_, ?_, fun x hx => ?_, hreg, hpc, hcpsr, hspsr, hin⟩
  · unfold storeWordFrom
    rw [wordAccess_of_ok (s := s.unmarked) hok]
    change withStore _ (writeWord s.unmarked _ (storeSource s.cpsr.mode s rd)) _ = _
    rw [hs']
    exact ht
  · rw [readWord_congr hmem (hin.2.trans ho.platform.symm)]
    exact readWord_writeWord hs'
  · rw [hmem]
    exact writeWord_read_outside hs' hx

/-- Settles O32: the frame of a transfer, then `storeWordFrom_completes`. -/
theorem storeWordResults : Obligations.StoreWordResults := by
  intro c ix up rn rd off s hr hn
  dsimp only
  simp only [← readBank_current, ← storeSource_eq]
  refine ⟨fun hok hw hm => ?_, fun hd hok hw hm => ?_⟩
  · rw [exec_str, execStr, wordTransfer_of_runs hr (transferCheck_eq_none.2 hok)]
    exact storeWordFrom_completes hn (fun h => (hok.2 h).1) hw hm rd
  · rw [exec_strt, execStrt, wordTransfer_of_runs hr (transferCheckNoPc_eq_none.2 ⟨hd, hok⟩)]
    exact storeWordFrom_completes hn (fun h => (hok.2 h).1) hw hm rd

/-! ## Multiple stores -/

/-- What the stores of a multiple transfer from base `rn` give, in the state in which its rule runs (R250, R251). -/
def storedBlock (m : Mode) (p u : Bool) (rn : RegNum) (list : BitVec 16) (s : State) : Bool × State :=
  storeBlock m (blockStart p u (readX s rn) (blockRegs list).length) (blockRegs list) s.unmarked

theorem storedBlock_only (m : Mode) (p u : Bool) (rn : RegNum) (list : BitVec 16) (s : State) :
    StoresOnly s.unmarked (storedBlock m p u rn list s).2 := storeBlock_only ..

section
variable {p u w : Bool} {rn : RegNum} {list : BitVec 16} {s : State} (hb : BlockOk p u rn list s)
include hb

theorem blockCheck_of_ok : blockCheck rn list (blockStart p u (readX s rn) (blockRegs list).length) = none := by
  obtain ⟨hl, hr, hw⟩ := hb
  rw [blockCheck, if_neg hl, if_neg hr, failIf_eq_none]
  simpa using hw

variable (hm : ∀ k < (blockRegs list).length, mappedRange s.platform (blockAddr p u rn list s k).toNat 4 = true)
include hm

/-- A multiple store of mapped words completes (R251). -/
theorem storedBlock_completes (m : Mode) : (storedBlock m p u rn list s).1 = true := by
  obtain ⟨-, -, hw⟩ := hb
  exact (storeBlock_words (s := s.unmarked) m hw hm).1

/-- A memory that a multiple store of mapped words has left: each word of the block holds its register, and every other
byte is as before (R251, R254). -/
theorem block_words_of_mem (m : Mode) {t : State} (hmem : t.mem = (storedBlock m p u rn list s).2.mem)
    (hp : t.platform = s.platform) :
    (∀ k (h : k < (blockRegs list).length),
        readWord t (blockAddr p u rn list s k) = .ok (storeSource m s (blockRegs list)[k])) ∧
      ∀ x, (∀ k < (blockRegs list).length, Outside (blockAddr p u rn list s k).toNat 4 x) →
        Memory.read t.mem x = Memory.read s.mem x := by
  obtain ⟨-, -, hw⟩ := hb
  refine ⟨fun k h => ?_, fun x hx => ?_⟩
  · rw [readWord_congr hmem (hp.trans (storedBlock_only m p u rn list s).platform.symm)]
    exact (storeBlock_words (s := s.unmarked) m hw hm).2 k h
  · rw [hmem]
    exact storeBlock_read_outside m _ _ s.unmarked x hx

/-- STM that no rule refuses stores the block, writes the base back and goes on (R251). -/
theorem execStm_of_runs {c : Cond} (hr : Runs c (rn :: blockRegs list) s) (hok : WordOk s (readX s rn))
    (hbase : w = true → list.getLsbD rn.toNat = true → (blockRegs list).head? = some rn) :
    execStm c p u w rn list s =
      advance (writeBase w rn (blockFinal u (readX s rn) (blockRegs list).length)
        (storedBlock s.cpsr.mode p u rn list s).2) := by
  have hck : (w && (blockRegs list).contains rn && (blockRegs list).head? != some rn) = false := by
    cases hw : w && (blockRegs list).contains rn
    · rfl
    · rw [Bool.and_eq_true, List.contains_iff_mem, mem_blockRegs] at hw
      obtain ⟨hwb, hmem⟩ := hw
      simp [hbase hwb hmem]
  unfold execStm
  dsimp only
  rw [conditional_of_runs hr, readX_unmarked, blockCheck_of_ok hb, guarded_none, failIf_eq_none.2 hck, guarded_none,
    wordAccess_of_ok (s := s.unmarked) hok]
  exact if_pos (storedBlock_completes hb hm s.cpsr.mode)

/-- STM of the User-mode registers that no rule refuses stores the block, marks the next instruction and goes on (R254,
R361). -/
theorem execStmUser_of_runs {c : Cond} (hr : Runs c [rn] s) (hok : WordOk s (readX s rn)) (hu : s.cpsr.mode ≠ .usr)
    (hy : s.cpsr.mode ≠ .sys) :
    execStmUser c p u false rn list s =
      advance { (storedBlock .usr p u rn list s).2 with afterUserBank := true } := by
  have hck : userFormCheck s.unmarked.cpsr.mode false = none := by simp [userFormCheck, State.unmarked, hu, hy]
  unfold execStmUser
  dsimp only
  rw [conditional_of_runs hr, readX_unmarked, blockCheck_of_ok hb, guarded_none, hck, guarded_none,
    wordAccess_of_ok (s := s.unmarked) hok]
  exact if_pos (storedBlock_completes hb hm .usr)

end

/-- A store under the mark of R361 is a store. -/
theorem StoresOnly.marked {s t : State} (h : StoresOnly s t) :
    StoresOnly { s with afterUserBank := true } { t with afterUserBank := true } :=
  ⟨h.regs, h.pc, h.cpsr, h.spsrs, rfl, h.lines, h.draws, h.platform⟩

/-- Settles O42: the words by `block_words_of_mem`, the rest by `store_ends`. -/
theorem storeMultipleResults : Obligations.StoreMultipleResults := by
  intro c p u w rn list s regs hn hb hok hm
  simp only [← storeSource_eq]
  obtain ⟨-, hne, -⟩ := id hb
  refine ⟨fun hr hbase => ?_, fun hr hu hy => ?_⟩
  · obtain ⟨t, ht, hmem, hreg, hmark, hpc, hcpsr, hspsr, hin⟩ := store_ends (s := s.unmarked)
      (storedBlock_only s.cpsr.mode p u rn list s) hn (fun _ => hne) (blockFinal u (readX s rn) regs.length)
    obtain ⟨hwords, hout⟩ := block_words_of_mem hb hm s.cpsr.mode hmem hin.2
    exact ⟨t, (execStm_of_runs hb hm hr hok hbase).trans ht, hwords, hout, hreg, hmark, hpc, hcpsr, hspsr, hin⟩
  · obtain ⟨t, ht, hmem, hreg, hmark, hpc, hcpsr, hspsr, hin⟩ := store_ends (w := false)
      (storedBlock_only .usr p u rn list s).marked hn (fun _ => hne) (blockFinal u (readX s rn) regs.length)
    obtain ⟨hwords, hout⟩ := block_words_of_mem hb hm .usr hmem hin.2
    exact ⟨t, (execStmUser_of_runs hb hm hr hok hu hy).trans ht, hwords, hout, hreg, hmark, hpc, hcpsr, hspsr, hin⟩

end Sys2Proof.Machine
end

section
/-!
Proof of `RegisterInstructionsFrame`: what the instructions that only write registers leave alone, carried through their
shared frames (spec/10_state.md R28, spec/43_data_processing.md R160, R166, spec/44_multiply_clz.md R201, R209,
spec/47_status_register_transfer.md R270).
-/

namespace Sys2Proof.Machine

/-- From `s` to `t` only the registers `written` change, the pc and bookkeeping apart, and of the CPSR at most the
flags, and these only with S = 1. -/
structure RegFrame (s : State) (sf : Bool) (written : List (Option PReg)) (t : State) : Prop where
  spsrs : t.spsrs = s.spsrs
  mem : t.mem = s.mem
  lines : t.lines = s.lines
  platform : t.platform = s.platform
  flags : ∃ n z c v, t.cpsr = s.cpsr.flags n z c v
  cpsr : sf = false → t.cpsr = s.cpsr
  regs : SameRegsBut written s t

section
variable {s t : State} {sf : Bool} {written : List (Option PReg)}

theorem RegFrame.refl (s : State) (sf : Bool) (written : List (Option PReg)) : RegFrame s sf written s :=
  ⟨rfl, rfl, rfl, rfl, ⟨_, _, _, _, rfl⟩, fun _ => rfl, fun _ _ => rfl⟩

/-- The frame does not speak of the pc, nor of the mark of R361 in the state before. -/
theorem RegFrame.advanced (h : RegFrame s.unmarked sf written t) : RegFrame s sf written t.advanced :=
  ⟨h.spsrs, h.mem, h.lines, h.platform, h.flags, h.cpsr, h.regs⟩

/-- The flags set, with S = 1 alone. -/
theorem RegFrame.setFlags (h : RegFrame s false written t) (n z c v : Bool) :
    RegFrame s true written { t with cpsr := s.cpsr.flags n z c v } :=
  ⟨h.spsrs, h.mem, h.lines, h.platform, ⟨n, z, c, v, rfl⟩, fun e => (Bool.noConfusion e), h.regs⟩

theorem RegFrame.mono (h : RegFrame s false written t) : RegFrame s sf written t :=
  ⟨h.spsrs, h.mem, h.lines, h.platform, h.flags, fun _ => h.cpsr rfl, h.regs⟩

theorem RegFrame.subset (h : RegFrame s sf written t) {more : List (Option PReg)} (hs : written ⊆ more) :
    RegFrame s sf more t :=
  ⟨h.spsrs, h.mem, h.lines, h.platform, h.flags, h.cpsr, fun p hp => h.regs p fun hw => hp (hs hw)⟩

/-- A register of the current mode written besides. -/
theorem RegFrame.writeX (h : RegFrame s false written t) {rd : RegNum} (hd : bankReg s.cpsr.mode rd ∈ written)
    (v : Word) : RegFrame s false written (writeX t rd v) := by
  have hc := h.cpsr rfl
  refine ⟨(writeX_spsrs ..).trans h.spsrs, (writeX_mem ..).trans h.mem, (writeX_lines ..).trans h.lines,
    (writeX_platform ..).trans h.platform, ?_, fun _ => (writeX_cpsr ..).trans hc, fun p hp => ?_⟩
  · rw [writeX_cpsr]
    exact h.flags
  · have hne : bankReg t.cpsr.mode rd ≠ some p := fun e => hp (by rwa [← e, hc])
    rw [writeX_reg, if_neg hne, h.regs p hp]

/-- A draw is bookkeeping. -/
theorem RegFrame.drawBit (h : RegFrame s sf written t) : RegFrame s sf written (drawBit t).2 :=
  ⟨h.spsrs, h.mem, h.lines, h.platform, h.flags, h.cpsr, h.regs⟩

/-- The frame in the terms of Safety.lean. -/
theorem RegFrame.same (h : RegFrame s sf written t) :
    SameSpsrs s t ∧ SameMemory s t ∧ SameInputs s t ∧ t.cpsr = s.cpsr.flags t.cpsr.n t.cpsr.z t.cpsr.c t.cpsr.v ∧
      (sf = false → t.cpsr = s.cpsr) ∧ SameRegsBut written s t := by
  refine ⟨spsr_congr h.spsrs, fun x => by rw [h.mem], ⟨h.lines, h.platform⟩, ?_, h.cpsr, h.regs⟩
  obtain ⟨n, z, c, v, e⟩ := h.flags
  rw [e]
  rfl

/-! ## The shared frames of the instructions -/

theorem regFrame_advance (h : RegFrame s.unmarked sf written t) : AllNext (RegFrame s sf written) (advance t) :=
  allNext_advance h.advanced

theorem regFrame_conditional {c : Cond} {regs : List RegNum} {body : State → Out}
    (h : AllNext (RegFrame s sf written) (body s.unmarked)) :
    AllNext (RegFrame s sf written) (conditional c regs s body) :=
  allNext_conditional (RegFrame.refl s.unmarked sf written).advanced h

end

section
variable {c : Cond} {sf : Bool} {rn rd : RegNum} {op : Operand2} {s : State}

/-- One register written. -/
theorem regFrame_writeX (s : State) (rd : RegNum) (v : Word) :
    RegFrame s false [bankReg s.cpsr.mode rd] (writeX s rd v) :=
  (RegFrame.refl s false _).writeX (List.mem_singleton.2 rfl) v

theorem regFrame_dataResult (hd : rd ≠ pcNum) (r : AluResult) :
    AllNext (RegFrame s sf [bankReg s.cpsr.mode rd]) (dataResult sf rd r s.unmarked) := by
  have hw := regFrame_writeX s.unmarked rd r.value
  unfold dataResult
  rw [if_neg hd]
  cases sf
  · exact regFrame_advance hw
  · exact regFrame_advance (hw.setFlags ..)

theorem regFrame_dataOp (hd : rd ≠ pcNum) {f : (a b : Word) → (sc cin : Bool) → AluResult} :
    AllNext (RegFrame s sf [bankReg s.cpsr.mode rd]) (dataOp f c sf rn rd op s) :=
  regFrame_conditional <| allNext_guarded fun _ => regFrame_dataResult hd _

theorem regFrame_moveOp (hd : rd ≠ pcNum) {f : (b : Word) → (sc : Bool) → AluResult} {sbz : RegNum} :
    AllNext (RegFrame s sf [bankReg s.cpsr.mode rd]) (moveOp f c sf sbz rd op s) :=
  regFrame_conditional <| allNext_guarded fun _ => allNext_guarded fun _ => regFrame_dataResult hd _

/-- A comparison writes no register (R166). -/
theorem regFrame_compareOp {f : (a b : Word) → (sc : Bool) → AluResult} {sbz : RegNum} :
    AllNext (RegFrame s true []) (compareOp f c rn sbz op s) :=
  regFrame_conditional <| allNext_guarded fun _ => allNext_guarded fun _ =>
    regFrame_advance ((RegFrame.refl s.unmarked false []).setFlags ..)

theorem regFrame_mulResult (v : Word) :
    AllNext (RegFrame s sf [bankReg s.cpsr.mode rd]) (mulResult sf rd v s.unmarked) := by
  have hw := regFrame_writeX s.unmarked rd v
  cases sf
  · exact regFrame_advance hw
  · refine regFrame_advance ?_
    unfold setMulFlags
    rw [writeX_cpsr]
    exact hw.drawBit.setFlags ..

theorem regFrame_mul {sbz : BitVec 4} {rs rm : RegNum} :
    AllNext (RegFrame s sf [bankReg s.cpsr.mode rd]) (execMul c sf rd sbz rs rm s) :=
  regFrame_conditional <| allNext_guarded fun _ => allNext_guarded fun _ => regFrame_mulResult _

theorem regFrame_mla {rs rm : RegNum} :
    AllNext (RegFrame s sf [bankReg s.cpsr.mode rd]) (execMla c sf rd rn rs rm s) :=
  regFrame_conditional <| allNext_guarded fun _ => regFrame_mulResult _

/-- A long multiply writes two registers (R205 to R208). -/
theorem regFrame_mulLongOp {f : (acc : BitVec 64) → (m r : Word) → BitVec 64} {rdHi rdLo rs rm : RegNum} :
    AllNext (RegFrame s sf [bankReg s.cpsr.mode rdHi, bankReg s.cpsr.mode rdLo]) (mulLongOp f c sf rdHi rdLo rs rm s) :=
  regFrame_conditional <| allNext_guarded fun _ => by
    have hw : ∀ v w, RegFrame s.unmarked false [bankReg s.cpsr.mode rdHi, bankReg s.cpsr.mode rdLo]
        (writeX (writeX s.unmarked rdLo v) rdHi w) := fun v w =>
      ((RegFrame.refl s.unmarked false _).writeX (by simp [State.unmarked]) v).writeX (by simp [State.unmarked]) w
    cases sf
    · exact regFrame_advance (hw _ _)
    · refine regFrame_advance ?_
      unfold setMulLongFlags
      simp only [writeX_cpsr]
      exact (hw _ _).drawBit.drawBit.setFlags ..

theorem regFrame_clz {f1 f2 : BitVec 4} {rm : RegNum} :
    AllNext (RegFrame s sf [bankReg s.cpsr.mode rd]) (execClz c f1 rd f2 rm s) :=
  regFrame_conditional <| allNext_guarded fun _ => regFrame_advance (regFrame_writeX s.unmarked rd _).mono

theorem regFrame_mrs {r : Bool} {sbo sbzHi sbzLo : BitVec 4} :
    AllNext (RegFrame s sf [bankReg s.cpsr.mode rd]) (execMrs c r sbo rd sbzHi sbzLo s) :=
  regFrame_conditional <| allNext_guarded fun _ => allNext_guarded fun _ => by
    have hw := fun v => regFrame_advance (sf := sf) (regFrame_writeX s.unmarked rd v).mono
    split
    · split
      · exact allNext_refused
      · exact hw _
    · exact hw _

end

/-! ## The obligation -/

/-- The instructions that write one register other than r15. -/
theorem regFrame_oneRegister (c : Cond) (sf : Bool) (rn rs rm : RegNum) {rd : RegNum} (hd : rd ≠ pcNum)
    (f1 f2 : BitVec 4) (op : Operand2) (s : State) :
    ∀ i ∈ [Instr.and c sf rn rd op, .eor c sf rn rd op, .sub c sf rn rd op, .rsb c sf rn rd op, .add c sf rn rd op,
        .adc c sf rn rd op, .sbc c sf rn rd op, .rsc c sf rn rd op, .orr c sf rn rd op, .bic c sf rn rd op,
        .mov c sf f1 rd op, .mvn c sf f1 rd op, .mul c sf rd f1 rs rm, .mla c sf rd rn rs rm, .clz c f1 rd f2 rm,
        .mrs c sf f1 rd f2 f2],
      AllNext (RegFrame s sf [bankReg s.cpsr.mode rd]) (exec i s) := by
  have hop := fun f => regFrame_dataOp (c := c) (sf := sf) (rn := rn) (op := op) (s := s) hd (f := f)
  have hmove := fun f => regFrame_moveOp (c := c) (sf := sf) (sbz := f1) (op := op) (s := s) hd (f := f)
  simp only [List.forall_mem_cons, List.not_mem_nil, false_implies, implies_true, and_true, exec_and, execAnd, exec_eor,
    execEor, exec_sub, execSub, exec_rsb, execRsb, exec_add, execAdd, exec_adc, execAdc, exec_sbc, execSbc, exec_rsc,
    execRsc, exec_orr, execOrr, exec_bic, execBic, exec_mov, execMov, exec_mvn, execMvn, exec_mul, exec_mla, exec_clz,
    exec_mrs]
  exact ⟨hop _, hop _, hop _, hop _, hop _, hop _, hop _, hop _, hop _, hop _, hmove _, hmove _, regFrame_mul,
    regFrame_mla, regFrame_clz (f1 := f1) (f2 := f2), regFrame_mrs⟩

theorem regFrame_twoRegisters (c : Cond) (sf : Bool) (rdHi rdLo rs rm : RegNum) (s : State) :
    ∀ i ∈ [Instr.umull c sf rdHi rdLo rs rm, .umlal c sf rdHi rdLo rs rm, .smull c sf rdHi rdLo rs rm,
        .smlal c sf rdHi rdLo rs rm],
      AllNext (RegFrame s sf [bankReg s.cpsr.mode rdHi, bankReg s.cpsr.mode rdLo]) (exec i s) := by
  have hop := fun f =>
    regFrame_mulLongOp (c := c) (sf := sf) (rdHi := rdHi) (rdLo := rdLo) (rs := rs) (rm := rm) (s := s) (f := f)
  simp only [List.forall_mem_cons, List.not_mem_nil, false_implies, implies_true, and_true, exec_umull,
    execUmull, exec_umlal, execUmlal, exec_smull, execSmull, exec_smlal, execSmlal]
  exact ⟨hop _, hop _, hop _, hop _⟩

theorem regFrame_comparisons (c : Cond) (rn : RegNum) (f1 : BitVec 4) (op : Operand2) (s : State) :
    ∀ i ∈ [Instr.tst c rn f1 op, .teq c rn f1 op, .cmp c rn f1 op, .cmn c rn f1 op],
      AllNext (RegFrame s true []) (exec i s) := by
  have hop := fun f => regFrame_compareOp (c := c) (rn := rn) (sbz := f1) (op := op) (s := s) (f := f)
  simp only [List.forall_mem_cons, List.not_mem_nil, false_implies, implies_true, and_true, exec_tst, execTst,
    exec_teq, execTeq, exec_cmp, execCmp, exec_cmn, execCmn]
  exact ⟨hop _, hop _, hop _, hop _⟩

/-- Settles O25: each instruction's frame, with the second destination only for the long multiplies. -/
theorem registerInstructionsFrame : Obligations.RegisterInstructionsFrame := by
  intro c sf rn rd rs rm f1 f2 op s t hd
  have hone := regFrame_oneRegister c sf rn rs rm hd f1 f2 op s
  refine ⟨fun i hi ht => ?_, fun i hi ht => (hone i hi t ht).regs, fun i hi ht => ?_⟩
  · rcases List.mem_append.1 (show i ∈ [_, _, _, _, _, _, _, _, _, _, _, _, _, _, _, _] ++ [_, _, _, _] from hi) with
      h1 | h2
    · exact ((hone i h1 t ht).subset (by simp)).same
    · exact (regFrame_twoRegisters c sf rd rn rs rm s i h2 t ht).same
  · obtain ⟨hspsr, hmem, hin, hflags, -, hregs⟩ := (regFrame_comparisons c rn f1 op s i hi t ht).same
    exact ⟨hregs, hspsr, hmem, hin, hflags⟩

end Sys2Proof.Machine
end

section
/-!
Proofs of `StatusTransferRestrictions`, `RegisterBanks` and `ResetState`: what refuses a status register transfer
(spec/47_status_register_transfer.md R270, R272), the table of the banks (spec/10_state.md R22) and the values of R37.
-/

namespace Sys2Proof.Machine

/-! ## Refused outcomes -/

/-- The outcome is a refusal. -/
def Stops (o : Out) : Prop := ∃ e, o = .refused e

theorem stops_refused (e : Refusal) : Stops (.refused e) := ⟨e, rfl⟩

theorem stops_guarded {r : Option Refusal} {k : Out} (h : Stops k) : Stops (guarded r k) := by
  cases r with
  | none => exact h
  | some e => exact stops_refused e

/-- An instruction whose condition passes is refused if its rule is, whether or not R361 refuses it first. -/
theorem stops_conditional {c : Cond} {regs : List RegNum} {s : State} {body : State → Out}
    (hc : condHolds c s.cpsr = true) (h : Stops (body s.unmarked)) : Stops (conditional c regs s body) := by
  unfold conditional unconditional
  rw [if_pos hc]
  split
  · exact stops_refused _
  · exact h

/-! ## MSR (R272) -/

theorem stops_msr_of_unalloc {r : Bool} {mask : BitVec 4} {operand : Word} {s : State}
    (h : operand &&& unallocMask ≠ 0#32) : Stops (msr r mask operand s) := by
  unfold msr
  rw [if_pos (bne_iff_ne.2 h)]
  exact stops_refused _

/-- MSR is refused if its transfer is, whether or not the test on bits 27:8 refuses it first. -/
theorem stops_msr {r : Bool} {mask : BitVec 4} {operand : Word} {s : State}
    (h : Stops (if r then msrSpsr mask operand s else msrCpsr mask operand s)) : Stops (msr r mask operand s) := by
  unfold msr
  split
  · exact stops_refused _
  · exact h

theorem privileged_of_ne_usr {m : Mode} (h : m ≠ .usr) : m.privileged = true := bne_iff_ne.2 h

theorem stops_msrCpsr_of_t {mask : BitVec 4} {operand : Word} {s : State} (hm : s.cpsr.mode ≠ .usr)
    (ht : operand.getLsbD 5 = true) : Stops (msrCpsr mask operand s) := by
  have hne : operand &&& stateMask ≠ 0#32 := fun e => by
    have hb := congrArg (fun x => BitVec.getLsbD x 5) e
    simp only [BitVec.getLsbD_and, ht, show stateMask.getLsbD 5 = true from rfl] at hb
    cases hb
  unfold msrCpsr
  rw [if_pos (by rw [privileged_of_ne_usr hm, Bool.true_and]; exact bne_iff_ne.2 hne)]
  exact stops_refused _

/-- A merge takes a field from the new word where its mask has all of it. -/
theorem merge_field {mask : Word} {i l : Nat} (h : mask.extractLsb' i l = BitVec.allOnes l) (old new : Word) :
    (merge mask old new).extractLsb' i l = new.extractLsb' i l := by
  refine BitVec.eq_of_getLsbD_eq fun j hj => ?_
  have hm := congrArg (fun x => BitVec.getLsbD x j) h
  simp only [BitVec.getLsbD_extractLsb', BitVec.getLsbD_allOnes, hj, decide_true, Bool.true_and] at hm
  have hlt : i + j < 32 := BitVec.lt_of_getLsbD hm
  simp only [merge, BitVec.getLsbD_extractLsb', BitVec.getLsbD_or, BitVec.getLsbD_and, BitVec.getLsbD_not, hj, hlt, hm,
    decide_true, Bool.true_and, Bool.not_true, Bool.and_false, Bool.false_or, Bool.and_true]

/-- In a privileged mode a field mask with bit 0 selects the five mode bits (R271, R272). -/
theorem cpsrMask_modeBits {m : Mode} (hm : m ≠ .usr) {mask : BitVec 4} (h0 : mask.getLsbD 0 = true) :
    (cpsrMask m mask).extractLsb' 0 5 = BitVec.allOnes 5 := by
  have hall : ∀ mask : BitVec 4, mask.getLsbD 0 = true →
      (byteMask mask &&& (userMask ||| privMask)).extractLsb' 0 5 = BitVec.allOnes 5 := by decide
  unfold cpsrMask
  rw [if_pos (privileged_of_ne_usr hm)]
  exact hall mask h0

theorem stops_msrCpsr_of_mode {mask : BitVec 4} {operand : Word} {s : State} (hm : s.cpsr.mode ≠ .usr)
    (h0 : mask.getLsbD 0 = true) (hb : Mode.ofBits (operand.extractLsb' 0 5) = none) :
    Stops (msrCpsr mask operand s) := by
  have hw : Psr.ofWord? (merge (cpsrMask s.cpsr.mode mask) s.cpsr.toWord operand) = none := by
    rw [ofWord?_eq_none, merge_field (cpsrMask_modeBits hm h0)]
    exact hb
  unfold msrCpsr
  split
  · exact stops_refused _
  · rw [hw]
    exact stops_refused _

theorem spsr?_eq_none {m : Mode} (h : m = .usr ∨ m = .sys) : m.spsr? = none := by
  rcases h with rfl | rfl <;> rfl

theorem stops_msrSpsr {mask : BitVec 4} {operand : Word} {s : State} (h : s.cpsr.mode = .usr ∨ s.cpsr.mode = .sys) :
    Stops (msrSpsr mask operand s) := by
  unfold msrSpsr
  rw [spsr?_eq_none h]
  exact stops_refused _

/-- The four restrictions of R272 on an instruction `i` that is refused wherever `msr` with its operand is. -/
theorem msr_restrictions {i : Bool → Instr} {mask : BitVec 4} {operand : Word} {s : State}
    (h : ∀ r, Stops (msr r mask operand s.unmarked) → Stops (exec (i r) s)) (r : Bool) :
    (operand &&& 0x0FFFFF00#32 ≠ 0#32 → Stops (exec (i r) s)) ∧
      (s.cpsr.mode ≠ .usr → operand.getLsbD 5 = true → Stops (exec (i false) s)) ∧
      (s.cpsr.mode ≠ .usr → mask.getLsbD 0 = true → Mode.ofBits (operand.extractLsb' 0 5) = none →
        Stops (exec (i false) s)) ∧
      (s.cpsr.mode = .usr ∨ s.cpsr.mode = .sys → Stops (exec (i true) s)) :=
  ⟨fun hu => h r (stops_msr_of_unalloc hu),
    fun hm ht => h false (stops_msr (stops_msrCpsr_of_t (s := s.unmarked) hm ht)),
    fun hm h0 hb => h false (stops_msr (stops_msrCpsr_of_mode (s := s.unmarked) hm h0 hb)),
    fun hm => h true (stops_msr (stops_msrSpsr (s := s.unmarked) hm))⟩

/-! ## The obligations -/

/-- Settles O49: r15 by the check of each instruction, and both forms of MSR by `msr_restrictions`. -/
theorem statusTransferRestrictions : Obligations.StatusTransferRestrictions := by
  intro c r mask rotate imm8 rm s hc stops
  refine ⟨stops_conditional hc (stops_guarded (stops_refused _)),
    stops_conditional hc (stops_guarded (stops_refused _)), ?_⟩
  simp only [List.forall_mem_cons, List.not_mem_nil, false_implies, implies_true, and_true]
  exact ⟨msr_restrictions (i := fun r => .msrReg c r mask 15#4 0#4 rm)
      (fun _ h => stops_conditional hc (stops_guarded (stops_guarded h))) r,
    msr_restrictions (i := fun r => .msrImm c r mask 15#4 rotate imm8)
      (fun _ h => stops_conditional hc (stops_guarded h)) r⟩

/-- Settles O7: the table of R22, mode by mode. -/
theorem registerBanks : Obligations.RegisterBanks := by
  refine ⟨bankReg_eq_none, fun m => rfl, fun m hm => ?_, rfl, rfl, rfl⟩
  cases m with
  | fiq => exact absurd rfl hm
  | usr | irq | svc | abt | und | sys => rfl

/-- Settles O54: the fields of `State.reset`. -/
theorem resetState : Obligations.ResetState := ⟨rfl, rfl, rfl, rfl, rfl, rfl⟩

end Sys2Proof.Machine
end

section
/-!
Proofs of `TransferAddresses`, `LoadWordResults`, `LoadByteHalfResults`, `StoreByteHalfResults` and `SwapResults`: the
single transfers and the swaps that no rule refuses, run to the end (spec/20_memory.md R60 to R67,
spec/45_single_data_transfer.md R221 to R238, spec/46_multiple_transfer_swap.md R250, R260, R261).
-/

namespace Sys2Proof.Machine

/-! ## Addresses (R221 to R223, R234, R250) -/

/-- Settles O28: the tables by definition, the immediates as numbers, and the order and the members of a list by
`blockRegs_rising` and `mem_blockRegs`. -/
theorem transferAddresses : Obligations.TransferAddresses := by
  have himm : ∀ {n : Nat}, n ≤ 32 → ∀ x : BitVec n, (x.setWidth 32).toNat = x.toNat := fun hn _ =>
    BitVec.toNat_setWidth_of_le hn
  refine ⟨fun up rn rm imm12 off s => ⟨rfl, rfl, rfl, himm (by decide) imm12, fun k n => rfl⟩,
    fun u w rn rm sbz imm8 off s => ⟨?_, rfl, himm (by decide) imm8, rfl⟩, fun list base n =>
      ⟨blockRegs_rising list, fun _ => mem_blockRegs, rfl, rfl, rfl, rfl, rfl, rfl, fun p u rn s k => rfl⟩⟩
  cases w <;> rfl

/-! ## The rules in the state without the mark of R361 -/

@[simp] theorem halfAddress_unmarked (p u w : Bool) (rn : RegNum) (off : HalfOffset) (s : State) :
    halfAddress p u w rn off s.unmarked = halfAddress p u w rn off s := by
  cases off <;> rfl

theorem updateBase_unmarked (a : Address) (rn : RegNum) (s : State) :
    updateBase a rn s.unmarked = (updateBase a rn s).unmarked := by
  unfold updateBase
  rw [writeX_unmarked]
  split <;> rfl

/-- A half-word or signed-byte transfer that runs and that no check refuses is its move (R234). -/
theorem halfTransfer_of_runs {c : Cond} {p u w : Bool} {rn rd : RegNum} {off : HalfOffset} {s : State}
    (hr : Runs c (rn :: rd :: halfOffsetRegs off) s) (hf : off.fixedFields = true) (hpw : p = true ∨ w = false)
    (hd : rd ≠ pcNum) (hok : TransferOk (halfAddress p u w rn off s).writeBack rn rd (halfOffsetRegs off))
    (move : RegNum → RegNum → Address → State → Out) :
    halfTransfer move c p u w rn rd off s = move rn rd (halfAddress p u w rn off s) s.unmarked := by
  have hpost : (!p && w) = false := by rcases hpw with rfl | rfl <;> simp
  unfold halfTransfer
  rw [conditional_of_runs hr, halfAddress_unmarked]
  dsimp only
  rw [failIf_eq_none.2 (by rw [hf]; rfl), failIf_eq_none.2 hpost, transferCheckNoPc_eq_none.2 ⟨hd, hok⟩]
  rfl

/-! ## Loads -/

/-- The word that a load takes from an address, aligned or not, is the aligned word rotated right (R62). -/
theorem readRotated_of_readWord {s : State} {ea w : Word} (h : readWord s (wordAligned ea) = .ok w) :
    readRotated s ea = .ok (w.rotateRight (8 * (ea.toNat % 4))) := by
  simp [readRotated, h, Access.bind, BitVec.extractLsb'_toNat]

section
variable {rn rd : RegNum} {offs : List RegNum} {a : Address} {s : State} (hn : HasNext s) (hd : rd ≠ pcNum)
  (hok : TransferOk a.writeBack rn rd offs)
include hn hd hok

/-- The end of a load to a register other than r15: the value, the base update and the next pc (R223, R225). -/
theorem load_ends (v : Word) :
    advance (updateBase a rn (writeX s.unmarked rd v)) =
      .next { updateBase a rn (writeX s rd v) with pc := s.pc + 4, afterUserBank := false } := by
  have hpc : (updateBase a rn (writeX s rd v)).pc = s.pc := by rw [updateBase_pc hok, writeX_pc_ne s v hd]
  rw [writeX_unmarked, updateBase_unmarked, ← hpc]
  exact advance_of_hasNext (by rw [HasNext, ← hpc] at hn; exact hn)

theorem loadWordTo_completes (hw : WordOk s a.ea) {w : Word} (hv : readWord s (wordAligned a.ea) = .ok w) :
    loadWordTo rn rd a s.unmarked =
      .next { updateBase a rn (writeX s rd (w.rotateRight (8 * (a.ea.toNat % 4)))) with
        pc := s.pc + 4, afterUserBank := false } := by
  unfold loadWordTo
  rw [wordAccess_of_ok (s := s.unmarked) hw, if_neg fun e => hd e.1, readRotated_of_readWord (s := s.unmarked) hv]
  simp only [if_neg hd]
  exact load_ends hn hd hok _

theorem loadByteTo_completes {b : Byte} (hv : readByte s a.ea = .ok b) :
    loadByteTo rn rd a s.unmarked =
      .next { updateBase a rn (writeX s rd (b.setWidth 32)) with pc := s.pc + 4, afterUserBank := false } := by
  have hv' : readByte s.unmarked a.ea = .ok b := hv
  unfold loadByteTo
  rw [hv']
  exact load_ends hn hd hok _

theorem loadSignedByteTo_completes {b : Byte} (hv : readByte s a.ea = .ok b) :
    loadSignedByteTo rn rd a s.unmarked =
      .next { updateBase a rn (writeX s rd (b.signExtend 32)) with pc := s.pc + 4, afterUserBank := false } := by
  have hv' : readByte s.unmarked a.ea = .ok b := hv
  unfold loadSignedByteTo
  rw [hv']
  exact load_ends hn hd hok _

theorem loadHalfTo_completes (ext : BitVec 16 → Word) (he : a.ea.getLsbD 0 = false) {h : BitVec 16}
    (hv : readHalf s a.ea = .ok h) :
    loadHalfTo ext rn rd a s.unmarked =
      .next { updateBase a rn (writeX s rd (ext h)) with pc := s.pc + 4, afterUserBank := false } := by
  have hv' : readHalf s.unmarked a.ea = .ok h := hv
  unfold loadHalfTo halfAccess
  rw [if_pos he, hv']
  exact load_ends hn hd hok _

end

/-- Settles O29: the frame of a word transfer, then `loadWordTo_completes`. -/
theorem loadWordResults : Obligations.LoadWordResults := by
  intro c ix up rn rd off s w hr hn hd
  refine ⟨fun hok hw hv => ?_, fun hok hw hv => ?_⟩
  · rw [exec_ldr, execLdr, wordTransfer_of_runs hr (transferCheck_eq_none.2 hok)]
    exact loadWordTo_completes hn hd hok hw hv
  · rw [exec_ldrt, execLdrt, wordTransfer_of_runs hr (transferCheckNoPc_eq_none.2 ⟨hd, hok⟩)]
    exact loadWordTo_completes hn hd hok hw hv

/-- Settles O31: the frame of the transfer, then the move of each load. -/
theorem loadByteHalfResults : Obligations.LoadByteHalfResults := by
  intro c ix p u w rn rd wo ho s b h hn hd
  refine ⟨fun hv hr hok => ?_, fun hv hr hok => ?_, fun hf hpw hv hr hok => ?_,
    fun hf hpw he hv => ⟨fun hr hok => ?_, fun hr hok => ?_⟩⟩
  · rw [exec_ldrb, execLdrb, wordTransfer_of_runs hr (transferCheckNoPc_eq_none.2 ⟨hd, hok⟩)]
    exact loadByteTo_completes hn hd hok hv
  · rw [exec_ldrbt, execLdrbt, wordTransfer_of_runs hr (transferCheckNoPc_eq_none.2 ⟨hd, hok⟩)]
    exact loadByteTo_completes hn hd hok hv
  · rw [exec_ldrsb, execLdrsb, halfTransfer_of_runs hr hf hpw hd hok]
    exact loadSignedByteTo_completes hn hd hok hv
  · rw [exec_ldrh, execLdrh, halfTransfer_of_runs hr hf hpw hd hok]
    exact loadHalfTo_completes hn hd hok _ he hv
  · rw [exec_ldrsh, execLdrsh, halfTransfer_of_runs hr hf hpw hd hok]
    exact loadHalfTo_completes hn hd hok _ he hv

/-! ## Stores of a byte and of a half-word -/

/-- A half-word store to mapped bytes completes (R70). -/
theorem exists_writeHalf {s : State} {a : Word} (h : mappedRange s.platform a.toNat 2 = true) (v : BitVec 16) :
    ∃ t, writeHalf s a v = some t := Option.isSome_iff_exists.1 ((writeHalf_isSome s a v).trans h)

/-- A byte store to a mapped byte completes (R70). -/
theorem exists_writeByte {s : State} {a : Word} (h : mappedRange s.platform a.toNat 1 = true) (v : Byte) :
    ∃ t, writeByte s a v = some t := Option.isSome_iff_exists.1 ((writeByte_isSome s a v).trans h)

theorem writeHalf_read_inside {s t : State} {a : Word} {v : BitVec 16} (h : writeHalf s a v = some t) {k : Nat}
    (hk : k < 2) : Memory.read t.mem (a.toNat + k) = some (byteOfHalf s.platform.bigEndian v k) := by
  rw [writeHalf_read h, if_pos ⟨by omega, by omega⟩, Nat.add_sub_cancel_left]

theorem writeHalf_read_outside {s t : State} {a : Word} {v : BitVec 16} (h : writeHalf s a v = some t) {x : Nat}
    (hx : Outside a.toNat 2 x) : Memory.read t.mem x = Memory.read s.mem x := by
  unfold Outside at hx
  rw [writeHalf_read h, if_neg (by omega)]

theorem writeByte_read_outside {s t : State} {a : Word} {v : Byte} (h : writeByte s a v = some t) {x : Nat}
    (hx : Outside a.toNat 1 x) : Memory.read t.mem x = Memory.read s.mem x := by
  unfold Outside at hx
  rw [writeByte_read h, if_neg (by omega)]

/-- The bytes of the low half of a word, in either order (R60). -/
theorem byteOfHalf_low (big : Bool) (v : Word) :
    byteOfHalf big (v.extractLsb' 0 16) 0 = (if big then v.extractLsb' 8 8 else v.extractLsb' 0 8) ∧
      byteOfHalf big (v.extractLsb' 0 16) 1 = (if big then v.extractLsb' 0 8 else v.extractLsb' 8 8) := by
  have hlow : (v.extractLsb' 0 16).extractLsb' 0 8 = v.extractLsb' 0 8 := by
    rw [BitVec.extractLsb'_extractLsb'_of_le (by decide)]
  have hhigh : (v.extractLsb' 0 16).extractLsb' 8 8 = v.extractLsb' 8 8 := by
    rw [BitVec.extractLsb'_extractLsb'_of_le (by decide)]
  cases big
  · exact ⟨hlow, hhigh⟩
  · exact ⟨hhigh, hlow⟩

/-- What a store of `n` bytes and the update of its base leave of the state `s`, the bytes stored apart (R223, R229). -/
def StoredFrame (s : State) (rn : RegNum) (a : Address) (n : Nat) (t : State) : Prop :=
  (∀ x, Outside a.ea.toNat n x → Memory.read t.mem x = Memory.read s.mem x) ∧
    (∀ q, t.reg q = if a.writeBack = true ∧ bankReg s.cpsr.mode rn = some q then a.index else s.reg q) ∧
    t.pc = s.pc + 4 ∧ t.cpsr = s.cpsr ∧ SameSpsrs s t ∧ SameInputs s t

section
variable {rn : RegNum} {a : Address} {s : State} (hn : HasNext s) (hr : a.writeBack = true → rn ≠ pcNum)
include hn hr

/-- A byte store that is made completes (R229). -/
theorem storeByteFrom_completes (hm : mappedRange s.platform a.ea.toNat 1 = true) (rd : RegNum) :
    ∃ t, storeByteFrom rn rd a s.unmarked = .next t ∧
      Memory.read t.mem a.ea.toNat = some ((readX s rd).extractLsb' 0 8) ∧
      StoredFrame s rn a 1 t := by
  obtain ⟨s', hs'⟩ := exists_writeByte (s := s.unmarked) hm ((readX s rd).extractLsb' 0 8)
  obtain ⟨t, ht, hmem, hreg, -, hrest⟩ := store_ends (s := s.unmarked) (writeByte_only hs') hn hr a.index
  refine ⟨t, ?_, ?_, fun x hx => ?_, hreg, hrest⟩
  · unfold storeByteFrom
    rw [readX_unmarked, hs']
    exact ht
  · rw [hmem, writeByte_read hs', if_pos rfl]
  · rw [hmem]
    exact writeByte_read_outside hs' hx

/-- A half-word store that is made completes (R64, R236). -/
theorem storeHalfFrom_completes (he : a.ea.getLsbD 0 = false) (hm : mappedRange s.platform a.ea.toNat 2 = true)
    (rd : RegNum) :
    ∃ t, storeHalfFrom rn rd a s.unmarked = .next t ∧
      (∀ k < 2, Memory.read t.mem (a.ea.toNat + k) =
        some (byteOfHalf s.platform.bigEndian ((readX s rd).extractLsb' 0 16) k)) ∧
      StoredFrame s rn a 2 t := by
  obtain ⟨s', hs'⟩ := exists_writeHalf (s := s.unmarked) hm ((readX s rd).extractLsb' 0 16)
  obtain ⟨t, ht, hmem, hreg, -, hrest⟩ := store_ends (s := s.unmarked) (writeHalf_only hs') hn hr a.index
  refine ⟨t, ?_, fun k hk => ?_, fun x hx => ?_, hreg, hrest⟩
  · unfold storeHalfFrom halfAccess
    rw [if_pos he, readX_unmarked, hs']
    exact ht
  · rw [hmem]
    exact writeHalf_read_inside hs' hk
  · rw [hmem]
    exact writeHalf_read_outside hs' hx

end

/-- Settles O33: the frame of the transfer, then the move of each store. -/
theorem storeByteHalfResults : Obligations.StoreByteHalfResults := by
  intro c ix p u w rn rd wo ho s hn hd
  refine ⟨fun hr hok hm => ?_, fun hr hok hm => ?_, fun hf hpw he hr hok hm => ?_⟩
  · rw [exec_strb, execStrb, wordTransfer_of_runs hr (transferCheckNoPc_eq_none.2 ⟨hd, hok⟩)]
    exact storeByteFrom_completes hn (fun h => (hok.2 h).1) hm rd
  · rw [exec_strbt, execStrbt, wordTransfer_of_runs hr (transferCheckNoPc_eq_none.2 ⟨hd, hok⟩)]
    exact storeByteFrom_completes hn (fun h => (hok.2 h).1) hm rd
  · rw [exec_strh, execStrh, halfTransfer_of_runs hr hf hpw hd hok]
    obtain ⟨t, ht, hbytes, hrest⟩ := storeHalfFrom_completes hn (fun h => (hok.2 h).1) he hm rd
    obtain ⟨h0, h1⟩ := byteOfHalf_low s.platform.bigEndian (readX s rd)
    exact ⟨t, ht, ⟨(hbytes 0 (by decide)).trans (congrArg some h0), (hbytes 1 (by decide)).trans (congrArg some h1)⟩,
      hrest⟩

/-! ## Swaps (R260, R261) -/

/-- The restrictions of the swaps are those of R260. -/
theorem swapCheck_eq_none {rn rd rm : RegNum} {sbz : BitVec 4} :
    swapCheck rn rd sbz rm = none ↔ sbz = 0#4 ∧ pcNum ∉ [rn, rd, rm] ∧ rn ≠ rm ∧ rn ≠ rd := by
  unfold swapCheck
  by_cases hz : sbz = 0#4
  · by_cases hp : pcNum ∈ [rn, rd, rm]
    · simp [hz, hp]
    · simp [hz, hp]
  · simp [hz]

/-- The end of a swap: Rd takes the old value, and the memory is that of the store. -/
theorem swap_ends {s s' : State} (hs : StoresOnly s s') (hn : HasNext s) {rd : RegNum} (hd : rd ≠ pcNum) (v : Word) :
    ∃ t, advance (writeX s' rd v) = .next t ∧ t.mem = s'.mem ∧
      (∀ q, t.reg q = if bankReg s.cpsr.mode rd = some q then v else s.reg q) ∧
      t.pc = s.pc + 4 ∧ t.cpsr = s.cpsr ∧ SameSpsrs s t ∧ SameInputs s t := by
  obtain ⟨t, ht, hmem, hreg, -, hrest⟩ := store_ends (w := true) hs hn (fun _ => hd) v
  exact ⟨t, ht, hmem, by simpa using hreg, hrest⟩

/-- The byte that is read is mapped (R70). -/
theorem mapped_of_readByte {s : State} {a : Word} {b : Byte} (h : readByte s a = .ok b) :
    mappedRange s.platform a.toNat 1 = true := by
  unfold readByte ifMapped at h
  split at h
  · assumption
  · cases h

section
variable {c : Cond} {rn rd rm : RegNum} {s : State} (hr : Runs c [rn, rd, rm] s) (hck : swapCheck rn rd 0#4 rm = none)
include hr hck

/-- SWP that no rule refuses is its load and its store (R260). -/
theorem execSwp_of_runs :
    execSwp c rn rd 0#4 rm s =
      wordAccess s.unmarked (readX s rn) (withLoad s.unmarked (readRotated s.unmarked (readX s rn)) fun old =>
        withStore s.unmarked (writeWord s.unmarked (wordAligned (readX s rn)) (readX s rm)) fun s' =>
          advance (writeX s' rd old)) := by
  rw [execSwp, conditional_of_runs hr, hck, guarded_none]
  rfl

/-- SWPB that no rule refuses is its load and its store (R261). -/
theorem execSwpb_of_runs :
    execSwpb c rn rd 0#4 rm s =
      withLoad s.unmarked (readByte s.unmarked (readX s rn)) fun old =>
        withStore s.unmarked (writeByte s.unmarked (readX s rn) ((readX s rm).extractLsb' 0 8)) fun s' =>
          advance (writeX s' rd (old.setWidth 32)) := by
  rw [execSwpb, conditional_of_runs hr, hck, guarded_none]
  rfl

end

/-- Settles O45: the old value by the load, the new one by the store, the rest by `swap_ends`. -/
theorem swapResults : Obligations.SwapResults := by
  intro c rn rd rm s w b hr hn hp hm hd addr
  have hck : swapCheck rn rd 0#4 rm = none := swapCheck_eq_none.2 ⟨rfl, hp, hm, hd⟩
  have hrd := ne_pcNum_of_swapCheck hck
  refine ⟨fun hw hv => ?_, fun hv => ?_⟩
  · obtain ⟨hmap, -⟩ := readWord_ok.1 hv
    obtain ⟨s', hs'⟩ := exists_writeWord (s := s.unmarked) hmap (readX s rm)
    have ho := writeWord_only hs'
    obtain ⟨t, ht, hmem, hreg, hpc, hcpsr, hspsr, hin⟩ := swap_ends ho hn hrd (w.rotateRight (8 * (addr.toNat % 4)))
    have hword : readWord t (wordAligned addr) = .ok (readX s rm) := by
      rw [readWord_congr hmem (hin.2.trans ho.platform.symm), readWord_writeWord hs']
    refine ⟨t, ?_, hword, fun x hx => ?_, hreg, hpc, hcpsr, hspsr, hin⟩
    · rw [exec_swp, execSwp_of_runs hr hck, wordAccess_of_ok (s := s.unmarked) hw,
        readRotated_of_readWord (s := s.unmarked) hv, hs']
      exact ht
    · rw [hmem]
      exact writeWord_read_outside hs' hx
  · obtain ⟨s', hs'⟩ := exists_writeByte (s := s.unmarked) (mapped_of_readByte hv) ((readX s rm).extractLsb' 0 8)
    obtain ⟨t, ht, hmem, hrest⟩ := swap_ends (writeByte_only hs') hn hrd (b.setWidth 32)
    have hbyte : Memory.read t.mem addr.toNat = some ((readX s rm).extractLsb' 0 8) := by
      rw [hmem, writeByte_read hs', if_pos rfl]
    have hv' : readByte s.unmarked (readX s rn) = .ok b := hv
    refine ⟨t, ?_, hbyte, fun x hx => ?_, hrest⟩
    · rw [exec_swpb, execSwpb_of_runs hr hck, hv', hs']
      exact ht
    · rw [hmem]
      exact writeByte_read_outside hs' hx

end Sys2Proof.Machine
end

section
/-!
Proofs of `TransferRestrictions` and `BlockRestrictions`: each check of a transfer in the terms of Safety.lean, and what
refuses it (spec/20_memory.md R62 to R65, R77, spec/45_single_data_transfer.md R224, R230 to R234,
spec/46_multiple_transfer_swap.md R251 to R255, R260, R261).
-/

namespace Sys2Proof.Machine

/-! ## Refused rules -/

/-- A check refuses, or it passes and what follows is refused. -/
theorem stops_guarded_of {r : Option Refusal} {k : Out} (h : r = none → Stops k) : Stops (guarded r k) := by
  cases r with
  | none => exact h rfl
  | some e => exact stops_refused e

/-- A word access at `ea` is refused (R62, R63, log 22). -/
def WordRefused (s : State) (ea : Word) : Prop := ea.extractLsb' 0 2 ≠ 0#2 ∧ s.platform.unaligned = .refuse

theorem stops_wordAccess {s : State} {ea : Word} {k : Out} (h : WordRefused s ea) : Stops (wordAccess s ea k) := by
  obtain ⟨hea, hu⟩ := h
  unfold wordAccess
  rw [if_neg hea, hu]
  exact stops_refused _

/-- A half-word access at an odd address is refused unless it aborts (R64). -/
theorem stops_halfAccess {s : State} {ea : Word} {k : Out} (he : ea.getLsbD 0 = true)
    (hu : s.platform.unaligned ≠ .abort) : Stops (halfAccess s ea k) := by
  unfold halfAccess
  rw [if_neg (by simp [he])]
  cases h : s.platform.unaligned with
  | abort => exact absurd h hu
  | rotate | refuse => exact stops_refused _

/-! ## Single transfers and swaps -/

section
variable {c : Cond} {rn rd : RegNum} {s : State} (hc : condHolds c s.cpsr = true)
include hc

/-- A word or byte transfer is refused if its move is wherever its check passes (R224). -/
theorem stops_wordTransfer {check : Bool → RegNum → RegNum → List RegNum → Option Refusal}
    {move : RegNum → RegNum → Address → State → Out} {ix : Index} {up : Bool} {off : WordOffset}
    (h : check (wordAddress ix up rn off s).writeBack rn rd (wordOffsetRegs off) = none →
      Stops (move rn rd (wordAddress ix up rn off s) s.unmarked)) :
    Stops (wordTransfer check move c ix up rn rd off s) :=
  stops_conditional hc <| stops_guarded_of fun hck => by
    rw [wordAddress_unmarked] at hck ⊢
    exact h hck

/-- A half-word or signed-byte transfer is refused if its move is wherever its checks pass (R234). -/
theorem stops_halfTransfer {move : RegNum → RegNum → Address → State → Out} {p u w : Bool} {off : HalfOffset}
    (h : (p = false → w = false) → rd ≠ pcNum → TransferOk (!p || w) rn rd (halfOffsetRegs off) →
      Stops (move rn rd (halfAddress p u w rn off s) s.unmarked)) :
    Stops (halfTransfer move c p u w rn rd off s) :=
  stops_conditional hc <| stops_guarded_of fun _ => stops_guarded_of fun hpost => stops_guarded_of fun hck => by
    obtain ⟨hd, hok⟩ := transferCheckNoPc_eq_none.1 hck
    rw [halfAddress_unmarked]
    exact h (by simpa using hpost) hd hok

/-- A swap whose registers R260 forbids is refused. -/
theorem stops_swap {rm : RegNum} {sbz : BitVec 4} (h : pcNum ∈ [rn, rd, rm] ∨ rn = rm ∨ rn = rd ∨ sbz ≠ 0#4) :
    Stops (execSwp c rn rd sbz rm s) ∧ Stops (execSwpb c rn rd sbz rm s) := by
  have hck : swapCheck rn rd sbz rm ≠ none := fun e => by
    obtain ⟨hz, hp, hm, hd⟩ := swapCheck_eq_none.1 e
    rcases h with h | h | h | h
    · exact hp h
    · exact hm h
    · exact hd h
    · exact h hz
  exact ⟨stops_conditional hc <| stops_guarded_of fun e => absurd e hck,
    stops_conditional hc <| stops_guarded_of fun e => absurd e hck⟩

end

/-- Settles O34: a misaligned access by the move of the transfer, a forbidden register by its check. -/
theorem transferRestrictions : Obligations.TransferRestrictions := by
  intro c ix p u w rn rd rm sbz wo ho s hc wordRefused
  simp only [List.forall_mem_cons, List.not_mem_nil, false_implies, implies_true, and_true]
  refine ⟨fun h => ⟨?_, ?_⟩, fun h => ⟨?_, ?_, ?_⟩, fun he hu => ⟨?_, ?_, ?_⟩, stops_swap hc, fun h => ?_, fun h => ?_,
    fun h => ?_, fun h => ?_⟩
  · exact stops_wordTransfer hc fun _ => stops_wordAccess h
  · exact stops_wordTransfer hc fun _ => stops_wordAccess h
  · exact stops_wordTransfer hc fun _ => stops_wordAccess h
  · exact stops_wordTransfer hc fun _ => stops_wordAccess h
  · exact stops_conditional hc <| stops_guarded <| stops_wordAccess h
  · exact stops_halfTransfer hc fun _ _ _ => stops_halfAccess he hu
  · exact stops_halfTransfer hc fun _ _ _ => stops_halfAccess he hu
  · exact stops_halfTransfer hc fun _ _ _ => stops_halfAccess he hu
  · have hno := fun move => stops_wordTransfer (move := move) hc fun hck => absurd (transferCheck_eq_none.1 hck) h
    exact ⟨hno _, hno _⟩
  · have hno := fun move => stops_wordTransfer (move := move) hc fun hck =>
      (transferCheckNoPc_eq_none.1 hck).elim fun hd hok => absurd hok (h.resolve_left hd)
    exact ⟨hno _, hno _⟩
  · have hno := fun move => stops_wordTransfer (move := move) (ix := .post) (up := u) hc fun hck =>
      (transferCheckNoPc_eq_none.1 hck).elim fun hd hok => absurd hok (h.resolve_left hd)
    exact ⟨hno _, hno _, hno _, hno _⟩
  · have hno := fun move => stops_halfTransfer (move := move) (u := u) hc fun hpw hd hok =>
      absurd hok ((h.resolve_left hd).resolve_left fun ⟨hp, hw⟩ => by simp [hpw hp] at hw)
    exact ⟨hno _, hno _, hno _, hno _⟩

/-! ## The checks of the multiple transfers -/

/-- The shared restrictions of the multiple transfers are those of R255. -/
theorem blockCheck_eq_none {p u : Bool} {rn : RegNum} {list : BitVec 16} {s : State} :
    blockCheck rn list (blockStart p u (readX s rn) (blockRegs list).length) = none ↔ BlockOk p u rn list s := by
  unfold blockCheck BlockOk
  by_cases hl : list = 0#16
  · simp [hl]
  · by_cases hr : rn = pcNum <;> simp [hl, hr]

/-- With write-back a multiple load does not have its base in the list (R252, R255). -/
theorem loadBaseCheck_eq_none {w : Bool} {rn : RegNum} {list : BitVec 16} :
    failIf (w && (blockRegs list).contains rn) .baseInList = none ↔ (w = true → list.getLsbD rn.toNat = false) := by
  rw [failIf_eq_none, Bool.and_eq_false_imp, ← Bool.not_eq_true, ← Bool.not_eq_true, List.contains_iff_mem,
    mem_blockRegs]

/-- With write-back a multiple store has its base in the list only as the lowest register (R251, R255). -/
theorem storeBaseCheck_eq_none {w : Bool} {rn : RegNum} {list : BitVec 16} :
    failIf (w && (blockRegs list).contains rn && (blockRegs list).head? != some rn) .baseInList = none ↔
      (w = true → list.getLsbD rn.toNat = true → (blockRegs list).head? = some rn) := by
  rw [failIf_eq_none, Bool.and_eq_false_imp, Bool.and_eq_true, List.contains_iff_mem, mem_blockRegs, and_imp,
    bne_eq_false_iff_eq]

/-- The User-bank forms have no write-back and are not for User and System mode (R254). -/
theorem userFormCheck_eq_none {m : Mode} {w : Bool} :
    userFormCheck m w = none ↔ w = false ∧ m ≠ .usr ∧ m ≠ .sys := by
  rw [userFormCheck, failIf_eq_none]
  cases w <;> cases m <;> decide

/-- A number above another of the list is not the list's lowest (R250). -/
theorem head_ne_of_lower {list : BitVec 16} {rn : RegNum} {j : Nat} (hj : j < rn.toNat) (hl : list.getLsbD j = true) :
    (blockRegs list).head? ≠ some rn := by
  have hrn := rn.isLt
  have hj' : (BitVec.ofNat 4 j).toNat = j := by rw [BitVec.toNat_ofNat]; omega
  have hmem : BitVec.ofNat 4 j ∈ blockRegs list := mem_blockRegs.2 (by rwa [hj'])
  have hrise := blockRegs_rising list
  intro hhead
  obtain ⟨rest, e⟩ := List.head?_eq_some_iff.1 hhead
  rw [e] at hmem hrise
  rcases List.mem_cons.1 hmem with h | h
  · rw [← h, hj'] at hj
    exact Nat.lt_irrefl _ hj
  · have := List.rel_of_pairwise_cons hrise h
    omega

/-! ## The multiple transfers -/

section
variable {c : Cond} {p u w : Bool} {rn : RegNum} {s : State} (hc : condHolds c s.cpsr = true)
include hc

theorem stops_ldm {list : BitVec 16}
    (h : BlockOk p u rn list s → (w = true → list.getLsbD rn.toNat = false) → WordRefused s (readX s rn)) :
    Stops (execLdm c p u w rn list s) :=
  stops_conditional hc <| stops_guarded_of fun hb => stops_guarded_of fun hw =>
    stops_wordAccess (h (blockCheck_eq_none.1 hb) (loadBaseCheck_eq_none.1 hw))

theorem stops_ldmUser {list : BitVec 15}
    (h : BlockOk p u rn (0#1 ++ list) s → w = false ∧ s.cpsr.mode ≠ .usr ∧ s.cpsr.mode ≠ .sys →
      WordRefused s (readX s rn)) : Stops (execLdmUser c p u w rn list s) :=
  stops_conditional hc <| stops_guarded_of fun hb => stops_guarded_of fun hf =>
    stops_wordAccess (h (blockCheck_eq_none.1 hb) (userFormCheck_eq_none.1 hf))

theorem stops_ldmRestore {list : BitVec 15}
    (h : BlockOk p u rn (1#1 ++ list) s → s.cpsr.mode.spsr?.isNone = false →
      (w = true → (1#1 ++ list : BitVec 16).getLsbD rn.toNat = false) → WordRefused s (readX s rn)) :
    Stops (execLdmRestore c p u w rn list s) :=
  stops_conditional hc <| stops_guarded_of fun hb => stops_guarded_of fun hq => stops_guarded_of fun hw =>
    stops_wordAccess (h (blockCheck_eq_none.1 hb) (failIf_eq_none.1 hq) (loadBaseCheck_eq_none.1 hw))

theorem stops_stm {list : BitVec 16}
    (h : BlockOk p u rn list s → (w = true → list.getLsbD rn.toNat = true → (blockRegs list).head? = some rn) →
      WordRefused s (readX s rn)) : Stops (execStm c p u w rn list s) :=
  stops_conditional hc <| stops_guarded_of fun hb => stops_guarded_of fun hw =>
    stops_wordAccess (h (blockCheck_eq_none.1 hb) (storeBaseCheck_eq_none.1 hw))

theorem stops_stmUser {list : BitVec 16}
    (h : BlockOk p u rn list s → w = false ∧ s.cpsr.mode ≠ .usr ∧ s.cpsr.mode ≠ .sys → WordRefused s (readX s rn)) :
    Stops (execStmUser c p u w rn list s) :=
  stops_conditional hc <| stops_guarded_of fun hb => stops_guarded_of fun hf =>
    stops_wordAccess (h (blockCheck_eq_none.1 hb) (userFormCheck_eq_none.1 hf))

end

/-- Settles O43: each clause contradicts one of the checks, the last is what remains when all pass. -/
theorem blockRestrictions : Obligations.BlockRestrictions := by
  intro c p u w rn list l15 s hc
  simp only [List.forall_mem_cons, List.not_mem_nil, false_implies, implies_true, and_true]
  refine ⟨fun h => ⟨?_, ?_, ?_⟩, fun h => ?_, fun h => ?_, fun h => ?_, fun h => ?_, fun h => ?_, fun h => ?_,
    fun h => ?_, fun ha hu => ?_⟩
  · exact stops_ldm hc fun hb => absurd hb h
  · exact stops_stm hc fun hb => absurd hb h
  · exact stops_stmUser hc fun hb => absurd hb h
  · exact stops_ldmUser hc fun hb => absurd hb h
  · exact stops_ldmRestore hc fun hb => absurd hb h
  · exact stops_ldm hc fun _ hw => absurd (h.symm.trans (hw rfl)) (by decide)
  · exact stops_ldmRestore hc fun _ _ hw => absurd (h.symm.trans (hw rfl)) (by decide)
  · rintro ⟨j, hj, hl⟩
    exact stops_stm hc fun _ hw => absurd (hw rfl h) (head_ne_of_lower hj hl)
  · have hno : ¬(w = false ∧ s.cpsr.mode ≠ .usr ∧ s.cpsr.mode ≠ .sys) := fun ⟨hw, hm, hy⟩ => by
      rcases h with h | h | h
      · simp [hw] at h
      · exact hm h
      · exact hy h
    exact ⟨stops_ldmUser hc fun _ hf => absurd hf hno, stops_stmUser hc fun _ hf => absurd hf hno⟩
  · exact stops_ldmRestore hc fun _ hq => by simp [spsr?_eq_none h] at hq
  · exact ⟨stops_ldm hc fun _ _ => ⟨ha, hu⟩, stops_ldmUser hc fun _ _ => ⟨ha, hu⟩,
      stops_ldmRestore hc fun _ _ _ => ⟨ha, hu⟩, stops_stm hc fun _ _ => ⟨ha, hu⟩, stops_stmUser hc fun _ _ => ⟨ha, hu⟩⟩

end Sys2Proof.Machine
end

section
/-!
Proof of `TransferAborts`: the accesses that abort, and the single transfers and swaps whose access does
(spec/20_memory.md R62 to R64, R70, spec/45_single_data_transfer.md R239, spec/46_multiple_transfer_swap.md R260, R261,
spec/60_exceptions.md R314).
-/

namespace Sys2Proof.Machine

/-! ## Accesses that abort -/

theorem readByte_abort {s : State} {a : Word} (h : mappedRange s.platform a.toNat 1 = false) :
    readByte s a = .abort := by
  simp [readByte, ifMapped, h]

theorem readHalf_abort {s : State} {a : Word} (h : mappedRange s.platform a.toNat 2 = false) :
    readHalf s a = .abort := by
  simp [readHalf, ifMapped, h]

theorem readRotated_abort {s : State} {ea : Word} (h : mappedRange s.platform (wordAligned ea).toNat 4 = false) :
    readRotated s ea = .abort := by
  rw [readRotated, readWord_abort h]
  rfl

theorem writeByte_eq_none {s : State} {a : Word} (h : mappedRange s.platform a.toNat 1 = false) (v : Byte) :
    writeByte s a v = none := by
  simp [writeByte, h]

theorem writeHalf_eq_none {s : State} {a : Word} (h : mappedRange s.platform a.toNat 2 = false) (v : BitVec 16) :
    writeHalf s a v = none := by
  simp [writeHalf, h]

theorem writeWord_eq_none {s : State} {a : Word} (h : mappedRange s.platform a.toNat 4 = false) (v : Word) :
    writeWord s a v = none := by
  simp [writeWord, h]

/-- A word access at `ea` aborts: its word is not mapped, or it is misaligned under UNALIGNED = abort (R62, R63). -/
def WordAborts (s : State) (ea : Word) : Prop :=
  (WordOk s ea ∧ mappedRange s.platform (wordAligned ea).toNat 4 = false) ∨
    (ea.extractLsb' 0 2 ≠ 0#2 ∧ s.platform.unaligned = .abort)

/-- A half-word access at `ea` aborts (R64). -/
def HalfAborts (s : State) (ea : Word) : Prop :=
  (ea.getLsbD 0 = false ∧ mappedRange s.platform ea.toNat 2 = false) ∨
    (ea.getLsbD 0 = true ∧ s.platform.unaligned = .abort)

section
variable {s : State} {ea : Word} {k : Out}

/-- A word access that aborts raises a Data Abort, if what follows it does wherever its word is not mapped. -/
theorem wordAccess_aborts (h : WordAborts s ea)
    (hk : WordOk s ea → mappedRange s.platform (wordAligned ea).toNat 4 = false → k = .next (raiseDataAbort s)) :
    wordAccess s ea k = .next (raiseDataAbort s) :=
  wordAccess_next.2 <| h.imp (fun ⟨hok, hm⟩ => ⟨hok, hk hok hm⟩) fun ⟨hea, hu⟩ => ⟨hea, hu, rfl⟩

theorem halfAccess_aborts (h : HalfAborts s ea)
    (hk : mappedRange s.platform ea.toNat 2 = false → k = .next (raiseDataAbort s)) :
    halfAccess s ea k = .next (raiseDataAbort s) :=
  halfAccess_next.2 <| h.imp (fun ⟨he, hm⟩ => ⟨he, hk hm⟩) fun ⟨he, hu⟩ => ⟨he, hu, rfl⟩

theorem withLoad_abort {α : Type} {x : Access α} (h : x = .abort) (k : α → Out) :
    withLoad s x k = .next (raiseDataAbort s) := withLoad_next.2 (.inr ⟨h, rfl⟩)

theorem withStore_none {x : Option State} (h : x = none) (k : State → Out) :
    withStore s x k = .next (raiseDataAbort s) := withStore_next.2 (.inr ⟨h, rfl⟩)

end

/-! ## Moves that abort -/

section
variable {rn rd : RegNum} {a : Address} {s : State}

/-- A word load aborts, to r15 too if the address is aligned or UNALIGNED is abort (R226, log 22). -/
theorem loadWordTo_aborts (h : WordAborts s a.ea)
    (hd : rd = pcNum → a.ea.extractLsb' 0 2 = 0#2 ∨ s.platform.unaligned = .abort) :
    loadWordTo rn rd a s = .next (raiseDataAbort s) :=
  wordAccess_aborts h fun hok hm => by
    have hpc : ¬(rd = pcNum ∧ a.ea.extractLsb' 0 2 ≠ 0#2) := fun ⟨e, hne⟩ => by
      have hrot := hok.resolve_left hne
      rw [(hd e).resolve_left hne] at hrot
      cases hrot
    rw [if_neg hpc]
    exact withLoad_abort (readRotated_abort hm) _

theorem loadByteTo_aborts (h : mappedRange s.platform a.ea.toNat 1 = false) :
    loadByteTo rn rd a s = .next (raiseDataAbort s) := withLoad_abort (readByte_abort h) _

theorem loadSignedByteTo_aborts (h : mappedRange s.platform a.ea.toNat 1 = false) :
    loadSignedByteTo rn rd a s = .next (raiseDataAbort s) :=
  withLoad_abort (by rw [readByte_abort h]; rfl) _

theorem loadHalfTo_aborts {ext : BitVec 16 → Word} (h : HalfAborts s a.ea) :
    loadHalfTo ext rn rd a s = .next (raiseDataAbort s) :=
  halfAccess_aborts h fun hm => withLoad_abort (by rw [readHalf_abort hm]; rfl) _

theorem storeWordFrom_aborts (h : WordAborts s a.ea) : storeWordFrom rn rd a s = .next (raiseDataAbort s) :=
  wordAccess_aborts h fun _ hm => withStore_none (writeWord_eq_none hm _) _

theorem storeByteFrom_aborts (h : mappedRange s.platform a.ea.toNat 1 = false) :
    storeByteFrom rn rd a s = .next (raiseDataAbort s) := withStore_none (writeByte_eq_none h _) _

theorem storeHalfFrom_aborts (h : HalfAborts s a.ea) : storeHalfFrom rn rd a s = .next (raiseDataAbort s) :=
  halfAccess_aborts h fun hm => withStore_none (writeHalf_eq_none hm _) _

end

/-! ## The obligation -/

theorem unmarked_of_not_marked {s : State} (h : s.afterUserBank = false) : s.unmarked = s := by
  unfold State.unmarked
  rw [← h]

section
variable {c : Cond} {rn rd : RegNum} {s : State} (hu : s.afterUserBank = false) (hc : condHolds c s.cpsr = true)
include hu hc

/-- Without the mark of R361 every instruction whose condition passes runs. -/
theorem runs_of_not_marked (regs : List RegNum) : Runs c regs s := ⟨hc, .inl hu⟩

theorem wordTransfer_of_not_marked {ix : Index} {up : Bool} {off : WordOffset}
    {check : Bool → RegNum → RegNum → List RegNum → Option Refusal}
    (hck : check (wordAddress ix up rn off s).writeBack rn rd (wordOffsetRegs off) = none)
    (move : RegNum → RegNum → Address → State → Out) :
    wordTransfer check move c ix up rn rd off s = move rn rd (wordAddress ix up rn off s) s := by
  rw [wordTransfer_of_runs (runs_of_not_marked hu hc _) hck, unmarked_of_not_marked hu]

theorem halfTransfer_of_not_marked {p u w : Bool} {off : HalfOffset} (hf : off.fixedFields = true)
    (hpw : p = true ∨ w = false) (hd : rd ≠ pcNum)
    (hok : TransferOk (halfAddress p u w rn off s).writeBack rn rd (halfOffsetRegs off))
    (move : RegNum → RegNum → Address → State → Out) :
    halfTransfer move c p u w rn rd off s = move rn rd (halfAddress p u w rn off s) s := by
  rw [halfTransfer_of_runs (runs_of_not_marked hu hc _) hf hpw hd hok, unmarked_of_not_marked hu]

/-- A swap aborts in its load (R260, R261). -/
theorem swap_aborts {rm : RegNum} (hck : swapCheck rn rd 0#4 rm = none) :
    (WordAborts s (readX s rn) → execSwp c rn rd 0#4 rm s = .next (raiseDataAbort s)) ∧
      (mappedRange s.platform (readX s rn).toNat 1 = false →
        execSwpb c rn rd 0#4 rm s = .next (raiseDataAbort s)) := by
  have hr := runs_of_not_marked hu hc [rn, rd, rm]
  rw [execSwp_of_runs hr hck, execSwpb_of_runs hr hck, unmarked_of_not_marked hu]
  exact ⟨fun h => wordAccess_aborts h fun _ hm => withLoad_abort (readRotated_abort hm) _,
    fun hm => withLoad_abort (readByte_abort hm) _⟩

end

/-- Settles O35: the frame of each transfer, then its move that aborts. -/
theorem transferAborts : Obligations.TransferAborts := by
  intro c ix p u w rn rd rm wo ho s hu hc
  simp only [List.forall_mem_cons, List.not_mem_nil, false_implies, implies_true, and_true]
  refine ⟨fun hok h => ?_, fun hd => ⟨fun hok h => ?_, fun hok h => ?_, fun hok h => ?_, fun hok hf hpw => ?_,
    fun hp hm hrd => ?_⟩⟩
  · have hmove := wordTransfer_of_not_marked hu hc (transferCheck_eq_none.2 hok)
    exact ⟨(hmove _).trans (storeWordFrom_aborts h), fun hpc => (hmove _).trans (loadWordTo_aborts h hpc)⟩
  · have hmove := wordTransfer_of_not_marked hu hc (transferCheckNoPc_eq_none.2 ⟨hd, hok⟩)
    exact ⟨(hmove _).trans (loadByteTo_aborts h), (hmove _).trans (storeByteFrom_aborts h)⟩
  · have hmove := wordTransfer_of_not_marked (ix := .post) (up := u) hu hc (transferCheckNoPc_eq_none.2 ⟨hd, hok⟩)
    exact ⟨(hmove _).trans (loadWordTo_aborts h fun e => absurd e hd), (hmove _).trans (storeWordFrom_aborts h)⟩
  · have hmove := wordTransfer_of_not_marked (ix := .post) (up := u) hu hc (transferCheckNoPc_eq_none.2 ⟨hd, hok⟩)
    exact ⟨(hmove _).trans (loadByteTo_aborts h), (hmove _).trans (storeByteFrom_aborts h)⟩
  · have hmove := halfTransfer_of_not_marked hu hc hf hpw hd hok
    exact ⟨fun h => ⟨(hmove _).trans (loadHalfTo_aborts h), (hmove _).trans (storeHalfFrom_aborts h),
      (hmove _).trans (loadHalfTo_aborts h)⟩, fun h => (hmove _).trans (loadSignedByteTo_aborts h)⟩
  · have hpc : pcNum ∉ [rn, rd, rm] := by
      simp only [List.mem_cons, List.not_mem_nil, or_false, not_or] at hp ⊢
      exact ⟨hp.1, hd.symm, hp.2⟩
    exact swap_aborts hu hc (swapCheck_eq_none.2 ⟨rfl, hpc, hm, hrd⟩)

end Sys2Proof.Machine
end

section
/-!
Proofs of `LoadMultipleResult` and `LoadMultipleToPc`: the words that the loads of a block give, where r15 stands among
them, and the registers after a multiple load (spec/20_memory.md R65, spec/46_multiple_transfer_swap.md R250 to R252).
-/

namespace Sys2Proof.Machine

/-! ## The words of a list -/

/-- The registers of a list, each with its word. -/
def loadedWords (regs : List RegNum) (v : Nat → Word) : List (RegNum × Word) :=
  regs.zip ((List.range regs.length).map v)

section
variable (regs : List RegNum) (v : Nat → Word)

@[simp] theorem loadedWords_length : (loadedWords regs v).length = regs.length := by simp [loadedWords]

@[simp] theorem loadedWords_fst : (loadedWords regs v).map Prod.fst = regs := by
  simp [loadedWords, List.map_fst_zip]

theorem loadedWords_getElem {k : Nat} (h : k < (loadedWords regs v).length) :
    (loadedWords regs v)[k] = (regs[k]'(by simpa using h), v k) := by
  simp [loadedWords]

end

theorem mem_loadedWords {regs : List RegNum} {v : Nat → Word} {c : RegNum × Word} :
    c ∈ loadedWords regs v ↔ ∃ k, ∃ h : k < regs.length, c = (regs[k], v k) := by
  rw [List.mem_iff_getElem]
  simp [loadedWords_getElem, eq_comm]

/-- Loads of words that are all read give each register its word (R250). -/
theorem readBlock_words {s : State} {regs : List RegNum} {a : Word} {v : Nat → Word}
    (h : ∀ k < regs.length, readWord s (wordAligned (a + BitVec.ofNat 32 (4 * k))) = .ok (v k)) :
    readBlock s a regs = .ok (loadedWords regs v) :=
  readBlock_ok.2 ⟨loadedWords_fst regs v, fun k hk => by
    rw [loadedWords_getElem]
    exact h k (by simpa using hk)⟩

/-- In a list without repeated keys a key's value is the one it stands with. -/
theorem lookup_of_mem {l : List (RegNum × Word)} (hn : (l.map Prod.fst).Nodup) {r : RegNum} {x : Word}
    (h : (r, x) ∈ l) : l.lookup r = some x := by
  obtain ⟨before, after, rfl⟩ := List.append_of_mem h
  refine List.lookup_eq_some_iff.2 ⟨before, after, rfl, fun c hc => ?_⟩
  rw [List.map_append, List.nodup_append] at hn
  obtain ⟨-, -, hdisjoint⟩ := hn
  exact bne_iff_ne.2 (hdisjoint c.1 (List.mem_map_of_mem hc) r (by simp)).symm

/-! ## r15 in a list -/

theorem ne_pcNum_of_blockRegs {list : BitVec 16} (hl : list.getLsbD 15 = false) {k : Nat}
    (h : k < (blockRegs list).length) : (blockRegs list)[k] ≠ pcNum := fun e => by
  have hmem := mem_blockRegs.1 (e ▸ List.getElem_mem h)
  exact absurd (hmem.symm.trans hl) (by decide)

/-- Every register of a list but its last is below another, so it is not r15 (R250). -/
theorem ne_pcNum_of_not_last {list : BitVec 16} {k : Nat} (h : k < (blockRegs list).length - 1) :
    (blockRegs list)[k] ≠ pcNum := fun e => by
  have hlt := List.pairwise_iff_getElem.1 (blockRegs_rising list) k (k + 1) (by omega) (by omega) (by omega)
  have hle := (blockRegs list)[k + 1].isLt
  have h15 : pcNum.toNat = 15 := rfl
  rw [e] at hlt
  omega

/-- A list with r15 has it as its last register, so the last word is the one loaded for it (R252). -/
theorem lookup_pcNum_of_list {list : BitVec 16} (hl : list.getLsbD 15 = true) (v : Nat → Word) :
    (loadedWords (blockRegs list) v).lookup pcNum = some (v ((blockRegs list).length - 1)) := by
  obtain ⟨k, hk, e⟩ := List.getElem_of_mem (mem_blockRegs.2 hl : pcNum ∈ blockRegs list)
  have hlast : k = (blockRegs list).length - 1 := by
    by_contra hne
    exact ne_pcNum_of_not_last (list := list) (by omega) e
  refine lookup_of_mem (by rw [loadedWords_fst]; exact blockRegs_nodup list) (mem_loadedWords.2 ⟨k, hk, ?_⟩)
  rw [e, hlast]

/-! ## The registers after a multiple load -/

theorem exists_bankReg (m : Mode) {r : RegNum} (h : r ≠ pcNum) : ∃ q, bankReg m r = some q :=
  Option.ne_none_iff_exists'.1 (mt (bankReg_eq_none m r).1 h)

theorem readBank_of_bankReg {m : Mode} {r : RegNum} {q : PReg} (h : bankReg m r = some q) (s : State) :
    readBank m s r = s.reg q := by
  simp [readBank, h]

/-- What a multiple load into the current mode leaves, the pc and the CPSR apart: the words `l` in their registers, and
the base written back if W is 1 (R252). -/
def loadedBlock (u w : Bool) (rn : RegNum) (list : BitVec 16) (s : State) (l : List (RegNum × Word)) : State :=
  writeBase w rn (blockFinal u (readX s rn) (blockRegs list).length) (writeLoaded s.cpsr.mode l s.unmarked)

section
variable {u w : Bool} {rn : RegNum} {list : BitVec 16} {s : State} {l : List (RegNum × Word)}

@[simp] theorem loadedBlock_cpsr : (loadedBlock u w rn list s l).cpsr = s.cpsr := by
  obtain ⟨-, hcpsr, -⟩ := writeLoaded_only s.cpsr.mode l s.unmarked
  exact (writeBase_cpsr ..).trans hcpsr

@[simp] theorem loadedBlock_spsrs : (loadedBlock u w rn list s l).spsrs = s.spsrs := by
  obtain ⟨-, -, hspsrs, -⟩ := writeLoaded_only s.cpsr.mode l s.unmarked
  exact (writeBase_spsrs ..).trans hspsrs

@[simp] theorem loadedBlock_mem : (loadedBlock u w rn list s l).mem = s.mem := by
  obtain ⟨-, -, -, hmem, -⟩ := writeLoaded_only s.cpsr.mode l s.unmarked
  exact (writeBase_mem ..).trans hmem

@[simp] theorem loadedBlock_lines : (loadedBlock u w rn list s l).lines = s.lines := by
  obtain ⟨-, -, -, -, -, -, hlines, -⟩ := writeLoaded_only s.cpsr.mode l s.unmarked
  exact (writeBase_lines ..).trans hlines

@[simp] theorem loadedBlock_platform : (loadedBlock u w rn list s l).platform = s.platform := by
  obtain ⟨-, -, -, -, -, -, -, -, hplatform⟩ := writeLoaded_only s.cpsr.mode l s.unmarked
  exact (writeBase_platform ..).trans hplatform

theorem loadedBlock_pc (hr : rn ≠ pcNum) : (loadedBlock u w rn list s l).pc = s.pc :=
  (writeBase_pc hr ..).trans (writeLoaded_pc ..)

theorem loadedBlock_advance (hn : HasNext s) (hr : rn ≠ pcNum) :
    advance (loadedBlock u w rn list s l) =
      .next { loadedBlock u w rn list s l with cpsr := s.cpsr, pc := s.pc + 4 } :=
  advance_next.2 ⟨by rwa [HasNext, loadedBlock_pc hr], by simp [State.advanced, loadedBlock_pc hr]⟩

/-- The base, if it is written back, and otherwise what the loads leave. -/
theorem loadedBlock_reg (q : PReg) :
    (loadedBlock u w rn list s l).reg q =
      if w = true ∧ bankReg s.cpsr.mode rn = some q then blockFinal u (readX s rn) (blockRegs list).length
      else (writeLoaded s.cpsr.mode l s.unmarked).reg q := by
  obtain ⟨-, hcpsr, -⟩ := writeLoaded_only s.cpsr.mode l s.unmarked
  rw [loadedBlock, writeBase_reg, hcpsr]
  rfl

/-- A state in which a multiple load ends, whatever its CPSR and pc: if the base is not in the list where it is written
back, each register holds its word, the base its new value, every other register what it held, and the SPSRs, memory
and the inputs are as they were (R252). -/
theorem loadedBlock_leaves (v : Nat → Word) (cpsr : Psr) (pc : Word) (hr : rn ≠ pcNum)
    (hw : w = true → list.getLsbD rn.toNat = false) :
    let t : State := { loadedBlock u w rn list s (loadedWords (blockRegs list) v) with cpsr := cpsr, pc := pc }
    (∀ k (h : k < (blockRegs list).length), (blockRegs list)[k] ≠ pcNum →
        readBank s.cpsr.mode t (blockRegs list)[k] = v k) ∧
      (w = true → readBank s.cpsr.mode t rn = blockFinal u (readX s rn) (blockRegs list).length) ∧
      SameRegsBut ((if w then [bankReg s.cpsr.mode rn] else []) ++ (blockRegs list).map (bankReg s.cpsr.mode)) s t ∧
      SameSpsrs s t ∧ SameMemory s t ∧ SameInputs s t := by
  intro t
  have ht : t.regs = (loadedBlock u w rn list s (loadedWords (blockRegs list) v)).regs := rfl
  refine ⟨fun k h hk => ?_, fun hwb => ?_, fun q hq => ?_, spsr_congr loadedBlock_spsrs,
    fun x => congrArg (Memory.read · x) loadedBlock_mem, loadedBlock_lines, loadedBlock_platform⟩
  · obtain ⟨q, hkq⟩ := exists_bankReg s.cpsr.mode hk
    have hbase : ¬(w = true ∧ bankReg s.cpsr.mode rn = some q) := fun ⟨hwb, hrn⟩ => by
      have hmem : rn ∈ blockRegs list := bankReg_inj _ _ _ (hrn.trans hkq.symm) ▸ List.getElem_mem h
      exact absurd ((mem_blockRegs.1 hmem).symm.trans (hw hwb)) (by decide)
    rw [readBank_of_bankReg hkq, reg_congr ht, loadedBlock_reg, if_neg hbase]
    exact writeLoaded_reg_of_mem _ _ _ _ (by rw [loadedWords_fst]; exact blockRegs_nodup list)
      (mem_loadedWords.2 ⟨k, h, rfl⟩) hkq
  · obtain ⟨q, hrq⟩ := exists_bankReg s.cpsr.mode hr
    rw [readBank_of_bankReg hrq, reg_congr ht, loadedBlock_reg, if_pos ⟨hwb, hrq⟩]
  · rw [List.mem_append, not_or] at hq
    obtain ⟨hbase, hlist⟩ := hq
    rw [reg_congr ht, loadedBlock_reg, if_neg fun ⟨hwb, hrn⟩ => hbase (by simp [hwb, hrn])]
    refine writeLoaded_reg_other _ _ _ _ fun c hc e => hlist ?_
    obtain ⟨k, hk, rfl⟩ := mem_loadedWords.1 hc
    exact List.mem_map.2 ⟨_, List.getElem_mem hk, e⟩

end

/-! ## LDM (R252) -/

section
variable {c : Cond} {p u w : Bool} {rn : RegNum} {list : BitVec 16} {s : State}
  (hr : Runs c (rn :: blockRegs list) s) (hb : BlockOk p u rn list s) (hw : w = true → list.getLsbD rn.toNat = false)
include hr hb hw

/-- LDM that no rule on its registers refuses is its loads, then the exchange with the word loaded for r15 or the next
instruction. -/
theorem execLdm_of_checks :
    execLdm c p u w rn list s =
      wordAccess s.unmarked (readX s rn) (withBlock s.cpsr.mode rn s.unmarked
        (readBlock s.unmarked (blockStart p u (readX s rn) (blockRegs list).length) (blockRegs list)) fun l =>
          (l.lookup pcNum).elim (advance (loadedBlock u w rn list s l)) fun v =>
            exchange v (loadedBlock u w rn list s l)) := by
  unfold execLdm
  dsimp only
  rw [conditional_of_runs hr, readX_unmarked, blockCheck_eq_none.2 hb, guarded_none, loadBaseCheck_eq_none.2 hw,
    guarded_none]
  congr 2
  funext l
  cases l.lookup pcNum <;> rfl

/-- LDM whose words are all read. -/
theorem execLdm_of_words (hok : WordOk s (readX s rn)) {v : Nat → Word}
    (hv : ∀ k < (blockRegs list).length, readWord s (blockAddr p u rn list s k) = .ok (v k)) :
    execLdm c p u w rn list s =
      ((loadedWords (blockRegs list) v).lookup pcNum).elim
        (advance (loadedBlock u w rn list s (loadedWords (blockRegs list) v))) fun v' =>
          exchange v' (loadedBlock u w rn list s (loadedWords (blockRegs list) v)) := by
  rw [execLdm_of_checks hr hb hw, wordAccess_of_ok (s := s.unmarked) hok, readBlock_words (s := s.unmarked) hv]
  rfl

end

/-- Settles O38: no word is loaded for r15, so LDM ends at the next instruction; the rest by `loadedBlock_leaves`. -/
theorem loadMultipleResult : Obligations.LoadMultipleResult := by
  intro c p u w rn list s v regs hr hn hb hok hl hw hv
  obtain ⟨-, hbase, -⟩ := id hb
  have hlookup : (loadedWords regs v).lookup pcNum = none :=
    lookup_pcNum_of_readBlock (readBlock_words (s := s) hv) hl
  have hexec : exec (.ldm c p u w rn list) s =
      .next { loadedBlock u w rn list s (loadedWords regs v) with cpsr := s.cpsr, pc := s.pc + 4 } := by
    rw [exec_ldm, execLdm_of_words hr hb hw hok hv, hlookup]
    exact loadedBlock_advance hn hbase
  obtain ⟨hregs, hfinal, hsame, hrest⟩ := loadedBlock_leaves (s := s) (u := u) v s.cpsr (s.pc + 4) hbase hw
  exact ⟨_, hexec, fun k h => hregs k h (ne_pcNum_of_blockRegs hl h), hfinal, hsame, rfl, rfl, hrest⟩

/-- Settles O39: the last word is loaded for r15, so LDM ends with `exchange`; the rest by `loadedBlock_leaves`. -/
theorem loadMultipleToPc : Obligations.LoadMultipleToPc := by
  intro c p u w rn list s v regs hr hb hok hl hw hv target
  obtain ⟨-, hbase, -⟩ := id hb
  have hexec : exec (.ldm c p u w rn list) s = exchange target (loadedBlock u w rn list s (loadedWords regs v)) := by
    rw [exec_ldm, execLdm_of_words hr hb hw hok hv, lookup_pcNum_of_list hl]
    rfl
  refine ⟨fun h => hexec.trans (if_pos h), fun h => ?_⟩
  have hnext : exec (.ldm c p u w rn list) s = .next { loadedBlock u w rn list s (loadedWords regs v) with
      cpsr := { s.cpsr with t := target.getLsbD 0 }, pc := target &&& 0xFFFFFFFE#32 } := by
    rw [hexec, exchange, if_neg h, loadedBlock_cpsr]
  obtain ⟨hregs, hfinal, hsame, hrest⟩ := loadedBlock_leaves (s := s) (u := u) v
    { s.cpsr with t := target.getLsbD 0 } (target &&& 0xFFFFFFFE#32) hbase hw
  exact ⟨_, hnext, fun k h => hregs k (Nat.lt_of_lt_pred h) (ne_pcNum_of_not_last h), hfinal, hsame, rfl, rfl, hrest⟩

end Sys2Proof.Machine
end

section
/-!
Proof of `MultipleTransferAborts`: every multiple transfer that no rule on its registers refuses is its word accesses,
and what a Data Abort in the middle of them leaves (spec/20_memory.md R65, R70, spec/46_multiple_transfer_swap.md R250
to R256, spec/60_exceptions.md R314).
-/

namespace Sys2Proof.Machine

/-! ## The transfers as their accesses -/

theorem guarded_passes {r : Option Refusal} (h : r = none) (k : Out) : guarded r k = k := by
  rw [h, guarded_none]

theorem ne_usr_sys_of_spsr? {m : Mode} (h : m.spsr?.isSome = true) : m ≠ .usr ∧ m ≠ .sys := by
  constructor <;> rintro rfl <;> exact absurd h (by decide)

section
variable {c : Cond} {p u w : Bool} {rn : RegNum} {list : BitVec 16} {s : State} {i : Instr} {m : Mode}
  (hr : Runs c (touched i) s) (hb : BlockOk p u rn list s)
include hr hb

/-- Each multiple load of `LoadForm` is the loads of its block, whatever it does with the words (R252 to R254). -/
theorem exec_of_loadForm (hf : LoadForm c p u w rn list s i m) :
    ∃ k, exec i s = wordAccess s.unmarked (readX s rn) (withBlock m rn s.unmarked
      (readBlock s.unmarked (blockStart p u (readX s rn) (blockRegs list).length) (blockRegs list)) k) := by
  rcases hf with ⟨rfl, rfl, hw⟩ | ⟨l, rfl, rfl, rfl, hw, hq⟩ | ⟨l, rfl, rfl, rfl, hw, hq⟩
  · exact ⟨_, execLdm_of_checks hr hb hw⟩
  · exact ⟨_, (conditional_of_runs hr _).trans <| (guarded_passes (blockCheck_eq_none.2 hb) _).trans <|
      guarded_passes (userFormCheck_eq_none.2 ⟨hw, ne_usr_sys_of_spsr? hq⟩) _⟩
  · have hspsr : s.cpsr.mode.spsr?.isNone = false := by rw [← Option.not_isSome, hq]; rfl
    exact ⟨_, (conditional_of_runs hr _).trans <| (guarded_passes (blockCheck_eq_none.2 hb) _).trans <|
      (guarded_passes (failIf_eq_none.2 hspsr) _).trans <| guarded_passes (loadBaseCheck_eq_none.2 hw) _⟩

/-- Each multiple store of `StoreForm` is the stores of its block (R251, R254). -/
theorem exec_of_storeForm (hf : StoreForm c p u w rn list s i m) :
    ∃ k, exec i s = wordAccess s.unmarked (readX s rn) (withStored
      (storeBlock m (blockStart p u (readX s rn) (blockRegs list).length) (blockRegs list) s.unmarked) k) := by
  rcases hf with ⟨rfl, rfl, hw⟩ | ⟨rfl, rfl, hw, hq⟩
  · exact ⟨_, (conditional_of_runs hr _).trans <| (guarded_passes (blockCheck_eq_none.2 hb) _).trans <|
      guarded_passes (storeBaseCheck_eq_none.2 hw) _⟩
  · exact ⟨_, (conditional_of_runs hr _).trans <| (guarded_passes (blockCheck_eq_none.2 hb) _).trans <|
      guarded_passes (userFormCheck_eq_none.2 ⟨hw, ne_usr_sys_of_spsr? hq⟩) _⟩

end

/-! ## What the Data Abort leaves -/

/-- A Data Abort taken after the accesses `s'` of an instruction that began in `s` (R314): what the entry writes. -/
theorem raiseDataAbort_leaves {s s' : State} (hpc : s'.pc = s.pc) (hcpsr : s'.cpsr = s.cpsr)
    (hspsrs : s'.spsrs = s.spsrs) (hlines : s'.lines = s.lines) (hplatform : s'.platform = s.platform) :
    let t := raiseDataAbort s'
    t.cpsr = { s.cpsr with mode := .abt, t := false, i := true } ∧ t.pc = vectorBase s.platform + 0x10#32 ∧
      t.reg .r14_abt = s.pc + 8 ∧ (∀ q, t.spsr q = if q = .abt then s.cpsr.toWord else s.spsr q) ∧
      SameInputs s t := by
  refine ⟨?_, ?_, ?_, fun q => ?_, hlines, hplatform⟩
  · rw [raiseDataAbort, takeException, enterException_cpsr, hcpsr]
    simp [Exc.mode, Exc.masksFiq]
  · rw [raiseDataAbort, takeException, enterException_pc, hplatform]
    rfl
  · rw [raiseDataAbort, takeException, enterException_reg, hpc]
    rfl
  · rw [raiseDataAbort, takeException, enterException_spsr, hcpsr, spsr_congr hspsrs]
    rfl

theorem raiseDataAbort_reg_ne {q : PReg} (h : q ≠ .r14_abt) (s : State) : (raiseDataAbort s).reg q = s.reg q := by
  rw [raiseDataAbort, takeException, enterException_reg]
  exact if_neg h

/-- The words loaded before the aborting one leave the base and every register that none of them was for, and each other
register old or loaded (R256). -/
theorem drawLoaded_loadedWords {m : Mode} {base : Option PReg} {regs : List RegNum} (hn : regs.Nodup) (v : Nat → Word)
    (s : State) (q : PReg) :
    (base = some q ∨ (∀ k (h : k < regs.length), bankReg m regs[k] ≠ some q) →
        (drawLoaded m base (loadedWords regs v) s).reg q = s.reg q) ∧
      ∀ k (h : k < regs.length), bankReg m regs[k] = some q →
        (drawLoaded m base (loadedWords regs v) s).reg q = s.reg q ∨
          (drawLoaded m base (loadedWords regs v) s).reg q = v k := by
  refine ⟨fun h => drawLoaded_reg _ _ _ _ _ (h.imp_right fun h c hc => ?_), fun k h hk => ?_⟩
  · obtain ⟨k, hk, rfl⟩ := mem_loadedWords.1 hc
    exact h k hk
  · refine (drawLoaded_reg_old_or_loaded m base (loadedWords regs v) s q).imp_right ?_
    rintro ⟨c, hc, hcq, e⟩
    obtain ⟨k', hk', rfl⟩ := mem_loadedWords.1 hc
    obtain rfl : k' = k := hn.getElem_inj_iff.1 (bankReg_inj m _ _ (hcq.trans hk.symm))
    exact e

/-! ## The obligation -/

section
variable {c : Cond} {p u w : Bool} {rn : RegNum} {list : BitVec 16} {s : State} {i : Instr} {m : Mode} {j : Nat}
  (hr : Runs c (touched i) s) (hb : BlockOk p u rn list s) (hok : WordOk s (readX s rn))
  (hj : j < (blockRegs list).length) (hab : mappedRange s.platform (blockAddr p u rn list s j).toNat 4 = false)
include hr hb hok hj hab

/-- A multiple load whose word `j` is the first that aborts raises a Data Abort after the words before it. -/
theorem exec_load_aborts (hf : LoadForm c p u w rn list s i m) {v : Nat → Word}
    (hv : ∀ k < j, readWord s (blockAddr p u rn list s k) = .ok (v k)) :
    exec i s = .next (raiseDataAbort (drawLoaded m (bankReg s.cpsr.mode rn)
      (loadedWords ((blockRegs list).take j) v) s.unmarked)) := by
  have hwords : loadedWords ((blockRegs list).take j) v = ((blockRegs list).take j).zip ((List.range j).map v) := by
    rw [loadedWords, List.length_take_of_le hj.le]
  obtain ⟨k, e⟩ := exec_of_loadForm hr hb hf
  rw [e, wordAccess_of_ok (s := s.unmarked) hok, readBlock_abort (s := s.unmarked) v hj hv hab, ← hwords]
  rfl

/-- A multiple store whose word `j` is the first that aborts raises a Data Abort after the stores before it. -/
theorem exec_store_aborts (hf : StoreForm c p u w rn list s i m)
    (hm : ∀ k < j, mappedRange s.platform (blockAddr p u rn list s k).toNat 4 = true) :
    exec i s = .next (raiseDataAbort (storeBlock m (blockStart p u (readX s rn) (blockRegs list).length)
      ((blockRegs list).take j) s.unmarked).2) := by
  obtain ⟨k, e⟩ := exec_of_storeForm hr hb hf
  rw [e, wordAccess_of_ok (s := s.unmarked) hok, storeBlock_abort (s := s.unmarked) m hj hm hab]
  rfl

end

/-- Under UNALIGNED = abort a base that is not word aligned raises the abort at once (R65). -/
theorem exec_misaligned_aborts {c : Cond} {p u w : Bool} {rn : RegNum} {list : BitVec 16} {s : State} {i : Instr}
    {m : Mode} (hr : Runs c (touched i) s) (hb : BlockOk p u rn list s) (hu : s.platform.unaligned = .abort)
    (ha : (readX s rn).extractLsb' 0 2 ≠ 0#2)
    (hf : LoadForm c p u w rn list s i m ∨ StoreForm c p u w rn list s i m) :
    exec i s = .next (raiseDataAbort s.unmarked) := by
  have hacc : ∀ k, wordAccess s.unmarked (readX s rn) k = .next (raiseDataAbort s.unmarked) := fun k =>
    wordAccess_next.2 (.inr ⟨ha, hu, rfl⟩)
  rcases hf with hf | hf
  · obtain ⟨k, e⟩ := exec_of_loadForm hr hb hf
    exact e.trans (hacc _)
  · obtain ⟨k, e⟩ := exec_of_storeForm hr hb hf
    exact e.trans (hacc _)

/-- The multiple store of the first `j` registers of a block that does not wrap: each word holds its register, and no
other byte changes (R251, R256). -/
theorem storeBlock_take_words {p u : Bool} {rn : RegNum} {list : BitVec 16} {s : State} (hb : BlockOk p u rn list s)
    {j : Nat} (hj : j < (blockRegs list).length)
    (hm : ∀ k < j, mappedRange s.platform (blockAddr p u rn list s k).toNat 4 = true) (m : Mode) {t : State}
    (hmem : t.mem = (storeBlock m (blockStart p u (readX s rn) (blockRegs list).length) ((blockRegs list).take j)
      s.unmarked).2.mem) (hp : t.platform = s.platform) :
    (∀ k (h : k < (blockRegs list).length), k < j →
        readWord t (blockAddr p u rn list s k) = .ok (storeSource m s (blockRegs list)[k])) ∧
      ∀ x, (∀ k < j, Outside (blockAddr p u rn list s k).toNat 4 x) → Memory.read t.mem x = Memory.read s.mem x := by
  have hlen : ((blockRegs list).take j).length = j := List.length_take_of_le hj.le
  obtain ⟨-, -, hwrap⟩ := hb
  obtain ⟨-, hwords⟩ := storeBlock_words (s := s.unmarked) m
    (a := blockStart p u (readX s rn) (blockRegs list).length) (regs := (blockRegs list).take j)
    (by rw [hlen]; omega) (by rw [hlen]; exact hm)
  refine ⟨fun k h hk => ?_, fun x hx => ?_⟩
  · rw [readWord_congr hmem (hp.trans (storeBlock_only m _ _ s.unmarked).platform.symm)]
    have := hwords k (by rwa [hlen])
    rwa [List.getElem_take] at this
  · rw [hmem]
    exact storeBlock_read_outside m _ _ s.unmarked x (by rw [hlen]; exact hx)

/-- Settles O44: the accesses before the abort by `exec_load_aborts` and `exec_store_aborts`, the entry by
`raiseDataAbort_leaves`. -/
theorem multipleTransferAborts : Obligations.MultipleTransferAborts := by
  intro c p u w rn list s j v regs addr aborted hb
  refine ⟨fun hok hj hm hab => ⟨fun i m hf hr hv => ?_, fun i m hf hr => ?_⟩, fun hu ha i m hf hr =>
    exec_misaligned_aborts hr hb hu ha hf⟩
  · obtain ⟨hpc, hcpsr, hspsrs, hmem, -, -, hlines, hplatform⟩ :=
      drawLoaded_only m (bankReg s.cpsr.mode rn) (loadedWords (regs.take j) v) s.unmarked
    refine ⟨_, exec_load_aborts hr hb hok hj hab hf hv, raiseDataAbort_leaves hpc hcpsr hspsrs hlines hplatform,
      fun x => congrArg (Memory.read · x) hmem, fun q hq => ?_⟩
    have hlen : (regs.take j).length = j := List.length_take_of_le hj.le
    obtain ⟨hkept, hdrawn⟩ := drawLoaded_loadedWords (m := m) (base := bankReg s.cpsr.mode rn)
      ((blockRegs_nodup list).take (i := j)) v s.unmarked q
    rw [raiseDataAbort_reg_ne hq]
    refine ⟨fun h => hkept (h.imp_right fun h k hk => ?_), fun k h hkj hk => hdrawn k (by rwa [hlen]) ?_⟩
    · rw [List.getElem_take]
      exact h k _ (by rwa [hlen] at hk)
    · rwa [List.getElem_take]
  · have ho := storeBlock_only m (blockStart p u (readX s rn) regs.length) (regs.take j) s.unmarked
    obtain ⟨hwords, hout⟩ := storeBlock_take_words hb hj hm m (t := raiseDataAbort _) rfl ho.platform
    simp only [← storeSource_eq]
    refine ⟨_, exec_store_aborts hr hb hok hj hab hf hm,
      raiseDataAbort_leaves ho.pc ho.cpsr ho.spsrs ho.lines ho.platform, fun q hq => ?_, hwords, hout⟩
    rw [raiseDataAbort_reg_ne (by simpa using hq)]
    exact reg_congr ho.regs q

end Sys2Proof.Machine
end

section
/-!
The fields of a word, and every format of R94 to R107 as the fields that a word of it has
(spec/30_encoding.md R92 to R109).
-/

namespace Sys2Proof

/-! ## Fields -/

/-- A field of a field. -/
theorem field_field {n i j k l : Nat} (w : BitVec n) (h : j + k ≤ l) :
    (w.extractLsb' i l).extractLsb' j k = w.extractLsb' (i + j) k := by
  ext t ht
  simp only [BitVec.getElem_extractLsb', BitVec.getLsbD_extractLsb', show j + t < l by omega, decide_true,
    Bool.true_and, Nat.add_assoc]

/-- A part of a field whose value is known. -/
theorem subfield {n i l : Nat} {w : BitVec n} {v : BitVec l} (h : w.extractLsb' i l = v) (j k : Nat)
    (hjk : j + k ≤ l := by decide) : w.extractLsb' (i + j) k = v.extractLsb' j k := by
  rw [← h, field_field w hjk]

/-- A bit of a field whose value is known. -/
theorem bit_of_field {n i l : Nat} {w : BitVec n} {v : BitVec l} (h : w.extractLsb' i l = v) (j : Nat)
    (hj : j < l := by decide) : w.getLsbD (i + j) = v.getLsbD j := by
  rw [← h, BitVec.getLsbD_extractLsb', decide_eq_true hj, Bool.true_and]

/-- The field of `w` at bit `i`, as wide as `v`, holds `v`. -/
def HasField (w : Word) (i : Nat) {n : Nat} (v : BitVec n) : Prop := w.extractLsb' i n = v

/-- A concatenation stands in a word as its two parts, one above the other: what takes an encoding apart. -/
theorem hasField_append {m n i : Nat} {x : BitVec m} {y : BitVec n} {w : Word} :
    HasField w i (x ++ y) ↔ HasField w (i + n) x ∧ HasField w i y := by
  unfold HasField
  constructor
  · intro h
    have hx := congrArg (BitVec.extractLsb' n m) h
    have hy := congrArg (BitVec.extractLsb' 0 n) h
    rw [BitVec.extractLsb'_append_eq_left, field_field w (by omega)] at hx
    rw [BitVec.extractLsb'_append_eq_right, field_field w (by omega)] at hy
    exact ⟨hx, hy⟩
  · rintro ⟨rfl, rfl⟩
    exact (BitVec.extractLsb'_append_extractLsb'_eq_extractLsb' rfl).symm

theorem hasField_bit {i : Nat} {b : Bool} {w : Word} : HasField w i (bit b) ↔ w.getLsbD i = b := by
  unfold HasField
  constructor
  · intro h
    simpa using congrArg (·.getLsbD 0) h
  · rintro rfl
    ext j hj
    obtain rfl : j = 0 := by omega
    simp

theorem hasField_bit_zero {i : Nat} {w : Word} : HasField w i 0#1 ↔ w.getLsbD i = false := hasField_bit (b := false)

theorem hasField_bit_one {i : Nat} {w : Word} : HasField w i 1#1 ↔ w.getLsbD i = true := hasField_bit (b := true)

/-- A field from its upper and its lower part. -/
theorem field_append {w : Word} {i m n : Nat} {x : BitVec m} {y : BitVec n} (hx : w.extractLsb' (i + n) m = x)
    (hy : w.extractLsb' i n = y) : w.extractLsb' i (m + n) = x ++ y := hasField_append.2 ⟨hx, hy⟩

/-- A field from its upper bits and its lowest one. -/
theorem field_low_bit {w : Word} {i l : Nat} {v : BitVec l} {b : Bool} (hv : w.extractLsb' (i + 1) l = v)
    (hb : w.getLsbD i = b) : w.extractLsb' i (l + 1) = v ++ bit b :=
  hasField_append.2 ⟨hv, hasField_bit.2 hb⟩

theorem eq_iff_hasField {x w : Word} : x = w ↔ HasField w 0 x := by
  unfold HasField
  rw [BitVec.extractLsb'_eq_self, eq_comm]

/-! ## Formats (R94 to R109) -/

theorem encodeDataProcessing_eq_iff {c : Cond} {o : BitVec 4} {s : Bool} {rn rd : RegNum} {op : Operand2} {x : Word} :
    encodeDataProcessing c o s rn rd op = x ↔
      x.extractLsb' 28 4 = c.bits ∧ x.extractLsb' 26 2 = 0b00#2 ∧ x.getLsbD 25 = op.isImm ∧ x.extractLsb' 21 4 = o ∧
        x.getLsbD 20 = s ∧ x.extractLsb' 16 4 = rn ∧ x.extractLsb' 12 4 = rd ∧ x.extractLsb' 0 12 = op.bits := by
  rw [eq_iff_hasField, encodeDataProcessing]
  simp only [hasField_append]
  simp only [hasField_bit, Nat.reduceAdd, and_assoc]
  rfl

theorem encodeMultiply_eq_iff {c : Cond} {code : BitVec 3} {s : Bool} {hi lo rs rm : RegNum} {x : Word} :
    encodeMultiply c code s hi lo rs rm = x ↔
      x.extractLsb' 28 4 = c.bits ∧ x.extractLsb' 24 4 = 0b0000#4 ∧ x.extractLsb' 21 3 = code ∧
        x.getLsbD 20 = s ∧ x.extractLsb' 16 4 = hi ∧ x.extractLsb' 12 4 = lo ∧ x.extractLsb' 8 4 = rs ∧
        x.extractLsb' 4 4 = 0b1001#4 ∧ x.extractLsb' 0 4 = rm := by
  rw [eq_iff_hasField, encodeMultiply]
  simp only [hasField_append]
  simp only [hasField_bit, Nat.reduceAdd, and_assoc]
  rfl

theorem encodeControl_eq_iff {c : Cond} {op : BitVec 2} {n19 n15 n11 lo n3 : BitVec 4} {x : Word} :
    encodeControl c op n19 n15 n11 lo n3 = x ↔
      x.extractLsb' 28 4 = c.bits ∧ x.extractLsb' 23 5 = 0b00010#5 ∧ x.extractLsb' 21 2 = op ∧
        x.getLsbD 20 = false ∧ x.extractLsb' 16 4 = n19 ∧ x.extractLsb' 12 4 = n15 ∧ x.extractLsb' 8 4 = n11 ∧
        x.extractLsb' 4 4 = lo ∧ x.extractLsb' 0 4 = n3 := by
  rw [eq_iff_hasField, encodeControl]
  simp only [hasField_append]
  simp only [hasField_bit_zero, Nat.reduceAdd, and_assoc]
  rfl

theorem encodeWordTransfer_eq_iff {c : Cond} {p u b w l : Bool} {rn rd : RegNum} {off : WordOffset} {x : Word} :
    encodeWordTransfer c p u b w l rn rd off = x ↔
      x.extractLsb' 28 4 = c.bits ∧ x.extractLsb' 26 2 = 0b01#2 ∧ x.getLsbD 25 = off.isReg ∧ x.getLsbD 24 = p ∧
        x.getLsbD 23 = u ∧ x.getLsbD 22 = b ∧ x.getLsbD 21 = w ∧ x.getLsbD 20 = l ∧ x.extractLsb' 16 4 = rn ∧
        x.extractLsb' 12 4 = rd ∧ x.extractLsb' 0 12 = off.bits := by
  rw [eq_iff_hasField, encodeWordTransfer]
  simp only [hasField_append]
  simp only [hasField_bit, Nat.reduceAdd, and_assoc]
  rfl

theorem encodeHalfTransfer_eq_iff {c : Cond} {p u w l : Bool} {rn rd : RegNum} {sh : BitVec 2} {off : HalfOffset}
    {x : Word} :
    encodeHalfTransfer c p u w l rn rd sh off = x ↔
      x.extractLsb' 28 4 = c.bits ∧ x.extractLsb' 25 3 = 0b000#3 ∧ x.getLsbD 24 = p ∧ x.getLsbD 23 = u ∧
        x.getLsbD 22 = off.isImm ∧ x.getLsbD 21 = w ∧ x.getLsbD 20 = l ∧ x.extractLsb' 16 4 = rn ∧
        x.extractLsb' 12 4 = rd ∧ x.extractLsb' 8 4 = off.hiBits ∧ x.getLsbD 7 = true ∧ x.extractLsb' 5 2 = sh ∧
        x.getLsbD 4 = true ∧ x.extractLsb' 0 4 = off.loBits := by
  rw [eq_iff_hasField, encodeHalfTransfer]
  simp only [hasField_append]
  simp only [hasField_bit, hasField_bit_one, Nat.reduceAdd, and_assoc]
  rfl

theorem encodeMultiple_eq_iff {c : Cond} {p u s w l : Bool} {rn : RegNum} {list : BitVec 16} {x : Word} :
    encodeMultiple c p u s w l rn list = x ↔
      x.extractLsb' 28 4 = c.bits ∧ x.extractLsb' 25 3 = 0b100#3 ∧ x.getLsbD 24 = p ∧ x.getLsbD 23 = u ∧
        x.getLsbD 22 = s ∧ x.getLsbD 21 = w ∧ x.getLsbD 20 = l ∧ x.extractLsb' 16 4 = rn ∧
        x.extractLsb' 0 16 = list := by
  rw [eq_iff_hasField, encodeMultiple]
  simp only [hasField_append]
  simp only [hasField_bit, Nat.reduceAdd, and_assoc]
  rfl

theorem encodeCoprocTransfer_eq_iff {c : Cond} {p u n w l : Bool} {rn : RegNum} {crd cp : BitVec 4}
    {off8 : BitVec 8} {x : Word} :
    encodeCoprocTransfer c p u n w l rn crd cp off8 = x ↔
      x.extractLsb' 28 4 = c.bits ∧ x.extractLsb' 25 3 = 0b110#3 ∧ x.getLsbD 24 = p ∧ x.getLsbD 23 = u ∧
        x.getLsbD 22 = n ∧ x.getLsbD 21 = w ∧ x.getLsbD 20 = l ∧ x.extractLsb' 16 4 = rn ∧
        x.extractLsb' 12 4 = crd ∧ x.extractLsb' 8 4 = cp ∧ x.extractLsb' 0 8 = off8 := by
  rw [eq_iff_hasField, encodeCoprocTransfer]
  simp only [hasField_append]
  simp only [hasField_bit, Nat.reduceAdd, and_assoc]
  rfl

theorem encodeCoprocRegister_eq_iff {c : Cond} {op1 : BitVec 3} {l : Bool} {crn rd cp : BitVec 4}
    {op2 : BitVec 3} {crm : BitVec 4} {x : Word} :
    encodeCoprocRegister c op1 l crn rd cp op2 crm = x ↔
      x.extractLsb' 28 4 = c.bits ∧ x.extractLsb' 24 4 = 0b1110#4 ∧ x.extractLsb' 21 3 = op1 ∧ x.getLsbD 20 = l ∧
        x.extractLsb' 16 4 = crn ∧ x.extractLsb' 12 4 = rd ∧ x.extractLsb' 8 4 = cp ∧ x.extractLsb' 5 3 = op2 ∧
        x.getLsbD 4 = true ∧ x.extractLsb' 0 4 = crm := by
  rw [eq_iff_hasField, encodeCoprocRegister]
  simp only [hasField_append]
  simp only [hasField_bit, hasField_bit_one, Nat.reduceAdd, and_assoc]
  rfl

/-- R99's format with bits 19:8 in one field: BX, BLX (register), BKPT. -/
theorem controlWord_eq_iff {cb : BitVec 4} {mid : BitVec 12} {lo n3 : BitVec 4} {x : Word} :
    cb ++ 0b00010010#8 ++ mid ++ lo ++ n3 = x ↔
      x.extractLsb' 28 4 = cb ∧ x.extractLsb' 20 8 = 0b00010010#8 ∧ x.extractLsb' 8 12 = mid ∧
        x.extractLsb' 4 4 = lo ∧ x.extractLsb' 0 4 = n3 := by
  rw [eq_iff_hasField]
  simp only [hasField_append]
  simp only [Nat.reduceAdd, and_assoc]
  rfl

/-- A word of a condition field and the 28 bits of a region of the opcode map. -/
theorem regionWord_eq_iff {cb : BitVec 4} {bits : BitVec 28} {x : Word} :
    cb ++ bits = x ↔ x.extractLsb' 28 4 = cb ∧ x.extractLsb' 0 28 = bits := by
  rw [eq_iff_hasField]
  exact hasField_append

/-- The format of a branch and of SWI: four bits, and 24 of an immediate. -/
theorem immediateWord_eq_iff {cb code : BitVec 4} {imm : BitVec 24} {x : Word} :
    cb ++ code ++ imm = x ↔
      x.extractLsb' 28 4 = cb ∧ x.extractLsb' 24 4 = code ∧ x.extractLsb' 0 24 = imm := by
  rw [eq_iff_hasField]
  simp only [hasField_append]
  simp only [Nat.reduceAdd, and_assoc]
  rfl

theorem encode_msrImm_eq_iff {c : Cond} {r : Bool} {mask sbo rotate : BitVec 4} {imm8 : BitVec 8} {x : Word} :
    encode (.msrImm c r mask sbo rotate imm8) = x ↔
      x.extractLsb' 28 4 = c.bits ∧ x.extractLsb' 23 5 = 0b00110#5 ∧ x.getLsbD 22 = r ∧ x.extractLsb' 20 2 = 0b10#2 ∧
        x.extractLsb' 16 4 = mask ∧ x.extractLsb' 12 4 = sbo ∧ x.extractLsb' 8 4 = rotate ∧
        x.extractLsb' 0 8 = imm8 := by
  rw [eq_iff_hasField, encode]
  simp only [hasField_append]
  simp only [hasField_bit, Nat.reduceAdd, and_assoc]
  rfl

theorem encode_unusedArithmetic_eq_iff {c : Cond} {hi : BitVec 2} {mid : BitVec 12} {lo : BitVec 4} {x : Word} :
    encode (.unusedArithmetic c hi mid lo) = x ↔
      x.extractLsb' 28 4 = c.bits ∧ x.extractLsb' 22 6 = 0b000001#6 ∧ x.extractLsb' 20 2 = hi ∧
        x.extractLsb' 8 12 = mid ∧ x.extractLsb' 4 4 = 0b1001#4 ∧ x.extractLsb' 0 4 = lo := by
  rw [eq_iff_hasField, encode]
  simp only [hasField_append]
  simp only [Nat.reduceAdd, and_assoc]
  rfl

theorem encode_undefined_eq_iff {c : Cond} {hi : BitVec 20} {lo : BitVec 4} {x : Word} :
    encode (.undefined c hi lo) = x ↔
      x.extractLsb' 28 4 = c.bits ∧ x.extractLsb' 25 3 = 0b011#3 ∧ x.extractLsb' 5 20 = hi ∧ x.getLsbD 4 = true ∧
        x.extractLsb' 0 4 = lo := by
  rw [eq_iff_hasField, encode]
  simp only [hasField_append]
  simp only [hasField_bit_one, Nat.reduceAdd, and_assoc]
  rfl

theorem encode_blxImm_eq_iff {h : Bool} {off : BitVec 24} {x : Word} :
    encode (.blxImm h off) = x ↔
      x.extractLsb' 25 7 = 0b1111101#7 ∧ x.getLsbD 24 = h ∧ x.extractLsb' 0 24 = off := by
  rw [eq_iff_hasField, encode]
  simp only [hasField_append]
  simp only [hasField_bit, Nat.reduceAdd, and_assoc]
  rfl

theorem encode_unusedCoprocessor_eq_iff {c : Cond} {n l : Bool} {rest : BitVec 20} {x : Word} :
    encode (.unusedCoprocessor c n l rest) = x ↔
      x.extractLsb' 28 4 = c.bits ∧ x.extractLsb' 23 5 = 0b11000#5 ∧ x.getLsbD 22 = n ∧ x.getLsbD 21 = false ∧
        x.getLsbD 20 = l ∧ x.extractLsb' 0 20 = rest := by
  rw [eq_iff_hasField, encode]
  simp only [hasField_append]
  simp only [hasField_bit, hasField_bit_zero, Nat.reduceAdd, and_assoc]
  rfl

theorem encode_cdp_eq_iff {c : Cond} {op1 crn crd cp : BitVec 4} {op2 : BitVec 3} {crm : BitVec 4} {x : Word} :
    encode (.cdp c op1 crn crd cp op2 crm) = x ↔
      x.extractLsb' 28 4 = c.bits ∧ x.extractLsb' 24 4 = 0b1110#4 ∧ x.extractLsb' 20 4 = op1 ∧
        x.extractLsb' 16 4 = crn ∧ x.extractLsb' 12 4 = crd ∧ x.extractLsb' 8 4 = cp ∧ x.extractLsb' 5 3 = op2 ∧
        x.getLsbD 4 = false ∧ x.extractLsb' 0 4 = crm := by
  rw [eq_iff_hasField, encode]
  simp only [hasField_append]
  simp only [hasField_bit_zero, Nat.reduceAdd, and_assoc]
  rfl

/-! ## Operands (R95 to R97, R100, R101) -/

/-- The bits of a register shifted by an immediate amount, of operand 2 and of a transfer's offset (R96, R100). -/
theorem shiftImm_field_iff {w : Word} {rm : RegNum} {kind : ShiftKind} {amount : BitVec 5} :
    w.extractLsb' 0 12 = amount ++ kind.bits ++ 0#1 ++ rm ↔
      w.extractLsb' 7 5 = amount ∧ w.extractLsb' 5 2 = kind.bits ∧ w.getLsbD 4 = false ∧ w.extractLsb' 0 4 = rm := by
  change HasField w 0 _ ↔ _
  simp only [hasField_append]
  simp only [hasField_bit_zero, Nat.reduceAdd, and_assoc]
  rfl

/-- The bits of a register shifted by a register amount (R97). -/
theorem shiftReg_field_iff {w : Word} {rm rs : RegNum} {kind : ShiftKind} :
    w.extractLsb' 0 12 = rs ++ 0#1 ++ kind.bits ++ 1#1 ++ rm ↔
      w.extractLsb' 8 4 = rs ∧ w.getLsbD 7 = false ∧ w.extractLsb' 5 2 = kind.bits ∧ w.getLsbD 4 = true ∧
        w.extractLsb' 0 4 = rm := by
  change HasField w 0 _ ↔ _
  simp only [hasField_append]
  simp only [hasField_bit_zero, hasField_bit_one, Nat.reduceAdd, and_assoc]
  rfl

theorem bits_decodeImmOperand (w : Word) : w.extractLsb' 0 12 = (decodeImmOperand w).bits :=
  (hasField_append (m := 4) (n := 8)).2 ⟨rfl, rfl⟩

theorem decodeImmOperand_of_bits {op : Operand2} {w : Word} (hi : op.isImm = true)
    (h : w.extractLsb' 0 12 = op.bits) : decodeImmOperand w = op := by
  cases op with
  | imm rotate imm8 =>
    obtain ⟨rfl, rfl⟩ := (hasField_append (m := 4) (n := 8)).1 h
    rfl
  | shiftImm | shiftReg => cases hi

theorem isImm_decodeRegOperand (w : Word) : (decodeRegOperand w).isImm = false := by
  unfold decodeRegOperand
  split <;> rfl

theorem bits_decodeRegOperand {w : Word} (h : (w.getLsbD 7 && w.getLsbD 4) = false) :
    w.extractLsb' 0 12 = (decodeRegOperand w).bits := by
  unfold decodeRegOperand
  split
  · next h4 =>
    rw [h4, Bool.and_true] at h
    exact shiftReg_field_iff.2 ⟨rfl, h, (ShiftKind.bits_ofBits _).symm, h4, rfl⟩
  · next h4 => exact shiftImm_field_iff.2 ⟨rfl, (ShiftKind.bits_ofBits _).symm, Bool.eq_false_iff.2 h4, rfl⟩

/-- A register operand has not both bit 7 and bit 4 set: the extra space is apart from it (R93, R96, R97). -/
theorem decodeRegOperand_of_bits {op : Operand2} {w : Word} (hi : op.isImm = false)
    (h : w.extractLsb' 0 12 = op.bits) : (w.getLsbD 7 && w.getLsbD 4) = false ∧ decodeRegOperand w = op := by
  cases op with
  | imm => cases hi
  | shiftImm rm kind amount =>
    obtain ⟨rfl, hk, h4, rfl⟩ := shiftImm_field_iff.1 h
    rw [decodeRegOperand, h4, hk, ShiftKind.ofBits_bits, Bool.and_false]
    exact ⟨rfl, rfl⟩
  | shiftReg rm kind rs =>
    obtain ⟨rfl, h7, hk, h4, rfl⟩ := shiftReg_field_iff.1 h
    rw [decodeRegOperand, h7, h4, hk, ShiftKind.ofBits_bits, Bool.false_and]
    exact ⟨rfl, rfl⟩

theorem isReg_decodeWordOffset (w : Word) : w.getLsbD 25 = (decodeWordOffset w).isReg := by
  unfold decodeWordOffset
  cases w.getLsbD 25 <;> rfl

theorem bits_decodeWordOffset {w : Word} (h : (w.getLsbD 25 && w.getLsbD 4) = false) :
    w.extractLsb' 0 12 = (decodeWordOffset w).bits := by
  unfold decodeWordOffset
  split
  · next h25 =>
    rw [h25, Bool.true_and] at h
    exact shiftImm_field_iff.2 ⟨rfl, (ShiftKind.bits_ofBits _).symm, h, rfl⟩
  · rfl

/-- A scaled register has bit 4 clear: the undefined space is apart from it (R93, R100). -/
theorem decodeWordOffset_of_bits {off : WordOffset} {w : Word} (hr : w.getLsbD 25 = off.isReg)
    (h : w.extractLsb' 0 12 = off.bits) : (w.getLsbD 25 && w.getLsbD 4) = false ∧ decodeWordOffset w = off := by
  cases off with
  | imm imm12 =>
    rw [decodeWordOffset, hr, h]
    exact ⟨rfl, rfl⟩
  | scaled rm kind amount =>
    obtain ⟨rfl, hk, h4, rfl⟩ := shiftImm_field_iff.1 h
    rw [decodeWordOffset, hr, h4, hk, ShiftKind.ofBits_bits]
    exact ⟨rfl, rfl⟩

/-- The decoded offset holds the bits that R101 gives it. -/
theorem bits_decodeHalfOffset (w : Word) :
    w.getLsbD 22 = (decodeHalfOffset w).isImm ∧ w.extractLsb' 8 4 = (decodeHalfOffset w).hiBits ∧
      w.extractLsb' 0 4 = (decodeHalfOffset w).loBits := by
  unfold decodeHalfOffset
  cases w.getLsbD 22 with
  | false => exact ⟨rfl, rfl, rfl⟩
  | true => exact ⟨rfl, BitVec.extractLsb'_append_eq_left.symm, BitVec.extractLsb'_append_eq_right.symm⟩

theorem decodeHalfOffset_of_bits {off : HalfOffset} {w : Word} (hi : w.getLsbD 22 = off.isImm)
    (hhi : w.extractLsb' 8 4 = off.hiBits) (hlo : w.extractLsb' 0 4 = off.loBits) : decodeHalfOffset w = off := by
  rw [decodeHalfOffset, hi, hhi, hlo]
  cases off with
  | imm imm8 => exact congrArg HalfOffset.imm (BitVec.extractLsb'_append_extractLsb' (w := 4) (len := 4))
  | reg sbz rm => rfl

/-- The index form of the P and W bits, where they are not those of a T form (R100). -/
def Index.ofBits (p w : Bool) : Index := if p then (if w then .pre else .offset) else .post

theorem Index.bits_ofBits {p w : Bool} (h : (!p && w) = false) : p = (ofBits p w).p ∧ w = (ofBits p w).w := by
  cases p with
  | true => cases w <;> exact ⟨rfl, rfl⟩
  | false => exact ⟨rfl, h⟩

/-! ## The spaces of the opcode map (R93, R109, R133, R294 to R296) -/

section
variable {w : Word}

/-- Opcode `10xx` with S = 0, which is not data processing (R93, R99). -/
def controlSpace (w : Word) : Bool := w.extractLsb' 23 2 == 0b10#2 && !w.getLsbD 20

theorem controlSpace_iff : controlSpace w = true ↔ w.extractLsb' 23 2 = 0b10#2 ∧ w.getLsbD 20 = false := by
  rw [controlSpace, Bool.and_eq_true, beq_iff_eq, Bool.not_eq_true']

/-- The unassigned part of R294's table, as the tests that the decoder makes one after the other. -/
theorem controlAssigned_eq_false_iff {op : BitVec 2} {lo : BitVec 4} : controlAssigned op lo = false ↔
    lo ≠ 0b0000#4 ∧ ¬(lo = 0b0001#4 ∧ op = 0b01#2) ∧ ¬(lo = 0b0001#4 ∧ op = 0b11#2) ∧
      ¬(lo = 0b0011#4 ∧ op = 0b01#2) ∧ ¬(lo = 0b0111#4 ∧ op = 0b01#2) := by
  rw [← Bool.not_eq_true, controlAssigned]
  simp only [Bool.or_eq_true, Bool.and_eq_true, beq_iff_eq]
  tauto

/-- R294's table, on the fields of the word. -/
theorem inUnusedControl_iff : inUnusedControl (w.extractLsb' 0 28) = true ↔
    w.extractLsb' 23 2 = 0b10#2 ∧ w.getLsbD 20 = false ∧
      ((w.extractLsb' 25 3 = 0b000#3 ∧ (w.getLsbD 7 && w.getLsbD 4) = false ∧
          controlAssigned (w.extractLsb' 21 2) (w.extractLsb' 4 4) = false) ∨
        (w.extractLsb' 25 3 = 0b001#3 ∧ w.getLsbD 21 = false)) := by
  simp only [inUnusedControl, field_field w, BitVec.getLsbD_extractLsb', Nat.reduceAdd, Nat.reduceLeDiff,
    Nat.reduceLT, Nat.zero_add, decide_true, Bool.true_and, Bool.and_eq_true, Bool.or_eq_true, beq_iff_eq,
    Bool.not_eq_true']
  tauto

/-- R295's table, on the fields of the word. -/
theorem inUnusedLoadStore_iff : inUnusedLoadStore (w.extractLsb' 0 28) = true ↔
    w.extractLsb' 25 3 = 0b000#3 ∧ w.getLsbD 7 = true ∧ w.getLsbD 4 = true ∧
      ((w.extractLsb' 5 2 = 0b00#2 ∧ w.getLsbD 24 = true ∧ (w.getLsbD 23 = true ∨ w.extractLsb' 20 2 ≠ 0b00#2)) ∨
        (w.getLsbD 6 = true ∧ w.getLsbD 20 = false)) := by
  simp only [inUnusedLoadStore, field_field w, BitVec.getLsbD_extractLsb', Nat.reduceAdd, Nat.reduceLeDiff,
    Nat.reduceLT, Nat.zero_add, decide_true, Bool.true_and, Bool.and_eq_true, Bool.or_eq_true, beq_iff_eq, bne_iff_ne,
    Bool.not_eq_true', and_assoc]

/-- Below bits 7:4 = `1001` what is neither a multiply nor a swap is R295's first row. -/
theorem not_multiply_not_swap_iff : (w.extractLsb' 23 2 ≠ 0b00#2 ∧ w.extractLsb' 23 2 ≠ 0b01#2 ∧
      ¬(w.extractLsb' 23 2 = 0b10#2 ∧ w.extractLsb' 20 2 = 0b00#2)) ↔
    w.getLsbD 24 = true ∧ (w.getLsbD 23 = true ∨ w.extractLsb' 20 2 ≠ 0b00#2) := by
  have h23 : w.extractLsb' 23 2 = bit (w.getLsbD 24) ++ bit (w.getLsbD 23) :=
    field_low_bit (hasField_bit.2 rfl) rfl
  rw [h23]
  cases w.getLsbD 24 <;> cases w.getLsbD 23 <;> simp

/-- The decoder's test for the unused coprocessor space (R109). -/
theorem not_coprocTransfer (p u wb : Bool) : (!p && !u && !wb) = !coprocTransfer p u wb := by
  rw [coprocTransfer, Bool.not_or, Bool.not_or]

/-- The one code that is no condition (R133). -/
theorem Cond.ofBits_eq_none {b : BitVec 4} : Cond.ofBits b = none ↔ b = 0b1111#4 := by revert b; decide

end

end Sys2Proof
end

section
/-!
Proof of `DecodeOfEncode`: the fields of an encoding lead the decoder, test by test, back to the instruction
(spec/30_encoding.md R93), and `SpecWordsDecode`.
-/

namespace Sys2Proof

section
variable {c : Cond} {w : Word}

/-! ## The ways through the decoder (R93) -/

theorem decodeWord_of_cond (h : w.extractLsb' 28 4 = c.bits) : decodeWord w = decodeConditional c w := by
  rw [decodeWord, h, Cond.ofBits_bits]

theorem decodeWord_of_nv (h : w.extractLsb' 28 4 = 0b1111#4) :
    decodeWord w = if w.extractLsb' 25 3 = 0b101#3 then .blxImm (w.getLsbD 24) (w.extractLsb' 0 24)
    else .nvReserved (w.extractLsb' 0 28) := by
  rw [decodeWord, h]
  rfl

theorem decodeConditional_extra (hg : w.extractLsb' 25 3 = 0b000#3) (h7 : w.getLsbD 7 = true)
    (h4 : w.getLsbD 4 = true) : decodeConditional c w = decodeExtra c w := by
  rw [decodeConditional, hg, h7, h4]
  rfl

theorem decodeConditional_control (hg : w.extractLsb' 25 3 = 0b000#3) (h74 : (w.getLsbD 7 && w.getLsbD 4) = false)
    (h23 : w.extractLsb' 23 2 = 0b10#2) (h20 : w.getLsbD 20 = false) :
    decodeConditional c w = decodeControl c w := by
  rw [decodeConditional, hg, h74, h23, h20]
  rfl

theorem decodeConditional_dataProcessing {op : Operand2} (h26 : w.extractLsb' 26 2 = 0b00#2)
    (h25 : w.getLsbD 25 = op.isImm) (hop : w.extractLsb' 0 12 = op.bits) (hctl : controlSpace w = false) :
    decodeConditional c w = decodeDataProcessing c w op := by
  have hg := field_low_bit h26 h25
  unfold controlSpace at hctl
  cases hi : op.isImm with
  | true =>
    rw [decodeConditional, hctl, hg, hi, decodeImmOperand_of_bits hi hop]
    rfl
  | false =>
    obtain ⟨h74, e⟩ := decodeRegOperand_of_bits hi hop
    rw [decodeConditional, hctl, hg, hi, h74, e]
    rfl

theorem decodeConditional_wordTransfer (h26 : w.extractLsb' 26 2 = 0b01#2)
    (h254 : (w.getLsbD 25 && w.getLsbD 4) = false) : decodeConditional c w = decodeWordTransfer c w := by
  have hg := field_low_bit h26 rfl
  rw [decodeConditional, hg]
  cases h25 : w.getLsbD 25 with
  | false => rfl
  | true =>
    rw [h25, Bool.true_and] at h254
    rw [h254]
    rfl

theorem decodeConditional_multiple (hg : w.extractLsb' 25 3 = 0b100#3) :
    decodeConditional c w = decodeMultiple c w := by
  rw [decodeConditional, hg]
  rfl

theorem decodeConditional_coprocTransfer (hg : w.extractLsb' 25 3 = 0b110#3) :
    decodeConditional c w = decodeCoprocTransfer c w := by
  rw [decodeConditional, hg]
  rfl

theorem decodeConditional_system (hg : w.extractLsb' 25 3 = 0b111#3) :
    decodeConditional c w = decodeSystem c w := by
  rw [decodeConditional, hg]
  rfl

theorem decodeExtra_multiply (h65 : w.extractLsb' 5 2 = 0b00#2) : decodeExtra c w = decodeMultiply c w := by
  rw [decodeExtra, bit_of_field h65 1, bit_of_field h65 0]
  rfl

theorem decodeControl_unassigned (h : controlAssigned (w.extractLsb' 21 2) (w.extractLsb' 4 4) = false) :
    decodeControl c w = .unusedControl c (w.extractLsb' 0 28) := by
  obtain ⟨h0, h1, h1', h3, h7⟩ := controlAssigned_eq_false_iff.1 h
  simp only [decodeControl, if_neg h0, if_neg h1, if_neg h1', if_neg h3, if_neg h7]

theorem decodeMultiply_unassigned (h24 : w.getLsbD 24 = true)
    (hu : w.getLsbD 23 = true ∨ w.extractLsb' 20 2 ≠ 0b00#2) :
    decodeMultiply c w = .unusedLoadStore c (w.extractLsb' 0 28) := by
  obtain ⟨hmul, hlong, hswap⟩ := not_multiply_not_swap_iff.2 ⟨h24, hu⟩
  simp only [decodeMultiply, if_neg hmul, if_neg hlong, if_neg hswap]

/-! ## Decoding each format -/

theorem decodeWord_dataProcessing {o : BitVec 4} {s : Bool} {rn rd : RegNum} {op : Operand2}
    (h : encodeDataProcessing c o s rn rd op = w) (hctl : (o.extractLsb' 2 2 == 0b10#2 && !s) = false) :
    decodeWord w = decodeDataProcessing c w op ∧ w.extractLsb' 21 4 = o ∧ w.getLsbD 20 = s ∧
      w.extractLsb' 16 4 = rn ∧ w.extractLsb' 12 4 = rd := by
  obtain ⟨hc, h26, h25, ho, hs, hrn, hrd, hop⟩ := encodeDataProcessing_eq_iff.1 h
  have h23 : w.extractLsb' 23 2 = o.extractLsb' 2 2 := subfield ho 2 2
  rw [decodeWord_of_cond hc, decodeConditional_dataProcessing h26 h25 hop (by rwa [controlSpace, h23, hs])]
  exact ⟨rfl, ho, hs, hrn, hrd⟩

/-- Bits 7:4 = `1001` below bits 27:25 = `000`: the multiplies and the swaps (R93). -/
theorem decodeWord_multiplySpace (hc : w.extractLsb' 28 4 = c.bits) (hg : w.extractLsb' 25 3 = 0b000#3)
    (h4 : w.extractLsb' 4 4 = 0b1001#4) : decodeWord w = decodeMultiply c w := by
  rw [decodeWord_of_cond hc, decodeConditional_extra hg (bit_of_field h4 3) (bit_of_field h4 0),
    decodeExtra_multiply (subfield h4 1 2)]

theorem decodeWord_multiply {code : BitVec 3} {s : Bool} {hi lo rs rm : RegNum}
    (h : encodeMultiply c code s hi lo rs rm = w) :
    decodeWord w = decodeMultiply c w ∧ w.extractLsb' 23 2 = 0#1 ++ bit (code.getLsbD 2) ∧
      w.getLsbD 22 = code.getLsbD 1 ∧ w.getLsbD 21 = code.getLsbD 0 ∧ w.getLsbD 20 = s ∧
      w.extractLsb' 16 4 = hi ∧ w.extractLsb' 12 4 = lo ∧ w.extractLsb' 8 4 = rs ∧ w.extractLsb' 0 4 = rm := by
  obtain ⟨hc, h24, hcode, hs, hhi, hlo, hrs, h4, hrm⟩ := encodeMultiply_eq_iff.1 h
  exact ⟨decodeWord_multiplySpace hc (subfield h24 1 3) h4,
    field_low_bit (subfield h24 0 1) (bit_of_field hcode 2),
    bit_of_field hcode 1, bit_of_field hcode 0, hs, hhi, hlo, hrs, hrm⟩

theorem decodeWord_swap {b : Bool} {rn rd rm : RegNum} {sbz : BitVec 4}
    (h : encodeControl c (bit b ++ 0#1) rn rd sbz 0b1001#4 rm = w) :
    decodeWord w = if b then .swpb c rn rd sbz rm else .swp c rn rd sbz rm := by
  obtain ⟨hc, h23, ho, h20, rfl, rfl, rfl, h4, rfl⟩ := encodeControl_eq_iff.1 h
  have h23' : w.extractLsb' 23 2 = 0b10#2 := subfield h23 0 2
  obtain ⟨h22, h21⟩ := (hasField_append (m := 1) (n := 1)).1 ho
  have h20' : w.extractLsb' 20 2 = 0#1 ++ bit false := field_low_bit h21 h20
  rw [decodeWord_multiplySpace hc (subfield h23 2 3) h4, decodeMultiply, h23', h20', hasField_bit.1 h22]
  rfl

/-- Bits 7 and 4 are the outer ones of bits 7:4. -/
theorem bits_7_4_of_field {lo : BitVec 4} (h4 : w.extractLsb' 4 4 = lo)
    (hlo : (lo.getLsbD 3 && lo.getLsbD 0) = false) : (w.getLsbD 7 && w.getLsbD 4) = false := by
  rw [← hlo, ← bit_of_field h4 3, ← bit_of_field h4 0]

theorem decodeWord_control {op : BitVec 2} {n19 n15 n11 lo n3 : BitVec 4}
    (h : encodeControl c op n19 n15 n11 lo n3 = w) (hlo : (lo.getLsbD 3 && lo.getLsbD 0) = false) :
    decodeWord w = decodeControl c w ∧ w.extractLsb' 21 2 = op ∧ w.extractLsb' 16 4 = n19 ∧
      w.extractLsb' 12 4 = n15 ∧ w.extractLsb' 8 4 = n11 ∧ w.extractLsb' 4 4 = lo ∧ w.extractLsb' 0 4 = n3 := by
  obtain ⟨hc, h23, ho, h20, h16, h12, h8, h4, h0⟩ := encodeControl_eq_iff.1 h
  rw [decodeWord_of_cond hc,
    decodeConditional_control (subfield h23 2 3) (bits_7_4_of_field h4 hlo) (subfield h23 0 2) h20]
  exact ⟨rfl, ho, h16, h12, h8, h4, h0⟩

theorem decodeWord_controlWord {mid : BitVec 12} {lo n3 : BitVec 4}
    (h : c.bits ++ 0b00010010#8 ++ mid ++ lo ++ n3 = w) (hlo : (lo.getLsbD 3 && lo.getLsbD 0) = false) :
    decodeWord w = decodeControl c w ∧ w.extractLsb' 21 2 = 0b01#2 ∧ w.extractLsb' 8 12 = mid ∧
      w.extractLsb' 4 4 = lo ∧ w.extractLsb' 0 4 = n3 := by
  obtain ⟨hc, h20, h8, h4, h0⟩ := controlWord_eq_iff.1 h
  rw [decodeWord_of_cond hc, decodeConditional_control (subfield h20 5 3) (bits_7_4_of_field h4 hlo)
    (subfield h20 3 2) (bit_of_field h20 0)]
  exact ⟨rfl, subfield h20 1 2, h8, h4, h0⟩

theorem halves_of_fields {imm : BitVec 16} (h8 : w.extractLsb' 8 12 = imm.extractLsb' 4 12)
    (h0 : w.extractLsb' 0 4 = imm.extractLsb' 0 4) : w.extractLsb' 8 12 ++ w.extractLsb' 0 4 = imm := by
  rw [h8, h0]
  exact BitVec.extractLsb'_append_extractLsb' (w := 12) (len := 4)

theorem decodeWord_halfTransfer {p u wb l : Bool} {rn rd : RegNum} {sh : BitVec 2} {off : HalfOffset}
    (h : encodeHalfTransfer c p u wb l rn rd sh off = w) :
    decodeWord w = decodeExtra c w ∧ w.getLsbD 24 = p ∧ w.getLsbD 23 = u ∧ w.getLsbD 21 = wb ∧ w.getLsbD 20 = l ∧
      w.extractLsb' 16 4 = rn ∧ w.extractLsb' 12 4 = rd ∧ w.getLsbD 6 = sh.getLsbD 1 ∧ w.getLsbD 5 = sh.getLsbD 0 ∧
      decodeHalfOffset w = off := by
  obtain ⟨hc, hg, hp, hu, h22, hw, hl, hrn, hrd, h8, h7, h5, h4, h0⟩ := encodeHalfTransfer_eq_iff.1 h
  rw [decodeWord_of_cond hc, decodeConditional_extra hg h7 h4]
  exact ⟨rfl, hp, hu, hw, hl, hrn, hrd, bit_of_field h5 1, bit_of_field h5 0,
    decodeHalfOffset_of_bits h22 h8 h0⟩

theorem decodeWord_wordTransfer {p u b wb l : Bool} {rn rd : RegNum} {off : WordOffset}
    (h : encodeWordTransfer c p u b wb l rn rd off = w) :
    decodeWord w = decodeWordTransfer c w ∧ w.getLsbD 24 = p ∧ w.getLsbD 23 = u ∧ w.getLsbD 22 = b ∧
      w.getLsbD 21 = wb ∧ w.getLsbD 20 = l ∧ w.extractLsb' 16 4 = rn ∧ w.extractLsb' 12 4 = rd ∧
      decodeWordOffset w = off := by
  obtain ⟨hc, h26, h25, hp, hu, hb, hw, hl, hrn, hrd, hoff⟩ := encodeWordTransfer_eq_iff.1 h
  obtain ⟨h254, e⟩ := decodeWordOffset_of_bits h25 hoff
  rw [decodeWord_of_cond hc, decodeConditional_wordTransfer h26 h254]
  exact ⟨rfl, hp, hu, hb, hw, hl, hrn, hrd, e⟩

theorem decodeWord_multiple {p u s wb l : Bool} {rn : RegNum} {list : BitVec 16}
    (h : encodeMultiple c p u s wb l rn list = w) :
    decodeWord w = decodeMultiple c w ∧ w.getLsbD 24 = p ∧ w.getLsbD 23 = u ∧ w.getLsbD 22 = s ∧
      w.getLsbD 21 = wb ∧ w.getLsbD 20 = l ∧ w.extractLsb' 16 4 = rn ∧ w.extractLsb' 0 16 = list := by
  obtain ⟨hc, hg, hfields⟩ := encodeMultiple_eq_iff.1 h
  rw [decodeWord_of_cond hc, decodeConditional_multiple hg]
  exact ⟨rfl, hfields⟩

theorem decodeWord_userMultiple {p u wb b : Bool} {rn : RegNum} {list : BitVec 15}
    (h : encodeMultiple c p u true wb true rn (bit b ++ list) = w) :
    decodeWord w = if b then .ldmRestore c p u wb rn list else .ldmUser c p u wb rn list := by
  obtain ⟨e, rfl, rfl, h22, rfl, h20, rfl, hlist⟩ := decodeWord_multiple h
  obtain ⟨h15, rfl⟩ := (hasField_append (m := 1) (n := 15)).1 hlist
  rw [e, decodeMultiple, h20, h22, hasField_bit.1 h15]
  rfl

theorem decodeWord_coprocTransfer {p u n wb l : Bool} {rn : RegNum} {crd cp : BitVec 4} {off8 : BitVec 8}
    (h : encodeCoprocTransfer c p u n wb l rn crd cp off8 = w) (hw : coprocTransfer p u wb = true) :
    decodeWord w = if l then .ldc c p u n wb rn crd cp off8 else .stc c p u n wb rn crd cp off8 := by
  obtain ⟨hc, hg, rfl, rfl, rfl, rfl, rfl, rfl, rfl, rfl, rfl⟩ := encodeCoprocTransfer_eq_iff.1 h
  rw [decodeWord_of_cond hc, decodeConditional_coprocTransfer hg, decodeCoprocTransfer, not_coprocTransfer, hw]
  rfl

theorem decodeWord_coprocRegister {op1 : BitVec 3} {l : Bool} {crn rd cp : BitVec 4} {op2 : BitVec 3}
    {crm : BitVec 4} (h : encodeCoprocRegister c op1 l crn rd cp op2 crm = w) :
    decodeWord w = if l then .mrc c op1 crn rd cp op2 crm else .mcr c op1 crn rd cp op2 crm := by
  obtain ⟨hc, h24, rfl, rfl, rfl, rfl, rfl, rfl, h4, rfl⟩ := encodeCoprocRegister_eq_iff.1 h
  have hb : w.getLsbD 24 = false := bit_of_field h24 0
  rw [decodeWord_of_cond hc, decodeConditional_system (subfield h24 1 3), decodeSystem, hb, h4]
  rfl

theorem decodeWord_unusedControl {bits : BitVec 28} (hwf : inUnusedControl bits = true) (h : c.bits ++ bits = w) :
    decodeWord w = .unusedControl c bits := by
  obtain ⟨hc, rfl⟩ := regionWord_eq_iff.1 h
  obtain ⟨h23, h20, ⟨hg, h74, hu⟩ | ⟨hg, h21⟩⟩ := inUnusedControl_iff.1 hwf
  · rw [decodeWord_of_cond hc, decodeConditional_control hg h74 h23 h20, decodeControl_unassigned hu]
  · rw [decodeWord_of_cond hc, decodeConditional, hg, h23, h20, h21]
    rfl

theorem decodeWord_unusedLoadStore {bits : BitVec 28} (hwf : inUnusedLoadStore bits = true)
    (h : c.bits ++ bits = w) : decodeWord w = .unusedLoadStore c bits := by
  obtain ⟨hc, rfl⟩ := regionWord_eq_iff.1 h
  obtain ⟨hg, h7, h4, ⟨h65, h24, hu⟩ | ⟨h6, h20⟩⟩ := inUnusedLoadStore_iff.1 hwf
  · rw [decodeWord_of_cond hc, decodeConditional_extra hg h7 h4, decodeExtra_multiply h65,
      decodeMultiply_unassigned h24 hu]
  · rw [decodeWord_of_cond hc, decodeConditional_extra hg h7 h4, decodeExtra, h6, h20]
    rfl

theorem decodeWord_nvReserved {bits : BitVec 28} (hwf : inNvReserved bits = true) (h : 0b1111#4 ++ bits = w) :
    decodeWord w = .nvReserved bits := by
  obtain ⟨hc, rfl⟩ := regionWord_eq_iff.1 h
  rw [inNvReserved, field_field w (by decide), bne_iff_ne] at hwf
  rw [decodeWord_of_nv hc, if_neg hwf]

end

/-! ## Every instruction -/

/-- Every well-formed instruction is what its encoding decodes to (R93 to R109): its operands are fields of the word,
and the bits that its format fixes pass the decoder's tests. -/
theorem decodeWord_of_encode {i : Instr} (hwf : i.wellFormed = true) {w : Word} (h : encode i = w) :
    decodeWord w = i := by
  cases i with
  | and c s rn rd op | eor c s rn rd op | sub c s rn rd op | rsb c s rn rd op | add c s rn rd op | adc c s rn rd op
  | sbc c s rn rd op | rsc c s rn rd op | orr c s rn rd op | mov c s rn rd op | bic c s rn rd op
  | mvn c s rn rd op =>
    obtain ⟨e, ho, rfl, rfl, rfl⟩ := decodeWord_dataProcessing h rfl
    rw [e, decodeDataProcessing, ho]
    rfl
  | tst c rn rd op | teq c rn rd op | cmp c rn rd op | cmn c rn rd op =>
    obtain ⟨e, ho, -, rfl, rfl⟩ := decodeWord_dataProcessing h rfl
    rw [e, decodeDataProcessing, ho]
    rfl
  | mrs c r sbo rd sbzHi sbzLo =>
    obtain ⟨e, ho, rfl, rfl, rfl, hlo, rfl⟩ := decodeWord_control h rfl
    obtain ⟨h22, h21⟩ := (hasField_append (m := 1) (n := 1)).1 ho
    rw [e, decodeControl, hlo, hasField_bit.1 h22, hasField_bit_zero.1 h21]
    rfl
  | msrReg c r mask sbo sbz rm =>
    obtain ⟨e, ho, rfl, rfl, rfl, hlo, rfl⟩ := decodeWord_control h rfl
    obtain ⟨h22, h21⟩ := (hasField_append (m := 1) (n := 1)).1 ho
    rw [e, decodeControl, hlo, hasField_bit.1 h22, hasField_bit_one.1 h21]
    rfl
  | msrImm c r mask sbo rotate imm8 =>
    obtain ⟨hc, h23, rfl, h20, rfl, rfl, rfl, rfl⟩ := encode_msrImm_eq_iff.1 h
    have hg : w.extractLsb' 25 3 = 0b001#3 := subfield h23 2 3
    have h23' : w.extractLsb' 23 2 = 0b10#2 := subfield h23 0 2
    have h21 : w.getLsbD 21 = true := bit_of_field h20 1
    have h20' : w.getLsbD 20 = false := bit_of_field h20 0
    rw [decodeWord_of_cond hc, decodeConditional, hg, h23', h21, h20']
    rfl
  | clz c f1 rd f2 rm =>
    obtain ⟨e, ho, rfl, rfl, rfl, hlo, rfl⟩ := decodeWord_control h rfl
    rw [e, decodeControl, hlo, ho]
    rfl
  | bx c sbo rm | blxReg c sbo rm =>
    obtain ⟨e, ho, rfl, hlo, rfl⟩ := decodeWord_controlWord h rfl
    rw [e, decodeControl, hlo, ho]
    rfl
  | bkpt imm =>
    obtain ⟨e, ho, hmid, hlo, hn3⟩ := decodeWord_controlWord (c := .al) h rfl
    rw [e, decodeControl, hlo, ho, halves_of_fields hmid hn3]
    rfl
  | bkptNotAl c imm =>
    obtain ⟨e, ho, hmid, hlo, hn3⟩ := decodeWord_controlWord h rfl
    rw [e, decodeControl, hlo, ho, halves_of_fields hmid hn3]
    exact if_neg (bne_iff_ne.1 hwf)
  | unusedControl c bits => exact decodeWord_unusedControl hwf h
  | mul c s rd rn rs rm | mla c s rd rn rs rm | umull c s rd rn rs rm | umlal c s rd rn rs rm | smull c s rd rn rs rm
  | smlal c s rd rn rs rm =>
    obtain ⟨e, h23, h22, h21, rfl, rfl, rfl, rfl, rfl⟩ := decodeWord_multiply h
    rw [e, decodeMultiply, h23, h22, h21]
    rfl
  | unusedArithmetic c hi mid lo =>
    obtain ⟨hc, h22, rfl, rfl, h4, rfl⟩ := encode_unusedArithmetic_eq_iff.1 h
    have h23 : w.extractLsb' 23 2 = 0b00#2 := subfield h22 1 2
    have h22' : w.getLsbD 22 = true := bit_of_field h22 0
    rw [decodeWord_multiplySpace hc (subfield h22 3 3) h4, decodeMultiply, h23, h22']
    rfl
  | swp c rn rd sbz rm => exact decodeWord_swap (b := false) h
  | swpb c rn rd sbz rm => exact decodeWord_swap (b := true) h
  | unusedLoadStore c bits => exact decodeWord_unusedLoadStore hwf h
  | strh c p u wb rn rd off | ldrh c p u wb rn rd off | ldrsb c p u wb rn rd off | ldrsh c p u wb rn rd off =>
    obtain ⟨e, rfl, rfl, rfl, h20, rfl, rfl, h6, h5, rfl⟩ := decodeWord_halfTransfer h
    rw [e, decodeExtra, h6, h5, h20]
    rfl
  | ldr c ix up rn rd off | ldrb c ix up rn rd off | str c ix up rn rd off | strb c ix up rn rd off =>
    obtain ⟨e, h24, rfl, h22, h21, h20, rfl, rfl, rfl⟩ := decodeWord_wordTransfer h
    rw [e, decodeWordTransfer, h24, h22, h21, h20]
    cases ix <;> rfl
  | ldrt c up rn rd off | ldrbt c up rn rd off | strt c up rn rd off | strbt c up rn rd off =>
    obtain ⟨e, h24, rfl, h22, h21, h20, rfl, rfl, rfl⟩ := decodeWord_wordTransfer h
    rw [e, decodeWordTransfer, h24, h22, h21, h20]
    rfl
  | undefined c hi lo =>
    obtain ⟨hc, hg, rfl, h4, rfl⟩ := encode_undefined_eq_iff.1 h
    rw [decodeWord_of_cond hc, decodeConditional, hg, h4]
    rfl
  | ldm c p u wb rn list | stm c p u wb rn list | stmUser c p u wb rn list =>
    obtain ⟨e, rfl, rfl, h22, rfl, h20, rfl, rfl⟩ := decodeWord_multiple h
    rw [e, decodeMultiple, h20, h22]
    rfl
  | ldmUser c p u wb rn list => exact decodeWord_userMultiple (b := false) h
  | ldmRestore c p u wb rn list => exact decodeWord_userMultiple (b := true) h
  | b c off | bl c off =>
    obtain ⟨hc, h24, rfl⟩ := immediateWord_eq_iff.1 h
    have hg : w.extractLsb' 25 3 = 0b101#3 := subfield h24 1 3
    rw [decodeWord_of_cond hc, decodeConditional, hg, bit_of_field h24 0]
    rfl
  | swi c imm =>
    obtain ⟨hc, h24, rfl⟩ := immediateWord_eq_iff.1 h
    have hb : w.getLsbD 24 = true := bit_of_field h24 0
    rw [decodeWord_of_cond hc, decodeConditional_system (subfield h24 1 3), decodeSystem, hb]
    rfl
  | blxImm hbit off =>
    obtain ⟨h25, rfl, rfl⟩ := encode_blxImm_eq_iff.1 h
    exact (decodeWord_of_nv (subfield h25 3 4)).trans (if_pos (subfield h25 0 3))
  | nvReserved bits => exact decodeWord_nvReserved hwf h
  | unusedCoprocessor c n l rest =>
    obtain ⟨hc, h23, rfl, h21, rfl, rfl⟩ := encode_unusedCoprocessor_eq_iff.1 h
    have h24 : w.getLsbD 24 = false := bit_of_field h23 1
    have h23' : w.getLsbD 23 = false := bit_of_field h23 0
    rw [decodeWord_of_cond hc, decodeConditional_coprocTransfer (subfield h23 2 3), decodeCoprocTransfer,
      h24, h23', h21]
    rfl
  | ldc c p u n wb rn crd cp off8 | stc c p u n wb rn crd cp off8 => exact decodeWord_coprocTransfer h hwf
  | cdp c op1 crn crd cp op2 crm =>
    obtain ⟨hc, h24, rfl, rfl, rfl, rfl, rfl, h4, rfl⟩ := encode_cdp_eq_iff.1 h
    have hb : w.getLsbD 24 = false := bit_of_field h24 0
    rw [decodeWord_of_cond hc, decodeConditional_system (subfield h24 1 3), decodeSystem, hb, h4]
    rfl
  | mcr c op1 crn rd cp op2 crm | mrc c op1 crn rd cp op2 crm => exact decodeWord_coprocRegister h

end Sys2Proof

namespace Sys2Proof.Machine

/-- Settles O2, by `decodeWord_of_encode`. -/
theorem decodeOfEncode : Obligations.DecodeOfEncode := fun _ hwf => decodeWord_of_encode hwf rfl

/-- Settles O1: the decoder evaluated on each word. -/
theorem specWordsDecode : Obligations.SpecWordsDecode := ⟨rfl, rfl, rfl, rfl, rfl, rfl, rfl, rfl, rfl, rfl⟩

end Sys2Proof.Machine
end

section
/-!
Proof of `EncodeOfDecode`: each part of the decoder answers a well-formed instruction that encodes to the word, by the
tests on the way to it (spec/30_encoding.md R93, R112).
-/

namespace Sys2Proof

/-- The instruction is well-formed and its encoding is the word (R112). -/
def Encodes (i : Instr) (w : Word) : Prop := i.wellFormed = true ∧ encode i = w

/-- Along a test of the decoder. -/
theorem encodes_ite {P : Prop} [Decidable P] {i j : Instr} {w : Word} (hi : P → Encodes i w)
    (hj : ¬P → Encodes j w) : Encodes (if P then i else j) w := by
  split
  · next h => exact hi h
  · next h => exact hj h

theorem encodes_cond {b : Bool} {i j : Instr} {w : Word} (hi : b = true → Encodes i w)
    (hj : b = false → Encodes j w) : Encodes (if b then i else j) w :=
  encodes_ite hi fun h => hj (Bool.eq_false_iff.2 h)

section
variable {c : Cond} {w : Word}

/-! ## Bits 27:25 = `000` and `001` -/

/-- The four comparisons, whose S bit the format fixes, are data processing only with S = 1 (R93, R94). -/
theorem decodeDataProcessing_encodes {op : Operand2} (hc : w.extractLsb' 28 4 = c.bits)
    (h26 : w.extractLsb' 26 2 = 0b00#2) (h25 : w.getLsbD 25 = op.isImm) (hop : w.extractLsb' 0 12 = op.bits)
    (hctl : controlSpace w = false) : Encodes (decodeDataProcessing c w op) w := by
  have hw : ∀ o, w.extractLsb' 21 4 = o → encodeDataProcessing c o (o.extractLsb' 2 2 == 0b10#2 || w.getLsbD 20)
      (w.extractLsb' 16 4) (w.extractLsb' 12 4) op = w := by
    intro o ho
    have h23 : w.extractLsb' 23 2 = o.extractLsb' 2 2 := subfield ho 2 2
    rw [controlSpace, h23] at hctl
    refine encodeDataProcessing_eq_iff.2 ⟨hc, h26, h25, ho, ?_, rfl, rfl, hop⟩
    cases hk : o.extractLsb' 2 2 == 0b10#2 with
    | false => rfl
    | true =>
      rw [hk, Bool.true_and, Bool.not_eq_false'] at hctl
      exact hctl
  unfold decodeDataProcessing
  repeat refine encodes_ite (fun ho => ⟨rfl, hw _ ho⟩) fun _ => ?_
  have hmvn : w.extractLsb' 21 4 = 0b1111#4 := by bv_omega
  exact ⟨rfl, hw _ hmvn⟩

/-- Bits 7:4 = `1001`, bit by bit as the decoder tests them (R93). -/
theorem multiply_field_of_bits (h7 : w.getLsbD 7 = true) (h6 : w.getLsbD 6 = false) (h5 : w.getLsbD 5 = false)
    (h4 : w.getLsbD 4 = true) : w.extractLsb' 4 4 = 0b1001#4 :=
  field_low_bit (field_low_bit (field_low_bit (hasField_bit.2 h7) h6) h5) h4

/-- `(… :)` below fixes the bits of an encoding before they are compared with the constants that the encoder writes. -/
theorem decodeMultiply_encodes (hc : w.extractLsb' 28 4 = c.bits) (hg : w.extractLsb' 25 3 = 0b000#3)
    (h74 : w.extractLsb' 4 4 = 0b1001#4) : Encodes (decodeMultiply c w) w := by
  have hmul : ∀ {v : BitVec 2} {b22 b21 : Bool}, w.extractLsb' 23 2 = v → v.getLsbD 1 = false →
      w.getLsbD 22 = b22 → w.getLsbD 21 = b21 →
      encodeMultiply c (bit (v.getLsbD 0) ++ bit b22 ++ bit b21) (w.getLsbD 20) (w.extractLsb' 16 4)
        (w.extractLsb' 12 4) (w.extractLsb' 8 4) (w.extractLsb' 0 4) = w := fun h23 h24 h22 h21 =>
    encodeMultiply_eq_iff.2 ⟨hc, field_low_bit hg ((bit_of_field h23 1).trans h24),
      field_low_bit (field_low_bit (hasField_bit.2 (bit_of_field h23 0)) h22) h21, rfl, rfl, rfl, rfl, h74, rfl⟩
  have hswp : ∀ {b : Bool}, w.extractLsb' 23 2 = 0b10#2 → w.extractLsb' 20 2 = 0b00#2 → w.getLsbD 22 = b →
      encodeControl c (bit b ++ bit false) (w.extractLsb' 16 4) (w.extractLsb' 12 4) (w.extractLsb' 8 4) 0b1001#4
        (w.extractLsb' 0 4) = w :=
    fun h23 h20 h22 => encodeControl_eq_iff.2 ⟨hc, field_append hg h23,
      field_low_bit (hasField_bit.2 h22) (bit_of_field h20 1), bit_of_field h20 0,
      rfl, rfl, rfl, h74, rfl⟩
  unfold decodeMultiply
  refine encodes_ite (fun h23 => encodes_cond (fun h22 => ?_) fun h22 => encodes_cond (fun h21 => ?_) fun h21 => ?_)
    fun hshort => encodes_ite (fun h23 => encodes_cond (fun h22 => encodes_cond (fun h21 => ?_) fun h21 => ?_)
      fun h22 => encodes_cond (fun h21 => ?_) fun h21 => ?_)
    fun hlong => encodes_ite (fun ⟨h23, h20⟩ => encodes_cond (fun h22 => ?_) fun h22 => ?_) fun hswap => ?_
  · exact ⟨rfl, encode_unusedArithmetic_eq_iff.2 ⟨hc, field_low_bit (field_append hg h23) h22, rfl, rfl, h74, rfl⟩⟩
  · exact ⟨rfl, (hmul h23 rfl h22 h21 :)⟩
  · exact ⟨rfl, (hmul h23 rfl h22 h21 :)⟩
  · exact ⟨rfl, (hmul h23 rfl h22 h21 :)⟩
  · exact ⟨rfl, (hmul h23 rfl h22 h21 :)⟩
  · exact ⟨rfl, (hmul h23 rfl h22 h21 :)⟩
  · exact ⟨rfl, (hmul h23 rfl h22 h21 :)⟩
  · exact ⟨rfl, (hswp h23 h20 h22 :)⟩
  · exact ⟨rfl, (hswp h23 h20 h22 :)⟩
  · exact ⟨inUnusedLoadStore_iff.2 ⟨hg, bit_of_field h74 3, bit_of_field h74 0, .inl ⟨subfield h74 1 2,
      not_multiply_not_swap_iff.1 ⟨hshort, hlong, hswap⟩⟩⟩, regionWord_eq_iff.2 ⟨hc, rfl⟩⟩

theorem decodeExtra_encodes (hc : w.extractLsb' 28 4 = c.bits) (hg : w.extractLsb' 25 3 = 0b000#3)
    (h7 : w.getLsbD 7 = true) (h4 : w.getLsbD 4 = true) : Encodes (decodeExtra c w) w := by
  obtain ⟨h22, h8, h0⟩ := bits_decodeHalfOffset w
  have hw : ∀ {b6 b5 l : Bool}, w.getLsbD 6 = b6 → w.getLsbD 5 = b5 → w.getLsbD 20 = l →
      encodeHalfTransfer c (w.getLsbD 24) (w.getLsbD 23) (w.getLsbD 21) l (w.extractLsb' 16 4) (w.extractLsb' 12 4)
        (bit b6 ++ bit b5) (decodeHalfOffset w) = w :=
    fun h6 h5 hl => encodeHalfTransfer_eq_iff.2 ⟨hc, hg, rfl, rfl, h22, rfl, hl, rfl, rfl, h8, h7,
      field_low_bit (hasField_bit.2 h6) h5, h4, h0⟩
  unfold decodeExtra
  refine encodes_cond (fun h6 => encodes_cond (fun h20 => encodes_cond (fun h5 => ?_) fun h5 => ?_) fun h20 => ?_)
    fun h6 => encodes_cond (fun h5 => encodes_cond (fun h20 => ?_) fun h20 => ?_) fun h5 => ?_
  · exact ⟨rfl, (hw h6 h5 h20 :)⟩
  · exact ⟨rfl, (hw h6 h5 h20 :)⟩
  · exact ⟨inUnusedLoadStore_iff.2 ⟨hg, h7, h4, .inr ⟨h6, h20⟩⟩, regionWord_eq_iff.2 ⟨hc, rfl⟩⟩
  · exact ⟨rfl, (hw h6 h5 h20 :)⟩
  · exact ⟨rfl, (hw h6 h5 h20 :)⟩
  · exact decodeMultiply_encodes hc hg (multiply_field_of_bits h7 h6 h5 h4)

theorem decodeControl_encodes (hc : w.extractLsb' 28 4 = c.bits) (hg : w.extractLsb' 25 3 = 0b000#3)
    (h74 : (w.getLsbD 7 && w.getLsbD 4) = false) (h23 : w.extractLsb' 23 2 = 0b10#2) (h20 : w.getLsbD 20 = false) :
    Encodes (decodeControl c w) w := by
  have h23' : w.extractLsb' 23 5 = 0b00010#5 := field_append hg h23
  have hop : ∀ {b21 : Bool}, w.getLsbD 21 = b21 → w.extractLsb' 21 2 = bit (w.getLsbD 22) ++ bit b21 := fun h =>
    field_low_bit (hasField_bit.2 rfl) h
  have h27 : w.extractLsb' 21 2 = 0b01#2 → w.extractLsb' 20 8 = 0b00010010#8 := fun h =>
    field_low_bit (field_append h23' h) h20
  have hbkpt : w.extractLsb' 21 2 = 0b01#2 → w.extractLsb' 4 4 = 0b0111#4 →
      encode (.bkptNotAl c (w.extractLsb' 8 12 ++ w.extractLsb' 0 4)) = w := fun ho hlo =>
    controlWord_eq_iff.2 ⟨hc, h27 ho, BitVec.extractLsb'_append_eq_left.symm, hlo,
      BitVec.extractLsb'_append_eq_right.symm⟩
  unfold decodeControl
  refine encodes_ite (fun hlo => encodes_cond (fun h21 => ?_) fun h21 => ?_) fun h0 =>
    encodes_ite (fun ⟨hlo, ho⟩ => ?_) fun hnbx => encodes_ite (fun ⟨hlo, ho⟩ => ?_) fun hnclz =>
    encodes_ite (fun ⟨hlo, ho⟩ => ?_) fun hnblx =>
    encodes_ite (fun ⟨hlo, ho⟩ => encodes_ite (fun hal => ?_) fun hal => ?_) fun hnbkpt => ?_
  · exact ⟨rfl, encodeControl_eq_iff.2 ⟨hc, h23', hop h21, h20, rfl, rfl, rfl, hlo, rfl⟩⟩
  · exact ⟨rfl, encodeControl_eq_iff.2 ⟨hc, h23', hop h21, h20, rfl, rfl, rfl, hlo, rfl⟩⟩
  · exact ⟨rfl, controlWord_eq_iff.2 ⟨hc, h27 ho, rfl, hlo, rfl⟩⟩
  · exact ⟨rfl, encodeControl_eq_iff.2 ⟨hc, h23', ho, h20, rfl, rfl, rfl, hlo, rfl⟩⟩
  · exact ⟨rfl, controlWord_eq_iff.2 ⟨hc, h27 ho, rfl, hlo, rfl⟩⟩
  · subst hal
    exact ⟨rfl, hbkpt ho hlo⟩
  · exact ⟨bne_iff_ne.2 hal, hbkpt ho hlo⟩
  · have hu := controlAssigned_eq_false_iff.2 ⟨h0, hnbx, hnclz, hnblx, hnbkpt⟩
    exact ⟨inUnusedControl_iff.2 ⟨h23, h20, .inl ⟨hg, h74, hu⟩⟩, regionWord_eq_iff.2 ⟨hc, rfl⟩⟩

/-! ## The other groups -/

theorem decodeWordTransfer_encodes (hc : w.extractLsb' 28 4 = c.bits) (h26 : w.extractLsb' 26 2 = 0b01#2)
    (h254 : (w.getLsbD 25 && w.getLsbD 4) = false) : Encodes (decodeWordTransfer c w) w := by
  have hw : ∀ {p b wb l : Bool}, w.getLsbD 24 = p → w.getLsbD 22 = b → w.getLsbD 21 = wb → w.getLsbD 20 = l →
      encodeWordTransfer c p (w.getLsbD 23) b wb l (w.extractLsb' 16 4) (w.extractLsb' 12 4) (decodeWordOffset w) = w :=
    fun hp hb hwb hl => encodeWordTransfer_eq_iff.2 ⟨hc, h26, isReg_decodeWordOffset w, hp, rfl, hb, hwb, hl, rfl, rfl,
      bits_decodeWordOffset h254⟩
  unfold decodeWordTransfer
  refine encodes_cond (fun ht => ?_) fun ht => ?_
  · obtain ⟨h24, h21⟩ : w.getLsbD 24 = false ∧ w.getLsbD 21 = true := by simpa using ht
    refine encodes_cond (fun h20 => encodes_cond (fun h22 => ?_) fun h22 => ?_) fun h20 =>
      encodes_cond (fun h22 => ?_) fun h22 => ?_
    all_goals exact ⟨rfl, (hw h24 h22 h21 h20 :)⟩
  · obtain ⟨h24, h21⟩ := Index.bits_ofBits ht
    refine encodes_cond (fun h20 => encodes_cond (fun h22 => ?_) fun h22 => ?_) fun h20 =>
      encodes_cond (fun h22 => ?_) fun h22 => ?_
    all_goals exact ⟨rfl, (hw h24 h22 h21 h20 :)⟩

theorem decodeMultiple_encodes (hc : w.extractLsb' 28 4 = c.bits) (hg : w.extractLsb' 25 3 = 0b100#3) :
    Encodes (decodeMultiple c w) w := by
  have hw : ∀ {s l : Bool} {list : BitVec 16}, w.getLsbD 22 = s → w.getLsbD 20 = l → w.extractLsb' 0 16 = list →
      encodeMultiple c (w.getLsbD 24) (w.getLsbD 23) s (w.getLsbD 21) l (w.extractLsb' 16 4) list = w :=
    fun hs hl hlist => encodeMultiple_eq_iff.2 ⟨hc, hg, rfl, rfl, hs, rfl, hl, rfl, hlist⟩
  have hlist0 : w.getLsbD 15 = false → w.extractLsb' 0 16 = 0#1 ++ w.extractLsb' 0 15 := fun hb =>
    (hasField_append (m := 1) (n := 15)).2 ⟨hasField_bit_zero.2 hb, rfl⟩
  have hlist1 : w.getLsbD 15 = true → w.extractLsb' 0 16 = 1#1 ++ w.extractLsb' 0 15 := fun hb =>
    (hasField_append (m := 1) (n := 15)).2 ⟨hasField_bit_one.2 hb, rfl⟩
  unfold decodeMultiple
  refine encodes_cond (fun h20 => encodes_cond (fun h22 => encodes_cond (fun h15 => ?_) fun h15 => ?_) fun h22 => ?_)
    fun h20 => encodes_cond (fun h22 => ?_) fun h22 => ?_
  · exact ⟨rfl, encodeMultiple_eq_iff.2 ⟨hc, hg, rfl, rfl, h22, rfl, h20, rfl, hlist1 h15⟩⟩
  · exact ⟨rfl, encodeMultiple_eq_iff.2 ⟨hc, hg, rfl, rfl, h22, rfl, h20, rfl, hlist0 h15⟩⟩
  · exact ⟨rfl, encodeMultiple_eq_iff.2 ⟨hc, hg, rfl, rfl, h22, rfl, h20, rfl, rfl⟩⟩
  · exact ⟨rfl, encodeMultiple_eq_iff.2 ⟨hc, hg, rfl, rfl, h22, rfl, h20, rfl, rfl⟩⟩
  · exact ⟨rfl, encodeMultiple_eq_iff.2 ⟨hc, hg, rfl, rfl, h22, rfl, h20, rfl, rfl⟩⟩

theorem decodeCoprocTransfer_encodes (hc : w.extractLsb' 28 4 = c.bits) (hg : w.extractLsb' 25 3 = 0b110#3) :
    Encodes (decodeCoprocTransfer c w) w := by
  have hwf : (!w.getLsbD 24 && !w.getLsbD 23 && !w.getLsbD 21) = false →
      coprocTransfer (w.getLsbD 24) (w.getLsbD 23) (w.getLsbD 21) = true := fun h => by
    rwa [not_coprocTransfer, Bool.not_eq_false'] at h
  unfold decodeCoprocTransfer
  refine encodes_cond (fun h => ?_) fun h => encodes_cond (fun h20 => ?_) fun h20 => ?_
  · obtain ⟨⟨h24, h23⟩, h21⟩ : (w.getLsbD 24 = false ∧ w.getLsbD 23 = false) ∧ w.getLsbD 21 = false := by
      simpa using h
    exact ⟨rfl, encode_unusedCoprocessor_eq_iff.2 ⟨hc, field_low_bit (field_low_bit hg h24) h23, rfl, h21, rfl, rfl⟩⟩
  · exact ⟨hwf h, encodeCoprocTransfer_eq_iff.2 ⟨hc, hg, rfl, rfl, rfl, rfl, h20, rfl, rfl, rfl, rfl⟩⟩
  · exact ⟨hwf h, encodeCoprocTransfer_eq_iff.2 ⟨hc, hg, rfl, rfl, rfl, rfl, h20, rfl, rfl, rfl, rfl⟩⟩

theorem decodeSystem_encodes (hc : w.extractLsb' 28 4 = c.bits) (hg : w.extractLsb' 25 3 = 0b111#3) :
    Encodes (decodeSystem c w) w := by
  unfold decodeSystem
  refine encodes_cond (fun h24 => ?_) fun h24 =>
    encodes_cond (fun h4 => encodes_cond (fun h20 => ?_) fun h20 => ?_) fun h4 => ?_
  · exact ⟨rfl, immediateWord_eq_iff.2 ⟨hc, field_low_bit hg h24, rfl⟩⟩
  · exact ⟨rfl, encodeCoprocRegister_eq_iff.2 ⟨hc, field_low_bit hg h24, rfl, h20, rfl, rfl, rfl, rfl, h4, rfl⟩⟩
  · exact ⟨rfl, encodeCoprocRegister_eq_iff.2 ⟨hc, field_low_bit hg h24, rfl, h20, rfl, rfl, rfl, rfl, h4, rfl⟩⟩
  · exact ⟨rfl, encode_cdp_eq_iff.2 ⟨hc, field_low_bit hg h24, rfl, rfl, rfl, rfl, rfl, h4, rfl⟩⟩

/-! ## Every word -/

theorem decodeConditional_encodes (hc : w.extractLsb' 28 4 = c.bits) : Encodes (decodeConditional c w) w := by
  unfold decodeConditional
  refine encodes_ite (fun hg => encodes_cond (fun h74 => ?_) fun h74 => encodes_cond (fun hk => ?_) fun hk => ?_)
    fun h0 => encodes_ite (fun hg => encodes_cond (fun hk => encodes_cond (fun h21 => ?_) fun h21 => ?_) fun hk => ?_)
    fun h1 => encodes_ite (fun hg => ?_) fun h2 => encodes_ite (fun hg => encodes_cond (fun h4 => ?_) fun h4 => ?_)
    fun h3 => encodes_ite (fun hg => ?_) fun h4 => encodes_ite (fun hg => encodes_cond (fun h24 => ?_) fun h24 => ?_)
    fun h5 => encodes_ite (fun hg => ?_) fun h6 => ?_
  · obtain ⟨h7, h4⟩ : w.getLsbD 7 = true ∧ w.getLsbD 4 = true := by simpa using h74
    exact decodeExtra_encodes hc hg h7 h4
  · obtain ⟨h23, h20⟩ := controlSpace_iff.1 hk
    exact decodeControl_encodes hc hg h74 h23 h20
  · exact decodeDataProcessing_encodes hc (subfield hg 1 2)
      ((bit_of_field hg 0).trans (isImm_decodeRegOperand w).symm) (bits_decodeRegOperand h74) hk
  · obtain ⟨h23, h20⟩ := controlSpace_iff.1 hk
    exact ⟨rfl, encode_msrImm_eq_iff.2 ⟨hc, field_append hg h23, rfl,
      field_low_bit (hasField_bit.2 h21) h20, rfl, rfl, rfl, rfl⟩⟩
  · obtain ⟨h23, h20⟩ := controlSpace_iff.1 hk
    exact ⟨inUnusedControl_iff.2 ⟨h23, h20, .inr ⟨hg, h21⟩⟩, regionWord_eq_iff.2 ⟨hc, rfl⟩⟩
  · exact decodeDataProcessing_encodes hc (subfield hg 1 2) (bit_of_field hg 0)
      (bits_decodeImmOperand w) hk
  · have h25 : w.getLsbD 25 = false := bit_of_field hg 0
    exact decodeWordTransfer_encodes hc (subfield hg 1 2) (by rw [h25, Bool.false_and])
  · exact ⟨rfl, encode_undefined_eq_iff.2 ⟨hc, hg, rfl, h4, rfl⟩⟩
  · exact decodeWordTransfer_encodes hc (subfield hg 1 2) (by rw [h4, Bool.and_false])
  · exact decodeMultiple_encodes hc hg
  · exact ⟨rfl, immediateWord_eq_iff.2 ⟨hc, field_low_bit hg h24, rfl⟩⟩
  · exact ⟨rfl, immediateWord_eq_iff.2 ⟨hc, field_low_bit hg h24, rfl⟩⟩
  · exact decodeCoprocTransfer_encodes hc hg
  · have hg : w.extractLsb' 25 3 = 0b111#3 := by bv_omega
    exact decodeSystem_encodes hc hg

end

/-- Every word is the encoding of the well-formed instruction that it decodes to (R112). -/
theorem decodeWord_encodes (w : Word) : Encodes (decodeWord w) w := by
  cases hc : Cond.ofBits (w.extractLsb' 28 4) with
  | some c =>
    have hc := Cond.bits_of_ofBits hc
    rw [decodeWord_of_cond hc.symm]
    exact decodeConditional_encodes hc.symm
  | none =>
    have hc := Cond.ofBits_eq_none.1 hc
    rw [decodeWord_of_nv hc]
    refine encodes_ite (fun hg => ?_) fun hg => ?_
    · exact ⟨rfl, encode_blxImm_eq_iff.2 ⟨field_append hc hg, rfl, rfl⟩⟩
    · exact ⟨bne_iff_ne.2 (by rwa [field_field w (by decide)]), regionWord_eq_iff.2 ⟨hc, rfl⟩⟩

end Sys2Proof

namespace Sys2Proof.Machine

/-- Settles O3, by `decodeWord_encodes`. -/
theorem encodeOfDecode : Obligations.EncodeOfDecode := decodeWord_encodes

end Sys2Proof.Machine
end

section
/-!
Proofs of `FixedFieldsRefused` and `MultiplyRestrictions`: the "should be" fields (spec/30_encoding.md R110) and the
register fields of the multiplies and CLZ (spec/44_multiply_clz.md R202, R209).
-/

namespace Sys2Proof.Machine

/-! ## "Should be" fields (R110) -/

/-- An instruction that runs and fails the first check of its rule is refused for it. -/
theorem conditional_of_check {c : Cond} {regs : List RegNum} {s : State} (hr : Runs c regs s) {b : Bool} (hb : b = true)
    (e : Refusal) (k : State → Out) : conditional c regs s (fun s => guarded (failIf b e) (k s)) = .refused e := by
  rw [conditional_of_runs hr, hb]
  rfl

/-- Settles O4: each rule that has such fields checks them first. -/
theorem fixedFieldsRefused : Obligations.FixedFieldsRefused := by
  intro i c s hi hc hf hm
  have hr := runs_of_not_marked hm hc
  cases i with
  | tst c' | teq c' | cmp c' | cmn c' | mov c' | mvn c' | mul c' | mrs c' | msrReg c' | msrImm c' | bx c' | blxReg c'
  | strh c' | ldrh c' | ldrsb c' | ldrsh c' =>
    obtain rfl : c' = c := Option.some.inj hi
    exact conditional_of_check (hr _) (congrArg (!·) hf) _ _
  | swp c' rn rd sbz rm | swpb c' rn rd sbz rm =>
    obtain rfl : c' = c := Option.some.inj hi
    have hck : swapCheck rn rd sbz rm = some .fixedField := if_pos (congrArg (!·) hf)
    exact (conditional_of_runs (hr _) _).trans (congrArg (guarded · _) hck)
  | _ => cases hf

/-! ## Multiplies and CLZ (R202, R209) -/

theorem mulCheck_eq_none {used : List RegNum} {rd rm : RegNum} :
    mulCheck used rd rm = none ↔ pcNum ∉ used ∧ rd ≠ rm := by
  unfold mulCheck
  split
  · next h => exact iff_of_false nofun fun hn => hn.1 (List.contains_iff_mem.1 h)
  · next h => rw [failIf_eq_none, beq_eq_false_iff_ne, ← List.contains_iff_mem, and_iff_right h]

theorem mulLongCheck_eq_none {rdHi rdLo rs rm : RegNum} :
    mulLongCheck rdHi rdLo rs rm = none ↔
      pcNum ∉ [rdHi, rdLo, rs, rm] ∧ rdHi ≠ rdLo ∧ rdHi ≠ rm ∧ rdLo ≠ rm := by
  unfold mulLongCheck
  split
  · next h => exact iff_of_false nofun fun hn => hn.1 (List.contains_iff_mem.1 h)
  · next h =>
    rw [failIf_eq_none, Bool.or_eq_false_iff, Bool.or_eq_false_iff, beq_eq_false_iff_ne, beq_eq_false_iff_ne,
      beq_eq_false_iff_ne, and_assoc, ← List.contains_iff_mem, and_iff_right h]

/-- A rule whose check cannot pass is refused. -/
theorem stops_guarded_of_ne {r : Option Refusal} (h : r ≠ none) (k : Out) : Stops (guarded r k) :=
  stops_guarded_of fun hn => absurd hn h

theorem stops_mulLongOp {c : Cond} {rdHi rdLo rs rm : RegNum} {s : State} (hc : condHolds c s.cpsr = true)
    (h : pcNum ∈ [rdHi, rdLo, rs, rm] ∨ rdHi = rdLo ∨ rdHi = rm ∨ rdLo = rm)
    (f : BitVec 64 → Word → Word → BitVec 64) (sf : Bool) : Stops (mulLongOp f c sf rdHi rdLo rs rm s) := by
  refine stops_conditional hc (stops_guarded_of_ne (fun hn => ?_) _)
  obtain ⟨hpc, h1, h2, h3⟩ := mulLongCheck_eq_none.1 hn
  exact h.elim hpc (·.elim h1 (·.elim h2 h3))

/-- Settles O24, by what each check lets pass. -/
theorem multiplyRestrictions : Obligations.MultiplyRestrictions := by
  intro c sf a b rs rm f1 f2 s hc
  refine ⟨fun h => ?_, fun h => ?_, fun h => ?_, fun h => ?_⟩
  · refine stops_conditional hc (stops_guarded_of fun hf => stops_guarded_of_ne (fun hn => ?_) _)
    obtain ⟨hpc, hne⟩ := mulCheck_eq_none.1 hn
    exact h.elim hpc (·.elim hne (· (bne_eq_false_iff_eq.1 (failIf_eq_none.1 hf))))
  · refine stops_conditional hc (stops_guarded_of_ne (fun hn => ?_) _)
    obtain ⟨hpc, hne⟩ := mulCheck_eq_none.1 hn
    exact h.elim hpc hne
  · simp only [List.forall_mem_cons, List.not_mem_nil, false_implies, implies_true, and_true, exec_umull, exec_umlal,
      exec_smull, exec_smlal, execUmull, execUmlal, execSmull, execSmlal]
    exact ⟨stops_mulLongOp hc h _ sf, stops_mulLongOp hc h _ sf, stops_mulLongOp hc h _ sf, stops_mulLongOp hc h _ sf⟩
  · refine stops_conditional hc (stops_guarded_of_ne (fun hn => ?_) _)
    rw [failIf_eq_none, List.contains_iff_mem.2 h] at hn
    cases hn

end Sys2Proof.Machine
end

section
/-!
Proof of `ReservedSpaces`: the unused spaces (spec/49_bkpt_unused_undefined.md R292 to R295), the condition-`1111` space
(spec/40_conditional_execution.md R133) and BKPT's bits with another condition (R134, R291), under each policy.
-/

namespace Sys2Proof.Machine

/-! ## Taking an exception (R310) -/

/-- An instruction that takes an exception other than Reset and FIQ, which alone set F, leaves what R310 says. -/
theorem enters_takeException {e : Exc} (hf : e.masksFiq = false) (ret : Word) (s : State) :
    Enters (.next (takeException e ret s.unmarked)) s e.mode.lr e.spsr e.mode ret e.vector := by
  refine ⟨_, rfl, enterException_reg e ret _ s.unmarked, enterException_spsr e ret _ s.unmarked, ?_, rfl,
    fun _ => rfl, rfl, rfl⟩
  rw [takeException, enterException_cpsr, hf, Bool.or_false]
  rfl

/-! ## Instructions that touch no register -/

/-- R361 forbids nothing to an instruction that touches no register. -/
theorem noHazard_nil (s : State) : NoHazard [] s := .inr nofun

/-- An instruction that touches no register runs where its condition passes. -/
theorem conditional_nil_of_holds {c : Cond} {s : State} (hc : condHolds c s.cpsr = true) (body : State → Out) :
    conditional c [] s body = body s.unmarked := conditional_of_runs ⟨hc, noHazard_nil s⟩ body

/-! ## The unused spaces (R292) -/

section
variable {c : Cond} {s : State} (hc : condHolds c s.cpsr = true)
include hc

theorem unusedTrap_enters (hp : s.platform.unusedPolicy = .undefinedTrap) :
    Enters (unusedTrap c s) s .r14_und .und .und (s.pc + 4) 0x04#32 := by
  have hp' : s.unmarked.platform.unusedPolicy = .undefinedTrap := hp
  rw [unusedTrap, conditional_nil_of_holds hc, hp']
  exact enters_takeException (e := .undefined) rfl (s.pc + 4) s

theorem unusedTrap_refused (hp : s.platform.unusedPolicy = .refuse) : unusedTrap c s = .refused .unusedSpace := by
  have hp' : s.unmarked.platform.unusedPolicy = .refuse := hp
  rw [unusedTrap, conditional_nil_of_holds hc, hp']

/-- The word of each unused space traps or is refused by UNUSED_POLICY, where its condition passes. -/
theorem exec_unusedSpace {i : Instr} (hi : exec i s = unusedTrap c s) :
    (s.platform.unusedPolicy = .undefinedTrap → Enters (exec i s) s .r14_und .und .und (s.pc + 4) 0x04#32) ∧
      (s.platform.unusedPolicy = .refuse → exec i s = .refused .unusedSpace) := by
  rw [hi]
  exact ⟨unusedTrap_enters hc, unusedTrap_refused hc⟩

end

/-! ## Condition 1111 (R133) -/

theorem execNvReserved_refused {s : State} (hp : s.platform.nvPolicy = .refuse) (bits : BitVec 28) :
    execNvReserved bits s = .refused .nvReserved := by
  rw [execNvReserved, hp]

theorem execNvReserved_never {s : State} (hp : s.platform.nvPolicy = .never) (bits : BitVec 28) :
    execNvReserved bits s = advance s.unmarked := by
  rw [execNvReserved, hp]
  rfl

/-! ## BKPT's bits with another condition (R134, R291) -/

/-- R291's side of the policy refuses the word whatever its condition, R131's side where it passes (log 13). -/
theorem execBkptNotAl_refused {c : Cond} {s : State} (h : condHolds c s.cpsr = true ∨ s.platform.bkptPolicy = .refuse)
    (imm : BitVec 16) : execBkptNotAl c imm s = .refused .bkptCondition := by
  cases hp : s.platform.bkptPolicy with
  | refuse => rw [execBkptNotAl, hp]
  | conditional =>
    have hc : condHolds c s.cpsr = true := h.resolve_right (by rw [hp]; nofun)
    rw [execBkptNotAl, hp]
    exact conditional_nil_of_holds hc _

/-- Settles O51: the unused spaces by `exec_unusedSpace`, the others by the equations of their policies; a failed
condition and a word that is never executed advance. -/
theorem reservedSpaces : Obligations.ReservedSpaces := by
  refine ⟨fun c hi mid lo bits s hc i hmem => exec_unusedSpace hc ?_, fun bits s => ⟨fun hp => ?_, fun hp hn => ?_⟩,
    fun c imm s => ⟨fun h => ?_, fun hc hp hn => ?_⟩⟩
  · simp only [List.mem_cons, List.not_mem_nil, or_false] at hmem
    obtain rfl | rfl | rfl := hmem <;> rfl
  · exact execNvReserved_refused hp bits
  · exact (execNvReserved_never hp bits).trans (advance_of_hasNext (s := s.unmarked) hn)
  · exact execBkptNotAl_refused h imm
  · exact (exec_of_fails (i := .bkptNotAl c imm) rfl hc fun _ _ => hp).trans (advance_of_hasNext (s := s.unmarked) hn)

end Sys2Proof.Machine
end

section
/-!
Proof of `TrapsTaken`: SWI (spec/42_swi.md R150), BKPT and the undefined space (spec/49_bkpt_unused_undefined.md R290,
R296, R297) and the coprocessor instructions (spec/48_coprocessor.md R280 to R285) take their exception.
-/

namespace Sys2Proof.Machine

theorem execBkpt_enters (imm : BitVec 16) (s : State) :
    Enters (execBkpt imm s) s .r14_abt .abt .abt (s.pc + 4) 0x0C#32 := by
  rw [execBkpt, unconditional_of_noHazard (noHazard_nil s)]
  exact enters_takeException (e := .prefetchAbort) rfl (s.pc + 4) s

section
variable {c : Cond} {s : State} (hc : condHolds c s.cpsr = true)
include hc

theorem execSwi_enters (imm : BitVec 24) : Enters (execSwi c imm s) s .r14_svc .svc .svc (s.pc + 4) 0x08#32 := by
  rw [execSwi, conditional_nil_of_holds hc]
  exact enters_takeException (e := .swi) rfl (s.pc + 4) s

theorem undefinedTrap_enters : Enters (undefinedTrap c s) s .r14_und .und .und (s.pc + 4) 0x04#32 := by
  rw [undefinedTrap, conditional_nil_of_holds hc]
  exact enters_takeException (e := .undefined) rfl (s.pc + 4) s

end

/-- Settles O50: BKPT and SWI by their rules; the undefined space and every coprocessor instruction run
`undefinedTrap`. -/
theorem trapsTaken : Obligations.TrapsTaken := by
  intro c s imm24 imm16 hi lo crn crd cp crm op4 op1 op2 p u n w l rn rd off8 rest
  refine ⟨execBkpt_enters imm16 s, fun hc => ⟨execSwi_enters hc imm24, fun i hmem => ?_⟩⟩
  have hi : exec i s = undefinedTrap c s := by
    simp only [List.mem_cons, List.not_mem_nil, or_false] at hmem
    obtain rfl | rfl | rfl | rfl | rfl | rfl | rfl := hmem <;> rfl
  rw [hi]
  exact undefinedTrap_enters hc

end Sys2Proof.Machine
end

section
/-!
Proofs of `ShifterImmediate`, `ShifterByImmediate` and `ShifterByRegister`: what a shift by each amount gives, row by
row, and the amounts of the three forms of operand 2 (spec/00_scope.md R11, spec/43_data_processing.md R161 to R163).
-/

namespace Sys2Proof.Machine

/-! ## Shifts by at least one place (R11) -/

section
variable {n : Nat}

/-- Up to 32 places to the left the carry-out is the last bit shifted out. -/
theorem shiftBy_lsl_of_le (v : Word) (h : n ≤ 32) : shiftBy .lsl v n = (v <<< n, v.getLsbD (32 - n)) :=
  congrArg (v <<< n, ·) (if_pos h)

theorem shiftBy_lsl_of_gt (v : Word) (h : 32 < n) : shiftBy .lsl v n = (0#32, false) :=
  Prod.ext (BitVec.shiftLeft_eq_zero h.le) (if_neg h.not_ge)

/-- Up to 32 places to the right the carry-out is the last bit shifted out. -/
theorem shiftBy_lsr_of_le (v : Word) (h : n ≤ 32) : shiftBy .lsr v n = (v >>> n, v.getLsbD (n - 1)) :=
  congrArg (v >>> n, ·) (if_pos h)

theorem shiftBy_lsr_of_gt (v : Word) (h : 32 < n) : shiftBy .lsr v n = (0#32, false) :=
  Prod.ext (BitVec.ushiftRight_eq_zero h.le) (if_neg h.not_ge)

theorem shiftBy_asr_of_lt (v : Word) (h : n < 32) : shiftBy .asr v n = (v.sshiftRight n, v.getLsbD (n - 1)) :=
  congrArg (v.sshiftRight n, ·) (if_pos (Nat.le_of_lt_succ h))

/-- From 32 places on an arithmetic shift leaves copies of the sign alone. -/
theorem sshiftRight_of_ge (v : Word) (h : 32 ≤ n) :
    v.sshiftRight n = if v.getLsbD 31 then 0xFFFFFFFF#32 else 0#32 := by
  have hmsb : v.msb = v.getLsbD 31 := v.msb_eq_getLsbD_last
  cases hs : v.getLsbD 31
  · rw [BitVec.sshiftRight_eq_of_msb_false (hmsb.trans hs), BitVec.ushiftRight_eq_zero h]
    rfl
  · rw [BitVec.sshiftRight_eq_of_msb_true (hmsb.trans hs), BitVec.ushiftRight_eq_zero h]
    rfl

theorem shiftBy_asr_of_ge (v : Word) (h : 32 ≤ n) :
    shiftBy .asr v n = (if v.getLsbD 31 then 0xFFFFFFFF#32 else 0#32, v.getLsbD 31) :=
  Prod.ext (sshiftRight_of_ge v h) ((if_neg (Nat.not_le.2 h)).trans v.msb_eq_getLsbD_last)

/-- A rotation by a multiple of 32 leaves the value, and its sign is the carry-out. -/
theorem shiftBy_ror_of_mod_eq_zero (v : Word) (h : n % 32 = 0) : shiftBy .ror v n = (v, v.getLsbD 31) := by
  have hr : v.rotateRight n = v := by
    rw [BitVec.rotateRight_def, h]
    simp
  rw [shiftBy, hr, BitVec.msb_eq_getLsbD_last]

/-- Any other rotation puts the last bit rotated out on top. -/
theorem shiftBy_ror_of_mod_pos (v : Word) (h : 0 < n % 32) :
    shiftBy .ror v n = ((v >>> (n % 32)) ||| (v <<< (32 - n % 32)), v.getLsbD (n % 32 - 1)) := by
  have hmsb : (v.rotateRight n).msb = v.getLsbD (n % 32 - 1) := by
    rw [BitVec.msb_eq_getLsbD_last, BitVec.getLsbD_rotateRight, decide_eq_false (by omega),
      show 32 - 1 - (32 - n % 32) = n % 32 - 1 by omega]
    simp
  rw [shiftBy, hmsb, BitVec.rotateRight_def]

end

/-! ## The forms of operand 2 (R161 to R163) -/

/-- Settles O11: the rotation as two shifts. -/
theorem shifterImmediate : Obligations.ShifterImmediate := by
  intro rotate imm8 s x v
  have hv : rotatedImm rotate imm8 = v := by
    have hlt := rotate.isLt
    rw [rotatedImm, BitVec.rotateRight_def, Nat.mod_eq_of_lt (by omega)]
  rw [operand2, hv, BitVec.msb_eq_getLsbD_last]

/-- An immediate amount other than 0 is the number of places (R162). -/
theorem operand2_shiftImm_of_ne (rm : RegNum) (k : ShiftKind) {n : BitVec 5} (h : n ≠ 0#5) (s : State) :
    operand2 (.shiftImm rm k n) s = shiftBy k (readX s rm) n.toNat := if_neg h

/-- Settles O12: amount 0 stands for no shift, for 32 places and for RRX; any other amount is 1 to 31 places. -/
theorem shifterByImmediate : Obligations.ShifterByImmediate := by
  intro rm s m
  refine ⟨readX_pcNum s, rfl, ?_, shiftBy_asr_of_ge m le_rfl, rfl, fun n hn => ?_⟩
  · exact (shiftBy_lsr_of_le m le_rfl).trans (congrArg (·, _) (BitVec.ushiftRight_eq_zero le_rfl))
  · have hlt : n.toNat < 32 := n.isLt
    have hpos : 0 < n.toNat := Nat.pos_of_ne_zero fun e => hn (BitVec.eq_of_toNat_eq e)
    have hmod : n.toNat % 32 = n.toNat := Nat.mod_eq_of_lt hlt
    have hror := shiftBy_ror_of_mod_pos m (hmod.symm ▸ hpos)
    rw [hmod] at hror
    simp only [operand2_shiftImm_of_ne rm _ hn]
    exact ⟨shiftBy_lsl_of_le m hlt.le, shiftBy_lsr_of_le m hlt.le, shiftBy_asr_of_lt m hlt, hror⟩

/-- A register amount is the low byte of the register, and 0 is no shift (R163). -/
theorem operand2_shiftReg (rm rs : RegNum) (k : ShiftKind) (s : State) :
    operand2 (.shiftReg rm k rs) s =
      if (readX s rs).toNat % 256 = 0 then (readX s rm, s.cpsr.c)
      else shiftBy k (readX s rm) ((readX s rs).toNat % 256) := by
  have hn : ((readX s rs).extractLsb' 0 8).toNat = (readX s rs).toNat % 256 := by
    rw [BitVec.extractLsb'_toNat, Nat.shiftRight_zero]
  simp only [operand2, shiftReg, ← BitVec.toNat_inj, hn]
  rfl

/-- Settles O13: each row of the table from the shift by as many places. -/
theorem shifterByRegister : Obligations.ShifterByRegister := by
  intro rm rs s m n
  have hzero : n = 0 → ∀ k, operand2 (.shiftReg rm k rs) s = (m, s.cpsr.c) := fun h k =>
    (operand2_shiftReg rm rs k s).trans (if_pos h)
  have hpos : 0 < n → ∀ k, operand2 (.shiftReg rm k rs) s = shiftBy k m n := fun h k =>
    (operand2_shiftReg rm rs k s).trans (if_neg (Nat.ne_of_gt h))
  refine ⟨hzero, fun ⟨hlo, hhi⟩ => ?_, fun h => ?_, fun h => ?_, fun h => ?_, fun ⟨h, hmod⟩ => ?_, fun hmod => ?_⟩
  · simp only [hpos hlo]
    exact ⟨shiftBy_lsl_of_le m (by omega), shiftBy_lsr_of_le m (by omega), shiftBy_asr_of_lt m (by omega)⟩
  · simp only [hpos (by omega)]
    rw [h]
    exact ⟨(shiftBy_lsl_of_le m le_rfl).trans (congrArg (·, _) (BitVec.shiftLeft_eq_zero le_rfl)),
      (shiftBy_lsr_of_le m le_rfl).trans (congrArg (·, _) (BitVec.ushiftRight_eq_zero le_rfl))⟩
  · simp only [hpos (by omega)]
    exact ⟨shiftBy_lsl_of_gt m h, shiftBy_lsr_of_gt m h⟩
  · exact (hpos (by omega) _).trans (shiftBy_asr_of_ge m h)
  · exact (hpos h _).trans (shiftBy_ror_of_mod_eq_zero m hmod)
  · exact (hpos (by omega) _).trans (shiftBy_ror_of_mod_pos m hmod)

end Sys2Proof.Machine
end

section
/-!
Proofs of `RegisterShiftOfPcRefused`, `LogicalResults`, `MoveResults` and `DataProcessingToPc`: a shift by a register
that names r15, the frames of data processing with a logical result, and a result that goes to r15
(spec/43_data_processing.md R160 to R167, R182 to R185).
-/

namespace Sys2Proof.Machine

/-! ## The frame of each instruction (R160) -/

section
variable (c : Cond) (sf : Bool) (rn rd f1 : RegNum) (op : Operand2) (s : State)

/-- The ten instructions with Rn and Rd run in one frame. -/
theorem exec_eq_dataOp :
    ∀ i ∈ [Instr.and c sf rn rd op, .eor c sf rn rd op, .sub c sf rn rd op, .rsb c sf rn rd op, .add c sf rn rd op,
        .adc c sf rn rd op, .sbc c sf rn rd op, .rsc c sf rn rd op, .orr c sf rn rd op, .bic c sf rn rd op],
      ∃ f, exec i s = dataOp f c sf rn rd op s := by
  simp only [List.forall_mem_cons, List.not_mem_nil, false_implies, implies_true, and_true, exec_and, exec_eor,
    exec_sub, exec_rsb, exec_add, exec_adc, exec_sbc, exec_rsc, exec_orr, exec_bic]
  exact ⟨⟨_, rfl⟩, ⟨_, rfl⟩, ⟨_, rfl⟩, ⟨_, rfl⟩, ⟨_, rfl⟩, ⟨_, rfl⟩, ⟨_, rfl⟩, ⟨_, rfl⟩, ⟨_, rfl⟩, ⟨_, rfl⟩⟩

theorem exec_eq_moveOp :
    ∀ i ∈ [Instr.mov c sf f1 rd op, .mvn c sf f1 rd op], ∃ f, exec i s = moveOp f c sf f1 rd op s := by
  simp only [List.forall_mem_cons, List.not_mem_nil, false_implies, implies_true, and_true, exec_mov, exec_mvn]
  exact ⟨⟨_, rfl⟩, ⟨_, rfl⟩⟩

theorem exec_eq_compareOp :
    ∀ i ∈ [Instr.tst c rn f1 op, .teq c rn f1 op, .cmp c rn f1 op, .cmn c rn f1 op],
      ∃ f, exec i s = compareOp f c rn f1 op s := by
  simp only [List.forall_mem_cons, List.not_mem_nil, false_implies, implies_true, and_true, exec_tst, exec_teq,
    exec_cmp, exec_cmn]
  exact ⟨⟨_, rfl⟩, ⟨_, rfl⟩, ⟨_, rfl⟩, ⟨_, rfl⟩⟩

end

/-! ## A register-specified shift that names r15 (R163, R164) -/

section
variable {c : Cond} {rm rs : RegNum} {k : ShiftKind} {s : State} (hc : condHolds c s.cpsr = true)
  (hu : s.afterUserBank = false)
include hc hu

theorem dataOp_refused {rn rd : RegNum} (h : pcNum ∈ [rm, rs, rn, rd])
    (f : (a b : Word) → (sc cin : Bool) → AluResult) (sf : Bool) :
    dataOp f c sf rn rd (.shiftReg rm k rs) s = .refused .r15Operand :=
  conditional_of_check (runs_of_not_marked hu hc _) (List.contains_iff_mem.2 h) _ _

theorem moveOp_refused {rd : RegNum} (h : pcNum ∈ [rm, rs, rd]) (f : (b : Word) → (sc : Bool) → AluResult)
    (sf : Bool) : moveOp f c sf 0#4 rd (.shiftReg rm k rs) s = .refused .r15Operand :=
  conditional_of_check (runs_of_not_marked hu hc _) (List.contains_iff_mem.2 h) _ _

theorem compareOp_refused {rn : RegNum} (h : pcNum ∈ [rm, rs, rn]) (f : (a b : Word) → (sc : Bool) → AluResult) :
    compareOp f c rn 0#4 (.shiftReg rm k rs) s = .refused .r15Operand :=
  conditional_of_check (runs_of_not_marked hu hc _) (List.contains_iff_mem.2 h) _ _

end

/-- Settles O14: each frame checks the registers of such a shift before it uses them. -/
theorem registerShiftOfPcRefused : Obligations.RegisterShiftOfPcRefused := by
  intro c sf rn rd rm rs k s hc hu op
  refine ⟨fun h i hi => ?_, fun h i hi => ?_, fun h i hi => ?_⟩
  · obtain ⟨f, hf⟩ := exec_eq_dataOp c sf rn rd op s i hi
    exact hf.trans (dataOp_refused hc hu (by simpa [eq_comm] using h) f sf)
  · obtain ⟨f, hf⟩ := exec_eq_moveOp c sf rd 0#4 op s i hi
    exact hf.trans (moveOp_refused hc hu (by simpa [eq_comm] using h) f sf)
  · obtain ⟨f, hf⟩ := exec_eq_compareOp c rn 0#4 op s i hi
    exact hf.trans (compareOp_refused hc hu (by simpa [eq_comm] using h) f)

/-! ## Logical results in a register (R165, R166) -/

/-- Settles O15: the frame of data processing with the four logical results. -/
theorem logicalResults : Obligations.LogicalResults := by
  intro c sf rn rd op s hr hn hd hs
  simp only [exec_and, execAnd, exec_eor, execEor, exec_orr, execOrr, exec_bic, execBic,
    dataOp_completes hr hn hd hs, logical, setFlags_eq_flags, Option.getD_none, and_self]

/-- What MOV and MVN do once nothing refuses them: the result goes to Rd (R160). -/
theorem moveOp_of_runs {c : Cond} {rd : RegNum} {op : Operand2} {s : State} (hr : Runs c (rd :: operandRegs op) s)
    (hs : ShiftOk op [rd]) (sf : Bool) (f : (b : Word) → (sc : Bool) → AluResult) :
    moveOp f c sf 0#4 rd op s = dataResult sf rd (f (operand2 op s).1 (operand2 op s).2) s.unmarked := by
  unfold moveOp
  rw [conditional_of_runs hr, failIf_eq_none.2 (by decide), regShiftCheck_eq_none.2 hs, guarded_none, guarded_none]
  simp only [operand2_unmarked]

/-- Settles O18: the frame of the moves with operand 2 and its complement. -/
theorem moveResults : Obligations.MoveResults := by
  intro c sf rd op s hr hn hd hs
  simp only [exec_mov, execMov, exec_mvn, execMvn, moveOp_of_runs hr hs, dataResult_completes hn hd, logical,
    setFlags_eq_flags, Option.getD_none, and_self]

/-! ## Results that go to r15 (R167) -/

theorem jump_jumpsTo (v : Word) (s : State) : JumpsTo (jump v s.unmarked) s v := rfl

/-- An exception return is refused without an SPSR, with one that holds no legal mode and to an unaligned ARM address,
and otherwise takes the CPSR from it (R167, R325). -/
theorem exceptionReturn_returnsTo (v : Word) (s : State) : ReturnsTo (exceptionReturn v s.unmarked) s v := by
  have hmode : s.unmarked.cpsr.mode = s.cpsr.mode := rfl
  have hspsr : ∀ q, s.unmarked.spsr q = s.spsr q := fun _ => rfl
  unfold ReturnsTo exceptionReturn
  rw [hmode]
  cases s.cpsr.mode.spsr? with
  | none => rfl
  | some q =>
    simp only [hspsr]
    cases Psr.ofWord? (s.spsr q) with
    | none => rfl
    | some p =>
      simp only [Bool.and_eq_true, Bool.not_eq_true', bne_iff_ne]
      rfl

/-- The outcomes of an instruction without S and with it that writes `v` to r15 (R167). -/
def GoesToPc (e : Bool → Out) (s : State) (v : Word) : Prop := JumpsTo (e false) s v ∧ ReturnsTo (e true) s v

theorem dataResult_goesToPc (r : AluResult) (s : State) :
    GoesToPc (fun sf => dataResult sf pcNum r s.unmarked) s r.value :=
  ⟨jump_jumpsTo r.value s, exceptionReturn_returnsTo r.value s⟩

/-- What an instruction with Rn and Rd does once nothing refuses it: the result goes to Rd (R160). -/
theorem dataOp_of_runs {c : Cond} {rn rd : RegNum} {op : Operand2} {s : State}
    (hr : Runs c (rn :: rd :: operandRegs op) s) (hs : ShiftOk op [rn, rd]) (sf : Bool)
    (f : (a b : Word) → (sc cin : Bool) → AluResult) :
    dataOp f c sf rn rd op s =
      dataResult sf rd (f (readX s rn) (operand2 op s).1 (operand2 op s).2 s.cpsr.c) s.unmarked := by
  unfold dataOp
  rw [conditional_of_runs hr, regShiftCheck_eq_none.2 hs, guarded_none]
  simp only [readX_unmarked, operand2_unmarked]
  rfl

section
variable {c : Cond} {rn : RegNum} {op : Operand2} {s : State}

theorem dataOp_goesToPc (hr : Runs c (rn :: pcNum :: operandRegs op) s) (hs : ShiftOk op [rn, pcNum])
    (f : (a b : Word) → (sc cin : Bool) → AluResult) :
    GoesToPc (fun sf => dataOp f c sf rn pcNum op s) s
      (f (readX s rn) (operand2 op s).1 (operand2 op s).2 s.cpsr.c).value := by
  simp only [dataOp_of_runs hr hs]
  exact dataResult_goesToPc _ s

theorem moveOp_goesToPc (hr : Runs c (pcNum :: operandRegs op) s) (hs : ShiftOk op [pcNum])
    (f : (b : Word) → (sc : Bool) → AluResult) :
    GoesToPc (fun sf => moveOp f c sf 0#4 pcNum op s) s (f (operand2 op s).1 (operand2 op s).2).value := by
  simp only [moveOp_of_runs hr hs]
  exact dataResult_goesToPc _ s

end

/-- An instruction that touches fewer registers runs where one that touches more does (R361). -/
theorem Runs.of_cons {c : Cond} {r : RegNum} {regs : List RegNum} {s : State} (h : Runs c (r :: regs) s) :
    Runs c regs s :=
  ⟨h.1, h.2.imp_right fun hb q hq => hb q (List.mem_cons_of_mem r hq)⟩

theorem ShiftOk.of_cons {op : Operand2} {r : RegNum} {others : List RegNum} (h : ShiftOk op (r :: others)) :
    ShiftOk op others := by
  cases op with
  | shiftReg rm k rs =>
    obtain ⟨hm, hs, ho⟩ := h
    exact ⟨hm, hs, fun hp => ho (List.mem_cons_of_mem r hp)⟩
  | imm | shiftImm => trivial

/-- The adder's sum with the carry as a word (R175). -/
theorem addWithCarry_value (a b : Word) (c : Bool) :
    (addWithCarry a b c).value = a + b + if c then 1#32 else 0#32 := by
  rw [addWithCarry_eq]
  cases c <;> rfl

/-- The difference with borrow: less one where the carry is clear (R176, R177). -/
theorem addWithCarry_not_value (a b : Word) (c : Bool) :
    (addWithCarry a (~~~b) c).value = a - b + (if c then 1#32 else 0#32) - 1#32 := by
  rw [addWithCarry_value, BitVec.not_eq_neg_add]
  ring

/-- Settles O20: the result of each instruction, which its frame sends to r15. -/
theorem dataProcessingToPc : Obligations.DataProcessingToPc := by
  intro c rn op s hr hs a b cin
  have hop := dataOp_goesToPc hr hs
  have hmove := moveOp_goesToPc hr.of_cons hs.of_cons
  have hsub := hop fun a b _ _ => addWithCarry a (~~~b) true
  have hrsb := hop fun a b _ _ => addWithCarry b (~~~a) true
  have hadd := hop fun a b _ _ => addWithCarry a b false
  have hadc := hop fun a b _ cin => addWithCarry a b cin
  have hsbc := hop fun a b _ cin => addWithCarry a (~~~b) cin
  have hrsc := hop fun a b _ cin => addWithCarry b (~~~a) cin
  rw [addWithCarry_sub] at hsub hrsb
  rw [addWithCarry_add] at hadd
  rw [addWithCarry_value] at hadc
  rw [addWithCarry_not_value] at hsbc hrsc
  simp only [List.forall_mem_cons, List.not_mem_nil, false_implies, implies_true, and_true, exec_and, execAnd, exec_eor,
    execEor, exec_sub, execSub, exec_rsb, execRsb, exec_add, execAdd, exec_adc, execAdc, exec_sbc, execSbc, exec_rsc,
    execRsc, exec_orr, execOrr, exec_bic, execBic, exec_mov, execMov, exec_mvn, execMvn]
  exact ⟨hop _, hop _, hsub, hrsb, hadd, hadc, hsbc, hrsc, hop _, hop _, hmove _, hmove _⟩

end Sys2Proof.Machine
end

section
/-!
Proofs of `MultiplyResults` and `LongMultiplyResults`: the exact products and sums in the terms of word arithmetic, and
the frame of the multiplies run to the end once for each width (spec/44_multiply_clz.md R201, R203 to R208).
-/

namespace Sys2Proof.Machine

/-- An instruction that touches only some of the registers of one that runs, runs too (R361). -/
theorem Runs.subset {c : Cond} {regs fewer : List RegNum} {s : State} (h : Runs c regs s) (hs : fewer ⊆ regs) :
    Runs c fewer s :=
  ⟨h.1, h.2.imp_right fun hb r hr => hb r (hs hr)⟩

/-! ## The exact results, narrowed (R203 to R208) -/

/-- The low half of the exact product is the product of words (R203). -/
theorem product_ofNat (a b : Word) : BitVec.ofNat 32 (a.toNat * b.toNat) = a * b := rfl

/-- The accumulator is added to the exact product before it is narrowed (R204). -/
theorem productSum_ofNat (a b n : Word) : BitVec.ofNat 32 (a.toNat * b.toNat + n.toNat) = a * b + n := by
  rw [BitVec.ofNat_add, product_ofNat, BitVec.ofNat_toNat, BitVec.setWidth_eq]

/-- The exact unsigned product is that of the zero-extended words (R205). -/
theorem unsignedProduct_ofNat (a b : Word) :
    BitVec.ofNat 64 (a.toNat * b.toNat) = a.setWidth 64 * b.setWidth 64 := by
  rw [BitVec.ofNat_mul, BitVec.ofNat_toNat, BitVec.ofNat_toNat]

/-- The unsigned product accumulated, modulo 2^64 (R206). -/
theorem unsignedProductSum_ofNat (acc : BitVec 64) (a b : Word) :
    BitVec.ofNat 64 (acc.toNat + a.toNat * b.toNat) = acc + a.setWidth 64 * b.setWidth 64 := by
  rw [BitVec.ofNat_add, unsignedProduct_ofNat, BitVec.ofNat_toNat, BitVec.setWidth_eq]

/-- The exact signed product is that of the sign-extended words (R207). -/
theorem signedProduct_ofInt (a b : Word) :
    BitVec.ofInt 64 (a.toInt * b.toInt) = a.signExtend 64 * b.signExtend 64 :=
  BitVec.ofInt_mul a.toInt b.toInt

/-- The signed product accumulated, modulo 2^64 (R208). -/
theorem signedProductSum_ofInt (acc : BitVec 64) (a b : Word) :
    BitVec.ofInt 64 (acc.toInt + a.toInt * b.toInt) = acc + a.signExtend 64 * b.signExtend 64 := by
  rw [BitVec.ofInt_add, signedProduct_ofInt, BitVec.ofInt_toInt]

/-! ## The flags of the multiplies (R201) -/

/-- MULS and MLAS set N and Z and keep V; C is whatever it is after them. -/
theorem setMulFlags_cpsr (v : Word) (s : State) :
    (setMulFlags v s).cpsr = s.cpsr.flags v.msb (v == 0#32) (setMulFlags v s).cpsr.c s.cpsr.v := rfl

/-- The long multiplies set N and Z from the 64 bits; C and V are whatever they are after them. -/
theorem setMulLongFlags_cpsr (v : BitVec 64) (s : State) :
    (setMulLongFlags v s).cpsr =
      s.cpsr.flags v.msb (v == 0#64) (setMulLongFlags v s).cpsr.c (setMulLongFlags v s).cpsr.v := rfl

/-! ## What a multiply writes -/

/-- The state that MUL and MLA advance from, once the product `v` is written (R203, R204). -/
def mulWritten (sf : Bool) (rd : RegNum) (v : Word) (s : State) : State :=
  if sf then setMulFlags v (writeX s rd v) else writeX s rd v

/-- The same for the long multiplies (R205 to R208). -/
def mulLongWritten (sf : Bool) (rdHi rdLo : RegNum) (v : BitVec 64) (s : State) : State :=
  let s' := writeX (writeX s rdLo (v.extractLsb' 0 32)) rdHi (v.extractLsb' 32 32)
  if sf then setMulLongFlags v s' else s'

theorem mulResult_eq_advance (sf : Bool) (rd : RegNum) (v : Word) (s : State) :
    mulResult sf rd v s = advance (mulWritten sf rd v s) := rfl

theorem mulLongResult_eq_advance (sf : Bool) (rdHi rdLo : RegNum) (v : BitVec 64) (s : State) :
    mulLongResult sf rdHi rdLo v s = advance (mulLongWritten sf rdHi rdLo v s) := rfl

theorem mulWritten_pc (sf : Bool) {rd : RegNum} (hd : rd ≠ pcNum) (v : Word) (s : State) :
    (mulWritten sf rd v s).pc = s.pc := by
  cases sf <;> exact writeX_pc_ne s v hd

theorem mulWritten_reg (sf : Bool) (rd : RegNum) (v : Word) (s : State) (p : PReg) :
    (mulWritten sf rd v s).reg p = if bankReg s.cpsr.mode rd = some p then v else s.reg p := by
  cases sf <;> exact writeX_reg s rd v p

theorem mulWritten_cpsr (sf : Bool) (rd : RegNum) (v : Word) (s : State) :
    (mulWritten sf rd v s).cpsr =
      if sf then s.cpsr.flags v.msb (v == 0#32) (mulWritten sf rd v s).cpsr.c s.cpsr.v else s.cpsr := by
  cases sf
  · exact writeX_cpsr s rd v
  · exact (setMulFlags_cpsr v (writeX s rd v)).trans (by rw [writeX_cpsr]; rfl)

theorem mulLongWritten_pc (sf : Bool) {rdHi rdLo : RegNum} (hHi : rdHi ≠ pcNum) (hLo : rdLo ≠ pcNum) (v : BitVec 64)
    (s : State) : (mulLongWritten sf rdHi rdLo v s).pc = s.pc := by
  cases sf <;> exact (writeX_pc_ne _ _ hHi).trans (writeX_pc_ne s _ hLo)

/-- RdLo is written first, then RdHi. -/
theorem mulLongWritten_reg (sf : Bool) (rdHi rdLo : RegNum) (v : BitVec 64) (s : State) (p : PReg) :
    (mulLongWritten sf rdHi rdLo v s).reg p =
      if bankReg s.cpsr.mode rdHi = some p then v.extractLsb' 32 32
      else if bankReg s.cpsr.mode rdLo = some p then v.extractLsb' 0 32 else s.reg p := by
  have hw := writeX_reg (writeX s rdLo (v.extractLsb' 0 32)) rdHi (v.extractLsb' 32 32) p
  rw [writeX_cpsr, writeX_reg s] at hw
  cases sf <;> exact hw

theorem mulLongWritten_cpsr (sf : Bool) (rdHi rdLo : RegNum) (v : BitVec 64) (s : State) :
    (mulLongWritten sf rdHi rdLo v s).cpsr =
      if sf then s.cpsr.flags v.msb (v == 0#64) (mulLongWritten sf rdHi rdLo v s).cpsr.c
        (mulLongWritten sf rdHi rdLo v s).cpsr.v
      else s.cpsr := by
  have hw : (writeX (writeX s rdLo (v.extractLsb' 0 32)) rdHi (v.extractLsb' 32 32)).cpsr = s.cpsr := by
    rw [writeX_cpsr, writeX_cpsr]
  cases sf
  · exact hw
  · exact (setMulLongFlags_cpsr v _).trans (by rw [hw]; rfl)

/-! ## The multiplies, run to the end -/

section
variable {c : Cond} {s : State}

/-- An instruction of the frame `RegFrame` that advances from a state at its own pc completes. -/
theorem advance_completes {o : Out} {u : State} {sf : Bool} {written : List (Option PReg)} (ho : o = advance u)
    (hf : AllNext (RegFrame s sf written) o) (hn : HasNext s) (hpc : u.pc = s.pc) :
    o = .next u.advanced ∧ u.advanced.pc = s.pc + 4 ∧ SameSpsrs s u.advanced ∧ SameMemory s u.advanced ∧
      SameInputs s u.advanced := by
  have ht : o = .next u.advanced := ho.trans (advance_of_hasNext (by rwa [HasNext, hpc]))
  obtain ⟨hspsr, hmem, hin, -⟩ := (hf _ ht).same
  exact ⟨ht, congrArg (· + 4) hpc, hspsr, hmem, hin⟩

/-- A product written to Rd: the value, the flags if S is 1, the next pc, and nothing else (R201, R203, R204). -/
theorem mulResult_completes (hn : HasNext s) {rd : RegNum} (hd : rd ≠ pcNum) (sf : Bool) (v : Word) :
    ∃ t, mulResult sf rd v s.unmarked = .next t ∧
      (∀ p, t.reg p = if bankReg s.cpsr.mode rd = some p then v else s.reg p) ∧ t.pc = s.pc + 4 ∧
      t.cpsr = (if sf then s.cpsr.flags v.msb (v == 0#32) t.cpsr.c s.cpsr.v else s.cpsr) ∧
      SameSpsrs s t ∧ SameMemory s t ∧ SameInputs s t := by
  obtain ⟨ht, hpc, hsame⟩ := advance_completes (mulResult_eq_advance sf rd v s.unmarked) (regFrame_mulResult v) hn
    (mulWritten_pc sf hd v s.unmarked)
  exact ⟨_, ht, mulWritten_reg sf rd v s.unmarked, hpc, mulWritten_cpsr sf rd v s.unmarked, hsame⟩

/-- MUL that no rule refuses writes the product of Rm and Rs (R203). -/
theorem execMul_of_runs {rd rs rm : RegNum} (hr : Runs c [rd, rs, rm] s) (hck : mulCheck [rd, rs, rm] rd rm = none)
    (sf : Bool) : execMul c sf rd 0#4 rs rm s = mulResult sf rd (readX s rm * readX s rs) s.unmarked := by
  rw [execMul, conditional_of_runs hr, failIf_eq_none.2 (by decide), hck, guarded_none, guarded_none, product_ofNat]
  rfl

/-- MLA that no rule refuses writes the product plus Rn (R204). -/
theorem execMla_of_runs {rd rn rs rm : RegNum} (hr : Runs c [rd, rn, rs, rm] s)
    (hck : mulCheck [rd, rn, rs, rm] rd rm = none) (sf : Bool) :
    execMla c sf rd rn rs rm s = mulResult sf rd (readX s rm * readX s rs + readX s rn) s.unmarked := by
  rw [execMla, conditional_of_runs hr, hck, guarded_none, productSum_ofNat]
  rfl

/-- A long multiply that no rule refuses writes what it computes from RdHi:RdLo, Rm and Rs to RdHi and RdLo, the flags
if S is 1 and the next pc, and nothing else (R201, R205 to R208). -/
theorem mulLongOp_completes {rdHi rdLo rs rm : RegNum} (hr : Runs c [rdHi, rdLo, rs, rm] s) (hn : HasNext s)
    (hck : mulLongCheck rdHi rdLo rs rm = none) (sf : Bool) (f : (acc : BitVec 64) → (m r : Word) → BitVec 64) :
    let v := f (readX s rdHi ++ readX s rdLo) (readX s rm) (readX s rs)
    ∃ t, mulLongOp f c sf rdHi rdLo rs rm s = .next t ∧
      (∀ p, t.reg p = if bankReg s.cpsr.mode rdHi = some p then v.extractLsb' 32 32
        else if bankReg s.cpsr.mode rdLo = some p then v.extractLsb' 0 32 else s.reg p) ∧ t.pc = s.pc + 4 ∧
      t.cpsr = (if sf then s.cpsr.flags v.msb (v == 0#64) t.cpsr.c t.cpsr.v else s.cpsr) ∧
      SameSpsrs s t ∧ SameMemory s t ∧ SameInputs s t := by
  intro v
  obtain ⟨hHi, hLo⟩ := ne_pcNum_of_mulLongCheck hck
  have ho : mulLongOp f c sf rdHi rdLo rs rm s = advance (mulLongWritten sf rdHi rdLo v s.unmarked) := by
    rw [mulLongOp, conditional_of_runs hr, hck, guarded_none, mulLongResult_eq_advance]
    rfl
  obtain ⟨ht, hpc, hsame⟩ := advance_completes ho regFrame_mulLongOp hn (mulLongWritten_pc sf hHi hLo v s.unmarked)
  exact ⟨_, ht, mulLongWritten_reg sf rdHi rdLo v s.unmarked, hpc,
    mulLongWritten_cpsr sf rdHi rdLo v s.unmarked, hsame⟩

end

/-! ## The obligations -/

/-- Settles O21: both write their product by `mulResult`. -/
theorem multiplyResults : Obligations.MultiplyResults := by
  intro c sf rd rn rs rm s hr hn hp hd done
  have hpc : pcNum ∉ [rd, rs, rm] := fun h => hp (by simp_all)
  have hmul := execMul_of_runs (hr.subset (by simp)) (mulCheck_eq_none.2 ⟨hpc, hd⟩) sf
  have hmla := execMla_of_runs hr (mulCheck_eq_none.2 ⟨hp, hd⟩) sf
  have hres := mulResult_completes hn (List.ne_of_not_mem_cons hp).symm sf
  rw [exec_mul, exec_mla, hmul, hmla]
  exact ⟨hres _, hres _⟩

/-- Settles O22: one frame, with the four exact results narrowed to 64 bits. -/
theorem longMultiplyResults : Obligations.LongMultiplyResults := by
  intro c sf rdHi rdLo rs rm s hr hn hp h1 h2 h3 acc um sm done
  have hop := mulLongOp_completes hr hn (mulLongCheck_eq_none.2 ⟨hp, h1, h2, h3⟩) sf
  have humull := hop fun _ m r => BitVec.ofNat 64 (m.toNat * r.toNat)
  have humlal := hop fun acc m r => BitVec.ofNat 64 (acc.toNat + m.toNat * r.toNat)
  have hsmull := hop fun _ m r => BitVec.ofInt 64 (m.toInt * r.toInt)
  have hsmlal := hop fun acc m r => BitVec.ofInt 64 (acc.toInt + m.toInt * r.toInt)
  rw [unsignedProduct_ofNat] at humull
  rw [unsignedProductSum_ofNat] at humlal
  rw [signedProduct_ofInt] at hsmull
  rw [signedProductSum_ofInt] at hsmlal
  exact ⟨humull, humlal, hsmull, hsmlal⟩

end Sys2Proof.Machine
end

section
/-!
Proofs of `LoadToPc`, `LoadsFrame` and `StoresFrame`: LDR to r15 run to the end, and what the single transfers leave of
the state, whether they are skipped, abort or complete (spec/20_memory.md R62 to R64,
spec/45_single_data_transfer.md R223 to R239).
-/

namespace Sys2Proof.Machine

/-! ## LDR to r15 (R226) -/

/-- The word loaded from an aligned address is not rotated (R62). -/
theorem readRotated_of_aligned {s : State} {ea w : Word} (ha : ea.extractLsb' 0 2 = 0#2) (h : readWord s ea = .ok w) :
    readRotated s ea = .ok w := by
  simp [readRotated, wordAligned_of_aligned ha, h, Access.bind, ha, BitVec.rotateRight_def]

section
variable {rn : RegNum} {a : Address} {s : State}

theorem loadWordTo_pc_exchanges (ha : a.ea.extractLsb' 0 2 = 0#2) {w : Word} (hv : readWord s a.ea = .ok w) :
    ExchangesTo (loadWordTo rn pcNum a s.unmarked) (updateBase a rn s) w := by
  have hload : loadWordTo rn pcNum a s.unmarked = exchange w (updateBase a rn s).unmarked := by
    unfold loadWordTo
    rw [wordAccess_of_ok (.inl ha), if_neg fun h => h.2 ha, readRotated_of_aligned (s := s.unmarked) ha hv,
      ← updateBase_unmarked]
    rfl
  rw [hload]
  exact exchangesTo_exchange w _

theorem loadWordTo_pc_refused (ha : a.ea.extractLsb' 0 2 ≠ 0#2) (hu : s.platform.unaligned = .rotate) :
    loadWordTo rn pcNum a s = .refused .unalignedPcLoad := by
  unfold loadWordTo
  rw [wordAccess_of_ok (.inr hu), if_pos ⟨rfl, ha⟩]

end

/-- Settles O30: the frame of a word transfer, then its move at an aligned and at a misaligned address. -/
theorem loadToPc : Obligations.LoadToPc := by
  intro c ix up rn off s w hr a hok
  rw [exec_ldr, execLdr, wordTransfer_of_runs hr (transferCheck_eq_none.2 hok)]
  exact ⟨fun ha hv => loadWordTo_pc_exchanges ha hv, loadWordTo_pc_refused (s := s.unmarked)⟩

/-! ## A property of the states a single transfer can end in -/

section
variable {P : State → Prop} {c : Cond} {rn rd : RegNum} {s : State} (hskip : P s.unmarked.advanced)
include hskip

/-- A word or byte transfer is skipped, refused, or its move at the model's own address (R131, R223). -/
theorem allNext_wordTransfer {check : Bool → RegNum → RegNum → List RegNum → Option Refusal}
    {move : RegNum → RegNum → Address → State → Out} {ix : Index} {up : Bool} {off : WordOffset}
    (hmove : AllNext P (move rn rd (wordAddress ix up rn off s) s.unmarked)) :
    AllNext P (wordTransfer check move c ix up rn rd off s) :=
  allNext_conditional hskip <| allNext_guarded fun _ => by rwa [wordAddress_unmarked]

/-- A half-word or signed-byte transfer is skipped, refused, or its move at the model's own address (R131, R234). -/
theorem allNext_halfTransfer {move : RegNum → RegNum → Address → State → Out} {p u w : Bool} {off : HalfOffset}
    (hmove : AllNext P (move rn rd (halfAddress p u w rn off s) s.unmarked)) :
    AllNext P (halfTransfer move c p u w rn rd off s) :=
  allNext_conditional hskip <| allNext_guarded fun _ => allNext_guarded fun _ => allNext_guarded fun _ => by
    rwa [halfAddress_unmarked]

end

/-- The base written back besides. -/
theorem RegFrame.updateBase {s t : State} {written : List (Option PReg)} (h : RegFrame s false written t) {rn : RegNum}
    (hn : bankReg s.cpsr.mode rn ∈ written) (a : Address) : RegFrame s false written (updateBase a rn t) := by
  unfold Machine.updateBase
  split
  · exact h.writeX hn _
  · exact h

/-! ## Loads -/

/-- What a single load leaves of the state `s` (R223, R225 to R239). -/
def LoadLeaves (s : State) (rn rd : RegNum) (t : State) : Prop :=
  SameMemory s t ∧ SameInputs s t ∧
    (t = raiseDataAbort s.unmarked ∨
      (SameRegsBut [bankReg s.cpsr.mode rd, bankReg s.cpsr.mode rn] s t ∧ SameSpsrs s t ∧
        t.cpsr = { s.cpsr with t := t.cpsr.t } ∧ (rd ≠ pcNum → t.cpsr = s.cpsr)))

section
variable {rn rd : RegNum} {a : Address} {s : State}

theorem loadLeaves_abort : LoadLeaves s rn rd (raiseDataAbort s.unmarked) := ⟨fun _ => rfl, ⟨rfl, rfl⟩, .inl rfl⟩

theorem RegFrame.loadLeaves {t : State}
    (h : RegFrame s false [bankReg s.cpsr.mode rd, bankReg s.cpsr.mode rn] t) : LoadLeaves s rn rd t := by
  obtain ⟨hspsr, hmem, hin, -, hcpsr, hregs⟩ := h.same
  exact ⟨hmem, hin, .inr ⟨hregs, hspsr, by rw [hcpsr rfl], fun _ => hcpsr rfl⟩⟩

theorem loadLeaves_skip : LoadLeaves s rn rd s.unmarked.advanced :=
  (RegFrame.refl s.unmarked false _).advanced.loadLeaves

/-- The end of a load to a register other than r15. -/
theorem loadLeaves_loaded {v : Word} :
    AllNext (LoadLeaves s rn rd) (advance (updateBase a rn (writeX s.unmarked rd v))) :=
  have hload : RegFrame s.unmarked false [bankReg s.cpsr.mode rd, bankReg s.cpsr.mode rn] (writeX s.unmarked rd v) :=
    (RegFrame.refl ..).writeX List.mem_cons_self v
  allNext_advance (hload.updateBase (List.mem_cons_of_mem _ List.mem_cons_self) a).advanced.loadLeaves

/-- The end of a load to r15, which writes the T bit (R226). -/
theorem loadLeaves_exchange {v : Word} :
    AllNext (LoadLeaves s rn pcNum) (exchange v (updateBase a rn s.unmarked)) := fun t ht => by
  have hbase : RegFrame s.unmarked false [bankReg s.cpsr.mode pcNum, bankReg s.cpsr.mode rn]
      (updateBase a rn s.unmarked) :=
    (RegFrame.refl ..).updateBase (List.mem_cons_of_mem _ List.mem_cons_self) a
  obtain ⟨hspsr, hmem, hin, -, hcpsr, hregs⟩ := hbase.same
  obtain ⟨-, rfl⟩ := exchange_next.1 ht
  exact ⟨hmem, hin, .inr ⟨hregs, hspsr, by rw [hcpsr rfl]; rfl, fun h => absurd rfl h⟩⟩

theorem loadLeaves_loadTo {x : Access Word} : AllNext (LoadLeaves s rn rd) (loadTo rn rd a s.unmarked x) :=
  allNext_withLoad loadLeaves_abort fun _ => loadLeaves_loaded

theorem loadLeaves_loadWordTo : AllNext (LoadLeaves s rn rd) (loadWordTo rn rd a s.unmarked) := by
  refine allNext_wordAccess loadLeaves_abort ?_
  split
  · exact allNext_refused
  · refine allNext_withLoad loadLeaves_abort fun v => ?_
    split
    · next hd =>
      subst hd
      exact loadLeaves_exchange
    · exact loadLeaves_loaded

theorem loadLeaves_loadByteTo : AllNext (LoadLeaves s rn rd) (loadByteTo rn rd a s.unmarked) :=
  allNext_withLoad loadLeaves_abort fun _ => loadLeaves_loaded

theorem loadLeaves_loadHalfTo {ext : BitVec 16 → Word} :
    AllNext (LoadLeaves s rn rd) (loadHalfTo ext rn rd a s.unmarked) :=
  allNext_halfAccess loadLeaves_abort fun _ => loadLeaves_loadTo

end

/-- Settles O36: the frame of the transfer, then the move of each load. -/
theorem loadsFrame : Obligations.LoadsFrame := by
  intro c ix p u w rn rd wo ho s t i hi ht
  suffices h : AllNext (LoadLeaves s rn rd) (exec i s) from h t ht
  clear ht
  revert i
  simp only [List.forall_mem_cons, List.not_mem_nil, false_implies, implies_true, and_true]
  refine ⟨?ldr, ?ldrb, ?ldrt, ?ldrbt, ?ldrh, ?ldrsb, ?ldrsh⟩
  case ldr | ldrt => exact allNext_wordTransfer loadLeaves_skip loadLeaves_loadWordTo
  case ldrb | ldrbt => exact allNext_wordTransfer loadLeaves_skip loadLeaves_loadByteTo
  case ldrh | ldrsh => exact allNext_halfTransfer loadLeaves_skip loadLeaves_loadHalfTo
  case ldrsb => exact allNext_halfTransfer loadLeaves_skip loadLeaves_loadTo

/-! ## Stores -/

/-- What a single store of the `n` bytes from `ea` on leaves of the state `s` (R223, R227 to R239). -/
def StoreLeaves (s : State) (rn : RegNum) (ea : Word) (n : Nat) (t : State) : Prop :=
  (∀ y, Outside ea.toNat n y → Memory.read t.mem y = Memory.read s.mem y) ∧ SameInputs s t ∧
    (t = raiseDataAbort s.unmarked ∨ (SameRegsBut [bankReg s.cpsr.mode rn] s t ∧ SameSpsrs s t ∧ t.cpsr = s.cpsr))

section
variable {rn rd : RegNum} {a : Address} {ea : Word} {n : Nat} {s : State}

theorem storeLeaves_abort : StoreLeaves s rn ea n (raiseDataAbort s.unmarked) :=
  ⟨fun _ _ => rfl, ⟨rfl, rfl⟩, .inl rfl⟩

/-- The bytes stored, then the registers written, then the pc. -/
theorem RegFrame.storeLeaves {s' t : State} (h : RegFrame s' false [bankReg s.cpsr.mode rn] t)
    (hs : StoresOnly s.unmarked s') (hout : ∀ y, Outside ea.toNat n y → Memory.read s'.mem y = Memory.read s.mem y) :
    StoreLeaves s rn ea n t.advanced := by
  refine ⟨fun y hy => ?_, ⟨h.lines.trans hs.lines, h.platform.trans hs.platform⟩,
    .inr ⟨fun p hp => (h.regs p hp).trans (reg_congr hs.regs p), spsr_congr (h.spsrs.trans hs.spsrs),
      (h.cpsr rfl).trans hs.cpsr⟩⟩
  rw [← hout y hy, ← h.mem]
  rfl

theorem storeLeaves_skip : StoreLeaves s rn ea n s.unmarked.advanced :=
  (RegFrame.refl s.unmarked false _).storeLeaves (StoresOnly.refl s.unmarked) fun _ _ => rfl

/-- The end of a store. -/
theorem storeLeaves_stored {s' : State} (hs : StoresOnly s.unmarked s')
    (hout : ∀ y, Outside ea.toNat n y → Memory.read s'.mem y = Memory.read s.mem y) :
    AllNext (StoreLeaves s rn ea n) (advance (updateBase a rn s')) := by
  have hbase : RegFrame s' false [bankReg s.cpsr.mode rn] (updateBase a rn s') :=
    (RegFrame.refl ..).updateBase (List.mem_singleton.2 (by rw [hs.cpsr]; rfl)) a
  exact allNext_advance (hbase.storeLeaves hs hout)

theorem storeLeaves_storeWordFrom :
    AllNext (StoreLeaves s rn (wordAligned a.ea) 4) (storeWordFrom rn rd a s.unmarked) :=
  allNext_wordAccess storeLeaves_abort <| allNext_withStore storeLeaves_abort fun _ hw =>
    storeLeaves_stored (writeWord_only hw) fun _ => writeWord_read_outside hw

theorem storeLeaves_storeByteFrom : AllNext (StoreLeaves s rn a.ea 1) (storeByteFrom rn rd a s.unmarked) :=
  allNext_withStore storeLeaves_abort fun _ hw =>
    storeLeaves_stored (writeByte_only hw) fun _ => writeByte_read_outside hw

theorem storeLeaves_storeHalfFrom : AllNext (StoreLeaves s rn a.ea 2) (storeHalfFrom rn rd a s.unmarked) :=
  allNext_halfAccess storeLeaves_abort fun _ => allNext_withStore storeLeaves_abort fun _ hw =>
    storeLeaves_stored (writeHalf_only hw) fun _ => writeHalf_read_outside hw

end

/-- Settles O37: the frame of the transfer, then the move of each store. -/
theorem storesFrame : Obligations.StoresFrame := by
  intro c ix p u w rn rd wo ho s t a ah x hx ht
  suffices h : AllNext (StoreLeaves s rn x.2.1 x.2.2) (exec x.1 s) from h t ht
  clear ht
  revert x
  simp only [List.forall_mem_cons, List.not_mem_nil, false_implies, implies_true, and_true]
  refine ⟨?str, ?strt, ?strb, ?strbt, ?strh⟩
  case str => exact allNext_wordTransfer storeLeaves_skip storeLeaves_storeWordFrom
  case strt => exact allNext_wordTransfer (ix := .post) storeLeaves_skip storeLeaves_storeWordFrom
  case strb => exact allNext_wordTransfer storeLeaves_skip storeLeaves_storeByteFrom
  case strbt => exact allNext_wordTransfer (ix := .post) storeLeaves_skip storeLeaves_storeByteFrom
  case strh => exact allNext_halfTransfer storeLeaves_skip storeLeaves_storeHalfFrom

end Sys2Proof.Machine
end

section
/-!
Proofs of `LoadMultipleRestore` and `LoadMultipleUser`: the multiple loads with S = 1, the one an exception return after
its loads, the other a load through the User bank that marks the next instruction
(spec/46_multiple_transfer_swap.md R250, R253, R254, spec/70_reset_and_hazards.md R361).
-/

namespace Sys2Proof.Machine

/-! ## The exception return and its refusals (R253) -/

section
variable {v : Word} {s : State} {q : SpsrName} (hq : s.cpsr.mode.spsr? = some q)
include hq

theorem exceptionReturn_of_illegalMode (h : Psr.ofWord? (s.spsr q) = none) :
    exceptionReturn v s = .refused .illegalMode := by
  simp only [exceptionReturn, hq, h]

theorem exceptionReturn_of_unaligned {psr : Psr} (h : Psr.ofWord? (s.spsr q) = some psr) (ht : psr.t = false)
    (hv : v.extractLsb' 0 2 ≠ 0#2) : exceptionReturn v s = .refused .unalignedTarget := by
  have hcheck : (!psr.t && v.extractLsb' 0 2 != 0#2) = true := by simp [ht, hv]
  simp only [exceptionReturn, hq, h, if_pos hcheck]

end

/-! ## LDM with the CPSR restored (R253) -/

/-- With S = 1 the list's bit for r15 stands apart: it tells the restoring load from the User-bank load (R253, R254). -/
theorem getLsbD_fifteen_append (b : BitVec 1) (list : BitVec 15) :
    (b ++ list : BitVec 16).getLsbD 15 = b.getLsbD 0 := by
  rw [BitVec.getLsbD_append]
  rfl

/-- LDM with S = 1 and r15 in the list, whose words are all read, is an exception return to the last word. -/
theorem execLdmRestore_of_words {c : Cond} {p u w : Bool} {rn : RegNum} {list : BitVec 15} {s : State}
    {v : Nat → Word} (hr : Runs c (rn :: blockRegs (1#1 ++ list)) s) (hb : BlockOk p u rn (1#1 ++ list) s)
    (hok : WordOk s (readX s rn)) (hw : w = true → (1#1 ++ list : BitVec 16).getLsbD rn.toNat = false)
    (hv : ∀ k < (blockRegs (1#1 ++ list)).length, readWord s (blockAddr p u rn (1#1 ++ list) s k) = .ok (v k))
    (hq : s.cpsr.mode.spsr?.isNone = false) :
    execLdmRestore c p u w rn list s =
      exceptionReturn (v ((blockRegs (1#1 ++ list)).length - 1))
        (loadedBlock u w rn (1#1 ++ list) s (loadedWords (blockRegs (1#1 ++ list)) v)) := by
  have hspsr : failIf s.unmarked.cpsr.mode.spsr?.isNone .noSpsr = none := failIf_eq_none.2 hq
  unfold execLdmRestore
  dsimp only
  rw [conditional_of_runs hr, readX_unmarked, blockCheck_eq_none.2 hb, guarded_none, hspsr, guarded_none,
    loadBaseCheck_eq_none.2 hw, guarded_none, wordAccess_of_ok (s := s.unmarked) hok,
    readBlock_words (s := s.unmarked) hv, withBlock, lookup_pcNum_of_list (getLsbD_fifteen_append 1#1 list)]
  rfl

/-- Settles O40: the loads end in an exception return, which the SPSR and the target refuse or let pass; the rest by
`loadedBlock_leaves`. -/
theorem loadMultipleRestore : Obligations.LoadMultipleRestore := by
  intro c p u w rn list s v q regs hr hb hok hw hv hq target
  obtain ⟨-, hbase, -⟩ := id hb
  have hmode : (loadedBlock u w rn (1#1 ++ list) s (loadedWords regs v)).cpsr.mode.spsr? = some q := by
    rw [loadedBlock_cpsr, hq]
  have hspsr : (loadedBlock u w rn (1#1 ++ list) s (loadedWords regs v)).spsr q = s.spsr q :=
    spsr_congr loadedBlock_spsrs q
  rw [exec_ldmRestore, execLdmRestore_of_words hr hb hok hw hv (by rw [hq]; rfl), ← hspsr]
  refine ⟨fun hnone => ⟨_, exceptionReturn_of_illegalMode hmode hnone⟩, fun psr hpsr => ⟨fun ht htarget =>
    ⟨_, exceptionReturn_of_unaligned hmode hpsr ht htarget⟩, fun hreturn => ?_⟩⟩
  obtain ⟨hregs, hfinal, hsame, hrest⟩ := loadedBlock_leaves (s := s) (u := u) v psr target hbase hw
  exact ⟨_, exceptionReturn_next.2 ⟨q, psr, hmode, hpsr, hreturn, rfl⟩,
    fun k h => hregs k (Nat.lt_of_lt_pred h) (ne_pcNum_of_not_last h), hfinal, hsame, rfl, rfl, hrest⟩

/-! ## LDM of the User-mode registers (R254) -/

/-- Words loaded through the bank of any mode: each register of the list but r15 holds its word, and every other
keeps its value. -/
theorem writeLoaded_loadedWords (m : Mode) {regs : List RegNum} (hn : regs.Nodup) (v : Nat → Word) {s t : State}
    (ht : t.regs = (writeLoaded m (loadedWords regs v) s).regs) :
    (∀ k (h : k < regs.length), regs[k] ≠ pcNum → readBank m t regs[k] = v k) ∧
      SameRegsBut (regs.map (bankReg m)) s t := by
  refine ⟨fun k h hpc => ?_, fun q hq => ?_⟩
  · obtain ⟨q, hkq⟩ := exists_bankReg m hpc
    rw [readBank_of_bankReg hkq, reg_congr ht]
    exact writeLoaded_reg_of_mem _ _ _ _ (by rwa [loadedWords_fst]) (mem_loadedWords.2 ⟨k, h, rfl⟩) hkq
  · rw [reg_congr ht]
    refine writeLoaded_reg_other _ _ _ _ fun c hc e => hq ?_
    obtain ⟨k, hk, rfl⟩ := mem_loadedWords.1 hc
    exact List.mem_map.2 ⟨_, List.getElem_mem hk, e⟩

/-- What a load of the words `l` into the User-mode registers leaves, the pc apart: the words in that bank and the mark
on the next instruction (R254, R361). -/
def userLoadedBlock (s : State) (l : List (RegNum × Word)) : State :=
  { writeLoaded .usr l s.unmarked with afterUserBank := true }

/-- LDM of the User-mode registers, whose words are all read, loads them and goes on to the next instruction. -/
theorem execLdmUser_of_words {c : Cond} {p u : Bool} {rn : RegNum} {list : BitVec 15} {s : State} {v : Nat → Word}
    (hr : Runs c [rn] s) (hb : BlockOk p u rn (0#1 ++ list) s) (hok : WordOk s (readX s rn))
    (hu : s.cpsr.mode ≠ .usr) (hy : s.cpsr.mode ≠ .sys)
    (hv : ∀ k < (blockRegs (0#1 ++ list)).length, readWord s (blockAddr p u rn (0#1 ++ list) s k) = .ok (v k)) :
    execLdmUser c p u false rn list s =
      advance (userLoadedBlock s (loadedWords (blockRegs (0#1 ++ list)) v)) := by
  have hform : userFormCheck s.unmarked.cpsr.mode false = none := userFormCheck_eq_none.2 ⟨rfl, hu, hy⟩
  unfold execLdmUser
  dsimp only
  rw [conditional_of_runs hr, readX_unmarked, blockCheck_eq_none.2 hb, guarded_none, hform, guarded_none,
    wordAccess_of_ok (s := s.unmarked) hok, readBlock_words (s := s.unmarked) hv]
  rfl

/-- Settles O41: no rule refuses the load, and it leaves the words in the User bank by `writeLoaded_loadedWords` and all
else by `writeLoaded_only`. -/
theorem loadMultipleUser : Obligations.LoadMultipleUser := by
  intro c p u rn list s v regs hr hn hb hok hu hy hv
  obtain ⟨hpc, hcpsr, hspsrs, hmem, -, -, hlines, -, hplatform⟩ :=
    writeLoaded_only .usr (loadedWords regs v) s.unmarked
  have hexec : exec (.ldmUser c p u false rn list) s =
      .next (userLoadedBlock s (loadedWords regs v)).advanced := by
    rw [exec_ldmUser, execLdmUser_of_words hr hb hok hu hy hv]
    exact advance_of_hasNext (by rwa [HasNext, userLoadedBlock, hpc])
  obtain ⟨hregs, hsame⟩ := writeLoaded_loadedWords .usr (blockRegs_nodup (0#1 ++ list)) v (s := s.unmarked)
    (t := (userLoadedBlock s (loadedWords regs v)).advanced) rfl
  exact ⟨_, hexec, fun k h => hregs k h (ne_pcNum_of_blockRegs (getLsbD_fifteen_append 0#1 list) h), hsame, rfl,
    congrArg (· + 4) hpc, hcpsr, spsr_congr hspsrs, fun x => congrArg (Memory.read · x) hmem, hlines, hplatform⟩

end Sys2Proof.Machine
end

section
/-!
Proofs of `MrsResults`, `MsrCpsrResults` and `MsrSpsrResults`: the status register transfers that no rule refuses, run to
the end, and the masks of MSR bit by bit (spec/47_status_register_transfer.md R270 to R272).
-/

namespace Sys2Proof.Machine

/-! ## MRS (R270) -/

/-- The word MRS reads, if the current mode has it. -/
def statusRead (r : Bool) (s : State) : Option Word :=
  if r then s.cpsr.mode.spsr?.map s.spsr else some s.cpsr.toWord

theorem statusRead_cpsr (s : State) : statusRead false s = some s.cpsr.toWord := rfl

theorem statusRead_spsr (s : State) : statusRead true s = s.cpsr.mode.spsr?.map s.spsr := rfl

/-- The last step of an instruction that writes a register other than r15 and no flag. -/
theorem advance_writeX_unmarked {s : State} {rd : RegNum} (hn : HasNext s) (hd : rd ≠ pcNum) (v : Word) :
    advance (writeX s.unmarked rd v) = .next (dataNext s false rd v s.cpsr) := by
  have hpc : (writeX s rd v).pc = s.pc := writeX_pc_ne s v hd
  refine advance_next.2 ⟨?_, ?_⟩
  · rw [HasNext, writeX_pc_ne _ _ hd]
    exact hn
  · rw [writeX_unmarked]
    simp [dataNext, State.advanced, State.unmarked, hpc]

/-- MRS writes the word it reads, and is refused where there is none. -/
theorem exec_mrs_of_runs {c : Cond} {rd : RegNum} {s : State} (hr : Runs c [rd] s) (hn : HasNext s) (hd : rd ≠ pcNum)
    (r : Bool) :
    exec (.mrs c r 15#4 rd 0#4 0#4) s =
      (statusRead r s).elim (.refused .noSpsr) fun v => .next (dataNext s false rd v s.cpsr) := by
  have hmode : s.unmarked.cpsr.mode = s.cpsr.mode := rfl
  rw [exec_mrs, execMrs, conditional_of_runs hr, failIf_eq_none.2 (by decide), guarded_none,
    failIf_eq_none.2 (beq_eq_false_iff_ne.2 hd), guarded_none, hmode]
  cases r with
  | false => exact advance_writeX_unmarked hn hd _
  | true =>
    rw [statusRead_spsr]
    cases s.cpsr.mode.spsr? with
    | none => rfl
    | some q => exact advance_writeX_unmarked hn hd _

/-- Settles O46: the word MRS reads is the CPSR, the SPSR, or none. -/
theorem mrsResults : Obligations.MrsResults := by
  intro c rd s hr hn hd
  refine ⟨?_, fun q hq => ?_, fun hm => ?_⟩
  · rw [exec_mrs_of_runs hr hn hd, statusRead_cpsr, Option.elim_some]
  · rw [exec_mrs_of_runs hr hn hd, statusRead_spsr, hq, Option.map_some, Option.elim_some]
  · rw [exec_mrs_of_runs hr hn hd, statusRead_spsr, spsr?_eq_none hm, Option.map_none, Option.elim_none]

/-! ## The masks of MSR, bit by bit (R271, R272) -/

theorem merge_getLsbD (mask old new : Word) {k : Nat} (hk : k < 32) :
    (merge mask old new).getLsbD k = if mask.getLsbD k then new.getLsbD k else old.getLsbD k := by
  unfold merge
  simp only [BitVec.getLsbD_or, BitVec.getLsbD_and, BitVec.getLsbD_not, hk, decide_true, Bool.true_and]
  cases mask.getLsbD k <;> simp

/-- Each bit of the field mask selects one byte. -/
theorem byteMask_getLsbD (mask : BitVec 4) {k : Nat} (hk : k < 32) :
    (byteMask mask).getLsbD k = mask.getLsbD (k / 8) := by
  have hall : ∀ (mask : BitVec 4) (k : Fin 32), (byteMask mask).getLsbD k.1 = mask.getLsbD (k.1 / 8) := by decide
  exact hall mask ⟨k, hk⟩

/-- Bit 0 of the field mask selects the low byte. -/
theorem byteMask_getLsbD_low (mask : BitVec 4) {k : Nat} (hk : k < 8) :
    (byteMask mask).getLsbD k = mask.getLsbD 0 := by
  rw [byteMask_getLsbD mask (by omega), Nat.div_eq_of_lt hk]

/-- Bit 3 of the field mask selects the flags. -/
theorem byteMask_getLsbD_flags (mask : BitVec 4) {k : Nat} (hk : k < 32) (h : 28 ≤ k) :
    (byteMask mask).getLsbD k = mask.getLsbD 3 := by
  rw [byteMask_getLsbD mask hk, show k / 8 = 3 by omega]

theorem userMask_getLsbD {k : Nat} (hk : k < 32) : userMask.getLsbD k = decide (28 ≤ k) := by
  have hall : ∀ k : Fin 32, userMask.getLsbD k.1 = decide (28 ≤ k.1) := by decide
  exact hall ⟨k, hk⟩

theorem privMask_getLsbD {k : Nat} (hk : k < 32) : privMask.getLsbD k = decide (k < 8 ∧ k ≠ 5) := by
  have hall : ∀ k : Fin 32, privMask.getLsbD k.1 = decide (k.1 < 8 ∧ k.1 ≠ 5) := by decide
  exact hall ⟨k, hk⟩

theorem stateMask_getLsbD {k : Nat} (hk : k < 32) : stateMask.getLsbD k = decide (k = 5) := by
  have hall : ∀ k : Fin 32, stateMask.getLsbD k.1 = decide (k.1 = 5) := by decide
  exact hall ⟨k, hk⟩

/-- The bits of the CPSR that MSR writes: the flags, and in a privileged mode the low byte without T. -/
theorem cpsrMask_getLsbD (m : Mode) (mask : BitVec 4) {k : Nat} (hk : k < 32) :
    (cpsrMask m mask).getLsbD k = true ↔
      (28 ≤ k ∧ mask.getLsbD 3 = true) ∨ (k < 8 ∧ k ≠ 5 ∧ mask.getLsbD 0 = true ∧ m ≠ .usr) := by
  have hword : (cpsrMask m mask).getLsbD k =
      ((byteMask mask).getLsbD k && (decide (28 ≤ k) || (decide (k < 8 ∧ k ≠ 5) && m.privileged))) := by
    unfold cpsrMask
    cases m.privileged <;> simp [userMask_getLsbD hk, privMask_getLsbD hk]
  have hpriv : m.privileged = true ↔ m ≠ .usr := bne_iff_ne
  rw [hword]
  by_cases hlow : k < 8
  · simp [byteMask_getLsbD_low mask hlow, hlow, show ¬28 ≤ k by omega, hpriv, and_left_comm]
  · by_cases hflags : 28 ≤ k
    · simp [byteMask_getLsbD_flags mask hk hflags, hlow, hflags]
    · simp [hlow, hflags]

/-- The bits of an SPSR that MSR writes: the flags and the low byte. -/
theorem spsrMask_getLsbD (mask : BitVec 4) {k : Nat} (hk : k < 32) :
    (byteMask mask &&& (userMask ||| privMask ||| stateMask)).getLsbD k = true ↔
      (28 ≤ k ∧ mask.getLsbD 3 = true) ∨ (k < 8 ∧ mask.getLsbD 0 = true) := by
  rw [BitVec.getLsbD_and, BitVec.getLsbD_or, BitVec.getLsbD_or, userMask_getLsbD hk, privMask_getLsbD hk,
    stateMask_getLsbD hk]
  by_cases hlow : k < 8
  · simp [byteMask_getLsbD_low mask hlow, hlow, show ¬28 ≤ k by omega]
  · by_cases hflags : 28 ≤ k
    · simp [byteMask_getLsbD_flags mask hk hflags, hlow, hflags]
    · simp [hlow, hflags, show k ≠ 5 by omega]

/-! ## MSR, run to the end (R272) -/

/-- The CPSR that MSR leaves holds a legal mode: the operand's where it is written, else the old one. -/
theorem cpsrMerge_isLegal {m : Mode} {mask : BitVec 4} {x : Word} (p : Psr)
    (hb : m ≠ .usr → mask.getLsbD 0 = true → (Mode.ofBits (x.extractLsb' 0 5)).isSome = true) :
    ∃ q, Psr.ofWord? (merge (cpsrMask m mask) p.toWord x) = some q := by
  refine Option.ne_none_iff_exists'.1 fun h => ?_
  rw [ofWord?_eq_none] at h
  by_cases hw : mask.getLsbD 0 = true ∧ m ≠ .usr
  · obtain ⟨h0, hm⟩ := hw
    rw [merge_field (cpsrMask_modeBits hm h0)] at h
    exact Option.isSome_iff_ne_none.1 (hb hm h0) h
  · have hold : (merge (cpsrMask m mask) p.toWord x).extractLsb' 0 5 = p.toWord.extractLsb' 0 5 := by
      refine BitVec.eq_of_getLsbD_eq fun j hj => ?_
      have hk : 0 + j < 32 := by omega
      rw [BitVec.getLsbD_extractLsb', BitVec.getLsbD_extractLsb', merge_getLsbD _ _ _ hk, if_neg]
      rw [cpsrMask_getLsbD m mask hk]
      rintro (⟨h28, -⟩ | ⟨-, -, hsel⟩)
      · omega
      · exact hw hsel
    rw [hold, toWord_mode, (Mode.ofBits_eq_some _ _).2 rfl] at h
    cases h

section
variable {c : Cond} {mask : BitVec 4} {x : Word} {s : State}

theorem exec_msrReg_of_runs {rm : RegNum} (hr : Runs c [rm] s) (hm : rm ≠ pcNum) (r : Bool) :
    exec (.msrReg c r mask 15#4 0#4 rm) s = msr r mask (readX s rm) s.unmarked := by
  rw [exec_msrReg, execMsrReg, conditional_of_runs hr, failIf_eq_none.2 (by decide), guarded_none,
    failIf_eq_none.2 (beq_eq_false_iff_ne.2 hm), guarded_none, readX_unmarked]

theorem exec_msrImm_of_runs {rotate : BitVec 4} {imm8 : BitVec 8} (hr : Runs c [] s) (r : Bool) :
    exec (.msrImm c r mask 15#4 rotate imm8) s = msr r mask (rotatedImm rotate imm8) s.unmarked := by
  rw [exec_msrImm, execMsrImm, conditional_of_runs hr, failIf_eq_none.2 (by decide), guarded_none]

/-- An operand with none of bits 27:8 goes to the CPSR or the SPSR. -/
theorem msr_of_alloc (hu : x &&& unallocMask = 0#32) (r : Bool) :
    msr r mask x s = if r then msrSpsr mask x s else msrCpsr mask x s := by
  unfold msr
  rw [if_neg fun h => bne_iff_ne.1 h hu]

/-- An operand without the T bit passes the test of R272. -/
theorem stateMask_and_eq_zero (ht : x.getLsbD 5 = false) : x &&& stateMask = 0#32 := by
  refine BitVec.eq_of_getLsbD_eq fun k hk => ?_
  rw [BitVec.getLsbD_and, stateMask_getLsbD hk, BitVec.getLsbD_zero]
  by_cases h : k = 5
  · rw [h, ht, Bool.false_and]
  · rw [decide_eq_false h, Bool.and_false]

/-- MSR to the CPSR whose merged word is a status word (R31). -/
theorem msrCpsr_of_ofWord? (ht : s.cpsr.mode ≠ .usr → x.getLsbD 5 = false) {q : Psr}
    (hq : Psr.ofWord? (merge (cpsrMask s.cpsr.mode mask) s.cpsr.toWord x) = some q) :
    msrCpsr mask x s = advance { s with cpsr := q } := by
  have htest : ¬(s.cpsr.mode.privileged && x &&& stateMask != 0#32) = true := fun h => by
    obtain ⟨hp, hne⟩ := Bool.and_eq_true_iff.1 h
    exact bne_iff_ne.1 hne (stateMask_and_eq_zero (ht (bne_iff_ne.1 hp)))
  unfold msrCpsr
  rw [if_neg htest, hq]

/-- MSR to the CPSR that no rule refuses: the merged word is the new CPSR. -/
theorem msr_cpsr_completes (hn : HasNext s) (hu : x &&& 0x0FFFFF00#32 = 0#32)
    (ht : s.cpsr.mode ≠ .usr → x.getLsbD 5 = false)
    (hb : s.cpsr.mode ≠ .usr → mask.getLsbD 0 = true → (Mode.ofBits (x.extractLsb' 0 5)).isSome = true) :
    ∃ q : Psr, msr false mask x s.unmarked = .next { s with cpsr := q, pc := s.pc + 4, afterUserBank := false } ∧
      ∀ k < 32, q.toWord.getLsbD k =
        if (28 ≤ k ∧ mask.getLsbD 3 = true) ∨ (k < 8 ∧ k ≠ 5 ∧ mask.getLsbD 0 = true ∧ s.cpsr.mode ≠ .usr)
        then x.getLsbD k else s.cpsr.toWord.getLsbD k := by
  obtain ⟨q, hq⟩ := cpsrMerge_isLegal s.cpsr hb
  refine ⟨q, ?_, fun k hk => ?_⟩
  · rw [msr_of_alloc hu, if_neg Bool.false_ne_true, msrCpsr_of_ofWord? (s := s.unmarked) ht hq]
    exact advance_of_hasNext hn
  · rw [toWord_of_ofWord? hq, merge_getLsbD _ _ _ hk]
    simp only [cpsrMask_getLsbD _ _ hk]

/-- MSR to the SPSR that no rule refuses: the merged word is the new SPSR, whatever mode it holds (R32). -/
theorem msr_spsr_completes (hn : HasNext s) {q : SpsrName} (hq : s.cpsr.mode.spsr? = some q)
    (hu : x &&& 0x0FFFFF00#32 = 0#32) :
    ∃ v, msr true mask x s.unmarked = .next { s.setSpsr q v with pc := s.pc + 4, afterUserBank := false } ∧
      ∀ k < 32, v.getLsbD k =
        if (28 ≤ k ∧ mask.getLsbD 3 = true) ∨ (k < 8 ∧ mask.getLsbD 0 = true) then x.getLsbD k
        else (s.spsr q).getLsbD k := by
  have hq' : s.unmarked.cpsr.mode.spsr? = some q := hq
  refine ⟨merge (byteMask mask &&& (userMask ||| privMask ||| stateMask)) (s.spsr q) x, ?_, fun k hk => ?_⟩
  · rw [msr_of_alloc hu, if_pos rfl, msrSpsr, hq']
    exact advance_of_hasNext hn
  · rw [merge_getLsbD _ _ _ hk]
    simp only [spsrMask_getLsbD mask hk]

end

/-! ## The obligations on MSR -/

/-- Settles O47: both forms of the operand reach `msr`, which completes. -/
theorem msrCpsrResults : Obligations.MsrCpsrResults := by
  intro c mask rotate imm8 rm s hn done
  refine ⟨fun hr hm hu ht hb => ?_, fun hr hu ht hb => ?_⟩
  · rw [exec_msrReg_of_runs hr hm]
    exact msr_cpsr_completes hn hu ht hb
  · rw [exec_msrImm_of_runs hr]
    exact msr_cpsr_completes hn hu ht hb

/-- Settles O48: both forms of the operand reach `msr`, which completes. -/
theorem msrSpsrResults : Obligations.MsrSpsrResults := by
  intro c mask rotate imm8 rm s q hn hq done
  refine ⟨fun hr hm hu => ?_, fun hr hu => ?_⟩
  · rw [exec_msrReg_of_runs hr hm]
    exact msr_spsr_completes hn hq hu
  · rw [exec_msrImm_of_runs hr]
    exact msr_spsr_completes hn hq hu

end Sys2Proof.Machine
end

section
/-!
Proof of `ExceptionEntry`: what exception entry writes, and that it writes nothing else (spec/60_exceptions.md R300,
R305, R310).
-/

namespace Sys2Proof.Machine

/-- The mode that an exception enters has an SPSR, the one that entry writes (R300). -/
theorem Exc.mode_spsr? (e : Exc) : e.mode.spsr? = some e.spsr := by cases e <;> rfl

theorem enterException_spsr_of_mode (e : Exc) (ret saved : Word) (s : State) (q : SpsrName) :
    (enterException e ret saved s).spsr q = if some q = e.mode.spsr? then saved else s.spsr q := by
  rw [enterException_spsr, Exc.mode_spsr?]
  simp only [Option.some.injEq]

/-- Reset and FIQ set F; the other exceptions leave it. -/
theorem or_masksFiq (e : Exc) (f : Bool) : (f || e.masksFiq) = if e = .reset ∨ e = .fiq then true else f := by
  cases e <;> simp [Exc.masksFiq]

/-- Settles O52: the fields of `enterException` one by one; the tables of modes, vectors and return addresses by
evaluation. -/
theorem exceptionEntry : Obligations.ExceptionEntry := by
  intro e ret saved s
  refine ⟨enterException_reg e ret saved s, enterException_spsr_of_mode e ret saved s, ?_, fun _ => rfl, ⟨rfl, rfl⟩,
    rfl, rfl, rfl⟩
  rw [enterException_cpsr, or_masksFiq]

end Sys2Proof.Machine
end

section
/-!
Proof of `UserModeConfined`: what an instruction can change in User mode (spec/60_exceptions.md R310, R330, R331). The
frame it goes through also says which instructions leave the mark of R361 clear, for `UserBankHazard`.
-/

namespace Sys2Proof.Machine

/-! ## The two ways to complete -/

/-- No register number names the register in User mode: it is in another mode's bank (R22). -/
def OtherBank (p : PReg) : Prop := ∀ r, bankReg .usr r ≠ some p

/-- What the rule of an instruction that takes no exception leaves, User-bank transfers apart: the mark of R361 clear,
and in User mode the mode, the interrupt masks, the SPSRs and the registers of other banks. -/
structure Confined (s t : State) : Prop where
  mark : t.afterUserBank = false
  mode : s.cpsr.mode = .usr → t.cpsr.mode = .usr ∧ t.cpsr.i = s.cpsr.i ∧ t.cpsr.f = s.cpsr.f
  spsrs : s.cpsr.mode = .usr → t.spsrs = s.spsrs
  regs : s.cpsr.mode = .usr → ∀ p, OtherBank p → t.reg p = s.reg p

/-- What an exception taken by an instruction leaves: the mark clear, and from User mode what R310 writes and no other
SPSR and no other register of another mode's bank. -/
structure Trapped (s t : State) : Prop where
  mark : t.afterUserBank = false
  entered : s.cpsr.mode = .usr → ∃ e ∈ [Exc.undefined, .swi, .prefetchAbort, .dataAbort],
    t.cpsr = { s.cpsr with mode := e.mode, t := false, i := true } ∧ t.pc = vectorBase s.platform + e.vector ∧
      (∀ x, t.spsr x = if some x = e.mode.spsr? then s.cpsr.toWord else s.spsr x) ∧
      t.reg e.mode.lr = s.pc + (if e = .dataAbort then 8 else 4) ∧
      ∀ p, OtherBank p → p ≠ e.mode.lr → t.reg p = s.reg p

/-- The two ways an instruction that is no User-bank transfer can complete. -/
def ConfinedOrTrapped (s t : State) : Prop := Confined s t ∨ Trapped s t

section
variable {s t : State}

theorem Confined.unmarked (s : State) : Confined s s.unmarked :=
  ⟨rfl, fun h => ⟨h, rfl, rfl⟩, fun _ => rfl, fun _ _ _ => rfl⟩

/-- In a mode other than User nothing but the mark is claimed. -/
theorem Confined.of_privileged (hm : s.cpsr.mode ≠ .usr) (h : t.afterUserBank = false) : Confined s t :=
  ⟨h, fun e => absurd e hm, fun e => absurd e hm, fun e => absurd e hm⟩

theorem Confined.withPc (h : Confined s t) (a : Word) : Confined s { t with pc := a } :=
  ⟨h.mark, h.mode, h.spsrs, h.regs⟩

/-- A CPSR with new flags or a new T. -/
theorem Confined.withCpsr (h : Confined s t) {p : Psr} (hm : p.mode = t.cpsr.mode) (hi : p.i = t.cpsr.i)
    (hf : p.f = t.cpsr.f) : Confined s { t with cpsr := p } := by
  refine ⟨h.mark, fun hu => ?_, h.spsrs, h.regs⟩
  obtain ⟨hmode, hirq, hfiq⟩ := h.mode hu
  exact ⟨hm.trans hmode, hi.trans hirq, hf.trans hfiq⟩

theorem Confined.drawBit (h : Confined s t) : Confined s (drawBit t).2 := ⟨h.mark, h.mode, h.spsrs, h.regs⟩

/-- A register written as the current mode resolves it. -/
theorem Confined.writeX (h : Confined s t) (r : RegNum) (v : Word) : Confined s (writeX t r v) := by
  refine ⟨(writeX_afterUserBank ..).trans h.mark, fun hu => ?_, fun hu => (writeX_spsrs ..).trans (h.spsrs hu),
    fun hu p hp => ?_⟩
  · rw [writeX_cpsr]
    exact h.mode hu
  · obtain ⟨hmode, -, -⟩ := h.mode hu
    rw [writeX_reg, hmode, if_neg (hp r), h.regs hu p hp]

theorem Confined.updateBase (h : Confined s t) (a : Address) (rn : RegNum) : Confined s (updateBase a rn t) := by
  unfold Machine.updateBase
  split
  · exact h.writeX rn _
  · exact h

theorem Confined.writeBase (h : Confined s t) (w : Bool) (rn : RegNum) (final : Word) :
    Confined s (writeBase w rn final t) := by
  cases w
  · exact h
  · exact h.writeX rn final

theorem Confined.stored {t' : State} (h : Confined s t) (hs : StoresOnly t t') : Confined s t' :=
  ⟨hs.afterUserBank.trans h.mark, fun hu => by rw [hs.cpsr]; exact h.mode hu, fun hu => hs.spsrs.trans (h.spsrs hu),
    fun hu p hp => (reg_congr hs.regs p).trans (h.regs hu p hp)⟩

/-- Words loaded through the bank of the mode, which in User mode is that of User mode. -/
theorem Confined.writeLoaded {m : Mode} (hm : s.cpsr.mode = .usr → m = .usr) (l : List (RegNum × Word)) :
    Confined s (writeLoaded m l s.unmarked) := by
  obtain ⟨-, hcpsr, hspsrs, -, -, hmark, -⟩ := writeLoaded_only m l s.unmarked
  refine ⟨hmark, fun hu => ?_, fun _ => hspsrs, fun hu p hp => writeLoaded_reg_other m l _ p fun c _ => ?_⟩
  · rw [hcpsr]
    exact ⟨hu, rfl, rfl⟩
  · rw [hm hu]
    exact hp c.1

/-- The registers that an aborted multiple load leaves (R256). -/
theorem Confined.drawLoaded {m : Mode} (hm : s.cpsr.mode = .usr → m = .usr) (base : Option PReg)
    (l : List (RegNum × Word)) : Confined s (drawLoaded m base l s.unmarked) := by
  obtain ⟨-, hcpsr, hspsrs, -, -, hmark, -, -⟩ := drawLoaded_only m base l s.unmarked
  refine ⟨hmark, fun hu => ?_, fun _ => hspsrs, fun hu p hp => drawLoaded_reg m base l _ p (.inr fun c _ => ?_)⟩
  · rw [hcpsr]
    exact ⟨hu, rfl, rfl⟩
  · rw [hm hu]
    exact hp c.1

/-! ## Exceptions -/

/-- An exception taken from a state of the instruction's rule that has the pc, CPSR and platform it began with. -/
theorem trapped_takeException {e : Exc} (he : e ∈ [Exc.undefined, .swi, .prefetchAbort, .dataAbort])
    (h : Confined s t) (hpc : t.pc = s.pc) (hcpsr : t.cpsr = s.cpsr) (hplatform : t.platform = s.platform) :
    ConfinedOrTrapped s (takeException e (t.pc + (if e = .dataAbort then 8 else 4)) t) := by
  have hf : e.masksFiq = false := by
    simp only [List.mem_cons, List.not_mem_nil, or_false] at he
    obtain rfl | rfl | rfl | rfl := he <;> rfl
  refine .inr ⟨rfl, fun hu => ⟨e, he, ?_, ?_, fun x => ?_, ?_, fun p hp hlr => ?_⟩⟩
  · rw [takeException, enterException_cpsr, hcpsr, hf, Bool.or_false]
  · rw [takeException, enterException_pc, hplatform]
  · rw [takeException, enterException_spsr_of_mode, hcpsr, spsr_congr (h.spsrs hu)]
  · rw [takeException, enterException_reg, if_pos rfl, hpc]
  · rw [takeException, enterException_reg, if_neg hlr, h.regs hu p hp]

theorem trapped_dataAbort (h : Confined s t) (hpc : t.pc = s.pc) (hcpsr : t.cpsr = s.cpsr)
    (hplatform : t.platform = s.platform) : ConfinedOrTrapped s (raiseDataAbort t) :=
  trapped_takeException (e := .dataAbort) (by decide) h hpc hcpsr hplatform

/-- A Data Abort of an access that is the instruction's first. -/
theorem trapped_dataAbort_unmarked (s : State) : ConfinedOrTrapped s (raiseDataAbort s.unmarked) :=
  trapped_dataAbort (.unmarked s) rfl rfl rfl

theorem trapped_undefined (s : State) : ConfinedOrTrapped s (raiseUndefined s.unmarked) :=
  trapped_takeException (e := .undefined) (by decide) (.unmarked s) rfl rfl rfl

end

/-! ## The shared operations -/

section
variable {s t : State}

theorem confined_advance (h : Confined s t) : AllNext (ConfinedOrTrapped s) (advance t) :=
  allNext_advance (.inl (h.withPc _))

theorem confined_conditional {c : Cond} {regs : List RegNum} {body : State → Out}
    (h : AllNext (ConfinedOrTrapped s) (body s.unmarked)) :
    AllNext (ConfinedOrTrapped s) (conditional c regs s body) :=
  allNext_conditional (.inl ((Confined.unmarked s).withPc _)) h

theorem confined_exchange (h : Confined s t) (v : Word) : AllNext (ConfinedOrTrapped s) (exchange v t) :=
  fun t' ht => by
    obtain ⟨-, rfl⟩ := exchange_next.1 ht
    exact .inl ((h.withCpsr (p := { t.cpsr with t := v.getLsbD 0 }) rfl rfl rfl).withPc _)

theorem confined_jump (h : Confined s t) (v : Word) : AllNext (ConfinedOrTrapped s) (jump v t) := fun t' ht => by
  obtain ⟨-, rfl⟩ := jump_next.1 ht
  exact .inl (h.withPc v)

/-- A mode with an SPSR is not User mode (R32). -/
theorem mode_ne_usr_of_spsr? (h : Confined s t) {q : SpsrName} (hq : t.cpsr.mode.spsr? = some q) :
    s.cpsr.mode ≠ .usr := fun hu => by
  obtain ⟨hmode, -, -⟩ := h.mode hu
  rw [hmode] at hq
  cases hq

/-- User mode has no SPSR, so an exception return completes in the other modes alone. -/
theorem confined_exceptionReturn (h : Confined s t) (v : Word) :
    AllNext (ConfinedOrTrapped s) (exceptionReturn v t) := fun t' ht => by
  obtain ⟨q, p, hq, -, -, rfl⟩ := exceptionReturn_next.1 ht
  exact .inl (.of_privileged (mode_ne_usr_of_spsr? h hq) h.mark)

end

/-! ## Data processing, multiplies, status registers -/

section
variable {c : Cond} {sf : Bool} {rn rd : RegNum} {op : Operand2} {s t : State}

theorem confined_dataResult (h : Confined s t) (r : AluResult) :
    AllNext (ConfinedOrTrapped s) (dataResult sf rd r t) := fun t' ht => by
  rcases dataResult_next.1 ht with ⟨-, -, rfl⟩ | ⟨-, -, he⟩ | ⟨-, -, hj⟩
  · have hw := h.writeX rd r.value
    refine .inl ((hw.withCpsr (p := if sf then setFlags r t.cpsr else t.cpsr) ?_ ?_ ?_).withPc _) <;>
      rw [writeX_cpsr] <;> split <;> rfl
  · exact confined_exceptionReturn h _ t' he
  · exact confined_jump h _ t' hj

theorem confined_dataOp {f : (a b : Word) → (sc cin : Bool) → AluResult} :
    AllNext (ConfinedOrTrapped s) (dataOp f c sf rn rd op s) :=
  confined_conditional <| allNext_guarded fun _ => confined_dataResult (.unmarked s) _

theorem confined_moveOp {f : (b : Word) → (sc : Bool) → AluResult} {sbz : RegNum} :
    AllNext (ConfinedOrTrapped s) (moveOp f c sf sbz rd op s) :=
  confined_conditional <| allNext_guarded fun _ => allNext_guarded fun _ => confined_dataResult (.unmarked s) _

theorem confined_compareOp {f : (a b : Word) → (sc : Bool) → AluResult} {sbz : RegNum} :
    AllNext (ConfinedOrTrapped s) (compareOp f c rn sbz op s) :=
  confined_conditional <| allNext_guarded fun _ => allNext_guarded fun _ =>
    confined_advance ((Confined.unmarked s).withCpsr rfl rfl rfl)

theorem confined_mulResult (v : Word) : AllNext (ConfinedOrTrapped s) (mulResult sf rd v s.unmarked) := by
  have hw := (Confined.unmarked s).writeX rd v
  cases sf
  · exact confined_advance hw
  · exact confined_advance (hw.drawBit.withCpsr rfl rfl rfl)

theorem confined_mul {sbz : BitVec 4} {rs rm : RegNum} :
    AllNext (ConfinedOrTrapped s) (execMul c sf rd sbz rs rm s) :=
  confined_conditional <| allNext_guarded fun _ => allNext_guarded fun _ => confined_mulResult _

theorem confined_mla {rs rm : RegNum} : AllNext (ConfinedOrTrapped s) (execMla c sf rd rn rs rm s) :=
  confined_conditional <| allNext_guarded fun _ => confined_mulResult _

theorem confined_mulLongOp {f : (acc : BitVec 64) → (m r : Word) → BitVec 64} {rdHi rdLo rs rm : RegNum} :
    AllNext (ConfinedOrTrapped s) (mulLongOp f c sf rdHi rdLo rs rm s) :=
  confined_conditional <| allNext_guarded fun _ => by
    have hw := fun v w => ((Confined.unmarked s).writeX rdLo v).writeX rdHi w
    cases sf
    · exact confined_advance (hw _ _)
    · exact confined_advance ((hw _ _).drawBit.drawBit.withCpsr rfl rfl rfl)

theorem confined_clz {f1 f2 : BitVec 4} {rm : RegNum} : AllNext (ConfinedOrTrapped s) (execClz c f1 rd f2 rm s) :=
  confined_conditional <| allNext_guarded fun _ => confined_advance ((Confined.unmarked s).writeX rd _)

theorem confined_mrs {r : Bool} {sbo sbzHi sbzLo : BitVec 4} :
    AllNext (ConfinedOrTrapped s) (execMrs c r sbo rd sbzHi sbzLo s) :=
  confined_conditional <| allNext_guarded fun _ => allNext_guarded fun _ => by
    have hw := fun v => confined_advance ((Confined.unmarked s).writeX rd v)
    split
    · split
      · exact allNext_refused
      · exact hw _
    · exact hw _

end

/-- In User mode MSR keeps the low byte of the CPSR, with the mode and the interrupt masks (R272, R331). -/
theorem merge_user_low {mask : BitVec 4} {p q : Psr} {x : Word}
    (hq : Psr.ofWord? (merge (cpsrMask .usr mask) p.toWord x) = some q) :
    q.mode = p.mode ∧ q.i = p.i ∧ q.f = p.f := by
  have hbit : ∀ k < 8, q.toWord.getLsbD k = p.toWord.getLsbD k := fun k hk => by
    have hk32 : k < 32 := by omega
    rw [toWord_of_ofWord? hq, merge_getLsbD _ _ _ hk32, if_neg]
    rw [cpsrMask_getLsbD .usr mask hk32]
    rintro (⟨h28, -⟩ | ⟨-, -, -, hne⟩)
    · omega
    · exact hne rfl
  have hbits : q.mode.bits = p.mode.bits := by
    rw [← toWord_mode, ← toWord_mode]
    refine BitVec.eq_of_getLsbD_eq fun k hk => ?_
    rw [BitVec.getLsbD_extractLsb', BitVec.getLsbD_extractLsb', hbit _ (by omega)]
  refine ⟨Option.some.inj ?_, ?_, ?_⟩
  · rw [← (Mode.ofBits_eq_some _ _).2 hbits, (Mode.ofBits_eq_some _ _).2 rfl]
  · rw [← toWord_i, hbit 7 (by decide), toWord_i]
  · rw [← toWord_f, hbit 6 (by decide), toWord_f]

section
variable {mask : BitVec 4} {operand : Word} {s : State}

theorem confined_msrCpsr : AllNext (ConfinedOrTrapped s) (msrCpsr mask operand s.unmarked) := by
  unfold msrCpsr
  split
  · exact allNext_refused
  · split
    · exact allNext_refused
    · next p hp =>
      by_cases hu : s.cpsr.mode = .usr
      · rw [show s.unmarked.cpsr.mode = .usr from hu] at hp
        obtain ⟨hm, hi, hf⟩ := merge_user_low hp
        exact confined_advance ((Confined.unmarked s).withCpsr hm hi hf)
      · exact confined_advance (.of_privileged hu rfl)

/-- User mode has no SPSR to write. -/
theorem confined_msrSpsr : AllNext (ConfinedOrTrapped s) (msrSpsr mask operand s.unmarked) := by
  unfold msrSpsr
  split
  · exact allNext_refused
  · next q hq => exact confined_advance (.of_privileged (mode_ne_usr_of_spsr? (.unmarked s) hq) rfl)

theorem confined_msr {r : Bool} : AllNext (ConfinedOrTrapped s) (msr r mask operand s.unmarked) := by
  unfold msr
  split
  · exact allNext_refused
  · split
    · exact confined_msrSpsr
    · exact confined_msrCpsr

end

/-! ## Branches (R140 to R144) -/

section
variable {c : Cond} {s : State}

theorem Confined.link (s : State) : Confined s (link s.unmarked) := (Confined.unmarked s).writeX lrNum _

theorem confined_b {off : BitVec 24} : AllNext (ConfinedOrTrapped s) (execB c off s) :=
  confined_conditional <| allNext_withTarget fun _ _ => allNext_next (.inl ((Confined.unmarked s).withPc _))

theorem confined_bl {off : BitVec 24} : AllNext (ConfinedOrTrapped s) (execBl c off s) :=
  confined_conditional <| allNext_withTarget fun _ _ => allNext_next (.inl ((Confined.link s).withPc _))

theorem confined_bx {sbo : BitVec 12} {rm : RegNum} : AllNext (ConfinedOrTrapped s) (execBx c sbo rm s) :=
  confined_conditional <| allNext_guarded fun _ => confined_exchange (.unmarked s) _

theorem confined_blxReg {sbo : BitVec 12} {rm : RegNum} : AllNext (ConfinedOrTrapped s) (execBlxReg c sbo rm s) :=
  confined_conditional <| allNext_guarded fun _ => allNext_guarded fun _ => confined_exchange (.link s) _

theorem confined_blxImm {h : Bool} {off : BitVec 24} : AllNext (ConfinedOrTrapped s) (execBlxImm h off s) :=
  allNext_unconditional <| allNext_withTarget fun a _ => allNext_next <| .inl <|
    ((Confined.link s).withCpsr (p := { s.cpsr with t := true }) rfl rfl rfl).withPc a

end

/-! ## Single transfers and swaps (R220 to R239, R260, R261) -/

section
variable {rn rd : RegNum} {a : Address} {s : State}

/-- The end of a load to a register other than r15. -/
theorem confined_loaded (v : Word) :
    AllNext (ConfinedOrTrapped s) (advance (updateBase a rn (writeX s.unmarked rd v))) :=
  confined_advance (((Confined.unmarked s).writeX rd v).updateBase a rn)

/-- The end of a store. -/
theorem confined_stored {t : State} (ht : StoresOnly s.unmarked t) :
    AllNext (ConfinedOrTrapped s) (advance (updateBase a rn t)) :=
  confined_advance (((Confined.unmarked s).stored ht).updateBase a rn)

theorem confined_loadTo {x : Access Word} : AllNext (ConfinedOrTrapped s) (loadTo rn rd a s.unmarked x) :=
  allNext_withLoad (trapped_dataAbort_unmarked s) fun v => confined_loaded v

theorem confined_loadWordTo : AllNext (ConfinedOrTrapped s) (loadWordTo rn rd a s.unmarked) := by
  refine allNext_wordAccess (trapped_dataAbort_unmarked s) ?_
  split
  · exact allNext_refused
  · refine allNext_withLoad (trapped_dataAbort_unmarked s) fun v => ?_
    split
    · exact confined_exchange ((Confined.unmarked s).updateBase a rn) v
    · exact confined_loaded v

theorem confined_loadByteTo : AllNext (ConfinedOrTrapped s) (loadByteTo rn rd a s.unmarked) :=
  allNext_withLoad (trapped_dataAbort_unmarked s) fun _ => confined_loaded _

theorem confined_loadHalfTo {ext : BitVec 16 → Word} :
    AllNext (ConfinedOrTrapped s) (loadHalfTo ext rn rd a s.unmarked) :=
  allNext_halfAccess (trapped_dataAbort_unmarked s) fun _ => confined_loadTo

theorem confined_storeWordFrom : AllNext (ConfinedOrTrapped s) (storeWordFrom rn rd a s.unmarked) :=
  allNext_wordAccess (trapped_dataAbort_unmarked s) <| allNext_withStore (trapped_dataAbort_unmarked s) fun _ e =>
    confined_stored (writeWord_only e)

theorem confined_storeByteFrom : AllNext (ConfinedOrTrapped s) (storeByteFrom rn rd a s.unmarked) :=
  allNext_withStore (trapped_dataAbort_unmarked s) fun _ e => confined_stored (writeByte_only e)

theorem confined_storeHalfFrom : AllNext (ConfinedOrTrapped s) (storeHalfFrom rn rd a s.unmarked) :=
  allNext_halfAccess (trapped_dataAbort_unmarked s) fun _ =>
    allNext_withStore (trapped_dataAbort_unmarked s) fun _ e => confined_stored (writeHalf_only e)

/-- A word or byte transfer is decided by its move (R223). -/
theorem confined_wordTransfer {check : Bool → RegNum → RegNum → List RegNum → Option Refusal}
    {move : RegNum → RegNum → Address → State → Out}
    (hm : ∀ a, AllNext (ConfinedOrTrapped s) (move rn rd a s.unmarked)) {c : Cond} {ix : Index} {up : Bool}
    {off : WordOffset} : AllNext (ConfinedOrTrapped s) (wordTransfer check move c ix up rn rd off s) :=
  confined_conditional <| allNext_guarded fun _ => hm _

/-- A half-word or signed-byte transfer is decided by its move (R234). -/
theorem confined_halfTransfer {move : RegNum → RegNum → Address → State → Out}
    (hm : ∀ a, AllNext (ConfinedOrTrapped s) (move rn rd a s.unmarked)) {c : Cond} {p u w : Bool} {off : HalfOffset} :
    AllNext (ConfinedOrTrapped s) (halfTransfer move c p u w rn rd off s) :=
  confined_conditional <| allNext_guarded fun _ => allNext_guarded fun _ => allNext_guarded fun _ => hm _

/-- The end of a swap: Rd takes the old value after the store. -/
theorem confined_swapped {t : State} (ht : StoresOnly s.unmarked t) (v : Word) :
    AllNext (ConfinedOrTrapped s) (advance (writeX t rd v)) :=
  confined_advance (((Confined.unmarked s).stored ht).writeX rd v)

theorem confined_swp {c : Cond} {sbz : BitVec 4} {rm : RegNum} :
    AllNext (ConfinedOrTrapped s) (execSwp c rn rd sbz rm s) :=
  confined_conditional <| allNext_guarded fun _ => allNext_wordAccess (trapped_dataAbort_unmarked s) <|
    allNext_withLoad (trapped_dataAbort_unmarked s) fun _ =>
      allNext_withStore (trapped_dataAbort_unmarked s) fun _ e => confined_swapped (writeWord_only e) _

theorem confined_swpb {c : Cond} {sbz : BitVec 4} {rm : RegNum} :
    AllNext (ConfinedOrTrapped s) (execSwpb c rn rd sbz rm s) :=
  confined_conditional <| allNext_guarded fun _ => allNext_withLoad (trapped_dataAbort_unmarked s) fun _ =>
    allNext_withStore (trapped_dataAbort_unmarked s) fun _ e => confined_swapped (writeByte_only e) _

end

/-! ## Multiple transfers (R250 to R256) -/

section
variable {c : Cond} {p u w : Bool} {rn : RegNum} {s : State}

/-- An aborted multiple load, whose registers are those of the mode's bank in User mode at least. -/
theorem trapped_drawLoaded {m : Mode} (hm : s.cpsr.mode = .usr → m = .usr) (base : Option PReg)
    (l : List (RegNum × Word)) : ConfinedOrTrapped s (raiseDataAbort (drawLoaded m base l s.unmarked)) := by
  obtain ⟨hpc, hcpsr, -, -, -, -, -, hplatform⟩ := drawLoaded_only m base l s.unmarked
  exact trapped_dataAbort (.drawLoaded hm base l) hpc hcpsr hplatform

/-- An aborted multiple store. -/
theorem trapped_storeBlock (m : Mode) (a : Word) (regs : List RegNum) :
    ConfinedOrTrapped s (raiseDataAbort (storeBlock m a regs s.unmarked).2) := by
  have hs := storeBlock_only m a regs s.unmarked
  exact trapped_dataAbort ((Confined.unmarked s).stored hs) hs.pc hs.cpsr hs.platform

theorem confined_ldm {list : BitVec 16} : AllNext (ConfinedOrTrapped s) (execLdm c p u w rn list s) :=
  confined_conditional <| allNext_guarded fun _ => allNext_guarded fun _ =>
    allNext_wordAccess (trapped_dataAbort_unmarked s) <| allNext_withBlock (trapped_drawLoaded id _) fun l => by
      have hw := fun f => (Confined.writeLoaded (s := s) (m := s.cpsr.mode) id l).writeBase w rn f
      dsimp only
      split
      · exact confined_exchange (hw _) _
      · exact confined_advance (hw _)

theorem confined_ldmRestore {list : BitVec 15} :
    AllNext (ConfinedOrTrapped s) (execLdmRestore c p u w rn list s) :=
  confined_conditional <| allNext_guarded fun _ => allNext_guarded fun _ => allNext_guarded fun _ =>
    allNext_wordAccess (trapped_dataAbort_unmarked s) <| allNext_withBlock (trapped_drawLoaded id _) fun l =>
      confined_exceptionReturn ((Confined.writeLoaded (s := s) (m := s.cpsr.mode) id l).writeBase w rn _) _

theorem confined_stm {list : BitVec 16} : AllNext (ConfinedOrTrapped s) (execStm c p u w rn list s) :=
  confined_conditional <| allNext_guarded fun _ => allNext_guarded fun _ =>
    allNext_wordAccess (trapped_dataAbort_unmarked s) <| allNext_withStored (trapped_storeBlock ..) <|
      confined_advance (((Confined.unmarked s).stored (storeBlock_only ..)).writeBase w rn _)

end

/-! ## Exceptions on purpose, unused spaces -/

section
variable {c : Cond} {s : State}

theorem confined_swi {imm : BitVec 24} : AllNext (ConfinedOrTrapped s) (execSwi c imm s) :=
  confined_conditional <| allNext_next <|
    trapped_takeException (e := .swi) (by decide) (.unmarked s) rfl rfl rfl

theorem confined_bkpt {imm : BitVec 16} : AllNext (ConfinedOrTrapped s) (execBkpt imm s) :=
  allNext_unconditional <| allNext_next <|
    trapped_takeException (e := .prefetchAbort) (by decide) (.unmarked s) rfl rfl rfl

theorem confined_bkptNotAl {imm : BitVec 16} : AllNext (ConfinedOrTrapped s) (execBkptNotAl c imm s) := by
  unfold execBkptNotAl
  split
  · exact allNext_refused
  · exact confined_conditional allNext_refused

theorem confined_undefinedTrap : AllNext (ConfinedOrTrapped s) (undefinedTrap c s) :=
  confined_conditional <| allNext_next (trapped_undefined s)

theorem confined_unusedTrap : AllNext (ConfinedOrTrapped s) (unusedTrap c s) :=
  confined_conditional <| by
    split
    · exact allNext_refused
    · exact allNext_next (trapped_undefined s)

theorem confined_nvReserved {bits : BitVec 28} : AllNext (ConfinedOrTrapped s) (execNvReserved bits s) := by
  unfold execNvReserved
  split
  · exact allNext_refused
  · exact confined_advance (.unmarked s)

end

/-! ## User-bank transfers (R254, R361) -/

/-- What a User-bank transfer that completes shows: the mode is not User mode, W is 0, the condition passed; the CPSR is
kept and the pc is at the next instruction. -/
structure BankTransferred (c : Cond) (w : Bool) (s t : State) : Prop where
  mode : s.cpsr.mode ≠ .usr
  noWriteBack : w = false
  cond : condHolds c s.cpsr = true
  pc : t.pc = s.pc + 4
  cpsr : t.cpsr = s.cpsr

section
variable {c : Cond} {p u w : Bool} {rn : RegNum} {s : State}

/-- The frame of the two User-bank transfers: skipped, aborted, or past R254's restrictions and on to the transfer. -/
theorem transferred_conditional {regs : List RegNum} {check : State → Option Refusal} {ea : State → Word}
    {k : State → Out}
    (hk : s.cpsr.mode ≠ .usr → w = false → condHolds c s.cpsr = true →
      AllNext (fun t => ConfinedOrTrapped s t ∨ BankTransferred c w s t) (k s.unmarked)) :
    AllNext (fun t => ConfinedOrTrapped s t ∨ BankTransferred c w s t)
      (conditional c regs s fun s =>
        guarded (check s) <| guarded (userFormCheck s.cpsr.mode w) <| wordAccess s (ea s) (k s)) := fun t ht => by
  rcases conditional_next.1 ht with ⟨⟨hc, -⟩, hb⟩ | ⟨-, -, rfl⟩
  · obtain ⟨-, hform⟩ := guarded_next.1 hb
    obtain ⟨hck, hacc⟩ := guarded_next.1 hform
    obtain ⟨hw, hu, -⟩ := userFormCheck_eq_none.1 hck
    exact allNext_wordAccess (.inl (trapped_dataAbort_unmarked s)) (hk hu hw hc) t hacc
  · exact .inl (.inl ((Confined.unmarked s).withPc _))

theorem transferred_ldmUser {list : BitVec 15} :
    AllNext (fun t => ConfinedOrTrapped s t ∨ BankTransferred c w s t) (execLdmUser c p u w rn list s) :=
  transferred_conditional fun hu hw hc =>
    allNext_withBlock (fun l => .inl (trapped_drawLoaded (fun _ => rfl) _ l)) fun l => by
      obtain ⟨hpc, hcpsr, -⟩ := writeLoaded_only .usr l s.unmarked
      exact allNext_advance (.inr ⟨hu, hw, hc, congrArg (· + 4) hpc, hcpsr⟩)

theorem transferred_stmUser {list : BitVec 16} :
    AllNext (fun t => ConfinedOrTrapped s t ∨ BankTransferred c w s t) (execStmUser c p u w rn list s) :=
  transferred_conditional fun hu hw hc =>
    have hs := storeBlock_only ..
    allNext_withStored (.inl (trapped_storeBlock ..)) <|
      allNext_advance (.inr ⟨hu, hw, hc, congrArg (· + 4) hs.pc, hs.cpsr⟩)

end

/-! ## Every instruction -/

/-- The instruction is a User-bank transfer with condition `c` and W bit `w` (R254). -/
def IsUserBankTransfer (i : Instr) (c : Cond) (w : Bool) : Prop :=
  (∃ p u rn list, i = .ldmUser c p u w rn list) ∨ ∃ p u rn list, i = .stmUser c p u w rn list

/-- Every instruction but the User-bank transfers is confined or takes an exception. -/
theorem exec_confined {i : Instr} (hi : ∀ c w, ¬IsUserBankTransfer i c w) (s : State) :
    AllNext (ConfinedOrTrapped s) (exec i s) := by
  cases i with
  | and c sf rn rd op | eor c sf rn rd op | sub c sf rn rd op | rsb c sf rn rd op | add c sf rn rd op
  | adc c sf rn rd op | sbc c sf rn rd op | rsc c sf rn rd op | orr c sf rn rd op | bic c sf rn rd op =>
    simp only [exec_and, exec_eor, exec_sub, exec_rsb, exec_add, exec_adc, exec_sbc, exec_rsc, exec_orr, exec_bic]
    exact confined_dataOp
  | mov c sf sbz rd op | mvn c sf sbz rd op =>
    simp only [exec_mov, exec_mvn]
    exact confined_moveOp
  | tst c rn sbz op | teq c rn sbz op | cmp c rn sbz op | cmn c rn sbz op =>
    simp only [exec_tst, exec_teq, exec_cmp, exec_cmn]
    exact confined_compareOp
  | mul c sf rd sbz rs rm => exact confined_mul
  | mla c sf rd rn rs rm => exact confined_mla
  | umull c sf rdHi rdLo rs rm | umlal c sf rdHi rdLo rs rm | smull c sf rdHi rdLo rs rm
  | smlal c sf rdHi rdLo rs rm =>
    simp only [exec_umull, exec_umlal, exec_smull, exec_smlal]
    exact confined_mulLongOp
  | clz c f1 rd f2 rm => exact confined_clz (f1 := f1) (f2 := f2)
  | mrs c r sbo rd sbzHi sbzLo => exact confined_mrs
  | msrReg c r mask sbo sbz rm =>
    exact confined_conditional <| allNext_guarded fun _ => allNext_guarded fun _ => confined_msr
  | msrImm c r mask sbo rotate imm8 => exact confined_conditional <| allNext_guarded fun _ => confined_msr
  | ldr c ix up rn rd off | ldrt c up rn rd off =>
    simp only [exec_ldr, exec_ldrt]
    exact confined_wordTransfer fun _ => confined_loadWordTo
  | ldrb c ix up rn rd off | ldrbt c up rn rd off =>
    simp only [exec_ldrb, exec_ldrbt]
    exact confined_wordTransfer fun _ => confined_loadByteTo
  | str c ix up rn rd off | strt c up rn rd off =>
    simp only [exec_str, exec_strt]
    exact confined_wordTransfer fun _ => confined_storeWordFrom
  | strb c ix up rn rd off | strbt c up rn rd off =>
    simp only [exec_strb, exec_strbt]
    exact confined_wordTransfer fun _ => confined_storeByteFrom
  | ldrh c p u w rn rd off | ldrsh c p u w rn rd off => exact confined_halfTransfer fun _ => confined_loadHalfTo
  | ldrsb c p u w rn rd off => exact confined_halfTransfer fun _ => confined_loadTo
  | strh c p u w rn rd off => exact confined_halfTransfer fun _ => confined_storeHalfFrom
  | ldm c p u w rn list => exact confined_ldm
  | ldmRestore c p u w rn list => exact confined_ldmRestore
  | stm c p u w rn list => exact confined_stm
  | swp c rn rd sbz rm => exact confined_swp
  | swpb c rn rd sbz rm => exact confined_swpb
  | b c off => exact confined_b
  | bl c off => exact confined_bl
  | bx c sbo rm => exact confined_bx
  | blxReg c sbo rm => exact confined_blxReg
  | blxImm h off => exact confined_blxImm
  | swi c imm => exact confined_swi (imm := imm)
  | bkpt imm => exact confined_bkpt (imm := imm)
  | bkptNotAl c imm => exact confined_bkptNotAl (imm := imm)
  | unusedControl c bits | unusedArithmetic c hi mid lo | unusedLoadStore c bits =>
    simp only [exec_unusedControl, exec_unusedArithmetic, exec_unusedLoadStore]
    exact confined_unusedTrap
  | unusedCoprocessor c n l rest | undefined c hi lo | ldc c p u n w rn crd cp off8 | stc c p u n w rn crd cp off8
  | cdp c op1 crn crd cp op2 crm | mcr c op1 crn rd cp op2 crm | mrc c op1 crn rd cp op2 crm =>
    simp only [exec_unusedCoprocessor, exec_undefined, exec_ldc, exec_stc, exec_cdp, exec_mcr, exec_mrc]
    exact confined_undefinedTrap
  | nvReserved bits => exact confined_nvReserved (bits := bits)
  | ldmUser c p u w rn list => exact absurd (.inl ⟨p, u, rn, list, rfl⟩) (hi c w)
  | stmUser c p u w rn list => exact absurd (.inr ⟨p, u, rn, list, rfl⟩) (hi c w)

/-- Every instruction is confined, takes an exception, or is a User-bank transfer that completes. -/
theorem exec_confined_or_transferred (i : Instr) (s : State) :
    AllNext (fun t => ConfinedOrTrapped s t ∨ ∃ c w, IsUserBankTransfer i c w ∧ BankTransferred c w s t)
      (exec i s) := fun t ht => by
  by_cases hi : ∃ c w, IsUserBankTransfer i c w
  · obtain ⟨c, w, hform⟩ := hi
    refine Or.imp_right (fun h => ⟨c, w, hform, h⟩) ?_
    obtain ⟨p, u, rn, list, rfl⟩ | ⟨p, u, rn, list, rfl⟩ := hform
    · exact transferred_ldmUser t ht
    · exact transferred_stmUser t ht
  · exact .inl (exec_confined (fun c w h => hi ⟨c, w, h⟩) s t ht)

/-- Settles O59: no User-bank transfer completes in User mode, so `Confined` and `Trapped` are the two cases. -/
theorem userModeConfined : Obligations.UserModeConfined := by
  intro i s t hu ht
  rcases exec_confined_or_transferred i s t ht with (hstays | htrap) | ⟨c, w, -, hbank⟩
  · obtain ⟨hmode, hi, hf⟩ := hstays.mode hu
    exact .inl ⟨hmode, hi, hf, spsr_congr (hstays.spsrs hu), hstays.regs hu⟩
  · exact .inr (htrap.entered hu)
  · exact absurd hu hbank.mode

end Sys2Proof.Machine
end

section
/-!
Proof of `UserBankHazard`: which instructions set the mark of a User-bank transfer, and what is refused right after one
(spec/70_reset_and_hazards.md R361).
-/

namespace Sys2Proof.Machine

/-- The banked registers, mode by mode. -/
theorem bankedIn_iff (m : Mode) (r : RegNum) :
    bankedIn m r = true ↔
      (m = .fiq ∧ 8 ≤ r.toNat ∧ r.toNat ≤ 14) ∨ (m ∈ [Mode.irq, .svc, .abt, .und] ∧ (r = 13#4 ∨ r = 14#4)) := by
  cases m <;> simp [bankedIn]

/-- With the mark set, an instruction that touches a banked register is refused before its rule runs. -/
theorem unconditional_of_hazard {regs : List RegNum} {s : State} (hmark : s.afterUserBank = true)
    (hbank : ∃ r ∈ regs, bankedIn s.cpsr.mode r = true) (body : State → Out) :
    unconditional regs s body = .refused .bankedHazard := by
  unfold unconditional
  rw [hmark, List.any_eq_true.2 hbank]
  rfl

theorem conditional_of_hazard {c : Cond} {regs : List RegNum} {s : State} (hc : condHolds c s.cpsr = true)
    (hmark : s.afterUserBank = true) (hbank : ∃ r ∈ regs, bankedIn s.cpsr.mode r = true) (body : State → Out) :
    conditional c regs s body = .refused .bankedHazard := by
  unfold conditional
  rw [if_pos hc, unconditional_of_hazard hmark hbank]

/-- BLX (immediate) writes r14 of the current mode. -/
theorem execBlxImm_of_hazard {s : State} (hmark : s.afterUserBank = true)
    (hbank : bankedIn s.cpsr.mode lrNum = true) (h : Bool) (off : BitVec 24) :
    execBlxImm h off s = .refused .bankedHazard :=
  unconditional_of_hazard hmark ⟨lrNum, List.mem_singleton.2 rfl, hbank⟩ _

/-- BKPT and BKPT's bits touch no register; every other instruction with a condition runs in the conditional frame. -/
theorem exec_of_hazard {i : Instr} {c : Cond} {s : State} (hi : i.cond? = some c) (hc : condHolds c s.cpsr = true)
    (hmark : s.afterUserBank = true) (hbank : ∃ r ∈ touched i, bankedIn s.cpsr.mode r = true) :
    exec i s = .refused .bankedHazard := by
  have hne : touched i ≠ [] := by
    obtain ⟨r, hr, -⟩ := hbank
    exact List.ne_nil_of_mem hr
  have hbkpt : ∀ imm, i ≠ .bkpt imm := by rintro imm rfl; exact hne rfl
  have hbkptNotAl : ∀ imm, i ≠ .bkptNotAl c imm := by rintro imm rfl; exact hne rfl
  obtain ⟨body, e⟩ := exec_eq_conditional (s := s) hi hbkpt fun imm h => absurd h (hbkptNotAl imm)
  rw [e, conditional_of_hazard hc hmark hbank]

/-- An instruction that leaves the mark set is a User-bank transfer that completed: all others clear it. -/
theorem transferred_of_marked {i : Instr} {s t : State} (ht : exec i s = .next t) (hmark : t.afterUserBank = true) :
    ∃ c w, IsUserBankTransfer i c w ∧ BankTransferred c w s t := by
  refine (exec_confined_or_transferred i s t ht).resolve_left fun h => ?_
  have hclear : t.afterUserBank = false := h.elim Confined.mark Trapped.mark
  rw [hclear] at hmark
  cases hmark

/-- Settles O60: the table of `bankedIn`, the one kind of instruction that sets the mark, and the test that both frames
of an instruction begin with. -/
theorem userBankHazard : Obligations.UserBankHazard := by
  refine ⟨bankedIn_iff, fun i s t ht hmark => ?_, fun i c s hmark hi hc hbank => exec_of_hazard hi hc hmark hbank,
    fun h off s hmark hbank => execBlxImm_of_hazard hmark hbank h off⟩
  obtain ⟨c, w, hform, hdone⟩ := transferred_of_marked ht hmark
  obtain rfl := hdone.noWriteBack
  refine ⟨?_, hdone.pc, hdone.cpsr⟩
  obtain ⟨p, u, rn, list, rfl⟩ | ⟨p, u, rn, list, rfl⟩ := hform
  · exact .inl ⟨c, p, u, rn, list, rfl, hdone.cond⟩
  · exact .inr ⟨c, p, u, rn, list, rfl, hdone.cond⟩

end Sys2Proof.Machine
end
